-- ==== Sys2Proof/Word.lean ====
section
/-! DEFINITION. The byte and the 5-byte address of the block. -/

namespace Sys2Proof

/-- A byte: 8 bits, bit 0 the least significant (00_scope.md R8). -/
abbrev Byte := BitVec 8

/-- A full address, byte 0 first (20_memory.md R83, R84). -/
structure Addr where
  b0 : Byte
  b1 : Byte
  b2 : Byte
  b3 : Byte
  b4 : Byte
  deriving DecidableEq, Repr, Inhabited

end Sys2Proof
end

