-- ==== Sys2Proof/Config.lean ====
section
/-! DEFINITION. The launch parameters (00_scope.md R7), the environment's answers (41_radio_core.md
R170) as plain data, the timing and size constants, and the free values: constants without a body,
of which no proof can know anything. -/

namespace Sys2Proof

/-- `CHIP_VARIANT` (00_scope.md R7, D27). -/
inductive ChipVariant where
  | nRF24L01
  | nRF24L01P
  deriving DecidableEq, Repr, Inhabited

/-- `ACK_MATCH` (00_scope.md R7, D21). -/
inductive AckMatch where
  | anyPipe
  | perPipe
  deriving DecidableEq, Repr, Inhabited

/-- `ABSENT_READ` (00_scope.md R7, D25). -/
inductive AbsentRead where
  | any
  | all0or1
  deriving DecidableEq, Repr, Inhabited

/-- `TX_PROGRESS` (41_radio_core.md R186, D50). -/
inductive TxProgress where
  | free
  | fair
  deriving DecidableEq, Repr, Inhabited

/-- The CRC modes (10_state.md R50). -/
inductive CrcMode where
  | off
  | crc8
  | crc16
  deriving DecidableEq, Repr, Inhabited

/-- The data rates (10_state.md R30); 250 kbps only on the nRF24L01P. -/
inductive DataRate where
  | mbps1
  | mbps2
  | kbps250
  deriving DecidableEq, Repr, Inhabited

/-- The data rates of a variant (10_state.md R30, R50): the nRF24L01 has no 250 kbps. -/
def ChipVariant.has : ChipVariant → DataRate → Bool
  | .nRF24L01, .kbps250 => false
  | _, _ => true

/-- The power-amplifier levels -18, -12, -6 and 0 dBm (10_state.md R30). -/
inductive PaLevel where
  | m18
  | m12
  | m6
  | p0
  deriving DecidableEq, Repr, Inhabited

/-- The launch parameters of 00_scope.md R7 and `chipPresent` (10_state.md R49). `defaultCrc16`
is `DEFAULT_CRC`: true for crc16, false for crc8. -/
structure Params where
  chipPresent  : Bool
  variant      : ChipVariant
  pdCheckQuirk : Bool
  ackMatch     : AckMatch
  ackPpp       : Fin 6
  absentRead   : AbsentRead
  txProgress   : TxProgress
  defaultArd   : BitVec 4
  defaultArc   : BitVec 4
  defaultPa    : PaLevel
  defaultDr    : DataRate
  defaultCrc16 : Bool
  defaultCh    : BitVec 7
  deriving DecidableEq, Repr, Inhabited

/-- The ChipConfig fields of the shadow state that only setters and `init` write
(10_state.md R50, R54). -/
structure Settings where
  crc        : CrcMode
  dataRate   : DataRate
  paLevel    : PaLevel
  channel    : BitVec 7
  retryDelay : BitVec 4
  retryCount : BitVec 4
  ackEnabled : Bool
  deriving DecidableEq, Repr, Inhabited

/-- Settings of the types that R50 gives them for a variant: a data rate the variant does not have
counts as 1 Mbps (log 10). -/
def Settings.within (v : ChipVariant) (g : Settings) : Settings :=
  if v.has g.dataRate then g else { g with dataRate := .mbps1 }

/-- A packet on the air (41_radio_core.md R190). -/
structure Packet where
  addr     : Addr
  data     : List Byte
  noackBit : Bool
  dup      : Bool
  deriving DecidableEq, Repr, Inhabited

/-- The outcome of a transmission that expects an acknowledgment (41_radio_core.md R177). -/
inductive AttemptOutcome where
  | lost
  | acked (payload : Option (List Byte))
  deriving DecidableEq, Repr, Inhabited

/-- One step of an agent other than the sequencer, between two micro-steps (00_scope.md R6,
20_memory.md R93). A move that is not enabled where it stands has no effect. -/
inductive EnvMove where
  /-- The clock advances by `d + 1` microseconds (00_scope.md R5: any amount of at least 1). -/
  | clock (d : Nat)
  /-- A TxAttempt step with the environment's outcome (41_radio_core.md R175). -/
  | txAttempt (o : AttemptOutcome)
  /-- A TxAbandon step (41_radio_core.md R184). -/
  | txAbandon
  /-- A Receive step; `pick` chooses among the matching pipes (41_radio_core.md R190, R191). -/
  | receive (p : Packet) (pick : Nat)
  /-- The chip loses power and comes back (70_reset_and_hazards.md R350, R355). -/
  | chipReset
  /-- The controller restarts; `ce` is the unspecified level CE takes (70_reset_and_hazards.md
  R350, R356). -/
  | sequencerReset (ce : Bool)
  deriving DecidableEq, Repr, Inhabited

/-! ## Sizes and times (00_scope.md R7) -/

abbrev txFifoDepth : Nat := 3
abbrev rxFifoDepth : Nat := 3
abbrev maxPayload : Nat := 32
abbrev numListeners : Nat := 5
abbrev sarCapacity : Nat := 32
/-- `T_ACTIVATE`, microseconds. -/
abbrev tActivate : Nat := 1500
/-- `T_COLDSTART_TX`, microseconds. -/
abbrev tColdstartTx : Nat := 2000
/-- `T_POR`, microseconds. -/
abbrev tPor : Nat := 100000
/-- `T_WATCHDOG`, microseconds. -/
abbrev tWatchdog : Nat := 500000

/-! ## Free values -/

/-- DESIGN CHOICE (log 4): the byte a `draw(bytes)` answers, by the number of draws before it. -/
opaque Config.freeByte : Nat → Byte
/-- DESIGN CHOICE (log 4): the bit a two-way draw answers, by the number of draws before it. -/
opaque Config.freeBool : Nat → Bool
/-- DESIGN CHOICE (log 25): the outcome of an attempt that `TX_PROGRESS = fair` forces once the
environment script has run out. -/
opaque Config.freeOutcome : Nat → AttemptOutcome
/-- DESIGN CHOICE (log 2): the environment's answers of the run that starts at reset. -/
opaque Config.launchEnv : List (List EnvMove)
/-- CE before `init` drives it: `draw({0, 1})` (10_state.md R44, log 10). -/
opaque Config.ceAtReset : Bool
/-- Settings without a value of the spec's, by the number of draws before them (log 10). -/
opaque Config.freeSettings : Nat → Settings
/-- `ACK_PPP`, OPEN (00_scope.md R7, log 3). -/
opaque Config.ackPpp : Fin 6
/-- `DEFAULT_ARD`, OPEN (00_scope.md R7, log 3). -/
opaque Config.defaultArd : BitVec 4
/-- `DEFAULT_ARC`, OPEN (00_scope.md R7, log 3). -/
opaque Config.defaultArc : BitVec 4
/-- `DEFAULT_PA`, OPEN (00_scope.md R7, log 3). -/
opaque Config.defaultPa : PaLevel
/-- `DEFAULT_DR`, OPEN, a data rate of the nRF24L01: true for 2 Mbps (00_scope.md R7, log 22). -/
opaque Config.defaultFast : Bool
/-- `DEFAULT_CRC`, OPEN: true for crc16, false for crc8 (00_scope.md R7, log 3). -/
opaque Config.defaultCrc16 : Bool
/-- `DEFAULT_CH`, OPEN (00_scope.md R7, log 3). -/
opaque Config.defaultCh : BitVec 7

/-- The shadow settings a sequencer reset leaves: any of their types, unspecified until `init` sets
them (10_state.md R50, R62, log 10). -/
def Config.drawSettings (v : ChipVariant) (n : Nat) : Settings :=
  (Config.freeSettings n).within v

/-- The launch parameters of the run that starts at reset: the spec's defaults, free constants
where the spec says OPEN, and a present chip (log 3). -/
def Config.launchParams : Params where
  chipPresent  := true
  variant      := .nRF24L01
  pdCheckQuirk := false
  ackMatch     := .anyPipe
  ackPpp       := Config.ackPpp
  absentRead   := .any
  txProgress   := .free
  defaultArd   := Config.defaultArd
  defaultArc   := Config.defaultArc
  defaultPa    := Config.defaultPa
  defaultDr    := if Config.defaultFast then .mbps2 else .mbps1
  defaultCrc16 := Config.defaultCrc16
  defaultCh    := Config.defaultCh

end Sys2Proof
end

