-- ==== Sys2Proof/Syntax.lean ====
section
/-! DEFINITION. The registers by name, the one instruction type (a constructor per row of
spec/opcode_table.json: 11 bus commands, 25 host operations), and framed commands. -/

namespace Sys2Proof

/-- The 32 register addresses (10_state.md R23); `rsv..` are the reserved ones (R48). -/
inductive Reg where
  | config | enAa | enRxaddr | setupAw | setupRetr | rfCh | rfSetup | status
  | observeTx | cd | rxAddrP0 | rxAddrP1 | rxAddrP2 | rxAddrP3 | rxAddrP4 | rxAddrP5
  | txAddr | rxPwP0 | rxPwP1 | rxPwP2 | rxPwP3 | rxPwP4 | rxPwP5 | fifoStatus
  | rsv18 | rsv19 | rsv1A | rsv1B | dynpd | feature | rsv1E | rsv1F
  deriving DecidableEq, Repr, Inhabited

/-- The instructions: first the bus commands (30_encoding.md R112), then the host operations
(30_encoding.md R119). Arguments are as wide as the encoding's bytes; payload lists and
capacities are unbounded, as the abstract model of R119 says. -/
inductive Instr where
  | rRegister (a : Reg)
  | wRegister (a : Reg) (v : List Byte)
  | activate (x : Byte)
  | rRxPlWid
  | rRxPayload (n : Nat)
  | wTxPayload (d : List Byte)
  | wAckPayload (ppp : BitVec 3) (d : List Byte)
  | wTxPayloadNoack (d : List Byte)
  | flushTx
  | flushRx
  | nop
  | init (mask : BitVec 32)
  | setOwnAddress (node : Byte)
  | listenToAddress (node : Byte)
  | setActive (b : Bool)
  | isActive
  | startListening
  | stopListening
  | currentMode
  | transmit (target : Byte) (payload : List Byte) (requestAck : Bool)
  | send (target : Byte) (payload : List Byte) (wantCount : Bool)
  | sendAndAwaitResponse (target : Byte) (payload : List Byte)
  | broadcast (payload : List Byte)
  | available (wantPipe : Bool)
  | read (capacity : Nat)
  | readText (capacity : Nat)
  | queueResponse (payload : List Byte)
  | setNetworkMask (mask : BitVec 32)
  | setChannel (ch : Byte)
  | setRetries (delay : Byte) (count : Byte)
  | setDataRate (dr : Byte)
  | setPALevel (pa : Byte)
  | setCRC (mode : Byte)
  | setAckEnabled (b : Bool)
  | assembleFullAddress (node : Byte)
  | decomposeAddress (addr : Addr)
  deriving DecidableEq, Repr

/-- The two command interfaces (00_scope.md R3). -/
inductive Level where
  | bus
  | op
  deriving DecidableEq, Repr, Inhabited

/-- A framed command: its interface and its bytes (30_encoding.md R110, R118). The two interfaces
use the same first bytes, so the level is part of the command (log 5). -/
structure Command where
  level : Level
  bytes : List Byte
  deriving DecidableEq, Repr, Inhabited

end Sys2Proof
end

