-- ==== Sys2Proof/Machine/Operands.lean ====
section
/-! DEFINITION. Operand forms: the register map's addresses and widths, the address encoder, payload
clipping, and the codes and masks of the configuration fields. -/

namespace Sys2Proof

/-- The register a 5-bit address names (10_state.md R23, 30_encoding.md R113). -/
def Reg.ofBits (a : BitVec 5) : Reg :=
  match a.toNat with
  | 0x00 => .config | 0x01 => .enAa | 0x02 => .enRxaddr | 0x03 => .setupAw
  | 0x04 => .setupRetr | 0x05 => .rfCh | 0x06 => .rfSetup | 0x07 => .status
  | 0x08 => .observeTx | 0x09 => .cd | 0x0A => .rxAddrP0 | 0x0B => .rxAddrP1
  | 0x0C => .rxAddrP2 | 0x0D => .rxAddrP3 | 0x0E => .rxAddrP4 | 0x0F => .rxAddrP5
  | 0x10 => .txAddr | 0x11 => .rxPwP0 | 0x12 => .rxPwP1 | 0x13 => .rxPwP2
  | 0x14 => .rxPwP3 | 0x15 => .rxPwP4 | 0x16 => .rxPwP5 | 0x17 => .fifoStatus
  | 0x18 => .rsv18 | 0x19 => .rsv19 | 0x1A => .rsv1A | 0x1B => .rsv1B
  | 0x1C => .dynpd | 0x1D => .feature | 0x1E => .rsv1E | _ => .rsv1F

/-- The 5-bit address of a register (10_state.md R23). -/
def Reg.bits : Reg → BitVec 5
  | .config => 0x00 | .enAa => 0x01 | .enRxaddr => 0x02 | .setupAw => 0x03
  | .setupRetr => 0x04 | .rfCh => 0x05 | .rfSetup => 0x06 | .status => 0x07
  | .observeTx => 0x08 | .cd => 0x09 | .rxAddrP0 => 0x0A | .rxAddrP1 => 0x0B
  | .rxAddrP2 => 0x0C | .rxAddrP3 => 0x0D | .rxAddrP4 => 0x0E | .rxAddrP5 => 0x0F
  | .txAddr => 0x10 | .rxPwP0 => 0x11 | .rxPwP1 => 0x12 | .rxPwP2 => 0x13
  | .rxPwP3 => 0x14 | .rxPwP4 => 0x15 | .rxPwP5 => 0x16 | .fifoStatus => 0x17
  | .rsv18 => 0x18 | .rsv19 => 0x19 | .rsv1A => 0x1A | .rsv1B => 0x1B
  | .dynpd => 0x1C | .feature => 0x1D | .rsv1E => 0x1E | .rsv1F => 0x1F

/-- Whether an address is reserved: 0x18 to 0x1B, 0x1E, 0x1F (10_state.md R48). -/
def Reg.isReserved : Reg → Bool
  | .rsv18 | .rsv19 | .rsv1A | .rsv1B | .rsv1E | .rsv1F => true
  | _ => false

/-- The width of a register in bytes (20_memory.md R87). A reserved address is read as one byte
(DESIGN CHOICE, log 8: the spec gives it no width). -/
def Reg.width : Reg → Nat
  | .rxAddrP0 | .rxAddrP1 | .txAddr => 5
  | _ => 1

/-! ## Addresses -/

/-- The bytes of an address, byte 0 first (20_memory.md R83). -/
def Addr.toList (a : Addr) : List Byte := [a.b0, a.b1, a.b2, a.b3, a.b4]

/-- The address of a 5-byte sequence; missing bytes are 0 (no caller passes fewer than 5). -/
def Addr.ofList (l : List Byte) : Addr :=
  ⟨l.getD 0 0, l.getD 1 0, l.getD 2 0, l.getD 3 0, l.getD 4 0⟩

/-- `full(n, m)`: the node byte, then the mask little-endian (42_addressing_pipes.md R210). -/
def fullAddress (node : Byte) (mask : BitVec 32) : Addr :=
  ⟨node, mask.extractLsb' 0 8, mask.extractLsb' 8 8, mask.extractLsb' 16 8,
    mask.extractLsb' 24 8⟩

/-- `decompose(a)`: the node byte and the mask (42_addressing_pipes.md R211). -/
def decompose (a : Addr) : Byte × BitVec 32 :=
  (a.b0, a.b1.setWidth 32 ||| a.b2.setWidth 32 <<< 8 ||| a.b3.setWidth 32 <<< 16 |||
    a.b4.setWidth 32 <<< 24)

/-- A pipe's address from its low byte and pipe 1's upper four bytes (10_state.md R36). -/
def Addr.withLow (a : Addr) (low : Byte) : Addr := { a with b0 := low }

/-! ## Payloads -/

/-- `payload[0 .. min(len, MAX_PAYLOAD))` (44_transmit.md R250 S1, 45_receive_ackq.md R286 S2). -/
def clipPayload (p : List Byte) : List Byte := p.take maxPayload

/-! ## Masks and codes (30_encoding.md R126, 46_config_setters.md R302 to R305) -/

abbrev pwrUp : Byte := 0x02
abbrev primRx : Byte := 0x01
abbrev crcMask : Byte := 0x0C
abbrev paMask : Byte := 0x06
/-- RX_DR, TX_DS and MAX_RT together. -/
abbrev irqAll : Byte := 0x70
/-- RX_DR alone. -/
abbrev irqRxDr : Byte := 0x40

/-- `ERX(p) = 1 << p` (30_encoding.md R126). -/
def erx (p : Nat) : Byte := 1#8 <<< p

/-- `code(mode)` of setCRC (46_config_setters.md R305). -/
def CrcMode.code : CrcMode → Byte
  | .off => 0x00
  | .crc8 => 0x08
  | .crc16 => 0x0C

/-- The argument byte of setCRC as a mode (46_config_setters.md R305). -/
def CrcMode.ofByte (b : Byte) : Option CrcMode :=
  match b.toNat with
  | 0 => some .off
  | 1 => some .crc8
  | 2 => some .crc16
  | _ => none

/-- `pa << 1` (46_config_setters.md R304). -/
def PaLevel.code : PaLevel → Byte
  | .m18 => 0x00
  | .m12 => 0x02
  | .m6 => 0x04
  | .p0 => 0x06

/-- The argument byte of setPALevel as a level (46_config_setters.md R304). -/
def PaLevel.ofByte (b : Byte) : Option PaLevel :=
  match b.toNat with
  | 0 => some .m18
  | 1 => some .m12
  | 2 => some .m6
  | 3 => some .p0
  | _ => none

/-- `DRMASK` (46_config_setters.md R303). -/
def drMask : ChipVariant → Byte
  | .nRF24L01 => 0x08
  | .nRF24L01P => 0x28

/-- `code(dr)` of setDataRate (46_config_setters.md R303). -/
def DataRate.code : DataRate → Byte
  | .mbps1 => 0x00
  | .mbps2 => 0x08
  | .kbps250 => 0x20

/-- The argument byte of setDataRate as a data rate of the variant (30_encoding.md R127). -/
def DataRate.ofByte (v : ChipVariant) (b : Byte) : Option DataRate :=
  match b.toNat, v with
  | 0, _ => some .mbps1
  | 1, _ => some .mbps2
  | 2, .nRF24L01P => some .kbps250
  | _, _ => none

/-- `delay << 4 | count` (46_config_setters.md R302). -/
def retryByte (delay count : BitVec 4) : Byte :=
  delay.setWidth 8 <<< 4 ||| count.setWidth 8

/-- `v | m` (30_encoding.md R126 SetBits). -/
def withBits (v m : Byte) : Byte := v ||| m

/-- `v & ~m` (30_encoding.md R126 ClearBits). -/
def withoutBits (v m : Byte) : Byte := v &&& ~~~m

/-- `(v & ~m) | (x & m)` (30_encoding.md R126 SetField). -/
def withField (v m x : Byte) : Byte := (v &&& ~~~m) ||| (x &&& m)

end Sys2Proof
end

