-- ==== Sys2Proof/WellFormed.lean ====
section
/-! DEFINITION. Well-formed instructions: the data lengths of 30_encoding.md R116, the pipes of R114,
the writable registers of R121, the argument ranges of R127, and what one length byte or one
capacity byte can hold (R119). -/

namespace Sys2Proof

/-- Whether an instruction has an encoding that its interface admits. The data rate is checked
against the widest variant here; the variant itself decides when the operation is issued. -/
def wellFormed : Instr → Bool
  | .rRegister _ => true
  | .wRegister a v => !a.isReserved && v.length == a.width
  | .activate _ => true
  | .rRxPlWid => true
  | .rRxPayload n => decide (n ≤ 255)
  | .wTxPayload d => decide (1 ≤ d.length ∧ d.length ≤ maxPayload)
  | .wAckPayload ppp d => decide (ppp.toNat < 6 ∧ d.length ≤ maxPayload)
  | .wTxPayloadNoack d => decide (1 ≤ d.length ∧ d.length ≤ maxPayload)
  | .flushTx => true
  | .flushRx => true
  | .nop => true
  | .init _ => true
  | .setOwnAddress _ => true
  | .listenToAddress _ => true
  | .setActive _ => true
  | .isActive => true
  | .startListening => true
  | .stopListening => true
  | .currentMode => true
  | .transmit _ p _ => decide (p.length ≤ 255)
  | .send _ p _ => decide (p.length ≤ 255)
  | .sendAndAwaitResponse _ p => decide (p.length ≤ 255)
  | .broadcast p => decide (p.length ≤ 255)
  | .available _ => true
  | .read cap => decide (cap ≤ 255)
  | .readText cap => decide (cap ≤ 255)
  | .queueResponse p => decide (p.length ≤ 255)
  | .setNetworkMask _ => true
  | .setChannel ch => decide (ch.toNat ≤ 127)
  | .setRetries d c => decide (d.toNat ≤ 15 ∧ c.toNat ≤ 15)
  | .setDataRate dr => decide (dr.toNat ≤ 2)
  | .setPALevel pa => decide (pa.toNat ≤ 3)
  | .setCRC mode => decide (mode.toNat ≤ 2)
  | .setAckEnabled _ => true
  | .assembleFullAddress _ => true
  | .decomposeAddress _ => true

end Sys2Proof
end

