-- ==== Sys2Proof/Decode.lean ====
section
/-! DEFINITION. Decoding framed commands (30_encoding.md), total, every rejection by name; then the
encoder of the same tables, and the opcode table's own numbering of an instruction's bits. -/

namespace Sys2Proof

/-- Why bytes are no instruction (60_exceptions.md R328). -/
inductive DecodeError where
  /-- A bus command byte no row of 30_encoding.md R112 matches (R120), or no byte at all. -/
  | unadmittedCommand
  /-- W_ACK_PAYLOAD with pipe 6 or 7 (30_encoding.md R114). -/
  | badAckPipe
  /-- A data phase the command does not allow (30_encoding.md R116). -/
  | badDataLength
  /-- A host op byte without a row, a flags byte with bits 7:1, or bytes that are not the row's
  argument bytes (30_encoding.md R122; log 6 for the last). -/
  | unknownHostOp
  /-- A Boolean byte other than 0x00 and 0x01 (30_encoding.md R118, log 6). -/
  | argumentOutOfRange
  deriving DecidableEq, Repr

/-! ## Bus commands (30_encoding.md R110 to R117) -/

/-- A data phase that must have `n` bytes. -/
def exactly (n : Nat) (data : List Byte) (i : Instr) : Except DecodeError Instr :=
  if data.length = n then .ok i else .error .badDataLength

/-- A payload data phase of `lo` to 32 bytes. -/
def payloadPhase (lo : Nat) (data : List Byte) (i : Instr) : Except DecodeError Instr :=
  if lo ≤ data.length ∧ data.length ≤ maxPayload then .ok i else .error .badDataLength

/-- One bus transaction: the command byte and the data phase. The format `REG` is bits 7:5 = 000
or 001, `ACKP` is bits 7:3 = 10101, every other row is all eight bits (R111, R112). A write that
names a reserved address decodes with any data phase: it is refused when executed (R121). -/
def decodeBus : List Byte → Except DecodeError Instr
  | [] => .error .unadmittedCommand
  | cmd :: data =>
    let reg := Reg.ofBits (cmd.extractLsb' 0 5)
    if cmd.extractLsb' 5 3 = 0b000#3 then
      exactly reg.width data (.rRegister reg)
    else if cmd.extractLsb' 5 3 = 0b001#3 then
      if reg.isReserved then .ok (.wRegister reg data)
      else exactly reg.width data (.wRegister reg data)
    else if cmd.extractLsb' 3 5 = 0b10101#5 then
      let ppp := cmd.extractLsb' 0 3
      if ppp.toNat < 6 then payloadPhase 0 data (.wAckPayload ppp data)
      else .error .badAckPipe
    else match cmd.toNat with
      | 0x50 => exactly 1 data (.activate (data.headD 0))
      | 0x60 => exactly 1 data .rRxPlWid
      | 0x61 => if data.length ≤ 255 then .ok (.rRxPayload data.length)
                else .error .badDataLength
      | 0xA0 => payloadPhase 1 data (.wTxPayload data)
      | 0xB0 => payloadPhase 1 data (.wTxPayloadNoack data)
      | 0xE1 => exactly 0 data .flushTx
      | 0xE2 => exactly 0 data .flushRx
      | 0xFF => exactly 0 data .nop
      | _ => .error .unadmittedCommand

/-! ## Host operations (30_encoding.md R118, R119, R122)

The argument parsers answer the instruction and the bytes after it. -/

/-- An instruction and the bytes that follow it. -/
abbrev Parsed := Except DecodeError (Instr × List Byte)

/-- An operation without argument bytes. -/
def argNone (i : Instr) (rest : List Byte) : Parsed := .ok (i, rest)

/-- One argument byte. -/
def argByte (f : Byte → Instr) : List Byte → Parsed
  | b :: rest => .ok (f b, rest)
  | [] => .error .unknownHostOp

/-- One Boolean byte, 0x00 or 0x01 (R118). -/
def argBool (f : Bool → Instr) : List Byte → Parsed
  | b :: rest =>
    if b = 0 then .ok (f false, rest)
    else if b = 1 then .ok (f true, rest)
    else .error .argumentOutOfRange
  | [] => .error .unknownHostOp

/-- A flags byte whose bits 7:1 are 0 (R119, R122). -/
def argFlag (f : Bool → List Byte → Parsed) : List Byte → Parsed
  | b :: rest =>
    if b = 0 then f false rest
    else if b = 1 then f true rest
    else .error .unknownHostOp
  | [] => .error .unknownHostOp

/-- A 32-bit little-endian integer of four bytes (R118). -/
def le32 (b0 b1 b2 b3 : Byte) : BitVec 32 :=
  b0.setWidth 32 ||| b1.setWidth 32 <<< 8 ||| b2.setWidth 32 <<< 16 ||| b3.setWidth 32 <<< 24

/-- A 32-bit argument. -/
def argMask (f : BitVec 32 → Instr) : List Byte → Parsed
  | b0 :: b1 :: b2 :: b3 :: rest => .ok (f (le32 b0 b1 b2 b3), rest)
  | _ => .error .unknownHostOp

/-- A 5-byte address argument. -/
def argAddr (f : Addr → Instr) : List Byte → Parsed
  | b0 :: b1 :: b2 :: b3 :: b4 :: rest => .ok (f ⟨b0, b1, b2, b3, b4⟩, rest)
  | _ => .error .unknownHostOp

/-- A payload argument: a length byte and that many bytes (R118). -/
def argPayload (f : List Byte → Instr) : List Byte → Parsed
  | len :: rest =>
    if len.toNat ≤ rest.length then
      .ok (f (rest.take len.toNat), rest.drop len.toNat)
    else .error .unknownHostOp
  | [] => .error .unknownHostOp

/-- A target byte and what follows it. -/
def argTarget (f : Byte → List Byte → Parsed) : List Byte → Parsed
  | b :: rest => f b rest
  | [] => .error .unknownHostOp

/-- One host operation at the head of the bytes (R119). -/
def parseOp : List Byte → Parsed
  | [] => .error .unknownHostOp
  | op :: args =>
    match op.toNat with
    | 0x01 => argMask .init args
    | 0x02 => argByte .setOwnAddress args
    | 0x03 => argByte .listenToAddress args
    | 0x04 => argBool .setActive args
    | 0x05 => argNone .isActive args
    | 0x06 => argNone .startListening args
    | 0x07 => argNone .stopListening args
    | 0x08 => argNone .currentMode args
    | 0x10 => argTarget (fun t => argFlag (fun f => argPayload (fun p => .transmit t p f))) args
    | 0x11 => argTarget (fun t => argFlag (fun f => argPayload (fun p => .send t p f))) args
    | 0x12 => argTarget (fun t => argPayload (fun p => .sendAndAwaitResponse t p)) args
    | 0x13 => argPayload .broadcast args
    | 0x18 => argFlag (fun f => argNone (.available f)) args
    | 0x19 => argByte (fun b => .read b.toNat) args
    | 0x1A => argByte (fun b => .readText b.toNat) args
    | 0x1B => argPayload .queueResponse args
    | 0x20 => argMask .setNetworkMask args
    | 0x21 => argByte .setChannel args
    | 0x22 => argByte (fun b => .setRetries (b >>> 4) (b &&& 0x0F)) args
    | 0x23 => argByte .setDataRate args
    | 0x24 => argByte .setPALevel args
    | 0x25 => argByte .setCRC args
    | 0x26 => argBool .setAckEnabled args
    | 0x30 => argByte .assembleFullAddress args
    | 0x31 => argAddr .decomposeAddress args
    | _ => .error .unknownHostOp

/-- One host operation that is all of the bytes. -/
def decodeOp (bytes : List Byte) : Except DecodeError Instr :=
  match parseOp bytes with
  | .ok (i, []) => .ok i
  | .ok (_, _ :: _) => .error .unknownHostOp
  | .error e => .error e

/-- The instruction a framed command holds, or the name of the reason it holds none. -/
def decode (c : Command) : Except DecodeError Instr :=
  match c.level with
  | .bus => decodeBus c.bytes
  | .op => decodeOp c.bytes

/-! ## The encoder -/

/-- The command byte of a `REG` row: the three opcode bits and the address (R111). -/
def regCommand (opcode : BitVec 3) (a : Reg) : Byte :=
  opcode.setWidth 8 <<< 5 ||| a.bits.setWidth 8

/-- A Boolean or flags byte (R118, R119). -/
def boolByte (b : Bool) : Byte := if b then 1 else 0

/-- A 32-bit argument, little-endian (R118). -/
def maskBytes (m : BitVec 32) : List Byte :=
  [m.extractLsb' 0 8, m.extractLsb' 8 8, m.extractLsb' 16 8, m.extractLsb' 24 8]

/-- A payload argument (R118). -/
def payloadBytes (p : List Byte) : List Byte := BitVec.ofNat 8 p.length :: p

/-- The framed command of an instruction (R112, R119); the dummy bytes of a read are 0
(00_scope.md R9 `zeros`). What it says of an instruction that is not well-formed is not used. -/
def encode : Instr → Command
  | .rRegister a => ⟨.bus, regCommand 0b000 a :: List.replicate a.width 0⟩
  | .wRegister a v => ⟨.bus, regCommand 0b001 a :: v⟩
  | .activate x => ⟨.bus, [0x50, x]⟩
  | .rRxPlWid => ⟨.bus, [0x60, 0]⟩
  | .rRxPayload n => ⟨.bus, 0x61 :: List.replicate n 0⟩
  | .wTxPayload d => ⟨.bus, 0xA0 :: d⟩
  | .wAckPayload ppp d => ⟨.bus, (0xA8#8 ||| ppp.setWidth 8) :: d⟩
  | .wTxPayloadNoack d => ⟨.bus, 0xB0 :: d⟩
  | .flushTx => ⟨.bus, [0xE1]⟩
  | .flushRx => ⟨.bus, [0xE2]⟩
  | .nop => ⟨.bus, [0xFF]⟩
  | .init m => ⟨.op, 0x01 :: maskBytes m⟩
  | .setOwnAddress n => ⟨.op, [0x02, n]⟩
  | .listenToAddress n => ⟨.op, [0x03, n]⟩
  | .setActive b => ⟨.op, [0x04, boolByte b]⟩
  | .isActive => ⟨.op, [0x05]⟩
  | .startListening => ⟨.op, [0x06]⟩
  | .stopListening => ⟨.op, [0x07]⟩
  | .currentMode => ⟨.op, [0x08]⟩
  | .transmit t p a => ⟨.op, 0x10 :: t :: boolByte a :: payloadBytes p⟩
  | .send t p w => ⟨.op, 0x11 :: t :: boolByte w :: payloadBytes p⟩
  | .sendAndAwaitResponse t p => ⟨.op, 0x12 :: t :: payloadBytes p⟩
  | .broadcast p => ⟨.op, 0x13 :: payloadBytes p⟩
  | .available w => ⟨.op, [0x18, boolByte w]⟩
  | .read cap => ⟨.op, [0x19, BitVec.ofNat 8 cap]⟩
  | .readText cap => ⟨.op, [0x1A, BitVec.ofNat 8 cap]⟩
  | .queueResponse p => ⟨.op, 0x1B :: payloadBytes p⟩
  | .setNetworkMask m => ⟨.op, 0x20 :: maskBytes m⟩
  | .setChannel ch => ⟨.op, [0x21, ch]⟩
  | .setRetries d c => ⟨.op, [0x22, d <<< 4 ||| c]⟩
  | .setDataRate dr => ⟨.op, [0x23, dr]⟩
  | .setPALevel pa => ⟨.op, [0x24, pa]⟩
  | .setCRC m => ⟨.op, [0x25, m]⟩
  | .setAckEnabled b => ⟨.op, [0x26, boolByte b]⟩
  | .assembleFullAddress n => ⟨.op, [0x30, n]⟩
  | .decomposeAddress a => ⟨.op, 0x31 :: a.toList⟩

/-! ## The opcode table's numbering of an instruction's bits -/

/-- The `n` lowest bytes of `w`, the lowest first. -/
def lowBytes : Nat → Nat → List Byte
  | 0, _ => []
  | n + 1, w => BitVec.ofNat 8 w :: lowBytes n (w / 256)

/-- Zeros for the bytes an operation has beyond the table's: an op byte, a target, a flags byte, a
length byte and a payload of at most 255 bytes. -/
def zeroBytes : List Byte := List.replicate 260 0

/-- The first of some framings of a bus transaction that decodes. -/
def firstBus : List (List Byte) → Option Command
  | [] => none
  | bs :: rest =>
    match decodeBus bs with
    | .ok _ => some ⟨.bus, bs⟩
    | .error _ => firstBus rest

/-- The framed command whose first bytes are the table's word and whose other bytes are 0. The two
interfaces share first bytes, so a word that is a host operation is read as one; any other as a
bus transaction, framed with no, one or five data bytes, the fewest it admits (log 5). -/
def tableCommand (nbits w : Nat) : Option Command :=
  let bs := lowBytes ((nbits + 7) / 8) w
  let long := bs ++ zeroBytes
  match parseOp long with
  | .ok (_, rest) => some ⟨.op, long.take (long.length - rest.length)⟩
  | .error _ =>
    firstBus [bs, bs ++ List.replicate (2 - bs.length) 0, bs ++ List.replicate (6 - bs.length) 0]

/-- The instruction the decoder reads from the table's word `w` of `nbits` bits. -/
def decodeTableWord (nbits w : Nat) : Option Instr :=
  match tableCommand nbits w with
  | some c =>
    match decode c with
    | .ok i => some i
    | .error _ => none
  | none => none

end Sys2Proof
end

