-- ==== Sys2Proof/Machine/State.lean ====
section
/-! DEFINITION. The state of one block instance as plain data (10_state.md), the fault and refusal
reasons (60_exceptions.md R327, R328), and the state after BlockPowerOn (70_reset_and_hazards.md
R350, R351). -/

namespace Sys2Proof.Machine

/-! ## Reasons to stop -/

/-- The fault reasons (60_exceptions.md R327): the complete list. -/
inductive Fault where
  /-- Raised by broadcast S1 when `sh.ownAddress = none` (44_transmit.md R268). Safe: the spec
  itself faults here. -/
  | ownAddressUnset
  deriving DecidableEq, Repr

/-- The refusal reasons (60_exceptions.md R328), and the one of an instruction without a meaning. -/
inductive Refusal where
  /-- Raised by an arm of `exec` whose instruction has no meaning yet. Safe. -/
  | notModelled (mnemonic : String)
  /-- Raised by `step` for a bus command byte without a row (30_encoding.md R120). Safe. -/
  | unadmittedCommand
  /-- Raised for W_ACK_PAYLOAD with pipe 6 or 7 (30_encoding.md R114). Safe. -/
  | badAckPipe
  /-- Raised for a data phase the command does not allow (30_encoding.md R116). Safe. -/
  | badDataLength
  /-- Raised by W_REGISTER of a reserved address (30_encoding.md R121). Safe. -/
  | reservedRegisterWrite
  /-- Raised by `step` for bytes that are no host operation (30_encoding.md R122). Safe. -/
  | unknownHostOp
  /-- Raised by every host operation but init and decomposeAddress before the initialization
  (30_encoding.md R127). Safe. -/
  | notInitialized
  /-- Raised by a setter for an argument outside its range (30_encoding.md R127). Safe. -/
  | argumentOutOfRange
  /-- Raised by `exec` of a host operation while one runs (60_exceptions.md R343). Safe. -/
  | operationInProgress
  /-- Raised by a radio step with SETUP_AW other than 0b11 (41_radio_core.md R205). Safe. -/
  | addressWidthNot5
  /-- Raised by a Receive step on a pipe without dynamic payload length (41_radio_core.md R205).
  Safe. -/
  | staticPayloadPipe
  deriving DecidableEq, Repr

/-- The mark a fault or refusal leaves on the state (10_state.md R20 `marks`). -/
inductive Mark where
  | fault (r : Fault)
  | refusal (r : Refusal)
  deriving DecidableEq, Repr

/-! ## The chip -/

/-- An entry of the TX FIFO (10_state.md R42). -/
structure TxEntry where
  data  : List Byte
  noack : Bool
  ppp   : Option (Fin 6)
  deriving DecidableEq, Repr, Inhabited

/-- An entry of the RX FIFO (10_state.md R43). -/
structure RxEntry where
  pipe : Fin 6
  data : List Byte
  deriving DecidableEq, Repr, Inhabited

/-- The radio core's registers (10_state.md R23 to R41) and hidden state (R42 to R46). STATUS
keeps its three flags; RX_P_NO, TX_FULL and FIFO_STATUS are computed at each read (R31, R39). `cd` is
bit 0 of CD, which nothing writes: it is read-only, radio steps do not write it
(41_radio_core.md R197), and a read answers a draw (R33). -/
structure Chip where
  config    : Byte
  enAa      : Byte
  enRxaddr  : Byte
  setupAw   : Byte
  setupRetr : Byte
  rfCh      : Byte
  rfSetup   : Byte
  rxDr      : Bool
  txDs      : Bool
  maxRt     : Bool
  plosCnt   : BitVec 4
  arcCnt    : BitVec 4
  cd        : Bool
  rxAddrP0  : Addr
  rxAddrP1  : Addr
  rxAddrP2  : Byte
  rxAddrP3  : Byte
  rxAddrP4  : Byte
  rxAddrP5  : Byte
  txAddr    : Addr
  rxPwP0    : Byte
  rxPwP1    : Byte
  rxPwP2    : Byte
  rxPwP3    : Byte
  rxPwP4    : Byte
  rxPwP5    : Byte
  dynpd     : Byte
  feature   : Byte
  txf       : List TxEntry
  rxf       : List RxEntry
  rxCorrupt : Bool
  featuresUnlocked : Bool
  txActive  : Bool
  deriving DecidableEq, Repr, Inhabited

/-- The chip after a power-on reset (10_state.md R61, R23's table). -/
def Chip.reset (v : ChipVariant) : Chip where
  config    := 0x08
  enAa      := 0x3F
  enRxaddr  := 0x03
  setupAw   := 0x03
  setupRetr := 0x03
  rfCh      := 0x02
  rfSetup   := match v with | .nRF24L01 => 0x0F | .nRF24L01P => 0x0E
  rxDr      := false
  txDs      := false
  maxRt     := false
  plosCnt   := 0
  arcCnt    := 0
  cd        := false
  rxAddrP0  := ⟨0xE7, 0xE7, 0xE7, 0xE7, 0xE7⟩
  rxAddrP1  := ⟨0xC2, 0xC2, 0xC2, 0xC2, 0xC2⟩
  rxAddrP2  := 0xC3
  rxAddrP3  := 0xC4
  rxAddrP4  := 0xC5
  rxAddrP5  := 0xC6
  txAddr    := ⟨0xE7, 0xE7, 0xE7, 0xE7, 0xE7⟩
  rxPwP0    := 0
  rxPwP1    := 0
  rxPwP2    := 0
  rxPwP3    := 0
  rxPwP4    := 0
  rxPwP5    := 0
  dynpd     := 0
  feature   := 0
  txf       := []
  rxf       := []
  rxCorrupt := false
  featuresUnlocked := match v with | .nRF24L01 => false | .nRF24L01P => true
  txActive  := false

/-! ## Results -/

/-- The host-visible modes (43_mode_control.md R236). -/
inductive Mode where
  | powerDown | standby1 | standby2 | rx | tx
  deriving DecidableEq, Repr, Inhabited

/-- The result of a host operation (30_encoding.md R119, 60_exceptions.md R321, D6). -/
inductive Result where
  | none
  | bool (b : Bool)
  | slot (k : Nat)
  | tooManyPipes
  | mode (m : Mode)
  | sent (ok : Bool) (count : Option Byte)
  | sendFailed
  | sentNoPayload
  | received (n : Nat)
  | available (count : Nat) (pipe : Option (BitVec 3))
  | count (n : Nat)
  | address (a : Addr)
  | nodeMask (node : Byte) (mask : BitVec 32)
  deriving DecidableEq, Repr, Inhabited

/-! ## The sequencer -/

/-- The labelled lines of the programs (10_state.md R22, files 42 to 46 and 70). -/
inductive Line where
  | s1 | s2 | s3 | s4 | s5 | s6 | s6a | s6b | s6c | s7 | s8 | s9 | s9a | s9b | s10 | s11
  | s12 | s13 | s14 | s15 | s16 | s17 | s18 | s19
  deriving DecidableEq, Repr, Inhabited

/-- The label of a micro-step: its line, and which of the line's micro-steps it is, 0 for the first
(10_state.md R22; 30_encoding.md R126: a pseudo-instruction is one or two micro-steps; log 18). -/
structure Label where
  line : Line
  part : Nat
  deriving DecidableEq, Repr, Inhabited

/-- The next micro-step of the same line. -/
def Label.succ (l : Label) : Label := ⟨l.line, l.part + 1⟩

abbrev Label.s1 : Label := ⟨.s1, 0⟩
abbrev Label.s2 : Label := ⟨.s2, 0⟩
abbrev Label.s3 : Label := ⟨.s3, 0⟩
abbrev Label.s4 : Label := ⟨.s4, 0⟩
abbrev Label.s5 : Label := ⟨.s5, 0⟩
abbrev Label.s6 : Label := ⟨.s6, 0⟩
abbrev Label.s6a : Label := ⟨.s6a, 0⟩
abbrev Label.s6b : Label := ⟨.s6b, 0⟩
abbrev Label.s6c : Label := ⟨.s6c, 0⟩
abbrev Label.s7 : Label := ⟨.s7, 0⟩
abbrev Label.s8 : Label := ⟨.s8, 0⟩
abbrev Label.s9 : Label := ⟨.s9, 0⟩
abbrev Label.s9a : Label := ⟨.s9a, 0⟩
abbrev Label.s9b : Label := ⟨.s9b, 0⟩
abbrev Label.s10 : Label := ⟨.s10, 0⟩
abbrev Label.s11 : Label := ⟨.s11, 0⟩
abbrev Label.s12 : Label := ⟨.s12, 0⟩
abbrev Label.s13 : Label := ⟨.s13, 0⟩
abbrev Label.s14 : Label := ⟨.s14, 0⟩
abbrev Label.s15 : Label := ⟨.s15, 0⟩
abbrev Label.s16 : Label := ⟨.s16, 0⟩
abbrev Label.s17 : Label := ⟨.s17, 0⟩
abbrev Label.s18 : Label := ⟨.s18, 0⟩
abbrev Label.s19 : Label := ⟨.s19, 0⟩

/-- The local variables of a running operation (10_state.md R22 `seq.locals`), one field per name
the programs use; `v` is the value a read-modify-write read, and `got` what the last called operation
returned. -/
structure Locals where
  v            : Byte
  k            : Nat
  p            : List Byte
  fa           : Addr
  cfg          : Byte
  ce           : Bool
  fs           : Byte
  wasActive    : Bool
  wasListening : Bool
  t0           : Nat
  st           : Byte
  ok           : Bool
  c            : Byte
  w            : Byte
  n            : Nat
  d            : List Byte
  entered      : Bool
  got          : Result
  deriving DecidableEq, Repr, Inhabited

/-- A new frame's locals. No program reads a local before it writes it. -/
def Locals.fresh : Locals where
  v            := 0
  k            := 0
  p            := []
  fa           := ⟨0, 0, 0, 0, 0⟩
  cfg          := 0
  ce           := false
  fs           := 0
  wasActive    := false
  wasListening := false
  t0           := 0
  st           := 0
  ok           := false
  c            := 0
  w            := 0
  n            := 0
  d            := []
  entered      := false
  got          := .none

/-- One running operation: the operation with its arguments, the label of its next micro-step, and its
locals (10_state.md R22). -/
structure Frame where
  op     : Instr
  label  : Label
  locals : Locals
  deriving DecidableEq, Repr

/-- The shadow state (10_state.md R50). -/
structure Shadow where
  initialized : Bool
  networkMask : Option (BitVec 32)
  ownAddress  : Option Byte
  settings    : Settings
  listening   : Bool
  txAddrCache : Option Addr
  rxP0Cache   : Option Addr
  extraPipes  : Nat
  deriving DecidableEq, Repr

/-- The shadow state after a sequencer reset (10_state.md R62). -/
def Shadow.reset (settings : Settings) : Shadow where
  initialized := false
  networkMask := none
  ownAddress  := none
  settings    := settings
  listening   := false
  txAddrCache := none
  rxP0Cache   := none
  extraPipes  := 0

/-! ## The host -/

/-- The caller's buffers that a host operation writes (10_state.md R56, log 13). -/
inductive BufId where
  | readBuf
  | respBuf
  deriving DecidableEq, Repr, Inhabited

/-- The bytes of a buffer that operations have written: addresses strictly rising. An unlisted
byte is the caller's own (20_memory.md R86, log 13). -/
abbrev Memory := List Host.Cell

/-- The host side: its coming moves (the bytes of a host operation, or `none` for a pause), its result
buffers, and the result of the last operation. The host has no other move (20_memory.md R81). -/
structure HostSide where
  inbox   : List (Option (List Byte))
  readBuf : Memory
  respBuf : Memory
  result  : Result
  deriving DecidableEq, Repr

/-- What goes over the bus and the enable line, in order (the trace notation of
95_test_vectors.md): a transaction's bytes out, its status byte and its bytes in, or a level
driven on CE. -/
inductive BusEvent where
  | xfer (out : List Byte) (status : Byte) (inn : List Byte)
  | ce (level : Bool)
  deriving DecidableEq, Repr

/-! ## The state -/

/-- The state of one block instance (10_state.md R20), its launch parameters (log 3), and the
model's own fields: the environment's coming answers (log 2), the count of free values drawn
(log 4), a transaction that stands on the bus outside any host operation, which no agent puts there
(20_memory.md R81, log 5), the last transaction's reply and the bus trace (log 12). -/
structure State where
  params    : Params
  chip      : Chip
  ce        : Bool
  csn       : Bool
  seq       : List Frame
  sh        : Shadow
  host      : HostSide
  now       : Nat
  marks     : Option Mark
  env       : List (List EnvMove)
  drawn     : Nat
  bus       : Option (List Byte)
  busStatus : Byte
  busIn     : List Byte
  busLog    : List BusEvent
  deriving DecidableEq, Repr

/-- The state after BlockPowerOn (70_reset_and_hazards.md R350, R351). `csn` is true while the
select line is asserted. -/
def State.reset : State where
  params    := Config.launchParams
  chip      := Chip.reset Config.launchParams.variant
  ce        := Config.ceAtReset
  csn       := false
  seq       := []
  sh        := Shadow.reset (Config.drawSettings Config.launchParams.variant 0)
  host      := ⟨[], [], [], .none⟩
  now       := 0
  marks     := none
  env       := Config.launchEnv
  drawn     := 1
  bus       := none
  busStatus := 0
  busIn     := []
  busLog    := []

end Sys2Proof.Machine
end

