-- ==== Sys2Proof/Machine/Flags.lean ====
section
/-! DEFINITION. The flags and the values a read computes: STATUS, FIFO_STATUS, OBSERVE_TX, the CONFIG
and FEATURE bits, the chip's mode and the host-visible mode (10_state.md R24 to R47,
43_mode_control.md R236). -/

namespace Sys2Proof.Machine

/-- Bit `i` of a byte. -/
def bit (b : Byte) (i : Nat) : Bool := b.getLsbD i

/-! ## Register fields -/

def Chip.pwrUp (c : Chip) : Bool := bit c.config 1
def Chip.primRx (c : Chip) : Bool := bit c.config 0
def Chip.enCrc (c : Chip) : Bool := bit c.config 3
/-- FEATURE.EN_DPL as it acts: nothing while the features are locked (10_state.md R45,
70_reset_and_hazards.md R374). -/
def Chip.enDpl (c : Chip) : Bool := c.featuresUnlocked && bit c.feature 2
/-- FEATURE.EN_ACK_PAY as it acts. -/
def Chip.enAckPay (c : Chip) : Bool := c.featuresUnlocked && bit c.feature 1
/-- FEATURE.EN_DYN_ACK as it acts. -/
def Chip.enDynAck (c : Chip) : Bool := c.featuresUnlocked && bit c.feature 0
/-- SETUP_RETR.ARC (10_state.md R28). -/
def Chip.arc (c : Chip) : BitVec 4 := c.setupRetr.extractLsb' 0 4
/-- Whether SETUP_AW is admitted (41_radio_core.md R205). -/
def Chip.awAdmitted (c : Chip) : Bool := c.setupAw == 0x03
/-- `dynamicPayload(p)` (41_radio_core.md R192). -/
def Chip.dynamicPayload (c : Chip) (p : Fin 6) : Bool := c.enDpl && bit c.dynpd p.val
/-- Whether EN_CRC stands at 0 although auto-acknowledgment forces it, so that its readback is a
draw (10_state.md R24, D49). -/
def Chip.crcForced (c : Chip) : Bool := !c.enCrc && c.enAa != 0

/-! ## FIFO flags and whole registers -/

def Chip.txFull (c : Chip) : Bool := c.txf.length == txFifoDepth
def Chip.txEmpty (c : Chip) : Bool := c.txf.isEmpty
def Chip.rxFull (c : Chip) : Bool := c.rxf.length == rxFifoDepth
def Chip.rxEmpty (c : Chip) : Bool := c.rxf.isEmpty

/-- STATUS.RX_P_NO: the pipe of the RX FIFO's head, 0b111 when it is empty (10_state.md R31). -/
def Chip.rxPNo (c : Chip) : BitVec 3 :=
  match c.rxf with
  | [] => 0b111
  | h :: _ => BitVec.ofNat 3 h.pipe.val

/-- STATUS: reserved, RX_DR, TX_DS, MAX_RT, RX_P_NO, TX_FULL from bit 7 down (10_state.md R31). -/
def Chip.status (c : Chip) : Byte :=
  0#1 ++ BitVec.ofBool c.rxDr ++ BitVec.ofBool c.txDs ++ BitVec.ofBool c.maxRt ++ c.rxPNo ++
    BitVec.ofBool c.txFull

/-- FIFO_STATUS: reserved, TX_REUSE, TX_FULL, TX_EMPTY, two reserved, RX_FULL, RX_EMPTY from bit 7
down (10_state.md R39). -/
def Chip.fifoStatus (c : Chip) : Byte :=
  0#2 ++ BitVec.ofBool c.txFull ++ BitVec.ofBool c.txEmpty ++ 0#2 ++ BitVec.ofBool c.rxFull ++
    BitVec.ofBool c.rxEmpty

/-- OBSERVE_TX: PLOS_CNT in bits 7:4, ARC_CNT in bits 3:0 (10_state.md R32). -/
def Chip.observeTx (c : Chip) : Byte := c.plosCnt ++ c.arcCnt

/-- Bits of a STATUS byte (10_state.md R31). -/
def statusRxDr (st : Byte) : Bool := bit st 6
def statusTxDs (st : Byte) : Bool := bit st 5
def statusMaxRt (st : Byte) : Bool := bit st 4
def statusTxFull (st : Byte) : Bool := bit st 0
def statusPipe (st : Byte) : BitVec 3 := st.extractLsb' 1 3

/-! ## Modes -/

/-- The chip's mode, a function of PWR_UP, CE, PRIM_RX and TXF (10_state.md R47). -/
def State.chipMode (s : State) : Mode :=
  if !s.chip.pwrUp then .powerDown
  else if !s.ce then .standby1
  else if s.chip.primRx then .rx
  else if s.chip.txEmpty then .standby2
  else .tx

/-- `powerDownTest(cfg)` with the defect of §9 as a parameter (43_mode_control.md R236). -/
def powerDownTest (quirk : Bool) (cfg : Byte) : Bool :=
  if quirk then cfg == 0x00 else !bit cfg 1

/-- `deriveMode(cfg, ce, fs)` (43_mode_control.md R236). -/
def deriveMode (quirk : Bool) (cfg : Byte) (ce : Bool) (fs : Byte) : Mode :=
  if powerDownTest quirk cfg then .powerDown
  else if !ce then .standby1
  else if bit cfg 0 then .rx
  else if bit fs 4 then .standby2
  else .tx

end Sys2Proof.Machine
end

