-- ==== Sys2Proof/Machine/Ops.lean ====
section
/-! DEFINITION. The named operations over the state: marks, free values, the caller's buffers, the
chip's registers, the enable line, and one bus transaction. The block takes no exceptions
(60_exceptions.md R333); what stops a run is one shared operation, `State.stop`. -/

namespace Sys2Proof.Machine

/-! ## Marks (60_exceptions.md R327, R328, R333) -/

/-- Marks the state with a fault or refusal: every earlier effect stands, nothing else changes. -/
def State.stop (m : Mark) (s : State) : State := { s with marks := some m }

def State.refuse (r : Refusal) (s : State) : State := s.stop (.refusal r)
def State.raise (r : Fault) (s : State) : State := s.stop (.fault r)

/-- What a state answers: itself, or the reason its mark names. -/
def State.outcome (s : State) : Host.Outcome State Fault Refusal :=
  match s.marks with
  | none => .next s
  | some (.fault r) => .fault r
  | some (.refusal r) => .refused r

/-! ## Free values (00_scope.md R8 `draw`, log 4) -/

/-- `draw(bytes^n)`. -/
def State.drawBytes (n : Nat) (s : State) : List Byte × State :=
  ((List.range n).map fun i => Config.freeByte (s.drawn + i), { s with drawn := s.drawn + n })

/-- A draw of two. -/
def State.drawBool (s : State) : Bool × State :=
  (Config.freeBool s.drawn, { s with drawn := s.drawn + 1 })

/-- A draw of two that takes place under a condition, and is false otherwise. -/
def State.drawBoolIf (c : Bool) (s : State) : Bool × State :=
  (c && Config.freeBool s.drawn, { s with drawn := if c then s.drawn + 1 else s.drawn })

/-! ## Caller buffers (20_memory.md R86) -/

/-- The byte an operation has written at an index, if one has. -/
def Memory.get : Memory → Nat → Option Byte
  | [], _ => none
  | (k, b) :: m, i => if k = i then some b else Memory.get m i

/-- Writes one byte, keeping the indexes strictly rising. -/
def Memory.put : Memory → Nat → Byte → Memory
  | [], i, b => [(i, b)]
  | (k, x) :: m, i, b =>
    if i < k then (i, b) :: (k, x) :: m
    else if i = k then (i, b) :: m
    else (k, x) :: Memory.put m i b

/-- Writes bytes from index `i` on. -/
def Memory.putAll : Memory → Nat → List Byte → Memory
  | m, _, [] => m
  | m, i, b :: bs => Memory.putAll (Memory.put m i b) (i + 1) bs

/-- The canonical form: indexes strictly rising. -/
def Memory.wf : Memory → Bool
  | [] => true
  | [_] => true
  | (i, _) :: (j, y) :: m => decide (i < j) && Memory.wf ((j, y) :: m)

def HostSide.buf (h : HostSide) : BufId → Memory
  | .readBuf => h.readBuf
  | .respBuf => h.respBuf

/-- `MemWrite(buf, i, n, v)` with `n` the length of `v`. -/
def State.memWrite (b : BufId) (i : Nat) (v : List Byte) (s : State) : State :=
  match b with
  | .readBuf => { s with host := { s.host with readBuf := Memory.putAll s.host.readBuf i v } }
  | .respBuf => { s with host := { s.host with respBuf := Memory.putAll s.host.respBuf i v } }

/-! ## Chip registers -/

def State.onChip (f : Chip → Chip) (s : State) : State := { s with chip := f s.chip }

/-- The effect of R_REGISTER: the bytes of a register, byte 0 first (40_bus_commands.md R140). -/
def State.readReg (a : Reg) (s : State) : List Byte × State :=
  match a with
  | .config =>
    let (b, s) := s.drawBoolIf s.chip.crcForced
    ([if b then s.chip.config ||| 0x08 else s.chip.config], s)
  | .enAa => ([s.chip.enAa], s)
  | .enRxaddr => ([s.chip.enRxaddr], s)
  | .setupAw => ([s.chip.setupAw], s)
  | .setupRetr => ([s.chip.setupRetr], s)
  | .rfCh => ([s.chip.rfCh], s)
  | .rfSetup => ([s.chip.rfSetup], s)
  | .status => ([s.chip.status], s)
  | .observeTx => ([s.chip.observeTx], s)
  | .cd =>
    let (b, s) := s.drawBool
    ([if b then 0x01 else 0x00], s)
  | .rxAddrP0 => (s.chip.rxAddrP0.toList, s)
  | .rxAddrP1 => (s.chip.rxAddrP1.toList, s)
  | .rxAddrP2 => ([s.chip.rxAddrP2], s)
  | .rxAddrP3 => ([s.chip.rxAddrP3], s)
  | .rxAddrP4 => ([s.chip.rxAddrP4], s)
  | .rxAddrP5 => ([s.chip.rxAddrP5], s)
  | .txAddr => (s.chip.txAddr.toList, s)
  | .rxPwP0 => ([s.chip.rxPwP0], s)
  | .rxPwP1 => ([s.chip.rxPwP1], s)
  | .rxPwP2 => ([s.chip.rxPwP2], s)
  | .rxPwP3 => ([s.chip.rxPwP3], s)
  | .rxPwP4 => ([s.chip.rxPwP4], s)
  | .rxPwP5 => ([s.chip.rxPwP5], s)
  | .fifoStatus => ([s.chip.fifoStatus], s)
  | .dynpd => ([if s.chip.featuresUnlocked then s.chip.dynpd else 0x00], s)
  | .feature => ([if s.chip.featuresUnlocked then s.chip.feature else 0x00], s)
  | .rsv18 | .rsv19 | .rsv1A | .rsv1B | .rsv1E | .rsv1F => s.drawBytes a.width

/-- The writable bits of RF_SETUP (10_state.md R30, 40_bus_commands.md R141). -/
def rfSetupMask : ChipVariant → Byte
  | .nRF24L01 => 0x1F
  | .nRF24L01P => 0xBF

/-- The effect of W_REGISTER (40_bus_commands.md R141). A reserved address holds no state; the
refusal of its write is `execWRegister`'s. -/
def Chip.writeReg (variant : ChipVariant) (a : Reg) (v : List Byte) (c : Chip) : Chip :=
  let b := v.headD 0
  match a with
  | .config => { c with config := b &&& 0x7F }
  | .enAa => { c with enAa := b &&& 0x3F }
  | .enRxaddr => { c with enRxaddr := b &&& 0x3F }
  | .setupAw => { c with setupAw := b &&& 0x03 }
  | .setupRetr => { c with setupRetr := b }
  | .rfCh => { c with rfCh := b &&& 0x7F, plosCnt := 0 }
  | .rfSetup => { c with rfSetup := b &&& rfSetupMask variant }
  | .status =>
    { c with rxDr := c.rxDr && !bit b 6, txDs := c.txDs && !bit b 5, maxRt := c.maxRt && !bit b 4 }
  | .observeTx => c
  | .cd => c
  | .rxAddrP0 => { c with rxAddrP0 := Addr.ofList v }
  | .rxAddrP1 => { c with rxAddrP1 := Addr.ofList v }
  | .rxAddrP2 => { c with rxAddrP2 := b }
  | .rxAddrP3 => { c with rxAddrP3 := b }
  | .rxAddrP4 => { c with rxAddrP4 := b }
  | .rxAddrP5 => { c with rxAddrP5 := b }
  | .txAddr => { c with txAddr := Addr.ofList v }
  | .rxPwP0 => { c with rxPwP0 := b &&& 0x3F }
  | .rxPwP1 => { c with rxPwP1 := b &&& 0x3F }
  | .rxPwP2 => { c with rxPwP2 := b &&& 0x3F }
  | .rxPwP3 => { c with rxPwP3 := b &&& 0x3F }
  | .rxPwP4 => { c with rxPwP4 := b &&& 0x3F }
  | .rxPwP5 => { c with rxPwP5 := b &&& 0x3F }
  | .fifoStatus => c
  | .dynpd => if c.featuresUnlocked then { c with dynpd := b &&& 0x3F } else c
  | .feature => if c.featuresUnlocked then { c with feature := b &&& 0x07 } else c
  | .rsv18 | .rsv19 | .rsv1A | .rsv1B | .rsv1E | .rsv1F => c

/-- `push(TXF, e)`: nothing when the FIFO is full (40_bus_commands.md R144, D33). -/
def Chip.pushTx (e : TxEntry) (c : Chip) : Chip :=
  if c.txFull then c else { c with txf := c.txf ++ [e] }

/-! ## The enable line (10_state.md R44) -/

/-- `SetCE(v)`. -/
def State.setCe (v : Bool) (s : State) : State :=
  { s with ce := v, busLog := .ce v :: s.busLog }

/-! ## One bus transaction (20_memory.md R82) -/

/-- Keeps the reply of a transaction and releases the select line. -/
def State.reply (out : List Byte) (status : Byte) (inn : List Byte) (s : State) : State :=
  { s with csn := false, busStatus := status, busIn := inn,
           busLog := .xfer out status inn :: s.busLog }

/-- What an absent chip answers (10_state.md R49): every byte a draw, or one of 0x00 and 0xFF for the
whole transaction. The data phase of a write reads as zeros (log 20). -/
def State.absentReply (reading : Bool) (out : List Byte) (s : State) : State :=
  let n := out.length - 1
  match s.params.absentRead with
  | .any =>
    let (st, s) := s.drawBytes 1
    if reading then
      let (d, s) := s.drawBytes n
      s.reply out (st.headD 0) d
    else s.reply out (st.headD 0) (List.replicate n 0)
  | .all0or1 =>
    let (b, s) := s.drawBool
    let x : Byte := if b then 0xFF else 0x00
    s.reply out x (List.replicate n (if reading then x else 0))

/-- `Bus(cmd, out)`: the select line is asserted, STATUS before the effect is shifted out with the
command byte, the effect is applied at the release, all at once. `out` is the command byte and the
data phase; `effect` answers the bytes read. -/
def State.transact (reading : Bool) (out : List Byte) (effect : State → List Byte × State)
    (s : State) : State :=
  let s := { s with csn := true }
  if s.params.chipPresent then
    let r := effect s
    r.2.reply out s.chip.status r.1
  else s.absentReply reading out

/-- A transaction that writes: its data phase reads as zeros (40_bus_commands.md header). -/
def State.writeXfer (out : List Byte) (f : State → State) (s : State) : State :=
  s.transact false out fun s => (List.replicate (out.length - 1) 0, f s)

end Sys2Proof.Machine
end

