-- ==== Sys2Proof/Machine/RadioCore.lean ====
section
/-! DEFINITION. The steps of the agents other than the sequencer, between two of its micro-steps:
the radio core's TxAttempt, TxAbandon and Receive (41_radio_core.md), the clock, and the partial
resets (70_reset_and_hazards.md R350). -/

namespace Sys2Proof.Machine

/-! ## Transmit side (41_radio_core.md R173 to R186) -/

/-- The TX engine is ready but for SETUP_AW (R174). -/
def Chip.txReady (c : Chip) : Bool := c.pwrUp && !c.primRx && !c.txEmpty && !c.maxRt

/-- A TxAttempt step is enabled but for SETUP_AW (R174, R175). -/
def State.attemptDue (s : State) : Bool := s.chip.txReady && (s.chip.txActive || s.ce)

/-- `ackExpected(h)` (R176). -/
def Chip.ackExpected (c : Chip) (h : TxEntry) : Bool := !h.noack && bit c.enAa 0

/-- Whether an acknowledgment can reach the transmitter: pipe 0 holds the transmit address and is
enabled (R177). -/
def Chip.ackAdmitted (c : Chip) : Bool := c.rxAddrP0 == c.txAddr && bit c.enRxaddr 0

/-- Whether an acknowledgment can carry the payload `q` (R177). -/
def Chip.ackPayloadAdmitted (c : Chip) (q : List Byte) : Bool :=
  c.ackAdmitted && c.enAckPay && c.enDpl && bit c.dynpd 0 &&
    decide (c.rxf.length < rxFifoDepth) && decide (1 ≤ q.length ∧ q.length ≤ maxPayload)

/-- The outcome an answer stands for: an answer outside `outcomes(h)` counts as `lost`, which is
always admitted (R177, log 14). -/
def Chip.settle (c : Chip) : AttemptOutcome → AttemptOutcome
  | .lost => .lost
  | .acked none => if c.ackAdmitted then .acked none else .lost
  | .acked (some q) => if c.ackPayloadAdmitted q then .acked (some q) else .lost

/-- `push(RXF, {pipe, data})` with RX_DR (R182, R190). -/
def Chip.pushRx (p : Fin 6) (data : List Byte) (c : Chip) : Chip :=
  { c with rxf := c.rxf ++ [⟨p, data⟩], rxDr := true }

/-- `success(q)` (R178). -/
def Chip.success (q : Option (List Byte)) (c : Chip) : Chip :=
  let c := { c with txf := c.txf.tail, txDs := true, txActive := false }
  match q with
  | none => c
  | some d => c.pushRx 0 d

/-- `exhausted()` (R180). -/
def Chip.exhausted (c : Chip) : Chip :=
  { c with maxRt := true, txActive := false,
           plosCnt := if c.plosCnt = 15 then 15 else c.plosCnt + 1 }

/-- A cycle start: ARC_CNT is reset (R175). -/
def Chip.startCycle (c : Chip) : Chip :=
  if c.txActive then c else { c with txActive := true, arcCnt := 0 }

/-- The effect of a TxAttempt step on a chip that holds a packet (R175, R179). -/
def Chip.attempt (o : AttemptOutcome) (c : Chip) : Chip :=
  let c := c.startCycle
  match c.txf with
  | [] => c
  | h :: _ =>
    if !c.ackExpected h then c.success none
    else
      match c.settle o with
      | .acked q => c.success q
      | .lost =>
        if c.arcCnt < c.arc then { c with arcCnt := c.arcCnt + 1 } else c.exhausted

/-- `TxAttempt` (R175), refused for another address width (R205). -/
def State.txAttempt (o : AttemptOutcome) (s : State) : State :=
  if !s.params.chipPresent || !s.attemptDue then s
  else if !s.chip.awAdmitted then s.refuse .addressWidthNot5
  else s.onChip (Chip.attempt o)

/-- `TxAbandon` (R184). -/
def State.txAbandon (s : State) : State :=
  if s.params.chipPresent && s.chip.txActive &&
      (!s.ce || !s.chip.pwrUp || s.chip.primRx || s.chip.txEmpty) then
    s.onChip fun c => { c with txActive := false }
  else s

/-! ## Receive side (41_radio_core.md R190 to R196) -/

/-- `pipeAddr(p)` (R191). -/
def Chip.pipeAddr (c : Chip) (p : Fin 6) : Addr :=
  match p with
  | 0 => c.rxAddrP0
  | 1 => c.rxAddrP1
  | 2 => c.rxAddrP1.withLow c.rxAddrP2
  | 3 => c.rxAddrP1.withLow c.rxAddrP3
  | 4 => c.rxAddrP1.withLow c.rxAddrP4
  | 5 => c.rxAddrP1.withLow c.rxAddrP5

/-- `matches(a)`: the enabled pipes that hold the address (R191). -/
def Chip.matching (c : Chip) (a : Addr) : List (Fin 6) :=
  [0, 1, 2, 3, 4, 5].filter fun p => bit c.enRxaddr p.val && c.pipeAddr p == a

/-- Whether a staged entry is the one for pipe `p` under `ACK_MATCH = perPipe` (R195). -/
def TxEntry.isFor (p : Fin 6) (e : TxEntry) : Bool := e.ppp == some p

/-- `sendAck(p)`: the staged payload that rides on the acknowledgment leaves TXF and sets TX_DS
(R195, R196). -/
def Chip.sendAck (m : AckMatch) (p : Fin 6) (c : Chip) : Chip :=
  if !c.enAckPay then c
  else
    match m with
    | .anyPipe => if c.txEmpty then c else { c with txf := c.txf.tail, txDs := true }
    | .perPipe =>
      if c.txf.any (TxEntry.isFor p) then
        { c with txf := c.txf.eraseP (TxEntry.isFor p), txDs := true }
      else c

/-- A packet accepted on pipe `p`: dropped without acknowledgment when it is new and RXF is full,
else stored unless a duplicate, then acknowledged (R190, R193, R194). -/
def Chip.accept (m : AckMatch) (p : Fin 6) (pkt : Packet) (c : Chip) : Chip :=
  if !pkt.dup && c.rxFull then c
  else
    let c := if pkt.dup then c else c.pushRx p pkt.data
    if bit c.enAa p.val && !pkt.noackBit then c.sendAck m p else c

/-- `Receive` (R190). A packet whose data is not of 1 to 32 bytes is no packet (log 14). -/
def State.receive (pkt : Packet) (pick : Nat) (s : State) : State :=
  if !s.params.chipPresent || s.chipMode != .rx then s
  else if !s.chip.awAdmitted then s.refuse .addressWidthNot5
  else if pkt.data.length < 1 ∨ maxPayload < pkt.data.length then s
  else
    let ps := s.chip.matching pkt.addr
    match ps[pick % ps.length]? with
    | none => s
    | some p =>
      if !s.chip.dynamicPayload p then s.refuse .staticPayloadPipe
      else s.onChip (Chip.accept s.params.ackMatch p pkt)

/-! ## Clock and partial resets -/

/-- The clock advances by at least 1 microsecond (00_scope.md R5). -/
def State.clock (d : Nat) (s : State) : State := { s with now := s.now + (d + 1) }

/-- `ChipReset` (70_reset_and_hazards.md R350, R355). -/
def State.chipReset (s : State) : State := { s with chip := Chip.reset s.params.variant }

/-- `SequencerReset` (70_reset_and_hazards.md R350, R356; 10_state.md R62): the running operation is
gone, and CE is at a level the environment gives. -/
def State.sequencerReset (ce : Bool) (s : State) : State :=
  { s with seq := [], sh := Shadow.reset (Config.drawSettings s.params.variant s.drawn),
           drawn := s.drawn + 1, ce := ce, marks := none }

/-! ## Between two micro-steps (00_scope.md R6, 20_memory.md R93) -/

def applyMove (m : EnvMove) (s : State) : State :=
  match m with
  | .clock d => s.clock d
  | .txAttempt o => s.txAttempt o
  | .txAbandon => s.txAbandon
  | .receive pkt pick => s.receive pkt pick
  | .chipReset => s.chipReset
  | .sequencerReset ce => s.sequencerReset ce

/-- The moves in order, up to one that marks the state. -/
def applyMoves : List EnvMove → State → State
  | [], s => s
  | m :: ms, s => if s.marks.isSome then s else applyMoves ms (applyMove m s)

/-- The environment after its script has run out: silence, but for the attempts `TX_PROGRESS =
fair` owes (41_radio_core.md R186, log 25). -/
def State.afterScript (s : State) : State :=
  if s.params.txProgress = .fair ∧ s.attemptDue ∧ s.params.chipPresent then
    ({ s with drawn := s.drawn + 1 } : State).txAttempt (Config.freeOutcome s.drawn)
  else s

/-- Every step the other agents take between two micro-steps: the next list of the script. -/
def State.interlude (s : State) : State :=
  match s.env with
  | ms :: rest => applyMoves ms { s with env := rest }
  | [] => s.afterScript

end Sys2Proof.Machine
end

