-- ==== Sys2Proof/Machine/BusCommands.lean ====
section
/-! DEFINITION. The 11 bus commands (40_bus_commands.md R140 to R150): the transaction each one is,
which the sequencer's programs issue too, and the meaning of each as an instruction of its own,
which refuses what 30_encoding.md R114, R116 and R121 refuse. -/

namespace Sys2Proof.Machine

/-! ## The transactions -/

/-- `R_REGISTER A` (R140). -/
def State.rRegister (a : Reg) (s : State) : State :=
  s.transact true (regCommand 0b000 a :: List.replicate a.width 0) (State.readReg a)

/-- `W_REGISTER A, v` (R141). -/
def State.wRegister (a : Reg) (v : List Byte) (s : State) : State :=
  s.writeXfer (regCommand 0b001 a :: v) (State.onChip (Chip.writeReg s.params.variant a v))

/-- After a read that leaves the entry's fate open, the head is popped or not: a draw (R142, D18). -/
def State.maybePop (s : State) : State :=
  match s.chip.rxf with
  | [] => s
  | _ :: rest =>
    let (b, s) := s.drawBool
    if b then s.onChip fun c => { c with rxf := rest } else s

/-- The effect of R_RX_PAYLOAD with `n` bytes (R142). -/
def State.readPayload (n : Nat) (s : State) : List Byte × State :=
  if s.chip.rxCorrupt then
    let (d, s) := s.drawBytes n
    (d, s.maybePop)
  else
    match s.chip.rxf with
    | [] => s.drawBytes n
    | h :: rest =>
      if n < h.data.length then
        (h.data.take n, (s.onChip fun c => { c with rxCorrupt := true }).maybePop)
      else
        let (extra, s) := s.drawBytes (n - h.data.length)
        (h.data ++ extra, s.onChip fun c => { c with rxf := rest })

/-- `R_RX_PAYLOAD` with `n` bytes (R142). -/
def State.rRxPayload (n : Nat) (s : State) : State :=
  s.transact true (0x61 :: List.replicate n 0) (State.readPayload n)

/-- The effect of R_RX_PL_WID (R143). -/
def State.readWidth (s : State) : List Byte × State :=
  if !s.chip.featuresUnlocked || s.chip.rxCorrupt then s.drawBytes 1
  else
    match s.chip.rxf with
    | [] => s.drawBytes 1
    | h :: _ => ([BitVec.ofNat 8 h.data.length], s)

/-- `R_RX_PL_WID` (R143). -/
def State.rRxPlWid (s : State) : State := s.transact true [0x60, 0] State.readWidth

/-- `W_TX_PAYLOAD d` (R144). -/
def State.wTxPayload (d : List Byte) (s : State) : State :=
  s.writeXfer (0xA0 :: d) (State.onChip (Chip.pushTx ⟨d, false, none⟩))

/-- `W_TX_PAYLOAD_NOACK d` (R145): ignored without the no-ack-on-demand feature. -/
def State.wTxPayloadNoack (d : List Byte) (s : State) : State :=
  s.writeXfer (0xB0 :: d) (State.onChip fun c =>
    if c.enDynAck then c.pushTx ⟨d, true, none⟩ else c)

/-- The effect of W_ACK_PAYLOAD (R146): nothing without the feature, outside the receive role
(D55) or into a full TXF; an empty payload is staged or not, a draw (D22). -/
def State.stageAck (p : Fin 6) (d : List Byte) (s : State) : State :=
  if !s.chip.enAckPay || !s.chip.primRx || s.chip.txFull then s
  else if d.isEmpty then
    let (b, s) := s.drawBool
    if b then s.onChip (Chip.pushTx ⟨[], false, some p⟩) else s
  else s.onChip (Chip.pushTx ⟨d, false, some p⟩)

/-- `W_ACK_PAYLOAD p, d` (R146). -/
def State.wAckPayload (p : Fin 6) (d : List Byte) (s : State) : State :=
  s.writeXfer (BitVec.ofNat 8 (0xA8 + p.val) :: d) (State.stageAck p d)

/-- `FLUSH_TX` (R147). -/
def State.flushTx (s : State) : State :=
  s.writeXfer [0xE1] (State.onChip fun c => { c with txf := [] })

/-- `FLUSH_RX` (R148): RX_DR is not cleared. -/
def State.flushRx (s : State) : State :=
  s.writeXfer [0xE2] (State.onChip fun c => { c with rxf := [], rxCorrupt := false })

/-- `NOP` (R149): only the status byte. -/
def State.nop (s : State) : State := s.writeXfer [0xFF] id

/-- `ACTIVATE x` (R150): 0x73 toggles the feature lock on the nRF24L01. -/
def State.activate (x : Byte) (s : State) : State :=
  s.writeXfer [0x50, x] fun s =>
    if x = 0x73 ∧ s.params.variant = .nRF24L01 then
      s.onChip fun c => { c with featuresUnlocked := !c.featuresUnlocked }
    else s

/-! ## The meanings -/

/-- R_REGISTER (R140, R121: a reserved address is read as draws). -/
def execRRegister (a : Reg) (s : State) : Host.Outcome State Fault Refusal :=
  .next (s.rRegister a)

/-- W_REGISTER (R141): a reserved address is refused (30_encoding.md R121), and a data phase that
is not the register's width (R116). -/
def execWRegister (a : Reg) (v : List Byte) (s : State) : Host.Outcome State Fault Refusal :=
  if a.isReserved then .refused .reservedRegisterWrite
  else if v.length ≠ a.width then .refused .badDataLength
  else .next (s.wRegister a v)

/-- ACTIVATE (R150). -/
def execActivate (x : Byte) (s : State) : Host.Outcome State Fault Refusal :=
  .next (s.activate x)

/-- R_RX_PL_WID (R143). -/
def execRRxPlWid (s : State) : Host.Outcome State Fault Refusal := .next s.rRxPlWid

/-- R_RX_PAYLOAD (R142), 0 to 255 bytes (30_encoding.md R116). -/
def execRRxPayload (n : Nat) (s : State) : Host.Outcome State Fault Refusal :=
  if n ≤ 255 then .next (s.rRxPayload n) else .refused .badDataLength

/-- W_TX_PAYLOAD (R144), 1 to 32 bytes (30_encoding.md R116). -/
def execWTxPayload (d : List Byte) (s : State) : Host.Outcome State Fault Refusal :=
  if 1 ≤ d.length ∧ d.length ≤ maxPayload then .next (s.wTxPayload d)
  else .refused .badDataLength

/-- W_ACK_PAYLOAD (R146), pipes 0 to 5 (30_encoding.md R114), 0 to 32 bytes (R116). -/
def execWAckPayload (ppp : BitVec 3) (d : List Byte) (s : State) :
    Host.Outcome State Fault Refusal :=
  if h : ppp.toNat < 6 then
    if d.length ≤ maxPayload then .next (s.wAckPayload ⟨ppp.toNat, h⟩ d)
    else .refused .badDataLength
  else .refused .badAckPipe

/-- W_TX_PAYLOAD_NOACK (R145), 1 to 32 bytes (30_encoding.md R116). -/
def execWTxPayloadNoack (d : List Byte) (s : State) : Host.Outcome State Fault Refusal :=
  if 1 ≤ d.length ∧ d.length ≤ maxPayload then .next (s.wTxPayloadNoack d)
  else .refused .badDataLength

/-- FLUSH_TX (R147). -/
def execFlushTx (s : State) : Host.Outcome State Fault Refusal := .next s.flushTx

/-- FLUSH_RX (R148). -/
def execFlushRx (s : State) : Host.Outcome State Fault Refusal := .next s.flushRx

/-- NOP (R149). -/
def execNop (s : State) : Host.Outcome State Fault Refusal := .next s.nop

end Sys2Proof.Machine
end

