-- ==== Sys2Proof/Machine/Sequencer.lean ====
section
/-! DEFINITION. The sequencer: how a host operation is issued, called and returned from
(10_state.md R22, 60_exceptions.md R334, R343), its micro-steps (00_scope.md R9), and the
pseudo-instructions of 30_encoding.md R126. A program is a function of the state made of labelled
micro-steps only. A micro-step takes place where the label of the running operation is its own, and
moves the label; so a program goes on from whatever label it finds. Nothing takes place once the
state is marked or a sequencer reset has removed the running operation. -/

namespace Sys2Proof.Machine

/-! ## Position and locals (10_state.md R22) -/

/-- Whether nothing more of the running operation takes place: the state is marked, or no operation
runs. -/
def State.stopped (s : State) : Bool := s.marks.isSome || s.seq.isEmpty

/-- What takes place unless the state is stopped. -/
def State.compute (f : State → State) (s : State) : State := if s.stopped then s else f s

/-- Whether the running operation's next micro-step is the one at a label. -/
def State.isAt (l : Label) (s : State) : Bool :=
  match s.seq with
  | [] => false
  | f :: _ => decide (f.label = l)

/-- The locals of the running operation. -/
def State.locals (s : State) : Locals :=
  match s.seq with
  | [] => .fresh
  | f :: _ => f.locals

/-- Changes the locals of the running operation. -/
def State.setLocals (g : Locals → Locals) (s : State) : State :=
  match s.seq with
  | [] => s
  | f :: rest => { s with seq := { f with locals := g f.locals } :: rest }

/-- Moves the sequencer's position to a label. -/
def State.atLabel (l : Label) (s : State) : State :=
  match s.seq with
  | [] => s
  | f :: rest => { s with seq := { f with label := l } :: rest }

/-- Enters an operation: a new frame at its first label. -/
def State.push (op : Instr) (s : State) : State :=
  { s with seq := ⟨op, .s1, .fresh⟩ :: s.seq }

/-- The frames below one that returns the value `v`: the caller, if there is one, has it. -/
def handBack (v : Result) : List Frame → List Frame
  | [] => []
  | f :: rest => { f with locals := { f.locals with got := v } } :: rest

/-- The running operation ends with the value `v`: its caller runs on with it, and where there is no
caller the host has it. -/
def State.give (v : Result) (s : State) : State :=
  { s with
    seq := handBack v s.seq.tail,
    host := if s.seq.tail.isEmpty then { s.host with result := v } else s.host }

/-! ## Micro-steps -/

/-- What takes place at a label, without a boundary before it: a first micro-step that ends its
operation, whose boundary is the one before the issue or the call (log 18). -/
def State.here (l : Label) (f : State → State) (s : State) : State :=
  s.compute fun s => if s.isAt l then f s else s

/-- A micro-step that moves the label itself: the other agents' steps, then the effect. -/
def State.stepAt (l : Label) (f : State → State) (s : State) : State :=
  s.here l fun s => s.interlude.compute f

/-- One micro-step at the label `l`, after which the label is `next`. -/
def State.micro (l next : Label) (f : State → State) (s : State) : State :=
  s.stepAt l fun s => (f s).compute (State.atLabel next)

/-- `return v`. -/
def State.ret (l : Label) (v : State → Result) (s : State) : State :=
  s.stepAt l fun s => s.give (v s)

/-- `return v` in the first micro-step of an operation. -/
def State.retHere (l : Label) (v : State → Result) (s : State) : State :=
  s.here l fun s => s.give (v s)

/-- The last local computation of an operation and its `return` of no value, which has no label of its
own (log 18). -/
def State.finish (l : Label) (f : State → State) (s : State) : State :=
  s.stepAt l fun s => (f s).give .none

/-- The same in the first micro-step of an operation. -/
def State.finishHere (l : Label) (f : State → State) (s : State) : State :=
  s.here l fun s => (f s).give .none

/-- `call Op(args)`: the operation's program runs to its `return`; the caller's label is then
`next`. -/
def State.call (l next : Label) (op : Instr) (program : State → State) (s : State) : State :=
  s.stepAt l fun s => program ((s.atLabel next).push op)

/-- `SetCE(v)` (00_scope.md R9). -/
def State.setCeStep (l next : Label) (v : Bool) (s : State) : State :=
  s.micro l next (State.setCe v)

/-- `Delay(t)` (00_scope.md R9): holds the sequencer until `now ≥ t0 + t`; the other agents' steps
take place meanwhile, and the clock has reached the bound when it ends (log 15). -/
def State.delay (l next : Label) (t : Nat) (s : State) : State :=
  s.micro l next fun s =>
    s.interlude.compute fun s' => { s' with now := max s'.now (s.now + t) }

/-- `RegRead(A)` of a one-byte register, its value put into the locals. -/
def State.readInto (l next : Label) (a : Reg) (put : Byte → Locals → Locals) (s : State) : State :=
  s.micro l next fun s =>
    let s := s.rRegister a
    s.setLocals (put (s.busIn.headD 0))

/-- `RegWrite(A, v)`, the value taken from the state at the micro-step. -/
def State.writeFrom (l next : Label) (a : Reg) (v : State → List Byte) (s : State) : State :=
  s.micro l next fun s => s.wRegister a (v s)

/-- `Status()`: one NOP, the status byte put into the local `st`. -/
def State.statusInto (l next : Label) (s : State) : State :=
  s.micro l next fun s =>
    let s := s.nop
    s.setLocals fun o => { o with st := s.busStatus }

/-- A read-modify-write: two micro-steps of the line of `l`. -/
def State.modify (l next : Label) (a : Reg) (g : Byte → Byte) (s : State) : State :=
  (s.readInto l l.succ a fun x o => { o with v := x }).writeFrom l.succ next a
    fun s => [g s.locals.v]

/-- `SetBits(A, m)`. -/
def State.setBits (l next : Label) (a : Reg) (m : Byte) (s : State) : State :=
  s.modify l next a fun v => withBits v m

/-- `ClearBits(A, m)`. -/
def State.clearBits (l next : Label) (a : Reg) (m : Byte) (s : State) : State :=
  s.modify l next a fun v => withoutBits v m

/-- `SetField(A, m, x)`. -/
def State.setField (l next : Label) (a : Reg) (m x : Byte) (s : State) : State :=
  s.modify l next a fun v => withField v m x

/-- `ClearIRQ(m)`. -/
def State.clearIrq (l next : Label) (m : Byte) (s : State) : State :=
  s.writeFrom l next .status fun _ => [m]

/-- `FlushBoth()`: FLUSH_RX, then FLUSH_TX (D51). -/
def State.flushBoth (l next : Label) (s : State) : State :=
  (s.micro l l.succ State.flushRx).micro l.succ next State.flushTx

/-! ## Shadow state -/

def State.onShadow (f : Shadow → Shadow) (s : State) : State := { s with sh := f s.sh }

def State.onSettings (f : Settings → Settings) (s : State) : State :=
  s.onShadow fun h => { h with settings := f h.settings }

/-- The network mask. Every operation that uses it is refused before the initialization, which sets
it (42_addressing_pipes.md R210); log 9 for the value before. -/
def State.mask (s : State) : BitVec 32 := s.sh.networkMask.getD 0

/-! ## Issuing an operation (30_encoding.md R127, 60_exceptions.md R343) -/

/-- Issues a host operation and runs it to its return, or to the mark or reset that ends it.
`needsInit` is true for every operation but init and decomposeAddress; `argsOk` says the setter
arguments are in range. The order of the two checks is R127's (log 7). The host's result is none until
the operation itself returns, and stays so where a sequencer reset removes it (log 12). -/
def State.issue (op : Instr) (needsInit argsOk : Bool) (program : State → State) (s : State) :
    Host.Outcome State Fault Refusal :=
  if !s.seq.isEmpty then .refused .operationInProgress
  else if needsInit && !s.sh.initialized then .refused .notInitialized
  else if !argsOk then .refused .argumentOutOfRange
  else (program (({ s with host := { s.host with result := .none } } : State).push op)).outcome

end Sys2Proof.Machine
end

