-- ==== Sys2Proof/Machine/ModeControl.lean ====
section
/-! DEFINITION. Mode control (43_mode_control.md): setActive, isActive, startListening,
stopListening, currentMode. -/

namespace Sys2Proof.Machine

/-- `setActive(b)` (R230). -/
def setActiveProgram (b : Bool) (s : State) : State :=
  let s := s.modify .s1 .s2 .config fun v => if b then withBits v pwrUp else withoutBits v pwrUp
  let s := s.delay .s2 .s3 tActivate
  s.ret .s3 fun _ => .none

def execSetActive (b : Bool) (s : State) : Host.Outcome State Fault Refusal :=
  s.issue (.setActive b) true true (setActiveProgram b)

/-- `isActive()` (R231). -/
def isActiveProgram (s : State) : State :=
  let s := s.readInto .s1 .s2 .config fun x o => { o with v := x }
  s.ret .s2 fun s => .bool (bit s.locals.v 1)

def execIsActive (s : State) : Host.Outcome State Fault Refusal :=
  s.issue .isActive true true isActiveProgram

/-- The address S3 of startListening gives pipe 0: the own address, where there is one and the cache
says that pipe 0 holds another (R232, D36). -/
def State.ownPipe0 (s : State) : Option Addr :=
  match s.sh.ownAddress with
  | none => none
  | some o =>
    if s.sh.rxP0Cache = some (fullAddress o s.mask) then none else some (fullAddress o s.mask)

/-- S3 of startListening (R232). -/
def restorePipe0 (s : State) : State :=
  let s := s.micro .s3 Label.s3.succ fun s =>
    match s.ownPipe0 with
    | none => s
    | some a => s.wRegister .rxAddrP0 a.toList
  s.micro Label.s3.succ .s4 fun s =>
    match s.ownPipe0 with
    | none => s
    | some a => s.onShadow fun h => { h with rxP0Cache := some a }

/-- `startListening()` (R232). -/
def startListeningProgram (s : State) : State :=
  let s := s.setBits .s1 .s2 .config (pwrUp ||| primRx)
  let s := s.clearIrq .s2 .s3 irqAll
  let s := restorePipe0 s
  let s := s.setCeStep .s4 .s5 true
  let s := s.flushBoth .s5 .s6
  s.finish .s6 (State.onShadow fun h => { h with listening := true })

def execStartListening (s : State) : Host.Outcome State Fault Refusal :=
  s.issue .startListening true true startListeningProgram

/-- `stopListening()` (R234). -/
def stopListeningProgram (s : State) : State :=
  let s := s.clearBits .s1 .s2 .config (pwrUp ||| primRx)
  let s := s.setCeStep .s2 .s3 false
  let s := s.flushBoth .s3 .s4
  s.finish .s4 (State.onShadow fun h => { h with listening := false })

def execStopListening (s : State) : Host.Outcome State Fault Refusal :=
  s.issue .stopListening true true stopListeningProgram

/-- `currentMode()` (R237). -/
def currentModeProgram (s : State) : State :=
  let s := s.readInto .s1 .s2 .config fun x o => { o with cfg := x }
  let s := s.micro .s2 .s3 fun s => s.setLocals fun o => { o with ce := s.ce }
  let s := s.readInto .s3 .s4 .fifoStatus fun x o => { o with fs := x }
  s.ret .s4 fun s =>
    .mode (deriveMode s.params.pdCheckQuirk s.locals.cfg s.locals.ce s.locals.fs)

def execCurrentMode (s : State) : Host.Outcome State Fault Refusal :=
  s.issue .currentMode true true currentModeProgram

end Sys2Proof.Machine
end

