-- ==== Sys2Proof/Machine/Addressing.lean ====
section
/-! DEFINITION. Address encoder and pipe manager (42_addressing_pipes.md): assembleFullAddress,
decomposeAddress, setOwnAddress, listenToAddress. -/

namespace Sys2Proof.Machine

/-- `assembleFullAddress(node)` (R210). -/
def assembleFullAddressProgram (node : Byte) (s : State) : State :=
  s.retHere .s1 fun s => .address (fullAddress node s.mask)

def execAssembleFullAddress (node : Byte) (s : State) : Host.Outcome State Fault Refusal :=
  s.issue (.assembleFullAddress node) true true (assembleFullAddressProgram node)

/-- `decomposeAddress(addr)` (R211), admitted before the initialization. -/
def decomposeAddressProgram (addr : Addr) (s : State) : State :=
  s.retHere .s1 fun _ => .nodeMask (decompose addr).1 (decompose addr).2

def execDecomposeAddress (addr : Addr) (s : State) : Host.Outcome State Fault Refusal :=
  s.issue (.decomposeAddress addr) false true (decomposeAddressProgram addr)

/-- `setOwnAddress(node)` (R212). -/
def setOwnAddressProgram (node : Byte) (s : State) : State :=
  let s := s.micro .s1 .s2 fun s =>
    (s.onShadow fun h => { h with ownAddress := some node }).setLocals fun o =>
      { o with fa := fullAddress node s.mask }
  let s := s.writeFrom .s2 .s3 .rxAddrP0 fun s => s.locals.fa.toList
  let s := s.setBits .s3 .s4 .enRxaddr (erx 0)
  s.finish .s4 fun s => s.onShadow fun h => { h with rxP0Cache := some s.locals.fa }

def execSetOwnAddress (node : Byte) (s : State) : Host.Outcome State Fault Refusal :=
  s.issue (.setOwnAddress node) true true (setOwnAddressProgram node)

/-- The register that holds listener slot `k`'s own byte or bytes: chip pipe `k + 1` (R214,
R215). -/
def listenerReg (k : Nat) : Reg :=
  match k with
  | 0 => .rxAddrP1
  | 1 => .rxAddrP2
  | 2 => .rxAddrP3
  | 3 => .rxAddrP4
  | _ => .rxAddrP5

/-- What S2 of listenToAddress writes: the full address for slot 0, the low byte for a later one. -/
def listenerBytes (k : Nat) (node : Byte) (mask : BitVec 32) : List Byte :=
  if k = 0 then (fullAddress node mask).toList else [node]

/-- `listenToAddress(node)` (R214, R216: the check comes before any transaction). -/
def listenToAddressProgram (node : Byte) (s : State) : State :=
  if s.isAt .s1 ∧ s.sh.extraPipes = numListeners then s.retHere .s1 fun _ => .tooManyPipes
  else
    let s := s.micro .s1 .s2 fun s => s.setLocals fun o => { o with k := s.sh.extraPipes }
    let s := s.micro .s2 .s3 fun s =>
      s.wRegister (listenerReg s.locals.k) (listenerBytes s.locals.k node s.mask)
    let s := s.readInto .s3 Label.s3.succ .enRxaddr fun x o => { o with v := x }
    let s := s.writeFrom Label.s3.succ .s4 .enRxaddr fun s =>
      [withBits s.locals.v (erx (s.locals.k + 1))]
    let s := s.micro .s4 .s5 fun s => s.onShadow fun h => { h with extraPipes := s.locals.k + 1 }
    let s := s.call .s5 .s6 .startListening startListeningProgram
    s.ret .s6 fun s => .slot s.locals.k

def execListenToAddress (node : Byte) (s : State) : Host.Outcome State Fault Refusal :=
  s.issue (.listenToAddress node) true true (listenToAddressProgram node)

end Sys2Proof.Machine
end

