-- ==== Sys2Proof/Machine/Initialization.lean ====
section
/-! DEFINITION. The initialization (70_reset_and_hazards.md R352). -/

namespace Sys2Proof.Machine

/-- The CRC mode of `DEFAULT_CRC` (00_scope.md R7: crc8 or crc16). -/
def Params.defaultCrc (p : Params) : CrcMode := if p.defaultCrc16 then .crc16 else .crc8

/-- S1 to S9: power-down, the network mask, the power-on wait and the default settings. -/
def initSettings (mask : BitVec 32) (s : State) : State :=
  let s := s.setCeStep .s1 .s2 false
  let s := s.clearBits .s2 .s3 .config pwrUp
  let s := s.micro .s3 .s4 (State.onShadow fun h => { h with networkMask := some mask })
  let s := s.delay .s4 .s5 tPor
  let s := s.writeFrom .s5 Label.s5.succ .setupRetr fun s =>
    [retryByte s.params.defaultArd s.params.defaultArc]
  let s := s.micro Label.s5.succ .s6 fun s => s.onSettings fun g =>
    { g with retryDelay := s.params.defaultArd, retryCount := s.params.defaultArc }
  let s := s.setField .s6 Label.s6.succ.succ .rfSetup paMask s.params.defaultPa.code
  let s := s.micro Label.s6.succ.succ .s7 fun s =>
    s.onSettings fun g => { g with paLevel := s.params.defaultPa }
  let s := s.setField .s7 Label.s7.succ.succ .rfSetup (drMask s.params.variant)
    s.params.defaultDr.code
  let s := s.micro Label.s7.succ.succ .s8 fun s =>
    s.onSettings fun g => { g with dataRate := s.params.defaultDr }
  let s := s.setField .s8 Label.s8.succ.succ .config crcMask (Params.defaultCrc s.params).code
  let s := s.micro Label.s8.succ.succ .s9 fun s =>
    s.onSettings fun g => { g with crc := Params.defaultCrc s.params }
  let s := s.writeFrom .s9 Label.s9.succ .rfCh fun s => [s.params.defaultCh.setWidth 8]
  s.micro Label.s9.succ .s10 fun s =>
    s.onSettings fun g => { g with channel := s.params.defaultCh }

/-- S10 to S18: the extended features, the pipes' enables, and a clean, powered-down chip. -/
def initFeatures (s : State) : State :=
  let s := s.micro .s10 .s11 (State.activate 0x73)
  let s := s.writeFrom .s11 .s12 .feature fun _ => [0x07]
  let s := s.writeFrom .s12 .s13 .enAa fun _ => [0x3F]
  let s := s.writeFrom .s13 .s14 .dynpd fun _ => [0x3F]
  let s := s.writeFrom .s14 .s15 .setupAw fun _ => [0x03]
  let s := s.clearIrq .s15 .s16 irqAll
  let s := s.clearBits .s16 .s17 .config pwrUp
  let s := s.micro .s17 .s18 (State.onSettings fun g => { g with ackEnabled := true })
  s.flushBoth .s18 .s19

/-- `init(mask)` (R352). -/
def initProgram (mask : BitVec 32) (s : State) : State :=
  let s := initSettings mask s
  let s := initFeatures s
  s.finish .s19 (State.onShadow fun h =>
    { h with listening := false, txAddrCache := none, rxP0Cache := none, extraPipes := 0,
             initialized := true })

def execInit (mask : BitVec 32) (s : State) : Host.Outcome State Fault Refusal :=
  s.issue (.init mask) false true (initProgram mask)

end Sys2Proof.Machine
end

