-- ==== Sys2Proof/Machine/Receive.lean ====
section
/-! DEFINITION. Receive engine and ACK-payload queue (45_receive_ackq.md): available, read, readText,
queueResponse. -/

namespace Sys2Proof.Machine

/-- `available(wantPipe)` (R280). -/
def availableProgram (wantPipe : Bool) (s : State) : State :=
  let s := s.statusInto .s1 .s2
  if s.isAt .s2 ∧ !statusRxDr s.locals.st then s.ret .s2 fun _ => .available 0 none
  else
    let s := s.micro .s2 .s3 id
    let s := s.micro .s3 .s4 fun s =>
      let s := s.rRxPlWid
      s.setLocals fun o => { o with w := s.busIn.headD 0 }
    s.ret .s4 fun s =>
      .available s.locals.w.toNat (if wantPipe then some (statusPipe s.locals.st) else none)

def execAvailable (wantPipe : Bool) (s : State) : Host.Outcome State Fault Refusal :=
  s.issue (.available wantPipe) true true (availableProgram wantPipe)

/-- `read(buf, cap)` (R282): the copy is clamped to the capacity, and what is left of the entry is
not drained (R283). S4 is two micro-steps: the transaction, and the copy (00_scope.md R9). -/
def readProgram (buf : BufId) (cap : Nat) (s : State) : State :=
  let s := s.setCeStep .s1 .s2 false
  let s := s.micro .s2 .s3 fun s =>
    let s := s.rRxPlWid
    s.setLocals fun o => { o with w := s.busIn.headD 0 }
  let s := s.micro .s3 .s4 fun s => s.setLocals fun o => { o with n := min o.w.toNat cap }
  let s := s.micro .s4 Label.s4.succ fun s =>
    let s := s.rRxPayload s.locals.n
    s.setLocals fun o => { o with d := s.busIn }
  let s := s.micro Label.s4.succ .s5 fun s => s.memWrite buf 0 s.locals.d
  let s := s.clearIrq .s5 .s6 irqRxDr
  let s := s.setCeStep .s6 .s7 true
  s.ret .s7 fun s => .count s.locals.n

def execRead (capacity : Nat) (s : State) : Host.Outcome State Fault Refusal :=
  s.issue (.read capacity) true true (readProgram .readBuf capacity)

/-- The count a called read returned. -/
def Result.countOf : Result → Nat
  | .count n => n
  | _ => 0

/-- `readText(buf, cap)` (R284): the terminator goes just after the copied bytes. -/
def readTextProgram (cap : Nat) (s : State) : State :=
  if cap = 0 then s.retHere .s1 fun _ => .count 0
  else
    let s := s.micro .s1 .s2 id
    let s := s.call .s2 Label.s2.succ (.read (cap - 1)) (readProgram .readBuf (cap - 1))
    let s := s.micro Label.s2.succ .s3 fun s => s.setLocals fun o => { o with n := o.got.countOf }
    let s := s.micro .s3 .s4 fun s => s.memWrite .readBuf s.locals.n [0x00]
    s.ret .s4 fun s => .count s.locals.n

def execReadText (capacity : Nat) (s : State) : Host.Outcome State Fault Refusal :=
  s.issue (.readText capacity) true true (readTextProgram capacity)

/-- S3 of queueResponse: the transient listening mode, one CONFIG write (R288). -/
def enterListening (s : State) : State :=
  let s := s.micro .s3 Label.s3.succ fun s =>
    if s.locals.entered then
      let s := s.rRegister .config
      s.setLocals fun o => { o with cfg := s.busIn.headD 0 }
    else s
  s.micro Label.s3.succ .s4 fun s =>
    if s.locals.entered then s.wRegister .config [withBits s.locals.cfg (pwrUp ||| primRx)] else s

/-- S5 of queueResponse: the CONFIG value read at S3 is written back (R288). -/
def leaveListening (s : State) : State :=
  s.micro .s5 .s6 fun s =>
    if s.locals.entered then s.wRegister .config [s.locals.cfg] else s

/-- `queueResponse(payload)` (R286): the full check is the first transaction (R287). -/
def queueResponseProgram (payload : List Byte) (s : State) : State :=
  let s := s.statusInto .s1 Label.s1.succ
  if s.isAt Label.s1.succ ∧ statusTxFull s.locals.st then
    s.ret Label.s1.succ fun _ => .bool false
  else
    let s := s.micro Label.s1.succ .s2 id
    let s := s.micro .s2 .s3 fun s => s.setLocals fun o =>
      { o with p := clipPayload payload, entered := !s.sh.listening }
    let s := enterListening s
    let s := s.micro .s4 .s5 fun s => s.wAckPayload s.params.ackPpp s.locals.p
    let s := leaveListening s
    s.ret .s6 fun _ => .bool true

def execQueueResponse (payload : List Byte) (s : State) : Host.Outcome State Fault Refusal :=
  s.issue (.queueResponse payload) true true (queueResponseProgram payload)

end Sys2Proof.Machine
end

