-- ==== Sys2Proof/Machine/Setters.lean ====
section
/-! DEFINITION. Configuration setters (46_config_setters.md): setNetworkMask, setChannel, setRetries,
setDataRate, setPALevel, setCRC, setAckEnabled. -/

namespace Sys2Proof.Machine

/-- `setNetworkMask(mask)` (R300): the shadow value only. -/
def setNetworkMaskProgram (mask : BitVec 32) (s : State) : State :=
  s.finishHere .s1 (State.onShadow fun h => { h with networkMask := some mask })

def execSetNetworkMask (mask : BitVec 32) (s : State) : Host.Outcome State Fault Refusal :=
  s.issue (.setNetworkMask mask) true true (setNetworkMaskProgram mask)

/-- `setChannel(ch)` (R301). -/
def setChannelProgram (ch : Byte) (s : State) : State :=
  let s := s.writeFrom .s1 Label.s1.succ .rfCh fun _ => [ch]
  s.finish Label.s1.succ (State.onSettings fun g => { g with channel := ch.setWidth 7 })

def execSetChannel (ch : Byte) (s : State) : Host.Outcome State Fault Refusal :=
  s.issue (.setChannel ch) true (decide (ch.toNat ≤ 127)) (setChannelProgram ch)

/-- `setRetries(delay, count)` (R302). -/
def setRetriesProgram (delay count : BitVec 4) (s : State) : State :=
  let s := s.writeFrom .s1 Label.s1.succ .setupRetr fun _ => [retryByte delay count]
  s.finish Label.s1.succ (State.onSettings fun g => { g with retryDelay := delay, retryCount := count })

def execSetRetries (delay count : Byte) (s : State) : Host.Outcome State Fault Refusal :=
  s.issue (.setRetries delay count) true (decide (delay.toNat ≤ 15 ∧ count.toNat ≤ 15))
    (setRetriesProgram (delay.setWidth 4) (count.setWidth 4))

/-- `setDataRate(dr)` (R303). -/
def setDataRateProgram (dr : DataRate) (s : State) : State :=
  let s := s.setField .s1 Label.s1.succ.succ .rfSetup (drMask s.params.variant) dr.code
  s.finish Label.s1.succ.succ (State.onSettings fun g => { g with dataRate := dr })

def execSetDataRate (dr : Byte) (s : State) : Host.Outcome State Fault Refusal :=
  s.issue (.setDataRate dr) true (DataRate.ofByte s.params.variant dr).isSome
    (setDataRateProgram ((DataRate.ofByte s.params.variant dr).getD .mbps1))

/-- `setPALevel(pa)` (R304). -/
def setPALevelProgram (pa : PaLevel) (s : State) : State :=
  let s := s.setField .s1 Label.s1.succ.succ .rfSetup paMask pa.code
  s.finish Label.s1.succ.succ (State.onSettings fun g => { g with paLevel := pa })

def execSetPALevel (pa : Byte) (s : State) : Host.Outcome State Fault Refusal :=
  s.issue (.setPALevel pa) true (PaLevel.ofByte pa).isSome
    (setPALevelProgram ((PaLevel.ofByte pa).getD .m18))

/-- `setCRC(mode)` (R305). -/
def setCRCProgram (mode : CrcMode) (s : State) : State :=
  let s := s.setField .s1 Label.s1.succ.succ .config crcMask mode.code
  s.finish Label.s1.succ.succ (State.onSettings fun g => { g with crc := mode })

def execSetCRC (mode : Byte) (s : State) : Host.Outcome State Fault Refusal :=
  s.issue (.setCRC mode) true (CrcMode.ofByte mode).isSome
    (setCRCProgram ((CrcMode.ofByte mode).getD .off))

/-- `setAckEnabled(b)` (R306): the shadow flag only. -/
def setAckEnabledProgram (b : Bool) (s : State) : State :=
  s.finishHere .s1 (State.onSettings fun g => { g with ackEnabled := b })

def execSetAckEnabled (b : Bool) (s : State) : Host.Outcome State Fault Refusal :=
  s.issue (.setAckEnabled b) true true (setAckEnabledProgram b)

end Sys2Proof.Machine
end

