-- ==== Sys2Proof/Machine/Transmit.lean ====
section
/-! DEFINITION. Transmit engine (44_transmit.md): transmit, send, sendAndAwaitResponse, broadcast. -/

namespace Sys2Proof.Machine

/-- S2: TX_ADDR is written only when it differs from the cached value, which then follows (R251). -/
def setTxAddress (s : State) : State :=
  let s := s.micro .s2 Label.s2.succ fun s =>
    if s.sh.txAddrCache = some s.locals.fa then s else s.wRegister .txAddr s.locals.fa.toList
  s.micro Label.s2.succ .s3 fun s => s.onShadow fun h => { h with txAddrCache := some s.locals.fa }

/-- S3: pipe 0 is diverted to the target when an acknowledgment is requested and the cached pipe-0
address differs (R252). -/
def divertPipe0 (requestAck : Bool) (s : State) : State :=
  let s := s.micro .s3 Label.s3.succ fun s =>
    if !requestAck ∨ s.sh.rxP0Cache = some s.locals.fa then s
    else s.wRegister .rxAddrP0 s.locals.fa.toList
  s.micro Label.s3.succ .s4 fun s =>
    if !requestAck then s else s.onShadow fun h => { h with rxP0Cache := some s.locals.fa }

/-- Whether a status byte ends the poll: TX_DS or MAX_RT (R256). -/
def pollEnds (st : Byte) : Bool := statusTxDs st || statusMaxRt st

/-- S9a and S9b: one NOP, then the flags are tested before the time, again until a flag is set or
the watchdog has elapsed (R256). The environment script is finite, so `fuel` iterations use it up;
in the last one the clock, which never stops (60_exceptions.md R329), reaches the watchdog
(log 15). -/
def pollLoop : Nat → State → State
  | 0, s =>
    let s := s.statusInto .s9a .s9b
    s.micro .s9b .s10 fun s =>
      if pollEnds s.locals.st then s else { s with now := max s.now (s.locals.t0 + tWatchdog) }
  | fuel + 1, s =>
    let s := s.statusInto .s9a .s9b
    let s := s.stepAt .s9b fun s =>
      if pollEnds s.locals.st then s.atLabel .s10
      else if s.locals.t0 + tWatchdog ≤ s.now then s.atLabel .s10
      else s.atLabel .s9a
    if s.isAt .s9a then pollLoop fuel s else s

/-- Iterations that use up the script, and then the attempts `TX_PROGRESS = fair` owes: at most 16
for a cycle (41_radio_core.md R180, log 25). -/
def pollFuel (s : State) : Nat :=
  s.env.length + (if s.params.txProgress = .fair then 17 else 0)

/-- S11: the state before the call is restored (R258). -/
def restoreState (s : State) : State :=
  if !s.locals.wasActive then s.clearBits .s11 .s12 .config pwrUp
  else if s.locals.wasListening then s.call .s11 .s12 .startListening startListeningProgram
  else s.micro .s11 .s12 id

/-- S4 to S8: the flags are cleared, the chip is made a powered transmitter with CE low, the payload is
loaded, and CE goes high (R253 to R256). -/
def triggerTransmit (requestAck : Bool) (s : State) : State :=
  let s := s.clearIrq .s4 .s5 irqAll
  let s := s.readInto .s5 Label.s5.succ .config fun x o => { o with cfg := x }
  let s := s.micro Label.s5.succ .s6a fun s => s.setLocals fun o =>
    { o with wasActive := bit o.cfg 1, wasListening := s.sh.listening }
  let s := s.setCeStep .s6a .s6b false
  let s := s.writeFrom .s6b .s6c .config fun s =>
    [withoutBits (withBits s.locals.cfg pwrUp) primRx]
  let s := if s.locals.wasActive then s.micro .s6c .s7 id else s.delay .s6c .s7 tColdstartTx
  let s := s.micro .s7 .s8 fun s =>
    if requestAck then s.wTxPayload s.locals.p else s.wTxPayloadNoack s.locals.p
  let s := s.setCeStep .s8 Label.s8.succ true
  s.micro Label.s8.succ .s9a fun s => s.setLocals fun o => { o with t0 := s.now }

/-- `transmit(target, payload, requestAck)` (R250). -/
def transmitProgram (target : Byte) (payload : List Byte) (requestAck : Bool) (s : State) :
    State :=
  if payload.isEmpty then s.retHere .s1 fun _ => .bool false
  else
    let s := s.micro .s1 .s2 fun s => s.setLocals fun o =>
      { o with p := clipPayload payload, fa := fullAddress target s.mask }
    let s := setTxAddress s
    let s := divertPipe0 requestAck s
    let s := triggerTransmit requestAck s
    let s := pollLoop (pollFuel s) s
    let s := s.setCeStep .s10 .s11 false
    let s := restoreState s
    s.ret .s12 fun s => .bool (statusTxDs s.locals.st)

def execTransmit (target : Byte) (payload : List Byte) (requestAck : Bool) (s : State) :
    Host.Outcome State Fault Refusal :=
  s.issue (.transmit target payload requestAck) true true
    (transmitProgram target payload requestAck)

/-- Whether a called operation returned `true`. -/
def Result.isTrue : Result → Bool
  | .bool b => b
  | .sent ok _ => ok
  | _ => false

/-- `send(target, payload, wantCount)` (R262): the raw ARC_CNT is reported (R263). -/
def sendProgram (target : Byte) (payload : List Byte) (wantCount : Bool) (s : State) : State :=
  let ack := s.sh.settings.ackEnabled
  let s := s.call .s1 Label.s1.succ (.transmit target payload ack)
    (transmitProgram target payload ack)
  let s := s.micro Label.s1.succ .s2 fun s => s.setLocals fun o => { o with ok := o.got.isTrue }
  let s := s.micro .s2 .s3 fun s =>
    if wantCount then
      let s := s.rRegister .observeTx
      s.setLocals fun o => { o with c := s.busIn.headD 0 &&& 0x0F }
    else s
  s.ret .s3 fun s => .sent s.locals.ok (if wantCount then some s.locals.c else none)

def execSend (target : Byte) (payload : List Byte) (wantCount : Bool) (s : State) :
    Host.Outcome State Fault Refusal :=
  s.issue (.send target payload wantCount) true true (sendProgram target payload wantCount)

/-- `sendAndAwaitResponse(target, payload)` (R264). -/
def sendAndAwaitResponseProgram (target : Byte) (payload : List Byte) (s : State) : State :=
  let s := s.micro .s1 .s2 State.flushRx
  let s := s.call .s2 Label.s2.succ (.send target payload false) (sendProgram target payload false)
  let s := s.micro Label.s2.succ .s3 fun s => s.setLocals fun o => { o with ok := o.got.isTrue }
  if s.isAt .s3 ∧ !s.locals.ok then s.ret .s3 fun _ => .sendFailed
  else
    let s := s.micro .s3 .s4 id
    if s.isAt .s4 ∧ !s.sh.settings.ackEnabled then s.ret .s4 fun _ => .sentNoPayload
    else
      let s := s.micro .s4 .s5 id
      let s := s.statusInto .s5 .s6
      if s.isAt .s6 ∧ !statusRxDr s.locals.st then s.ret .s6 fun _ => .sentNoPayload
      else
        let s := s.micro .s6 .s7 id
        let s := s.call .s7 Label.s7.succ (.read sarCapacity) (readProgram .respBuf sarCapacity)
        let s := s.micro Label.s7.succ .s8 fun s => s.setLocals fun o =>
          { o with n := o.got.countOf }
        s.ret .s8 fun s => .received s.locals.n

def execSendAndAwaitResponse (target : Byte) (payload : List Byte) (s : State) :
    Host.Outcome State Fault Refusal :=
  s.issue (.sendAndAwaitResponse target payload) true true
    (sendAndAwaitResponseProgram target payload)

/-- `broadcast(payload)` (R268): a fault when no own address is set (60_exceptions.md R327). -/
def broadcastProgram (payload : List Byte) (s : State) : State :=
  match s.sh.ownAddress with
  | none => s.here .s1 (State.raise .ownAddressUnset)
  | some o =>
    let s := s.micro .s1 .s2 id
    let s := s.call .s2 .s3 (.transmit o payload false) (transmitProgram o payload false)
    s.ret .s3 fun s => s.locals.got

def execBroadcast (payload : List Byte) (s : State) : Host.Outcome State Fault Refusal :=
  s.issue (.broadcast payload) true true (broadcastProgram payload)

end Sys2Proof.Machine
end

