-- ==== Sys2Proof/Machine/Dispatch.lean ====
section
/-! DEFINITION. One arm per instruction: the bus commands, then the host operations. -/

namespace Sys2Proof.Machine

def exec (i : Instr) (s : State) : Host.Outcome State Fault Refusal :=
  match i with
  | .rRegister a => Sys2Proof.Machine.execRRegister a s
  | .wRegister a v => Sys2Proof.Machine.execWRegister a v s
  | .activate x => Sys2Proof.Machine.execActivate x s
  | .rRxPlWid => Sys2Proof.Machine.execRRxPlWid s
  | .rRxPayload n => Sys2Proof.Machine.execRRxPayload n s
  | .wTxPayload d => Sys2Proof.Machine.execWTxPayload d s
  | .wAckPayload ppp d => Sys2Proof.Machine.execWAckPayload ppp d s
  | .wTxPayloadNoack d => Sys2Proof.Machine.execWTxPayloadNoack d s
  | .flushTx => Sys2Proof.Machine.execFlushTx s
  | .flushRx => Sys2Proof.Machine.execFlushRx s
  | .nop => Sys2Proof.Machine.execNop s
  | .init mask => Sys2Proof.Machine.execInit mask s
  | .setOwnAddress node => Sys2Proof.Machine.execSetOwnAddress node s
  | .listenToAddress node => Sys2Proof.Machine.execListenToAddress node s
  | .setActive b => Sys2Proof.Machine.execSetActive b s
  | .isActive => Sys2Proof.Machine.execIsActive s
  | .startListening => Sys2Proof.Machine.execStartListening s
  | .stopListening => Sys2Proof.Machine.execStopListening s
  | .currentMode => Sys2Proof.Machine.execCurrentMode s
  | .transmit target payload requestAck => Sys2Proof.Machine.execTransmit target payload requestAck s
  | .send target payload wantCount => Sys2Proof.Machine.execSend target payload wantCount s
  | .sendAndAwaitResponse target payload => Sys2Proof.Machine.execSendAndAwaitResponse target payload s
  | .broadcast payload => Sys2Proof.Machine.execBroadcast payload s
  | .available wantPipe => Sys2Proof.Machine.execAvailable wantPipe s
  | .read capacity => Sys2Proof.Machine.execRead capacity s
  | .readText capacity => Sys2Proof.Machine.execReadText capacity s
  | .queueResponse payload => Sys2Proof.Machine.execQueueResponse payload s
  | .setNetworkMask mask => Sys2Proof.Machine.execSetNetworkMask mask s
  | .setChannel ch => Sys2Proof.Machine.execSetChannel ch s
  | .setRetries delay count => Sys2Proof.Machine.execSetRetries delay count s
  | .setDataRate dr => Sys2Proof.Machine.execSetDataRate dr s
  | .setPALevel pa => Sys2Proof.Machine.execSetPALevel pa s
  | .setCRC mode => Sys2Proof.Machine.execSetCRC mode s
  | .setAckEnabled b => Sys2Proof.Machine.execSetAckEnabled b s
  | .assembleFullAddress node => Sys2Proof.Machine.execAssembleFullAddress node s
  | .decomposeAddress addr => Sys2Proof.Machine.execDecomposeAddress addr s

end Sys2Proof.Machine
end

