-- ==== Sys2Proof/Machine/HostPort.lean ====
section
/-! DEFINITION. The command port: the host's next move, which is a host operation or a pause and never
a bus command (20_memory.md R81); the refusal a rejected command is (60_exceptions.md R328); and
placing a word of the opcode table as the next command. -/

namespace Sys2Proof.Machine

/-- The refusal of bytes that hold no instruction (60_exceptions.md R328). -/
def refusalOf : DecodeError → Refusal
  | .unadmittedCommand => .unadmittedCommand
  | .badAckPipe => .badAckPipe
  | .badDataLength => .badDataLength
  | .unknownHostOp => .unknownHostOp
  | .argumentOutOfRange => .argumentOutOfRange

/-- The next command: the transaction that stands on the bus, which no agent of 00_scope.md R4 puts
there (log 5), or else the host's next move, a host operation or nothing for now. -/
def State.nextCommand (s : State) : Option Command :=
  match s.bus with
  | some bytes => some ⟨.bus, bytes⟩
  | none =>
    match s.host.inbox with
    | some bytes :: _ => some ⟨.op, bytes⟩
    | _ => none

/-- The state with that command, or the host's pause, taken. -/
def State.taken (s : State) : State :=
  match s.bus with
  | some _ => { s with bus := none }
  | none => { s with host := { s.host with inbox := s.host.inbox.tail } }

/-- The framed command of a table word; bytes that are none are placed as a bus transaction, which
`step` refuses (log 5). -/
def wordCommand (nbits w : Nat) : Command :=
  (tableCommand nbits w).getD ⟨.bus, lowBytes ((nbits + 7) / 8) w⟩

/-- The state whose next step takes that command and nothing before it: no mark, no running
operation, and no move of another agent in between (log 5). -/
def State.place (c : Command) (s : State) : State :=
  match c.level with
  | .bus => { s with marks := none, seq := [], env := [[]], bus := some c.bytes }
  | .op => { s with marks := none, seq := [], env := [[]], bus := none,
                    host := { s.host with inbox := some c.bytes :: s.host.inbox } }

end Sys2Proof.Machine
end

