-- ==== Sys2Proof/Machine/Resume.lean ====
section
/-! DEFINITION. How the sequencer goes on from its position (10_state.md R22): the running operation's
program from the label it stands at, then the program of the operation that called it, and so on
until the sequencer is idle. -/

namespace Sys2Proof.Machine

/-- Whether an operation reads into its own buffer: sendAndAwaitResponse (44_transmit.md R264). -/
def ownsResponse : Instr → Bool
  | .sendAndAwaitResponse _ _ => true
  | _ => false

/-- The program of an operation, called by those of the frames `below`. A bus command is no operation
and has none. -/
def programOf (below : List Frame) (i : Instr) (s : State) : State :=
  match i with
  | .rRegister _ | .wRegister _ _ | .activate _ | .rRxPlWid | .rRxPayload _ | .wTxPayload _
  | .wAckPayload _ _ | .wTxPayloadNoack _ | .flushTx | .flushRx | .nop => s
  | .init mask => initProgram mask s
  | .setOwnAddress node => setOwnAddressProgram node s
  | .listenToAddress node => listenToAddressProgram node s
  | .setActive b => setActiveProgram b s
  | .isActive => isActiveProgram s
  | .startListening => startListeningProgram s
  | .stopListening => stopListeningProgram s
  | .currentMode => currentModeProgram s
  | .transmit target payload requestAck => transmitProgram target payload requestAck s
  | .send target payload wantCount => sendProgram target payload wantCount s
  | .sendAndAwaitResponse target payload => sendAndAwaitResponseProgram target payload s
  | .broadcast payload => broadcastProgram payload s
  | .available wantPipe => availableProgram wantPipe s
  | .read cap =>
    readProgram (if below.any fun f => ownsResponse f.op then .respBuf else .readBuf) cap s
  | .readText cap => readTextProgram cap s
  | .queueResponse payload => queueResponseProgram payload s
  | .setNetworkMask mask => setNetworkMaskProgram mask s
  | .setChannel ch => setChannelProgram ch s
  | .setRetries delay count => setRetriesProgram (delay.setWidth 4) (count.setWidth 4) s
  | .setDataRate dr => setDataRateProgram ((DataRate.ofByte s.params.variant dr).getD .mbps1) s
  | .setPALevel pa => setPALevelProgram ((PaLevel.ofByte pa).getD .m18) s
  | .setCRC mode => setCRCProgram ((CrcMode.ofByte mode).getD .off) s
  | .setAckEnabled b => setAckEnabledProgram b s
  | .assembleFullAddress node => assembleFullAddressProgram node s
  | .decomposeAddress addr => decomposeAddressProgram addr s

/-- The operations of a stack of frames, the innermost first, each from its label to its return. -/
def resumeFrames : List Frame → State → State
  | [], s => s
  | f :: below, s =>
    let s := programOf below f.op s
    if s.seq.length = below.length then resumeFrames below s else s

/-- The running operation, and those that called it, run to their end. -/
def State.resume (s : State) : State := resumeFrames s.seq s

end Sys2Proof.Machine
end

