-- ==== Sys2Proof/Machine/Step.lean ====
section
/-! DEFINITION. One step: the other agents' moves since the last one, then what the sequencer does: the
running operation from its position to its end, or, when idle, the next command. -/

namespace Sys2Proof.Machine

/-- What the next command does, if there is one. -/
def runCommand (s : State) : Host.Outcome State Fault Refusal :=
  match s.nextCommand with
  | none => .next s.taken
  | some c =>
    match decode c with
    | .ok i => exec i s.taken
    | .error e => .refused (refusalOf e)

/-- One step (00_scope.md R4, R6): a marked state answers its mark; otherwise the radio core and the
clock take their steps; then the running operation goes on from its position to its end
(10_state.md R22), or, when the sequencer is idle, the host issues its next operation
(60_exceptions.md R343). -/
def step (s : State) : Host.Outcome State Fault Refusal :=
  match s.marks with
  | some _ => s.outcome
  | none =>
    match s.interlude.marks with
    | some _ => s.interlude.outcome
    | none =>
      if s.interlude.seq.isEmpty then runCommand s.interlude else s.interlude.resume.outcome

/-- The state whose next step runs the opcode table's word `w` of `nbits` bits. -/
def State.withFetchWord (s : State) (nbits w : Nat) : State := s.place (wordCommand nbits w)

end Sys2Proof.Machine
end

