-- ==== Sys2Proof/Laws/Decode.lean ====
section
/-! SUPPORT. The parts of an encoding read back: register addresses, masks, flags bytes, payloads. -/

namespace Sys2Proof

@[simp] theorem Reg.ofBits_bits (a : Reg) : Reg.ofBits a.bits = a := by cases a <;> rfl

@[simp] theorem Reg.bits_ofBits (b : BitVec 5) : (Reg.ofBits b).bits = b := by
  revert b; decide

/-- A `REG` command byte holds its address. -/
@[simp] theorem regCommand_address (op : BitVec 3) (a : Reg) :
    (regCommand op a).extractLsb' 0 5 = a.bits := by
  have h : ∀ (o : BitVec 3) (b : BitVec 5),
      ((o.setWidth 8 <<< 5 ||| b.setWidth 8 : Byte)).extractLsb' 0 5 = b := by decide
  exact h op a.bits

/-- And its opcode. -/
@[simp] theorem regCommand_opcode (op : BitVec 3) (a : Reg) :
    (regCommand op a).extractLsb' 5 3 = op := by
  have h : ∀ (o : BitVec 3) (b : BitVec 5),
      ((o.setWidth 8 <<< 5 ||| b.setWidth 8 : Byte)).extractLsb' 5 3 = o := by decide
  exact h op a.bits

/-- The four bytes of a mask make the mask. -/
@[simp] theorem le32_maskBytes (m : BitVec 32) :
    le32 (m.extractLsb' 0 8) (m.extractLsb' 8 8) (m.extractLsb' 16 8) (m.extractLsb' 24 8) = m := by
  apply BitVec.eq_of_getLsbD_eq
  intro i hi
  simp only [le32, BitVec.getLsbD_or, BitVec.getLsbD_setWidth, BitVec.getLsbD_shiftLeft,
    BitVec.getLsbD_extractLsb']
  rcases Nat.lt_or_ge i 8 with h | h
  · simp [h, hi, show i < 16 by omega, show i < 24 by omega]
  · rcases Nat.lt_or_ge i 16 with h2 | h2
    · have e : 8 + (i - 8) = i := by omega
      simp [h2, hi, show ¬ i < 8 by omega, show i < 24 by omega, show i - 8 < 8 by omega,
        show i - 8 < 32 by omega, e]
    · rcases Nat.lt_or_ge i 24 with h3 | h3
      · have e : 16 + (i - 16) = i := by omega
        simp [h3, hi, show ¬ i < 8 by omega, show ¬ i < 16 by omega, show i - 16 < 8 by omega,
          show ¬ i - 8 < 8 by omega, show i - 16 < 32 by omega, e]
      · have e : 24 + (i - 24) = i := by omega
        simp [hi, show ¬ i < 8 by omega, show ¬ i < 16 by omega, show ¬ i < 24 by omega,
          show ¬ i - 8 < 8 by omega, show ¬ i - 16 < 8 by omega, show i - 24 < 8 by omega,
          show i - 24 < 32 by omega, e]

/-- A length byte holds a length of at most 255. -/
theorem toNat_length {n : Nat} (h : n ≤ 255) : (BitVec.ofNat 8 n).toNat = n := by
  simp; omega

theorem argPayload_payloadBytes (f : List Byte → Instr) {p : List Byte} (h : p.length ≤ 255) :
    argPayload f (payloadBytes p) = .ok (f p, []) := by
  simp [argPayload, payloadBytes, Nat.mod_eq_of_lt (show p.length < 256 by omega)]

@[simp] theorem argFlag_boolByte (f : Bool → List Byte → Parsed) (b : Bool) (r : List Byte) :
    argFlag f (boolByte b :: r) = f b r := by cases b <;> rfl

@[simp] theorem argBool_boolByte (f : Bool → Instr) (b : Bool) (r : List Byte) :
    argBool f (boolByte b :: r) = .ok (f b, r) := by cases b <;> rfl

end Sys2Proof
end

