-- ==== Sys2Proof/Laws/PerInstr.lean ====
section
/-! SUPPORT. A statement about every instruction, one lemma per constructor: its encoding's first byte is
in its row of the opcode table, on the row's interface (30_encoding.md R112, R119). -/

namespace Sys2Proof.Laws.FirstByte

/-- A row of the opcode table: its interface, mask and match. -/
structure Row where
  level : Level
  mask  : Byte
  value : Byte
  deriving DecidableEq, Repr

/-- The row of an instruction. -/
def row : Instr → Row
  | .rRegister _ => ⟨.bus, 0xE0, 0x00⟩
  | .wRegister _ _ => ⟨.bus, 0xE0, 0x20⟩
  | .activate _ => ⟨.bus, 0xFF, 0x50⟩
  | .rRxPlWid => ⟨.bus, 0xFF, 0x60⟩
  | .rRxPayload _ => ⟨.bus, 0xFF, 0x61⟩
  | .wTxPayload _ => ⟨.bus, 0xFF, 0xA0⟩
  | .wAckPayload _ _ => ⟨.bus, 0xF8, 0xA8⟩
  | .wTxPayloadNoack _ => ⟨.bus, 0xFF, 0xB0⟩
  | .flushTx => ⟨.bus, 0xFF, 0xE1⟩
  | .flushRx => ⟨.bus, 0xFF, 0xE2⟩
  | .nop => ⟨.bus, 0xFF, 0xFF⟩
  | .init _ => ⟨.op, 0xFF, 0x01⟩
  | .setOwnAddress _ => ⟨.op, 0xFF, 0x02⟩
  | .listenToAddress _ => ⟨.op, 0xFF, 0x03⟩
  | .setActive _ => ⟨.op, 0xFF, 0x04⟩
  | .isActive => ⟨.op, 0xFF, 0x05⟩
  | .startListening => ⟨.op, 0xFF, 0x06⟩
  | .stopListening => ⟨.op, 0xFF, 0x07⟩
  | .currentMode => ⟨.op, 0xFF, 0x08⟩
  | .transmit _ _ _ => ⟨.op, 0xFF, 0x10⟩
  | .send _ _ _ => ⟨.op, 0xFF, 0x11⟩
  | .sendAndAwaitResponse _ _ => ⟨.op, 0xFF, 0x12⟩
  | .broadcast _ => ⟨.op, 0xFF, 0x13⟩
  | .available _ => ⟨.op, 0xFF, 0x18⟩
  | .read _ => ⟨.op, 0xFF, 0x19⟩
  | .readText _ => ⟨.op, 0xFF, 0x1A⟩
  | .queueResponse _ => ⟨.op, 0xFF, 0x1B⟩
  | .setNetworkMask _ => ⟨.op, 0xFF, 0x20⟩
  | .setChannel _ => ⟨.op, 0xFF, 0x21⟩
  | .setRetries _ _ => ⟨.op, 0xFF, 0x22⟩
  | .setDataRate _ => ⟨.op, 0xFF, 0x23⟩
  | .setPALevel _ => ⟨.op, 0xFF, 0x24⟩
  | .setCRC _ => ⟨.op, 0xFF, 0x25⟩
  | .setAckEnabled _ => ⟨.op, 0xFF, 0x26⟩
  | .assembleFullAddress _ => ⟨.op, 0xFF, 0x30⟩
  | .decomposeAddress _ => ⟨.op, 0xFF, 0x31⟩

/-- The encoding stands in its row. -/
def Statement (i : Instr) : Prop :=
  ∃ b rest, (encode i).bytes = b :: rest ∧ (encode i).level = (row i).level ∧
    b &&& (row i).mask = (row i).value

theorem regCommand_row (op : BitVec 3) (a : Reg) :
    regCommand op a &&& 0xE0 = op.setWidth 8 <<< 5 := by
  have h : ∀ (o : BitVec 3) (b : BitVec 5),
      (o.setWidth 8 <<< 5 ||| b.setWidth 8 : Byte) &&& 0xE0 = o.setWidth 8 <<< 5 := by decide
  exact h op a.bits

theorem ackCommand_row (ppp : BitVec 3) : (0xA8#8 ||| ppp.setWidth 8) &&& 0xF8 = 0xA8 := by
  revert ppp; decide

theorem rRegister (a : Reg) : Statement (.rRegister a) :=
  ⟨_, _, rfl, rfl, regCommand_row _ _⟩

theorem wRegister (a : Reg) (v : List Byte) : Statement (.wRegister a v) :=
  ⟨_, _, rfl, rfl, regCommand_row _ _⟩

theorem activate (x : Byte) : Statement (.activate x) :=
  ⟨_, _, rfl, rfl, by simp only [row]; decide⟩

theorem rRxPlWid : Statement (.rRxPlWid) :=
  ⟨_, _, rfl, rfl, by simp only [row]; decide⟩

theorem rRxPayload (n : Nat) : Statement (.rRxPayload n) :=
  ⟨_, _, rfl, rfl, by simp only [row]; decide⟩

theorem wTxPayload (d : List Byte) : Statement (.wTxPayload d) :=
  ⟨_, _, rfl, rfl, by simp only [row]; decide⟩

theorem wAckPayload (ppp : BitVec 3) (d : List Byte) : Statement (.wAckPayload ppp d) :=
  ⟨_, _, rfl, rfl, ackCommand_row _⟩

theorem wTxPayloadNoack (d : List Byte) : Statement (.wTxPayloadNoack d) :=
  ⟨_, _, rfl, rfl, by simp only [row]; decide⟩

theorem flushTx : Statement (.flushTx) :=
  ⟨_, _, rfl, rfl, by simp only [row]; decide⟩

theorem flushRx : Statement (.flushRx) :=
  ⟨_, _, rfl, rfl, by simp only [row]; decide⟩

theorem nop : Statement (.nop) :=
  ⟨_, _, rfl, rfl, by simp only [row]; decide⟩

theorem init (mask : BitVec 32) : Statement (.init mask) :=
  ⟨_, _, rfl, rfl, by simp only [row]; decide⟩

theorem setOwnAddress (node : Byte) : Statement (.setOwnAddress node) :=
  ⟨_, _, rfl, rfl, by simp only [row]; decide⟩

theorem listenToAddress (node : Byte) : Statement (.listenToAddress node) :=
  ⟨_, _, rfl, rfl, by simp only [row]; decide⟩

theorem setActive (b : Bool) : Statement (.setActive b) :=
  ⟨_, _, rfl, rfl, by simp only [row]; decide⟩

theorem isActive : Statement (.isActive) :=
  ⟨_, _, rfl, rfl, by simp only [row]; decide⟩

theorem startListening : Statement (.startListening) :=
  ⟨_, _, rfl, rfl, by simp only [row]; decide⟩

theorem stopListening : Statement (.stopListening) :=
  ⟨_, _, rfl, rfl, by simp only [row]; decide⟩

theorem currentMode : Statement (.currentMode) :=
  ⟨_, _, rfl, rfl, by simp only [row]; decide⟩

theorem transmit (target : Byte) (payload : List Byte) (requestAck : Bool) : Statement (.transmit target payload requestAck) :=
  ⟨_, _, rfl, rfl, by simp only [row]; decide⟩

theorem send (target : Byte) (payload : List Byte) (wantCount : Bool) : Statement (.send target payload wantCount) :=
  ⟨_, _, rfl, rfl, by simp only [row]; decide⟩

theorem sendAndAwaitResponse (target : Byte) (payload : List Byte) : Statement (.sendAndAwaitResponse target payload) :=
  ⟨_, _, rfl, rfl, by simp only [row]; decide⟩

theorem broadcast (payload : List Byte) : Statement (.broadcast payload) :=
  ⟨_, _, rfl, rfl, by simp only [row]; decide⟩

theorem available (wantPipe : Bool) : Statement (.available wantPipe) :=
  ⟨_, _, rfl, rfl, by simp only [row]; decide⟩

theorem read (capacity : Nat) : Statement (.read capacity) :=
  ⟨_, _, rfl, rfl, by simp only [row]; decide⟩

theorem readText (capacity : Nat) : Statement (.readText capacity) :=
  ⟨_, _, rfl, rfl, by simp only [row]; decide⟩

theorem queueResponse (payload : List Byte) : Statement (.queueResponse payload) :=
  ⟨_, _, rfl, rfl, by simp only [row]; decide⟩

theorem setNetworkMask (mask : BitVec 32) : Statement (.setNetworkMask mask) :=
  ⟨_, _, rfl, rfl, by simp only [row]; decide⟩

theorem setChannel (ch : Byte) : Statement (.setChannel ch) :=
  ⟨_, _, rfl, rfl, by simp only [row]; decide⟩

theorem setRetries (delay count : Byte) : Statement (.setRetries delay count) :=
  ⟨_, _, rfl, rfl, by simp only [row]; decide⟩

theorem setDataRate (dr : Byte) : Statement (.setDataRate dr) :=
  ⟨_, _, rfl, rfl, by simp only [row]; decide⟩

theorem setPALevel (pa : Byte) : Statement (.setPALevel pa) :=
  ⟨_, _, rfl, rfl, by simp only [row]; decide⟩

theorem setCRC (mode : Byte) : Statement (.setCRC mode) :=
  ⟨_, _, rfl, rfl, by simp only [row]; decide⟩

theorem setAckEnabled (b : Bool) : Statement (.setAckEnabled b) :=
  ⟨_, _, rfl, rfl, by simp only [row]; decide⟩

theorem assembleFullAddress (node : Byte) : Statement (.assembleFullAddress node) :=
  ⟨_, _, rfl, rfl, by simp only [row]; decide⟩

theorem decomposeAddress (addr : Addr) : Statement (.decomposeAddress addr) :=
  ⟨_, _, rfl, rfl, by simp only [row]; decide⟩

end Sys2Proof.Laws.FirstByte
end

