-- ==== Sys2Proof/Safety.lean ====
section
/-! DEFINITION. The terms claims use: the invariant of the machine, the cache invariant, what the
environment cannot write, and the states from which a host operation runs to its end. -/

namespace Sys2Proof.Machine

/-! ## Invariants -/

/-- Every reserved bit of a register is 0 (10_state.md R23 to R41). -/
def Chip.reservedZero (v : ChipVariant) (c : Chip) : Prop :=
  c.config &&& 0x80 = 0 ∧ c.enAa &&& 0xC0 = 0 ∧ c.enRxaddr &&& 0xC0 = 0 ∧
    c.setupAw &&& 0xFC = 0 ∧ c.rfCh &&& 0x80 = 0 ∧ c.rfSetup &&& ~~~rfSetupMask v = 0 ∧
    c.rxPwP0 &&& 0xC0 = 0 ∧ c.rxPwP1 &&& 0xC0 = 0 ∧ c.rxPwP2 &&& 0xC0 = 0 ∧
    c.rxPwP3 &&& 0xC0 = 0 ∧ c.rxPwP4 &&& 0xC0 = 0 ∧ c.rxPwP5 &&& 0xC0 = 0 ∧
    c.dynpd &&& 0xC0 = 0 ∧ c.feature &&& 0xF8 = 0

/-- The FIFOs hold at most 3 entries, of 0 to 32 and of 1 to 32 bytes (10_state.md R42, R43). -/
def Chip.fifosFit (c : Chip) : Prop :=
  c.txf.length ≤ txFifoDepth ∧ c.rxf.length ≤ rxFifoDepth ∧
    (∀ e ∈ c.txf, e.data.length ≤ maxPayload) ∧
    ∀ e ∈ c.rxf, 1 ≤ e.data.length ∧ e.data.length ≤ maxPayload

/-- The machine invariant: the sequencer idle, reserved bits 0, FIFOs within their bounds, at most 5
listeners, a network mask once initialized, `sh.dataRate` and `DEFAULT_DR` data rates of the variant,
the select line deasserted, and buffers in canonical form. -/
structure State.Inv (s : State) : Prop where
  idle       : s.seq = []
  reserved   : s.chip.reservedZero s.params.variant
  fifos      : s.chip.fifosFit
  listeners  : s.sh.extraPipes ≤ numListeners
  mask       : s.sh.initialized = true → s.sh.networkMask.isSome = true
  rate       : s.params.variant.has s.sh.settings.dataRate = true
  defaultDr  : s.params.variant.has s.params.defaultDr = true
  deselected : s.csn = false
  readBuf    : Memory.wf s.host.readBuf = true
  respBuf    : Memory.wf s.host.respBuf = true

/-- The cache invariant of 10_state.md R52. -/
def State.CacheInv (s : State) : Prop :=
  (∀ a, s.sh.txAddrCache = some a → s.chip.txAddr = a) ∧
    ∀ a, s.sh.rxP0Cache = some a → s.chip.rxAddrP0 = a

/-! ## What the environment cannot write (41_radio_core.md R197) -/

/-- The chip without what radio steps write: the three flags, the counters, both FIFOs and
`txActive`. -/
def Chip.steady (c : Chip) : Chip :=
  { c with rxDr := false, txDs := false, maxRt := false, plosCnt := 0, arcCnt := 0,
           txf := [], rxf := [], txActive := false }

/-- The state without what radio steps and the clock write, and without the coming answers. -/
def State.steady (s : State) : State :=
  { s with chip := s.chip.steady, now := 0, env := [], drawn := 0 }

/-- What the sequencer puts out: a transaction's bytes out or a level on CE, without what the chip
answers. -/
def BusEvent.outgoing : BusEvent → BusEvent
  | .xfer out _ _ => .xfer out 0 []
  | .ce level => .ce level

/-- The state without that and without the bus latch, the answers in the trace and the select line,
which every transaction leaves deasserted. The trace keeps what the sequencer put out, the newest
first. -/
def State.kept (s : State) : State :=
  { s.steady with csn := false, busStatus := 0, busIn := [],
                  busLog := s.busLog.map BusEvent.outgoing }

/-- A bus transaction as `kept` holds it. -/
def sends (out : List Byte) : BusEvent := .xfer out 0 []

/-! ## Where host operations run -/

/-- A move that is a partial reset (70_reset_and_hazards.md R350). -/
def isReset : EnvMove → Bool
  | .chipReset => true
  | .sequencerReset _ => true
  | _ => false

/-- No partial reset is to come. -/
def State.NoResets (s : State) : Prop := ∀ ms ∈ s.env, ∀ m ∈ ms, isReset m = false

/-- The configuration the initialization leaves, in which no radio step is refused
(41_radio_core.md R205, 70_reset_and_hazards.md R354). -/
def Chip.Admitted (c : Chip) : Prop :=
  c.awAdmitted = true ∧ ∀ p, c.dynamicPayload p = true

/-- No radio step is refused: the configuration is the admitted one, or the chip is powered down, where
no attempt and no reception is enabled (41_radio_core.md R174, R190). -/
def Chip.Tame (c : Chip) : Prop := c.Admitted ∨ c.pwrUp = false

/-- The sequencer is idle and the state is not marked. -/
def State.Idle (s : State) : Prop := s.marks = none ∧ s.seq = []

/-- A host operation other than init may be issued (30_encoding.md R127, 60_exceptions.md R343). -/
def State.Ready (s : State) : Prop := s.Idle ∧ s.sh.initialized = true

/-- Any environment that resets nothing, over a present chip in the admitted configuration. -/
structure State.Calm (s : State) : Prop where
  noResets : s.NoResets
  present  : s.params.chipPresent = true
  admitted : s.chip.Admitted

/-- A silent environment: no answer is to come and no attempt is owed. -/
def State.Silent (s : State) : Prop := s.env = [] ∧ s.params.txProgress = .free

/-- `exec` answers a next state, no earlier than `u` is, which is `u` but for what radio steps, the
clock and the chip's answers write; in a silent environment its chip is exactly `u`'s; and its trace
meets `seen`, which says what the chip answered. -/
def Completes (i : Instr) (s u : State) (seen : List BusEvent → Prop := fun _ => True) : Prop :=
  ∃ t, exec i s = .next t ∧ t.kept = u.kept ∧ u.now ≤ t.now ∧ (s.Silent → t.chip = u.chip) ∧
    seen t.busLog

/-- The status byte and the bytes read of the newest transaction that sent `out`. -/
def lastAnswer (out : List Byte) : List BusEvent → Option (Byte × List Byte)
  | [] => none
  | .ce _ :: log => lastAnswer out log
  | .xfer o st inn :: log => if o = out then some (st, inn) else lastAnswer out log

/-- The status bytes of the transactions that sent `out`, the newest first. -/
def statusesOf (out : List Byte) : List BusEvent → List Byte
  | [] => []
  | .ce _ :: log => statusesOf out log
  | .xfer o st _ :: log => if o = out then st :: statusesOf out log else statusesOf out log

/-- The values a CONFIG readback may have: EN_CRC reads 0 or 1 where automatic acknowledgment forces
it (10_state.md R24). -/
def Chip.configReads (c : Chip) : List Byte :=
  if c.crcForced then [c.config, c.config ||| 0x08] else [c.config]

/-! ## Bus commands on a present chip -/

/-- The state after a bus transaction that sends `out`, reads `inn`, leaves the chip `c` and has drawn
up to `n`: the status byte is the one before the effect (40_bus_commands.md header, 20_memory.md
R82). -/
def State.exchanged (out inn : List Byte) (c : Chip) (n : Nat) (s : State) : State :=
  { s with chip := c, csn := false, drawn := n, busStatus := s.chip.status, busIn := inn,
           busLog := .xfer out s.chip.status inn :: s.busLog }

/-- The value a register holds (10_state.md R24 to R41), byte 0 first; the reserved addresses hold
none. -/
def Chip.held (c : Chip) : Reg → List Byte
  | .config => [c.config]
  | .enAa => [c.enAa]
  | .enRxaddr => [c.enRxaddr]
  | .setupAw => [c.setupAw]
  | .setupRetr => [c.setupRetr]
  | .rfCh => [c.rfCh]
  | .rfSetup => [c.rfSetup]
  | .status => [c.status]
  | .observeTx => [c.observeTx]
  | .rxAddrP0 => c.rxAddrP0.toList
  | .rxAddrP1 => c.rxAddrP1.toList
  | .rxAddrP2 => [c.rxAddrP2]
  | .rxAddrP3 => [c.rxAddrP3]
  | .rxAddrP4 => [c.rxAddrP4]
  | .rxAddrP5 => [c.rxAddrP5]
  | .txAddr => c.txAddr.toList
  | .rxPwP0 => [c.rxPwP0]
  | .rxPwP1 => [c.rxPwP1]
  | .rxPwP2 => [c.rxPwP2]
  | .rxPwP3 => [c.rxPwP3]
  | .rxPwP4 => [c.rxPwP4]
  | .rxPwP5 => [c.rxPwP5]
  | .fifoStatus => [c.fifoStatus]
  | .dynpd => [c.dynpd]
  | .feature => [c.feature]
  | .cd => [if c.cd then 0x01 else 0x00]
  | .rsv18 | .rsv19 | .rsv1A | .rsv1B | .rsv1E | .rsv1F => []

/-- What a read of a register may answer (40_bus_commands.md R140). -/
def Chip.Answers (c : Chip) : Reg → List Byte → Prop
  | .config, d => ∃ v ∈ c.configReads, d = [v]
  | .cd, d => d = [0x00] ∨ d = [0x01]
  | .dynpd, d => d = [if c.featuresUnlocked then c.dynpd else 0x00]
  | .feature, d => d = [if c.featuresUnlocked then c.feature else 0x00]
  | .rsv18, d | .rsv19, d | .rsv1A, d | .rsv1B, d | .rsv1E, d | .rsv1F, d => d.length = 1
  | a, d => d = c.held a

/-- The bits of a one-byte register that a write sets (40_bus_commands.md R141); none of a
read-only one. -/
def writableBits (v : ChipVariant) : Reg → Byte
  | .config => 0x7F
  | .enAa | .enRxaddr | .dynpd => 0x3F
  | .rxPwP0 | .rxPwP1 | .rxPwP2 | .rxPwP3 | .rxPwP4 | .rxPwP5 => 0x3F
  | .setupAw => 0x03
  | .rfCh => 0x7F
  | .rfSetup => match v with | .nRF24L01 => 0x1F | .nRF24L01P => 0xBF
  | .feature => 0x07
  | .setupRetr | .rxAddrP2 | .rxAddrP3 | .rxAddrP4 | .rxAddrP5 => 0xFF
  | _ => 0x00

/-- What a register holds after a write of the bytes `v` to it, `c` being the chip before
(40_bus_commands.md R141). -/
def Chip.heldAfter (variant : ChipVariant) (c : Chip) (a : Reg) (v : List Byte) : List Byte :=
  match a with
  | .status => [c.status &&& ~~~(v.headD 0 &&& 0x70)]
  | .observeTx | .cd | .fifoStatus => c.held a
  | .rxAddrP0 | .rxAddrP1 | .txAddr => v
  | .dynpd | .feature =>
    if c.featuresUnlocked then [v.headD 0 &&& writableBits variant a] else c.held a
  | _ => [v.headD 0 &&& writableBits variant a]

/-- The state that no register holds (10_state.md R42, R43, R45, R46). -/
def Chip.SameHidden (c d : Chip) : Prop :=
  c.txf = d.txf ∧ c.rxf = d.rxf ∧ c.rxCorrupt = d.rxCorrupt ∧
    c.featuresUnlocked = d.featuresUnlocked ∧ c.txActive = d.txActive

/-! ## What the shared programs leave, as the rules say it

Each is the state after the steps it names when no radio step comes between. -/

/-- All three interrupt flags cleared (30_encoding.md R126 ClearIRQ). -/
def Chip.flagsCleared (c : Chip) : Chip := { c with rxDr := false, txDs := false, maxRt := false }

/-- Both FIFOs flushed (40_bus_commands.md R147, R148). -/
def Chip.flushed (c : Chip) : Chip := { c with txf := [], rxf := [], rxCorrupt := false }

/-- S3 of startListening (43_mode_control.md R232): pipe 0 goes back to the own address when there is
one and the cached address differs. -/
def State.pipe0Restored (s : State) : State :=
  match s.sh.ownAddress with
  | none => s
  | some o =>
    let a := fullAddress o s.mask
    if s.sh.rxP0Cache = some a then s
    else { s with chip.rxAddrP0 := a, sh.rxP0Cache := some a,
                  busLog := sends (0x2A :: a.toList) :: s.busLog }

/-- startListening (43_mode_control.md R232), from the value `v` that its CONFIG read answers. -/
def State.listened (v : Byte) (s : State) : State :=
  let s := { s with chip := { s.chip with config := (v ||| 0x03) &&& 0x7F }.flagsCleared,
                    busLog := sends [0x27, 0x70] :: sends [0x20, v ||| 0x03] ::
                      sends [0x00, 0x00] :: s.busLog }
  let s := s.pipe0Restored
  { s with ce := true, chip := s.chip.flushed, sh.listening := true,
           busLog := sends [0xE1] :: sends [0xE2] :: .ce true :: s.busLog }

/-- A payload loaded for transmission (40_bus_commands.md R144, R145). -/
def Chip.loaded (p : List Byte) (requestAck : Bool) (c : Chip) : Chip :=
  if requestAck then c.pushTx ⟨p, false, none⟩
  else if c.enDynAck then c.pushTx ⟨p, true, none⟩
  else c

/-- S2 and S3 of transmit (44_transmit.md R251, R252). -/
def State.addressed (a : Addr) (requestAck : Bool) (s : State) : State :=
  let s := if s.sh.txAddrCache = some a then s
    else { s with chip.txAddr := a, sh.txAddrCache := some a,
                  busLog := sends (0x30 :: a.toList) :: s.busLog }
  if requestAck = false ∨ s.sh.rxP0Cache = some a then s
  else { s with chip.rxAddrP0 := a, sh.rxP0Cache := some a,
                busLog := sends (0x2A :: a.toList) :: s.busLog }

/-- S4 to S8 of transmit (44_transmit.md R253 to R256), from the value `cfg` that its CONFIG read
answers. -/
def State.triggered (cfg : Byte) (p : List Byte) (requestAck : Bool) (s : State) : State :=
  { s with chip := { s.chip.flagsCleared with
                     config := ((cfg ||| 0x02) &&& 0xFE) &&& 0x7F }.loaded p requestAck,
           ce := true, now := if bit cfg 1 then s.now else s.now + 2000,
           busLog := .ce true :: sends ((if requestAck then 0xA0 else 0xB0) :: p) ::
             sends [0x20, (cfg ||| 0x02) &&& 0xFE] :: .ce false :: sends [0x00, 0x00] ::
             sends [0x27, 0x70] :: s.busLog }

/-- The poll, of `polls` NOPs whose last answers the status byte `st`, and S10 of transmit
(44_transmit.md R256, R257): without a flag in it the watchdog has elapsed. -/
def State.polled (polls : Nat) (st : Byte) (s : State) : State :=
  { s with ce := false, now := if bit st 5 || bit st 4 then s.now else s.now + 500000,
           busLog := .ce false :: (List.replicate polls (sends [0xFF]) ++ s.busLog) }

/-- Clearing PWR_UP (30_encoding.md R126 ClearBits), from the value `v` that its CONFIG read
answers. -/
def State.poweredDown (v : Byte) (s : State) : State :=
  { s with chip.config := (v &&& 0xFD) &&& 0x7F,
           busLog := sends [0x20, v &&& 0xFD] :: sends [0x00, 0x00] :: s.busLog }

/-- S11 of transmit (44_transmit.md R258), from the value `v` that its CONFIG read, if it makes one,
answers. -/
def State.restored (wasActive : Bool) (v : Byte) (s : State) : State :=
  if wasActive = false then s.poweredDown v
  else if s.sh.listening then s.listened v
  else s

/-- transmit (44_transmit.md R250 to R260): an empty payload does nothing and fails. Otherwise `s`
becomes `u`; of the `polls` NOPs in the trace `log` the last answers the status byte `st`, whose TX_DS
is the result `ok`, and every earlier one answers neither TX_DS nor MAX_RT, which would have ended the
poll (R256). -/
def State.Transmits (s : State) (target : Byte) (payload : List Byte) (requestAck ok : Bool)
    (u : State) (log : List BusEvent) : Prop :=
  (payload = [] ∧ ok = false ∧ u = s) ∨
    (payload ≠ [] ∧ ∃ (cfg v st : Byte) (polls : Nat) (earlier : List Byte),
      let x := (s.addressed (fullAddress target s.mask) requestAck).triggered cfg
        (payload.take 32) requestAck
      let y := x.polled polls st
      cfg ∈ s.chip.configReads ∧ v ∈ y.chip.configReads ∧
        (s.Silent → st = x.chip.status) ∧ ok = bit st 5 ∧
        (statusesOf [0xFF] log).take polls = st :: earlier ∧ earlier.length + 1 = polls ∧
        (∀ b ∈ earlier, bit b 5 = false ∧ bit b 4 = false) ∧ u = y.restored (bit cfg 1) v)

/-- read (45_receive_ackq.md R282) of the bytes `d`, `c` being the chip after its payload read. -/
def State.hasRead (b : BufId) (d : List Byte) (c : Chip) (s : State) : State :=
  let s := s.memWrite b 0 d
  { s with ce := true, chip := { c with rxDr := false },
           busLog := .ce true :: sends [0x27, 0x40] ::
             sends (0x61 :: List.replicate d.length 0) :: sends [0x60, 0x00] :: .ce false ::
             s.busLog }

/-- What S2 of listenToAddress writes for listener `k` (42_addressing_pipes.md R214, R215): the full
address on pipe 1 for the first, the low byte on pipe `k + 1` for a later one. -/
def Chip.withListener (k : Nat) (node : Byte) (mask : BitVec 32) (c : Chip) : Chip :=
  match k with
  | 0 => { c with rxAddrP1 := fullAddress node mask }
  | 1 => { c with rxAddrP2 := node }
  | 2 => { c with rxAddrP3 := node }
  | 3 => { c with rxAddrP4 := node }
  | _ => { c with rxAddrP5 := node }

/-- What read takes from the RX FIFO of the chip `c0` with an entry at its head: as many of its bytes
as the buffer holds, `d`, leaving the chip `c`. A longer entry is cut, the rest is not drained, and
whether it stays is open (45_receive_ackq.md R282, R283, 40_bus_commands.md R142, R143). -/
def Chip.GivesHead (c0 : Chip) (cap : Nat) (d : List Byte) (c : Chip) : Prop :=
  ∀ e r, c0.rxf = e :: r → c0.rxCorrupt = false → c0.featuresUnlocked = true →
    e.data.length ≤ maxPayload → d = e.data.take cap ∧
      if e.data.length ≤ cap then c = { c0 with rxf := r }
      else c = { c0 with rxCorrupt := true } ∨ c = { c0 with rxCorrupt := true, rxf := r }

/-- The trace of a read into `cap` bytes: the last R_RX_PL_WID answered a width, the last R_RX_PAYLOAD
asked for the smaller of it and `cap`, and answered the bytes `d` (45_receive_ackq.md R282). -/
def ReadAnswered (cap : Nat) (d : List Byte) (log : List BusEvent) : Prop :=
  ∃ sw w sd, lastAnswer [0x60, 0x00] log = some (sw, [w]) ∧ d.length = min w.toNat cap ∧
    lastAnswer (0x61 :: List.replicate d.length 0) log = some (sd, d)

/-- The host operations (30_encoding.md R119), as against the bus commands. -/
def isHostOp (i : Instr) : Bool :=
  match (encode i).level with
  | .bus => false
  | .op => true

/-- The state a host operation's program starts from. -/
def State.issued (i : Instr) (s : State) : State :=
  ({ s with host := { s.host with result := .none } } : State).push i

end Sys2Proof.Machine
end

