-- ==== Sys2Proof/Certificates/Slice0/Obligations.lean ====
section
/-! DEFINITION. The statements for the provers: the bus commands, the values a read computes, the
radio core, the host operations, and the rules of the whole machine. -/

open Sys2Proof Sys2Proof.Machine

/-! ## Encoding -/

/-- Decoding an encoded well-formed instruction gives it back (30_encoding.md R112, R118, R119). -/
def Obligations.DecodeInvertsEncode : Prop :=
  ∀ i : Instr, wellFormed i = true → decode (encode i) = .ok i

/-- Words written out from the tables of 30_encoding.md R112 and R119, and the examples of R124 and
R125, decode to the instructions they stand for. -/
def Obligations.WordsDecode : Prop :=
  decode ⟨.bus, [0x00, 0x00]⟩ = .ok (.rRegister .config) ∧
  decode ⟨.bus, [0x2B, 0x02, 0xDD, 0xCC, 0xBB, 0xAA]⟩ =
    .ok (.wRegister .rxAddrP1 [0x02, 0xDD, 0xCC, 0xBB, 0xAA]) ∧
  decode ⟨.bus, [0x50, 0x73]⟩ = .ok (.activate 0x73) ∧
  decode ⟨.bus, [0xA9, 0x41]⟩ = .ok (.wAckPayload 1 [0x41]) ∧
  decode ⟨.bus, [0xFF]⟩ = .ok .nop ∧
  decode ⟨.op, [0x01, 0xDD, 0xCC, 0xBB, 0xAA]⟩ = .ok (.init 0xAABBCCDD) ∧
  decode ⟨.op, [0x03, 0x02]⟩ = .ok (.listenToAddress 0x02) ∧
  decode ⟨.op, [0x10, 0x02, 0x01, 0x03, 0x68, 0x69, 0x00]⟩ =
    .ok (.transmit 0x02 [0x68, 0x69, 0x00] true) ∧
  decode ⟨.op, [0x22, 0xF3]⟩ = .ok (.setRetries 15 3)

/-- The command bytes no row of 30_encoding.md R112 matches are refused, whatever follows them (R120);
0xAE and 0xAF under the name of R114. And the host op bytes no row of R119 matches, whatever follows
them, and a flags byte with any of bits 7:1 set (R122). -/
def Obligations.UnadmittedCommandsRefused : Prop :=
  (∀ (b : Byte) (data : List Byte),
    ((0x40 ≤ b.toNat ∧ b.toNat ≤ 0x4F) ∨ (0x51 ≤ b.toNat ∧ b.toNat ≤ 0x5F) ∨
        (0x62 ≤ b.toNat ∧ b.toNat ≤ 0x9F) ∨ (0xA1 ≤ b.toNat ∧ b.toNat ≤ 0xA7) ∨
        (0xB1 ≤ b.toNat ∧ b.toNat ≤ 0xE0) ∨ (0xE3 ≤ b.toNat ∧ b.toNat ≤ 0xFE) →
      decode ⟨.bus, b :: data⟩ = .error .unadmittedCommand) ∧
    (b = 0xAE ∨ b = 0xAF → decode ⟨.bus, b :: data⟩ = .error .badAckPipe)) ∧
  (∀ (b : Byte) (args : List Byte),
    b = 0x00 ∨ (0x09 ≤ b.toNat ∧ b.toNat ≤ 0x0F) ∨ (0x14 ≤ b.toNat ∧ b.toNat ≤ 0x17) ∨
        (0x1C ≤ b.toNat ∧ b.toNat ≤ 0x1F) ∨ (0x27 ≤ b.toNat ∧ b.toNat ≤ 0x2F) ∨
        0x32 ≤ b.toNat →
      decode ⟨.op, b :: args⟩ = .error .unknownHostOp) ∧
  ∀ (target flags : Byte) (rest : List Byte), 2 ≤ flags.toNat →
    decode ⟨.op, 0x10 :: target :: flags :: rest⟩ = .error .unknownHostOp ∧
    decode ⟨.op, 0x11 :: target :: flags :: rest⟩ = .error .unknownHostOp ∧
    decode ⟨.op, 0x18 :: flags :: rest⟩ = .error .unknownHostOp

/-- Data phases of the lengths of 30_encoding.md R116 decode, and every other length is refused; the
meanings refuse the same lengths. That the width of a reserved address is one byte is the model's
choice (log 8). -/
def Obligations.DataLengths : Prop :=
  (∀ (a : Reg) (d : List Byte),
    decode ⟨.bus, regCommand 0b000 a :: d⟩ =
      if d.length = a.width then .ok (.rRegister a) else .error .badDataLength) ∧
  (∀ (a : Reg) (d : List Byte), a.isReserved = false →
    decode ⟨.bus, regCommand 0b001 a :: d⟩ =
      if d.length = a.width then .ok (.wRegister a d) else .error .badDataLength) ∧
  (∀ d : List Byte,
    let admits (cmd : Byte) (lo hi : Nat) (i : Instr) : Prop :=
      decode ⟨.bus, cmd :: d⟩ =
        if lo ≤ d.length ∧ d.length ≤ hi then .ok i else .error .badDataLength
    admits 0xE1 0 0 .flushTx ∧ admits 0xE2 0 0 .flushRx ∧ admits 0xFF 0 0 .nop ∧
    admits 0x50 1 1 (.activate (d.headD 0)) ∧ admits 0x60 1 1 .rRxPlWid ∧
    admits 0x61 0 255 (.rRxPayload d.length) ∧ admits 0xA0 1 32 (.wTxPayload d) ∧
    admits 0xB0 1 32 (.wTxPayloadNoack d) ∧
    ∀ p : BitVec 3, p.toNat < 6 → admits (0xA8 ||| p.setWidth 8) 0 32 (.wAckPayload p d)) ∧
  (∀ (d : List Byte) (s : State), ¬(1 ≤ d.length ∧ d.length ≤ 32) →
    exec (.wTxPayload d) s = .refused .badDataLength ∧
    exec (.wTxPayloadNoack d) s = .refused .badDataLength) ∧
  (∀ (p : BitVec 3) (d : List Byte) (s : State), p.toNat < 6 → 32 < d.length →
    exec (.wAckPayload p d) s = .refused .badDataLength) ∧
  ∀ (n : Nat) (s : State), 255 < n → exec (.rRxPayload n) s = .refused .badDataLength

/-! ## Bus commands on a present chip

Each says the whole next state, so it says what the command leaves unchanged too. -/

/-- R_REGISTER (40_bus_commands.md R140): the answer is the register's value, or what a draw may be;
nothing but the reply, the trace and the count of draws changes. That a read of a reserved address
answers one byte is the model's choice (log 8). -/
def Obligations.RegisterRead : Prop :=
  ∀ (s : State) (a : Reg), s.params.chipPresent = true →
    ∃ (d : List Byte) (n : Nat),
      exec (.rRegister a) s =
        .next (s.exchanged (regCommand 0b000 a :: List.replicate a.width 0) d s.chip n) ∧
      s.drawn ≤ n ∧ d.length = a.width ∧ s.chip.Answers a d

/-- W_REGISTER (40_bus_commands.md R141): what the register holds afterwards, that a write of RF_CH clears
PLOS_CNT and nothing else of OBSERVE_TX, and that no other register and no hidden state changes; a
reserved address is refused. -/
def Obligations.RegisterWrite : Prop :=
  ∀ (s : State) (a : Reg) (v : List Byte),
    (a.isReserved = true → exec (.wRegister a v) s = .refused .reservedRegisterWrite) ∧
    (s.params.chipPresent = true → a.isReserved = false → v.length = a.width →
      ∃ c : Chip,
        exec (.wRegister a v) s =
          .next (s.exchanged (regCommand 0b001 a :: v) (List.replicate v.length 0) c s.drawn) ∧
        c.held a = s.chip.heldAfter s.params.variant a v ∧
        (∀ b, b ≠ a → ¬(a = .rfCh ∧ b = .observeTx) → c.held b = s.chip.held b) ∧
        (a = .rfCh → c.plosCnt = 0 ∧ c.arcCnt = s.chip.arcCnt) ∧ c.SameHidden s.chip)

/-- STATUS and FIFO_STATUS (10_state.md R31, R39): what each bit reads; a write of STATUS clears the
flags it has a 1 for and changes nothing else; every transaction returns STATUS as its first byte. -/
def Obligations.StatusRegisters : Prop :=
  (∀ c : Chip, bit c.status 7 = false ∧ bit c.status 6 = c.rxDr ∧ bit c.status 5 = c.txDs ∧
    bit c.status 4 = c.maxRt ∧ bit c.status 0 = decide (c.txf.length = 3) ∧
    (c.rxf = [] → statusPipe c.status = 0b111) ∧
    (∀ e r, c.rxf = e :: r → (statusPipe c.status).toNat = e.pipe.val) ∧
    statusPipe c.status ≠ 0b110 ∧
    bit c.fifoStatus 7 = false ∧ bit c.fifoStatus 6 = false ∧
    bit c.fifoStatus 5 = decide (c.txf.length = 3) ∧
    bit c.fifoStatus 4 = decide (c.txf.length = 0) ∧ bit c.fifoStatus 3 = false ∧
    bit c.fifoStatus 2 = false ∧ bit c.fifoStatus 1 = decide (c.rxf.length = 3) ∧
    bit c.fifoStatus 0 = decide (c.rxf.length = 0)) ∧
  ∀ (s : State) (v : Byte), s.params.chipPresent = true →
    exec (.wRegister .status [v]) s =
      .next (s.exchanged [0x27, v] [0]
        { s.chip with rxDr := s.chip.rxDr && !bit v 6, txDs := s.chip.txDs && !bit v 5,
                      maxRt := s.chip.maxRt && !bit v 4 } s.drawn)

/-- Reserved and read-only registers (30_encoding.md R121): a write of a reserved address is refused,
a read of one answers a byte and changes no state, one byte being the model's choice (log 8); a write
of OBSERVE_TX, CD or FIFO_STATUS is admitted and leaves the chip as it is. -/
def Obligations.ReservedAndReadOnlyRegisters : Prop :=
  ∀ (s : State) (a : Reg),
    (a.isReserved = true →
      (∀ v, exec (.wRegister a v) s = .refused .reservedRegisterWrite) ∧
      (s.params.chipPresent = true → ∃ b,
        exec (.rRegister a) s =
          .next (s.exchanged [regCommand 0b000 a, 0] [b] s.chip (s.drawn + 1)))) ∧
    (a = .observeTx ∨ a = .cd ∨ a = .fifoStatus → s.params.chipPresent = true → ∀ b,
      exec (.wRegister a [b]) s =
        .next (s.exchanged [regCommand 0b001 a, b] [0] s.chip s.drawn))

/-- W_TX_PAYLOAD and W_TX_PAYLOAD_NOACK (40_bus_commands.md R144, R145): the payload goes to the end
of TXF, marked no-ack by the second, which needs EN_DYN_ACK set and the features unlocked; a full
TXF discards it. -/
def Obligations.PayloadWrites : Prop :=
  ∀ (s : State) (d : List Byte), s.params.chipPresent = true → 1 ≤ d.length → d.length ≤ 32 →
    exec (.wTxPayload d) s =
      .next (s.exchanged (0xA0 :: d) (List.replicate d.length 0)
        (if s.chip.txf.length = 3 then s.chip
         else { s.chip with txf := s.chip.txf ++ [⟨d, false, none⟩] }) s.drawn) ∧
    exec (.wTxPayloadNoack d) s =
      .next (s.exchanged (0xB0 :: d) (List.replicate d.length 0)
        (if s.chip.featuresUnlocked = true ∧ bit s.chip.feature 0 = true ∧
            s.chip.txf.length ≠ 3 then
          { s.chip with txf := s.chip.txf ++ [⟨d, true, none⟩] }
         else s.chip) s.drawn)

/-- W_ACK_PAYLOAD (40_bus_commands.md R146): staged in the receive role with EN_ACK_PAY set, the
features unlocked and room in TXF, an empty payload perhaps; else nothing. Pipes 6 and 7 are refused
(30_encoding.md R114). -/
def Obligations.AckPayloadWrite : Prop :=
  ∀ (s : State) (p : BitVec 3) (d : List Byte),
    (6 ≤ p.toNat → exec (.wAckPayload p d) s = .refused .badAckPipe) ∧
    ∀ hp : p.toNat < 6, s.params.chipPresent = true → d.length ≤ 32 →
      ∃ (c : Chip) (n : Nat),
        exec (.wAckPayload p d) s =
          .next (s.exchanged ((0xA8#8 ||| p.setWidth 8) :: d) (List.replicate d.length 0) c n) ∧
        (if s.chip.featuresUnlocked = true ∧ bit s.chip.feature 1 = true ∧
            bit s.chip.config 0 = true ∧ s.chip.txf.length ≠ 3 then
          c = { s.chip with txf := s.chip.txf ++ [⟨d, false, some ⟨p.toNat, hp⟩⟩] } ∨
            d = [] ∧ c = s.chip
         else c = s.chip)

/-- R_RX_PL_WID (40_bus_commands.md R143): the width of the head of RXF, where the features are
unlocked and no partial read stands; any byte else; nothing changes. And R_RX_PAYLOAD (R142), its
five cases. -/
def Obligations.PayloadRead : Prop :=
  (∀ s : State, s.params.chipPresent = true →
    ∃ (w : Byte) (n : Nat),
      exec .rRxPlWid s = .next (s.exchanged [0x60, 0x00] [w] s.chip n) ∧
      ∀ e r, s.chip.rxf = e :: r → s.chip.rxCorrupt = false → s.chip.featuresUnlocked = true →
        e.data.length ≤ 32 → w.toNat = e.data.length) ∧
  ∀ (s : State) (n : Nat), s.params.chipPresent = true → n ≤ 255 →
    ∃ (d : List Byte) (c : Chip) (k : Nat),
      exec (.rRxPayload n) s = .next (s.exchanged (0x61 :: List.replicate n 0) d c k) ∧
      d.length = n ∧
      (s.chip.rxf = [] → c = s.chip) ∧
      ∀ e r, s.chip.rxf = e :: r →
        (s.chip.rxCorrupt = true → c = s.chip ∨ c = { s.chip with rxf := r }) ∧
        (s.chip.rxCorrupt = false → e.data.length ≤ n →
          d.take e.data.length = e.data ∧ c = { s.chip with rxf := r }) ∧
        (s.chip.rxCorrupt = false → n < e.data.length →
          d = e.data.take n ∧
            (c = { s.chip with rxCorrupt := true } ∨
             c = { s.chip with rxCorrupt := true, rxf := r }))

/-- FLUSH_TX (40_bus_commands.md R147): TXF is emptied, TX_FULL and TX_EMPTY follow, no flag changes,
and a transmit cycle in progress cannot go on. -/
def Obligations.FlushTx : Prop :=
  ∀ s : State, s.params.chipPresent = true →
    exec .flushTx s = .next (s.exchanged [0xE1] [] { s.chip with txf := [] } s.drawn) ∧
    let t := s.exchanged [0xE1] [] { s.chip with txf := [] } s.drawn
    bit t.chip.status 0 = false ∧ bit t.chip.fifoStatus 5 = false ∧
      bit t.chip.fifoStatus 4 = true ∧
      bit t.chip.status 6 = bit s.chip.status 6 ∧ bit t.chip.status 5 = bit s.chip.status 5 ∧
      bit t.chip.status 4 = bit s.chip.status 4 ∧
      t.attemptDue = false ∧ t.txAbandon.chip.txActive = false

/-- FLUSH_RX (40_bus_commands.md R148): RXF is emptied and `rxCorrupt` cleared; RX_DR stays;
RX_P_NO reads 0b111; no other bus command clears `rxCorrupt`. -/
def Obligations.FlushRx : Prop :=
  ∀ s : State, s.params.chipPresent = true →
    exec .flushRx s =
      .next (s.exchanged [0xE2] [] { s.chip with rxf := [], rxCorrupt := false } s.drawn) ∧
    statusPipe ({ s.chip with rxf := [], rxCorrupt := false } : Chip).status = 0b111 ∧
    (s.chip.rxCorrupt = true → ∀ i t, isHostOp i = false → i ≠ .flushRx →
      exec i s = .next t → t.chip.rxCorrupt = true)

/-- NOP (40_bus_commands.md R149): only the status byte is returned. -/
def Obligations.NopAnswersStatus : Prop :=
  ∀ s : State, s.params.chipPresent = true →
    exec .nop s = .next (s.exchanged [0xFF] [] s.chip s.drawn)

/-- ACTIVATE (40_bus_commands.md R150, 30_encoding.md R115): 0x73 toggles the feature lock of the
nRF24L01; any other byte, and the nRF24L01P, change nothing. -/
def Obligations.Activate : Prop :=
  ∀ (s : State) (x : Byte), s.params.chipPresent = true →
    exec (.activate x) s =
      .next (s.exchanged [0x50, x] [0]
        (if x = 0x73 ∧ s.params.variant = .nRF24L01 then
          { s.chip with featuresUnlocked := !s.chip.featuresUnlocked }
         else s.chip) s.drawn)

/-- An absent chip (10_state.md R49): every bus command that is well-formed completes with a reply as
long as its data phase; its status byte and what it reads are any bytes, or with `all0or1` one value,
0x00 or 0xFF, for the whole transaction; and writes have no effect. -/
def Obligations.AbsentChipTransaction : Prop :=
  ∀ (s : State) (i : Instr), s.params.chipPresent = false → isHostOp i = false →
    wellFormed i = true →
    ∃ (st : Byte) (d : List Byte) (n : Nat),
      exec i s = .next { s with
        csn := false, drawn := n, busStatus := st, busIn := d,
        busLog := .xfer (encode i).bytes st d :: s.busLog } ∧
      d.length + 1 = (encode i).bytes.length ∧
      (s.params.absentRead = .all0or1 →
        (st = 0x00 ∨ st = 0xFF) ∧
        ((∃ a, i = .rRegister a) ∨ i = .rRxPlWid ∨ (∃ k, i = .rRxPayload k) → ∀ b ∈ d, b = st))

/-! ## Modes -/

/-- The chip's mode (10_state.md R47), and that the mode derived from CONFIG, CE and FIFO_STATUS is
that mode without the power-down defect; with it, only CONFIG = 0x00 reads as powered down
(43_mode_control.md R236). -/
def Obligations.ModeDerivation : Prop :=
  ∀ s : State,
    (s.chipMode = .powerDown ↔ bit s.chip.config 1 = false) ∧
    (s.chipMode = .standby1 ↔ bit s.chip.config 1 = true ∧ s.ce = false) ∧
    (s.chipMode = .rx ↔ bit s.chip.config 1 = true ∧ s.ce = true ∧ bit s.chip.config 0 = true) ∧
    (s.chipMode = .standby2 ↔
      bit s.chip.config 1 = true ∧ s.ce = true ∧ bit s.chip.config 0 = false ∧ s.chip.txf = []) ∧
    (s.chipMode = .tx ↔
      bit s.chip.config 1 = true ∧ s.ce = true ∧ bit s.chip.config 0 = false ∧ s.chip.txf ≠ []) ∧
    deriveMode false s.chip.config s.ce s.chip.fifoStatus = s.chipMode ∧
    (s.chip.config ≠ 0x00 →
      deriveMode true s.chip.config s.ce s.chip.fifoStatus ≠ .powerDown)

/-! ## The radio core -/

/-- A cycle whose every attempt is lost (41_radio_core.md R175, R179, R180): after `k` of at most ARC
attempts it goes on with `k` retransmissions counted and nothing else changed; the attempt after
them sets MAX_RT, counts the lost packet up to 15, ends the cycle and leaves the packet. So a
cycle is ARC + 1 attempts. -/
def Obligations.RetriesExhausted : Prop :=
  ∀ (s : State) (h : TxEntry) (r : List TxEntry), s.params.chipPresent = true →
    s.attemptDue = true → s.chip.txActive = false → s.marks = none → s.chip.txf = h :: r →
    s.chip.awAdmitted = true → h.noack = false → bit s.chip.enAa 0 = true →
    (∀ k, k < s.chip.arc.toNat →
      applyMoves (List.replicate (k + 1) (.txAttempt .lost)) s =
        { s with chip := { s.chip with txActive := true,
                                       arcCnt := BitVec.ofNat 4 (k + 1) } }) ∧
    applyMoves (List.replicate (s.chip.arc.toNat + 1) (.txAttempt .lost)) s =
      { s with chip := { s.chip with txActive := false, arcCnt := s.chip.arc, maxRt := true,
                                     plosCnt := if s.chip.plosCnt = 15 then 15
                                                else s.chip.plosCnt + 1 } }

/-- A success (41_radio_core.md R175, R177, R178, R182): an admitted acknowledgment pops the packet,
sets TX_DS and ends the cycle, keeping the counters but for ARC_CNT's reset where a cycle starts;
its payload goes to RXF on pipe 0 with RX_DR. -/
def Obligations.AttemptSucceeds : Prop :=
  ∀ (s : State) (h : TxEntry) (r : List TxEntry) (q : Option (List Byte)),
    s.params.chipPresent = true → s.attemptDue = true → s.chip.txf = h :: r →
    s.chip.awAdmitted = true → h.noack = false → bit s.chip.enAa 0 = true →
    s.chip.rxAddrP0 = s.chip.txAddr → bit s.chip.enRxaddr 0 = true →
    (∀ d, q = some d → s.chip.featuresUnlocked = true ∧ bit s.chip.feature 1 = true ∧
      bit s.chip.feature 2 = true ∧ bit s.chip.dynpd 0 = true ∧ s.chip.rxf.length < 3 ∧
      1 ≤ d.length ∧ d.length ≤ 32) →
    s.txAttempt (.acked q) =
      { s with chip := { s.chip with
          txf := r, txDs := true, txActive := false,
          arcCnt := if s.chip.txActive then s.chip.arcCnt else 0,
          rxf := match q with
            | none => s.chip.rxf
            | some d => s.chip.rxf ++ [⟨0, d⟩],
          rxDr := s.chip.rxDr || q.isSome } }

/-- No acknowledgment is expected of a no-ack packet, or with ENAA_P0 clear (41_radio_core.md R176):
one attempt is a success whatever the air does; and with every EN_AA bit set only the packet
decides. Where one is expected but pipe 0 does not hold the transmit address, or is not enabled, none
is admitted, and none with a payload without EN_ACK_PAY, EN_DPL, DPL_P0 or room in RXF (R177): that an
answer which is not admitted counts as a lost attempt is the model's choice (log 14). -/
def Obligations.AcknowledgmentExpected : Prop :=
  ∀ (s : State) (h : TxEntry) (r : List TxEntry) (o : AttemptOutcome), s.chip.txf = h :: r →
    (s.chip.enAa = 0x3F → s.chip.ackExpected h = !h.noack) ∧
    (s.params.chipPresent = true → s.attemptDue = true → s.chip.awAdmitted = true →
      h.noack = true ∨ bit s.chip.enAa 0 = false →
      s.txAttempt o =
        { s with chip := { s.chip with
            txf := r, txDs := true, txActive := false,
            arcCnt := if s.chip.txActive then s.chip.arcCnt else 0 } }) ∧
    (h.noack = false → bit s.chip.enAa 0 = true →
      s.chip.rxAddrP0 ≠ s.chip.txAddr ∨ bit s.chip.enRxaddr 0 = false →
      s.txAttempt o = s.txAttempt .lost) ∧
    (h.noack = false → bit s.chip.enAa 0 = true →
      s.chip.featuresUnlocked = false ∨ bit s.chip.feature 1 = false ∨
        bit s.chip.feature 2 = false ∨ bit s.chip.dynpd 0 = false ∨ 3 ≤ s.chip.rxf.length →
      ∀ d, s.txAttempt (.acked (some d)) = s.txAttempt .lost)

/-- While MAX_RT is set no attempt is made, and the chip goes on when a write of STATUS clears it, in a
new cycle with ARC_CNT counted from 0 (41_radio_core.md R181). -/
def Obligations.MaxRtBlocks : Prop :=
  ∀ (s : State) (h : TxEntry) (r : List TxEntry) (o : AttemptOutcome), s.chip.maxRt = true →
    s.params.chipPresent = true →
    s.txAttempt o = s ∧
    (s.chipMode = .tx → s.chip.awAdmitted = true → s.chip.txActive = false →
      s.chip.txf = h :: r → h.noack = false → bit s.chip.enAa 0 = true →
      0 < s.chip.arc.toNat →
      ((s.wRegister .status [0x10]).txAttempt .lost).chip =
        { s.chip with maxRt := false, txActive := true, arcCnt := 1 })

/-- TxAbandon (41_radio_core.md R184): in a cycle, with CE low, the chip powered down, in the receive
role or with an empty TXF, the cycle ends and nothing else changes; otherwise there is no such
step. While CE is low and the engine ready, the cycle may also go on. -/
def Obligations.Abandon : Prop :=
  ∀ s : State, s.params.chipPresent = true →
    (s.chip.txActive = true →
      s.ce = false ∨ bit s.chip.config 1 = false ∨ bit s.chip.config 0 = true ∨
        s.chip.txf = [] →
      s.txAbandon = { s with chip := { s.chip with txActive := false } }) ∧
    (s.chip.txActive = false ∨
      (s.ce = true ∧ bit s.chip.config 1 = true ∧ bit s.chip.config 0 = false ∧
        s.chip.txf ≠ []) → s.txAbandon = s) ∧
    (s.chip.txActive = true → s.ce = false → bit s.chip.config 1 = true →
      bit s.chip.config 0 = false → s.chip.txf ≠ [] → s.chip.maxRt = false →
      s.attemptDue = true)

/-- Receive (41_radio_core.md R190, R191, R193, R194): in mode RX, a packet is taken on one of the enabled
pipes that hold its address, any of them. It is stored with RX_DR unless it is a duplicate, and then
acknowledged unless the pipe or the packet says not; a new packet that finds RXF full changes
nothing; and a pipe without dynamic payloads, which need the features unlocked, EN_DPL and the pipe's
DPL bit (R192), refuses the step (R205). -/
def Obligations.PacketReceived : Prop :=
  ∀ (s : State) (k : Packet), s.params.chipPresent = true → s.chipMode = .rx →
    s.chip.awAdmitted = true → 1 ≤ k.data.length → k.data.length ≤ 32 →
    let taken (p : Fin 6) (t : State) : Prop :=
      let stored : Chip :=
        if k.dup then s.chip
        else { s.chip with rxf := s.chip.rxf ++ [⟨p, k.data⟩], rxDr := true }
      t = if s.chip.featuresUnlocked = false ∨ bit s.chip.feature 2 = false ∨
              bit s.chip.dynpd p.val = false then s.refuse .staticPayloadPipe
        else if k.dup = false ∧ s.chip.rxf.length = 3 then s
        else if bit s.chip.enAa p.val = true ∧ k.noackBit = false then
          { s with chip := stored.sendAck s.params.ackMatch p }
        else { s with chip := stored }
    (∀ p, p ∈ s.chip.matching k.addr ↔
      bit s.chip.enRxaddr p.val = true ∧ s.chip.pipeAddr p = k.addr) ∧
    (∀ n, s.chip.matching k.addr ≠ [] →
      ∃ p ∈ s.chip.matching k.addr, taken p (s.receive k n)) ∧
    ∀ p ∈ s.chip.matching k.addr, ∃ n, taken p (s.receive k n)

/-- The acknowledgment (41_radio_core.md R195, R196): with acknowledgment payloads enabled it takes the
head of TXF, or with `perPipe` the oldest entry staged for the pipe, and sets TX_DS; without an
entry to take, or without the feature, no flag changes. -/
def Obligations.AckPayloadSent : Prop :=
  ∀ (c : Chip) (p : Fin 6),
    (c.enAckPay = false → ∀ m, c.sendAck m p = c) ∧
    (c.enAckPay = true →
      (c.txf = [] → ∀ m, c.sendAck m p = c) ∧
      (∀ h r, c.txf = h :: r → c.sendAck .anyPipe p = { c with txf := r, txDs := true }) ∧
      (∀ l h r, c.txf = l ++ h :: r → (∀ e ∈ l, e.ppp ≠ some p) → h.ppp = some p →
        c.sendAck .perPipe p = { c with txf := l ++ r, txDs := true }) ∧
      ((∀ e ∈ c.txf, e.ppp ≠ some p) → c.sendAck .perPipe p = c))

/-- A packet that no enabled pipe's address matches, or that arrives in another mode, has no effect;
the address of pipes 2 to 5 is their own low byte and pipe 1's upper four (41_radio_core.md R190,
R191). -/
def Obligations.PacketNotForThisChip : Prop :=
  ∀ (s : State) (k : Packet) (n : Nat),
    (s.chipMode ≠ .rx → s.receive k n = s) ∧
    (s.chip.awAdmitted = true →
      (∀ p : Fin 6, bit s.chip.enRxaddr p.val = true →
        k.addr ≠ match p with
          | 0 => s.chip.rxAddrP0
          | 1 => s.chip.rxAddrP1
          | 2 => { s.chip.rxAddrP1 with b0 := s.chip.rxAddrP2 }
          | 3 => { s.chip.rxAddrP1 with b0 := s.chip.rxAddrP3 }
          | 4 => { s.chip.rxAddrP1 with b0 := s.chip.rxAddrP4 }
          | 5 => { s.chip.rxAddrP1 with b0 := s.chip.rxAddrP5 }) →
      s.receive k n = s)

/-- What radio steps write, exhaustively (41_radio_core.md R197): the three flags, the two counters,
both FIFOs and `txActive`, beside the mark of a refusal. -/
def Obligations.RadioStepsWrite : Prop :=
  ∀ (s t : State) (o : AttemptOutcome) (k : Packet) (n : Nat),
    t = s.txAttempt o ∨ t = s.txAbandon ∨ t = s.receive k n →
    t = { s with
      marks := t.marks,
      chip := { s.chip with
        rxDr := t.chip.rxDr, txDs := t.chip.txDs, maxRt := t.chip.maxRt,
        arcCnt := t.chip.arcCnt, plosCnt := t.chip.plosCnt, txf := t.chip.txf,
        rxf := t.chip.rxf, txActive := t.chip.txActive } }

/-- The radio steps that are refused (41_radio_core.md R205): with another address width than 5, and
a reception on a pipe without dynamic payload length: the features locked, or EN_DPL clear, or the
pipe's DPL bit clear (R192). -/
def Obligations.RadioStepsRefused : Prop :=
  ∀ (s : State) (o : AttemptOutcome) (k : Packet) (n : Nat), s.params.chipPresent = true →
    (s.chip.setupAw ≠ 0x03 →
      (s.attemptDue = true → s.txAttempt o = s.refuse .addressWidthNot5) ∧
      (s.chipMode = .rx → s.receive k n = s.refuse .addressWidthNot5)) ∧
    (s.chip.setupAw = 0x03 → s.chipMode = .rx → 1 ≤ k.data.length → k.data.length ≤ 32 →
      s.chip.matching k.addr ≠ [] →
      s.chip.featuresUnlocked = false ∨ bit s.chip.feature 2 = false ∨
        (∀ p ∈ s.chip.matching k.addr, bit s.chip.dynpd p.val = false) →
      s.receive k n = s.refuse .staticPayloadPipe)

/-! ## Host operations

`Ready` and `Calm` are conditions on the state alone: the sequencer idle and initialized, a present
chip in the configuration the initialization leaves, and any environment that resets nothing. What
`Completes` names as unchanged is everything but what 41_radio_core.md R197 lets radio steps write;
in a silent environment it is all of the chip. -/

/-- init (70_reset_and_hazards.md R352), from any state with a present chip in which no radio step is
refused, initialized or not; R351's column "after init". The features come out unlocked, unless a
chip of variant nRF24L01 had them unlocked already (R374): then they are locked, and FEATURE and
DYNPD are not written. The power-down at S2 leaves no radio step that could write a flag, a FIFO or
PLOS_CNT afterwards (41_radio_core.md R174, R190), so in every such environment both FIFOs are empty,
all three flags clear and PLOS_CNT 0 (R354); and where the chip was powered down before, as after a
power-on, ARC_CNT stays and no cycle starts. -/
def Obligations.InitInitializes : Prop :=
  ∀ (s : State) (mask : BitVec 32), s.Idle → s.NoResets → s.params.chipPresent = true →
    s.chip.Tame →
    let p := s.params
    let crc : Byte := if p.defaultCrc16 then 0x0C else 0x08
    let mode : CrcMode := if p.defaultCrc16 then .crc16 else .crc8
    let pa : Byte := match p.defaultPa with | .m18 => 0x00 | .m12 => 0x02 | .m6 => 0x04 | .p0 => 0x06
    let drm : Byte := match p.variant with | .nRF24L01 => 0x08 | .nRF24L01P => 0x28
    let dr : Byte := match p.defaultDr with | .mbps1 => 0x00 | .mbps2 => 0x08 | .kbps250 => 0x20
    let retr : Byte := p.defaultArd.setWidth 8 <<< 4 ||| p.defaultArc.setWidth 8
    let ch : Byte := p.defaultCh.setWidth 8
    let rf1 := ((s.chip.rfSetup &&& ~~~0x06) ||| pa) &&& writableBits p.variant .rfSetup
    let rf2 := ((rf1 &&& ~~~drm) ||| (dr &&& drm)) &&& writableBits p.variant .rfSetup
    let open' := if p.variant = .nRF24L01 then !s.chip.featuresUnlocked
      else s.chip.featuresUnlocked
    let cfg := (s.chip.config &&& 0x71) ||| crc
    ∃ v ∈ s.chip.configReads, ∃ w ∈ ({ s.chip with config := v &&& 0x7D } : Chip).configReads,
      Completes (.init mask) s { s with
        chip := { s.chip.flagsCleared.flushed with
          config := cfg, setupRetr := retr, rfSetup := rf2, rfCh := ch, plosCnt := 0,
          featuresUnlocked := open', feature := if open' then 0x07 else s.chip.feature,
          enAa := 0x3F, dynpd := if open' then 0x3F else s.chip.dynpd, setupAw := 0x03 },
        ce := false, now := s.now + 100000,
        sh := { s.sh with
          initialized := true, networkMask := some mask, listening := false, txAddrCache := none,
          rxP0Cache := none, extraPipes := 0,
          settings := ⟨mode, p.defaultDr, p.defaultPa, p.defaultCh, p.defaultArd, p.defaultArc,
            true⟩ },
        host.result := .none,
        busLog := [sends [0xE1], sends [0xE2], sends [0x20, cfg], sends [0x00, 0x00],
          sends [0x27, 0x70], sends [0x23, 0x03], sends [0x3C, 0x3F], sends [0x21, 0x3F],
          sends [0x3D, 0x07], sends [0x50, 0x73], sends [0x25, ch],
          sends [0x20, (w &&& ~~~0x0C) ||| crc], sends [0x00, 0x00],
          sends [0x26, (rf1 &&& ~~~drm) ||| (dr &&& drm)], sends [0x06, 0x00],
          sends [0x26, (s.chip.rfSetup &&& ~~~0x06) ||| pa], sends [0x06, 0x00],
          sends [0x24, retr], sends [0x20, v &&& 0xFD], sends [0x00, 0x00], .ce false] ++
          s.busLog } ∧
      ∀ t, exec (.init mask) s = .next t →
        t.chipMode = .powerDown ∧ t.chip.txf = [] ∧ t.chip.rxf = [] ∧ t.chip.rxDr = false ∧
        t.chip.txDs = false ∧ t.chip.maxRt = false ∧ t.chip.plosCnt = 0 ∧
        (bit s.chip.config 1 = false → t.chip.arcCnt = s.chip.arcCnt ∧
          (s.chip.txActive = false → t.chip.txActive = false))

/-- setOwnAddress (42_addressing_pipes.md R212). -/
def Obligations.SetOwnAddress : Prop :=
  ∀ (s : State) (node : Byte) (m : BitVec 32), s.Ready → s.Calm → s.sh.networkMask = some m →
    let a := fullAddress node m
    Completes (.setOwnAddress node) s { s with
      chip.rxAddrP0 := a, chip.enRxaddr := (s.chip.enRxaddr ||| 0x01) &&& 0x3F,
      sh.ownAddress := some node, sh.rxP0Cache := some a, host.result := .none,
      busLog := sends [0x22, s.chip.enRxaddr ||| 0x01] :: sends [0x02, 0x00] ::
        sends (0x2A :: a.toList) :: s.busLog }

/-- listenToAddress (42_addressing_pipes.md R214 to R216): with all five slots taken, no transaction
and no change but the result; with a free slot `k`, the address goes to chip pipe `k + 1`, which is
enabled, and the operation starts listening. -/
def Obligations.ListenToAddress : Prop :=
  (∀ (s : State) (node : Byte), s.Ready → s.sh.extraPipes = 5 →
    exec (.listenToAddress node) s = .next { s with host.result := .tooManyPipes }) ∧
  ∀ (s : State) (node : Byte) (m : BitVec 32), s.Ready → s.Calm → s.sh.networkMask = some m →
      s.sh.extraPipes < 5 →
    let k := s.sh.extraPipes
    let a := fullAddress node m
    let out : List Byte := if k = 0 then 0x2B :: a.toList else [BitVec.ofNat 8 (0x2B + k), node]
    let erx : Byte := 1#8 <<< (k + 1)
    let x : State := { s with
      chip := { s.chip.withListener k node m with
        enRxaddr := (s.chip.enRxaddr ||| erx) &&& 0x3F },
      sh.extraPipes := k + 1,
      busLog := sends [0x22, s.chip.enRxaddr ||| erx] :: sends [0x02, 0x00] :: sends out ::
        s.busLog }
    ∃ v ∈ s.chip.configReads,
      Completes (.listenToAddress node) s { x.listened v with host.result := .slot k }

/-- setActive (43_mode_control.md R230): PWR_UP alone, and 1500 microseconds. -/
def Obligations.SetActive : Prop :=
  ∀ (s : State) (b : Bool), s.Ready → s.Calm →
    ∃ v ∈ s.chip.configReads,
      let w := if b then v ||| 0x02 else v &&& 0xFD
      Completes (.setActive b) s { s with
        chip.config := w &&& 0x7F, host.result := .none, now := s.now + 1500,
        busLog := sends [0x20, w] :: sends [0x00, 0x00] :: s.busLog }

/-- startListening (43_mode_control.md R232); when it returns the chip is in mode RX (R235) and, where
the cache invariant held, pipe 0 holds the own address, whatever diverted it before (R233). -/
def Obligations.StartListening : Prop :=
  ∀ (s : State) (m : BitVec 32), s.Ready → s.Calm → s.sh.networkMask = some m →
    ∃ v ∈ s.chip.configReads,
      Completes .startListening s { s.listened v with host.result := .none } ∧
      (s.listened v).chipMode = .rx ∧
      (s.CacheInv → ∀ o, s.sh.ownAddress = some o →
        (s.listened v).chip.rxAddrP0 = fullAddress o m)

/-- stopListening (43_mode_control.md R234); the chip is powered down when it returns (R235). The
power-down at S1 leaves no radio step that could refill a FIFO after the flush, and no step clears a
flag, so in every environment that resets nothing both FIFOs are empty and the flags set before the
call stay set. -/
def Obligations.StopListening : Prop :=
  ∀ s : State, s.Ready → s.Calm →
    ∃ v ∈ s.chip.configReads,
      let u : State := { s with
        chip := ({ s.chip with config := (v &&& 0xFC) &&& 0x7F } : Chip).flushed,
        ce := false, sh.listening := false, host.result := .none,
        busLog := sends [0xE1] :: sends [0xE2] :: .ce false :: sends [0x20, v &&& 0xFC] ::
          sends [0x00, 0x00] :: s.busLog }
      Completes .stopListening s u ∧ u.chipMode = .powerDown ∧
      ∀ t, exec .stopListening s = .next t →
        t.chipMode = .powerDown ∧ t.chip.txf = [] ∧ t.chip.rxf = [] ∧
        (s.chip.rxDr = true → t.chip.rxDr = true) ∧ (s.chip.txDs = true → t.chip.txDs = true) ∧
        (s.chip.maxRt = true → t.chip.maxRt = true)

/-- isActive (43_mode_control.md R231): the chip's PWR_UP; and currentMode (R237): the mode from
CONFIG, the line and FIFO_STATUS as it read them. -/
def Obligations.ModeQueries : Prop :=
  ∀ s : State, s.Ready → s.Calm →
    Completes .isActive s { s with
      host.result := .bool (bit s.chip.config 1), busLog := sends [0x00, 0x00] :: s.busLog } ∧
    ∃ v ∈ s.chip.configReads, ∃ fs : Byte, (s.Silent → fs = s.chip.fifoStatus) ∧
      Completes .currentMode s
        { s with
          host.result := .mode (deriveMode s.params.pdCheckQuirk v s.ce fs),
          busLog := sends [0x17, 0x00] :: sends [0x00, 0x00] :: s.busLog }
        fun log => ∃ st, lastAnswer [0x17, 0x00] log = some (st, [fs])

/-- transmit (44_transmit.md R250 to R260): the result is TX_DS of the last status byte polled, and no
earlier poll answered a flag that ends it (R256); for an empty payload it is false, without a
transaction or any other change, whatever the environment. -/
def Obligations.Transmit : Prop :=
  (∀ (s : State) (target : Byte) (requestAck : Bool), s.Ready →
    exec (.transmit target [] requestAck) s = .next { s with host.result := .bool false }) ∧
  ∀ (s : State) (target : Byte) (payload : List Byte) (requestAck : Bool) (m : BitVec 32),
      s.Ready → s.Calm → s.sh.networkMask = some m →
    ∃ t ok u, exec (.transmit target payload requestAck) s = .next t ∧
      s.Transmits target payload requestAck ok u t.busLog ∧
      t.kept = ({ u with host.result := .bool ok } : State).kept ∧ u.now ≤ t.now ∧
      (s.Silent → t.chip = u.chip)

/-- send (44_transmit.md R262, R263): transmit with the driver-wide setting, and ARC_CNT as it read
it if wanted. -/
def Obligations.Send : Prop :=
  ∀ (s : State) (target : Byte) (payload : List Byte) (wantCount : Bool) (m : BitVec 32),
      s.Ready → s.Calm → s.sh.networkMask = some m →
    ∃ t ok u, exec (.send target payload wantCount) s = .next t ∧
      s.Transmits target payload s.sh.settings.ackEnabled ok u t.busLog ∧
      (if wantCount then
        ∃ st c, lastAnswer [0x08, 0x00] t.busLog = some (st, [c]) ∧
          (s.Silent → c = u.chip.observeTx) ∧
          t.kept = ({ u with host.result := .sent ok (some (c &&& 0x0F)),
                             busLog := sends [0x08, 0x00] :: u.busLog } : State).kept
       else t.kept = ({ u with host.result := .sent ok none } : State).kept) ∧
      u.now ≤ t.now ∧ (s.Silent → t.chip = u.chip)

/-- sendAndAwaitResponse (44_transmit.md R264 to R266): `log` is the trace when transmit has returned,
and what is copied into the response buffer is what the chip answered. -/
def Obligations.SendAndAwaitResponse : Prop :=
  ∀ (s : State) (target : Byte) (payload : List Byte) (m : BitVec 32),
      s.Ready → s.Calm → s.sh.networkMask = some m →
    let x : State := { s with
      chip := { s.chip with rxf := [], rxCorrupt := false }, busLog := sends [0xE2] :: s.busLog }
    ∃ t ok u log, exec (.sendAndAwaitResponse target payload) s = .next t ∧
      x.Transmits target payload s.sh.settings.ackEnabled ok u log ∧ log <:+ t.busLog ∧
      log.map BusEvent.outgoing = u.busLog.map BusEvent.outgoing ∧ u.now ≤ t.now ∧
      (s.Silent → ok = false ∧ t.chip = u.chip) ∧
      (if ok = false then t.kept = ({ u with host.result := .sendFailed } : State).kept
       else if s.sh.settings.ackEnabled = false then
        t.kept = ({ u with host.result := .sentNoPayload } : State).kept
       else
        let y : State := { u with busLog := sends [0xFF] :: u.busLog }
        ∃ st inn, lastAnswer [0xFF] t.busLog = some (st, inn) ∧
          if bit st 6 = false then
            t.kept = ({ y with host.result := .sentNoPayload } : State).kept
          else
            ∃ d c, ReadAnswered 32 d t.busLog ∧
              c.steady = ({ y.chip with rxCorrupt := c.rxCorrupt } : Chip).steady ∧
              t.kept = ({ y.hasRead .respBuf d c with
                          host.result := .received d.length } : State).kept)

/-- broadcast (44_transmit.md R268): transmit to the own address without acknowledgment; without an own
address it faults (60_exceptions.md R327). -/
def Obligations.Broadcast : Prop :=
  (∀ (s : State) (payload : List Byte), s.Ready → s.sh.ownAddress = none →
    exec (.broadcast payload) s = .fault .ownAddressUnset) ∧
  ∀ (s : State) (o : Byte) (payload : List Byte) (m : BitVec 32),
      s.Ready → s.Calm → s.sh.networkMask = some m → s.sh.ownAddress = some o →
    ∃ t ok u, exec (.broadcast payload) s = .next t ∧
      s.Transmits o payload false ok u t.busLog ∧
      t.kept = ({ u with host.result := .bool ok } : State).kept ∧ u.now ≤ t.now ∧
      (s.Silent → t.chip = u.chip)

/-- available (45_receive_ackq.md R280): nothing and no pipe where the status byte has no RX_DR; else
the width the chip answers, and the pipe in the status byte if wanted. RXF keeps its entries. -/
def Obligations.Available : Prop :=
  ∀ (s : State) (wantPipe : Bool), s.Ready → s.Calm →
    ∃ (st : Byte) (inn : List Byte), (s.Silent → st = s.chip.status) ∧
      if bit st 6 = false then
        Completes (.available wantPipe) s
          { s with host.result := .available 0 none, busLog := sends [0xFF] :: s.busLog }
          fun log => lastAnswer [0xFF] log = some (st, inn)
      else
        ∃ (w : Byte) (su : Byte),
          (s.Silent → ∀ e r, s.chip.rxf = e :: r → s.chip.rxCorrupt = false →
            e.data.length ≤ 32 → w.toNat = e.data.length) ∧
          Completes (.available wantPipe) s
            { s with
              host.result := .available w.toNat (if wantPipe then some (statusPipe st) else none),
              busLog := sends [0x60, 0x00] :: sends [0xFF] :: s.busLog }
            fun log => lastAnswer [0xFF] log = some (st, inn) ∧
              lastAnswer [0x60, 0x00] log = some (su, [w])

/-- read (45_receive_ackq.md R282, R283): the smaller of the width the chip answers and the capacity, of
the bytes it answers; RX_DR cleared, CE raised. In a silent environment they are those of the entry at
the head of RXF, the first ones of a longer entry. -/
def Obligations.Read : Prop :=
  ∀ (s : State) (cap : Nat), s.Ready → s.Calm →
    ∃ d c, c.steady = ({ s.chip with rxCorrupt := c.rxCorrupt } : Chip).steady ∧
      (s.Silent → s.chip.GivesHead cap d c) ∧
      Completes (.read cap) s { s.hasRead .readBuf d c with host.result := .count d.length }
        (ReadAnswered cap d)

/-- readText (45_receive_ackq.md R284): read of one byte less, then the terminator just after the
bytes copied; nothing for a buffer of no bytes. -/
def Obligations.ReadText : Prop :=
  ∀ (s : State) (cap : Nat), s.Ready → s.Calm →
    if cap = 0 then exec (.readText cap) s = .next { s with host.result := .count 0 }
    else
      ∃ d c, c.steady = ({ s.chip with rxCorrupt := c.rxCorrupt } : Chip).steady ∧
        (s.Silent → s.chip.GivesHead (cap - 1) d c) ∧
        Completes (.readText cap) s
          { (s.hasRead .readBuf d c).memWrite .readBuf d.length [0x00] with
            host.result := .count d.length }
          (ReadAnswered (cap - 1) d)

/-- The result buffers (20_memory.md R86, 60_exceptions.md R343): read and readText put the bytes the
chip answered at 0 to `n - 1`, each at its own index, readText a zero byte at `n`, and every other byte,
and the other buffer, stays. sendAndAwaitResponse does the same with its own buffer when it reports a
response, and leaves both buffers as they were when it reports none. -/
def Obligations.ReadBuffer : Prop :=
  (∀ (s t : State) (cap : Nat) (text : Bool), s.Ready → s.Calm → 0 < cap →
    exec (if text then .readText cap else .read cap) s = .next t →
    ∃ d, ReadAnswered (if text then cap - 1 else cap) d t.busLog ∧
      t.host.result = .count d.length ∧ d.length ≤ cap ∧ (text = true → d.length < cap) ∧
      t.host.respBuf = s.host.respBuf ∧
      (text = true → Memory.get t.host.readBuf d.length = some 0x00) ∧
      (∀ i, i < d.length → Memory.get t.host.readBuf i = d[i]?) ∧
      ∀ i, d.length < i ∨ (i = d.length ∧ text = false) →
        Memory.get t.host.readBuf i = Memory.get s.host.readBuf i) ∧
  ∀ (s t : State) (target : Byte) (payload : List Byte) (m : BitVec 32),
      s.Ready → s.Calm → s.sh.networkMask = some m →
    exec (.sendAndAwaitResponse target payload) s = .next t →
    t.host.readBuf = s.host.readBuf ∧
      ((∃ d, t.host.result = .received d.length ∧ d.length ≤ 32 ∧ ReadAnswered 32 d t.busLog ∧
          (∀ i, i < d.length → Memory.get t.host.respBuf i = d[i]?) ∧
          ∀ i, d.length ≤ i → Memory.get t.host.respBuf i = Memory.get s.host.respBuf i) ∨
        ((∀ n, t.host.result ≠ .received n) ∧ t.host.respBuf = s.host.respBuf))

/-- queueResponse (45_receive_ackq.md R286 to R288, R290): with TX_FULL in the status byte it does
nothing more; else the payload, cut to 32 bytes, is offered on the acknowledgment queue, within a
transient receive role unless the block is listening. -/
def Obligations.QueueResponse : Prop :=
  ∀ (s : State) (payload : List Byte), s.Ready → s.Calm →
    let p := payload.take 32
    let ack := sends (BitVec.ofNat 8 (0xA8 + s.params.ackPpp.val) :: p)
    let staged (rx : Bool) (c d : Chip) : Prop :=
      if c.enAckPay = true ∧ rx = true ∧ c.txf.length ≠ 3 then
        d = { c with txf := c.txf ++ [⟨p, false, some s.params.ackPpp⟩] } ∨ p = [] ∧ d = c
      else d = c
    ∃ (st : Byte) (inn : List Byte), (s.Silent → st = s.chip.status) ∧
      if bit st 0 = true then
        Completes (.queueResponse payload) s
          { s with host.result := .bool false, busLog := sends [0xFF] :: s.busLog }
          fun log => lastAnswer [0xFF] log = some (st, inn)
      else if s.sh.listening = true then
        ∃ c : Chip, c.steady = s.chip.steady ∧
          (s.Silent → staged (bit s.chip.config 0) s.chip c) ∧
          Completes (.queueResponse payload) s
            { s with chip := c, host.result := .bool true,
                     busLog := ack :: sends [0xFF] :: s.busLog }
            fun log => lastAnswer [0xFF] log = some (st, inn)
      else
        ∃ v ∈ s.chip.configReads, ∃ c : Chip, c.steady = s.chip.steady ∧
          (s.Silent → staged true s.chip c) ∧
          Completes (.queueResponse payload) s
            { s with
              chip := { c with config := v &&& 0x7F }, host.result := .bool true,
              busLog := sends [0x20, v] :: ack :: sends [0x20, v ||| 0x03] ::
                sends [0x00, 0x00] :: sends [0xFF] :: s.busLog }
            fun log => lastAnswer [0xFF] log = some (st, inn)

/-- setNetworkMask and setAckEnabled (46_config_setters.md R300, R306): the shadow value alone, without
a transaction. -/
def Obligations.ShadowSetters : Prop :=
  ∀ (s : State) (mask : BitVec 32) (b : Bool), s.Ready →
    exec (.setNetworkMask mask) s =
      .next { s with sh.networkMask := some mask, host.result := .none } ∧
    exec (.setAckEnabled b) s =
      .next { s with sh.settings.ackEnabled := b, host.result := .none }

/-- setChannel (46_config_setters.md R301): RF_CH, and PLOS_CNT cleared with it; and setRetries
(R302): SETUP_RETR is `delay << 4 | count`. -/
def Obligations.SetChannelAndRetries : Prop :=
  ∀ (s : State) (ch delay count : Byte), s.Ready → s.Calm →
    (if ch.toNat ≤ 127 then
      Completes (.setChannel ch) s { s with
        chip := { s.chip with rfCh := ch, plosCnt := 0 },
        sh.settings.channel := ch.setWidth 7, host.result := .none,
        busLog := sends [0x25, ch] :: s.busLog }
     else exec (.setChannel ch) s = .refused .argumentOutOfRange) ∧
    (if delay.toNat ≤ 15 ∧ count.toNat ≤ 15 then
      Completes (.setRetries delay count) s { s with
        chip.setupRetr := delay <<< 4 ||| count,
        sh.settings := { s.sh.settings with
          retryDelay := delay.setWidth 4, retryCount := count.setWidth 4 },
        host.result := .none, busLog := sends [0x24, delay <<< 4 ||| count] :: s.busLog }
     else exec (.setRetries delay count) s = .refused .argumentOutOfRange)

/-- setDataRate and setPALevel (46_config_setters.md R303, R304): the data-rate bits, or RF_PWR, and no
other bit of RF_SETUP; 250 kbps is refused on the nRF24L01. -/
def Obligations.RfSetupSetters : Prop :=
  ∀ (s : State) (dr pa : Byte), s.Ready → s.Calm →
    let m : Byte := match s.params.variant with | .nRF24L01 => 0x08 | .nRF24L01P => 0x28
    let done (i : Instr) (w : Byte) (g : Settings) : Prop :=
      Completes i s { s with
        chip.rfSetup := w &&& writableBits s.params.variant .rfSetup, sh.settings := g,
        host.result := .none, busLog := sends [0x26, w] :: sends [0x06, 0x00] :: s.busLog }
    let rate (r : DataRate) (code : Byte) : Prop :=
      done (.setDataRate dr) ((s.chip.rfSetup &&& ~~~m) ||| code)
        { s.sh.settings with dataRate := r }
    let level (l : PaLevel) (code : Byte) : Prop :=
      done (.setPALevel pa) ((s.chip.rfSetup &&& 0xF9) ||| code)
        { s.sh.settings with paLevel := l }
    (if dr = 0 then rate .mbps1 0x00
     else if dr = 1 then rate .mbps2 0x08
     else if dr = 2 ∧ s.params.variant = .nRF24L01P then rate .kbps250 0x20
     else exec (.setDataRate dr) s = .refused .argumentOutOfRange) ∧
    (if pa = 0 then level .m18 0x00
     else if pa = 1 then level .m12 0x02
     else if pa = 2 then level .m6 0x04
     else if pa = 3 then level .p0 0x06
     else exec (.setPALevel pa) s = .refused .argumentOutOfRange)

/-- setCRC (46_config_setters.md R305): EN_CRC and CRCO, and no other bit of CONFIG changes. -/
def Obligations.SetCRC : Prop :=
  ∀ (s : State) (mode : Byte), s.Ready → s.Calm →
    let done (m : CrcMode) (code : Byte) : Prop :=
      let w := (s.chip.config &&& 0xF3) ||| code
      Completes (.setCRC mode) s { s with
        chip.config := w &&& 0x7F, sh.settings.crc := m, host.result := .none,
        busLog := sends [0x20, w] :: sends [0x00, 0x00] :: s.busLog }
    if mode = 0 then done .off 0x00
    else if mode = 1 then done .crc8 0x08
    else if mode = 2 then done .crc16 0x0C
    else exec (.setCRC mode) s = .refused .argumentOutOfRange

/-- assembleFullAddress (42_addressing_pipes.md R210): the node byte, then the mask little-endian;
nothing but the result changes. Full addresses of different nodes or masks differ, so a packet for a
node of another mask matches no pipe that holds a full address of this mask (R219). -/
def Obligations.AssembleFullAddress : Prop :=
  (∀ (s : State) (node : Byte) (m : BitVec 32), s.Ready → s.sh.networkMask = some m →
    exec (.assembleFullAddress node) s = .next { s with
      host.result := .address ⟨node, m.extractLsb' 0 8, m.extractLsb' 8 8, m.extractLsb' 16 8,
        m.extractLsb' 24 8⟩ }) ∧
  (∀ (n n' : Byte) (m m' : BitVec 32), fullAddress n m = fullAddress n' m' → n = n' ∧ m = m') ∧
  ∀ (c : Chip) (m m' : BitVec 32) (n : Byte), m ≠ m' →
    (∀ p : Fin 6, ∃ k, c.pipeAddr p = fullAddress k m) → c.matching (fullAddress n m') = []

/-- decomposeAddress (42_addressing_pipes.md R211): the inverse, initialized or not, nothing but the
result changing; and the round trip both ways. -/
def Obligations.DecomposeAddress : Prop :=
  (∀ (s : State) (a : Addr), s.Idle →
    exec (.decomposeAddress a) s = .next { s with
      host.result := .nodeMask a.b0 (a.b4 ++ a.b3 ++ a.b2 ++ a.b1) }) ∧
  (∀ a : Addr, fullAddress (decompose a).1 (decompose a).2 = a) ∧
  ∀ (n : Byte) (m : BitVec 32), decompose (fullAddress n m) = (n, m)

/-! ## Which operations are refused -/

/-- A host operation is refused before the initialization, but for init and decomposeAddress, and while
another runs (30_encoding.md R127, 60_exceptions.md R328, R343). Which refusal it is where several
apply rests on the order of the checks (log 7, DEDUCED). -/
def Obligations.OperationsRefused : Prop :=
  ∀ (s : State) (i : Instr), isHostOp i = true →
    (s.seq ≠ [] → exec i s = .refused .operationInProgress) ∧
    (s.seq = [] → s.sh.initialized = false → (∀ m, i ≠ .init m) →
      (∀ a, i ≠ .decomposeAddress a) → exec i s = .refused .notInitialized)

/-! ## The whole machine -/

/-- A step runs the decoded instruction. A marked state answers its mark (log 23). Otherwise, after the
other agents' steps (log 1): a running operation goes on from its position; when the sequencer is
idle, `step` is `exec` of the host operation that the host's next bytes hold, with the move taken, or
the refusal of bytes that hold none; a pause, or no move, leaves it at that (log 5). The host's bytes
never hold a bus command (20_memory.md R81); one that stands on the bus is executed first (log 5).
And an operation that completes is its program, resumed from its first label (10_state.md R22). -/
def Obligations.StepRunsDecoded : Prop :=
  (∀ s : State,
    (∀ m, s.marks = some m → step s = match m with
      | .fault r => .fault r
      | .refusal r => .refused r) ∧
    (s.marks = none → s.interlude.marks = none →
      (s.interlude.seq ≠ [] → step s = s.interlude.resume.outcome) ∧
      (s.interlude.seq = [] →
        (s.interlude.bus = none →
          (∀ bs i rest, s.interlude.host.inbox = some bs :: rest → decode ⟨.op, bs⟩ = .ok i →
            step s = exec i { s.interlude with host.inbox := rest }) ∧
          (∀ bs e rest, s.interlude.host.inbox = some bs :: rest → decode ⟨.op, bs⟩ = .error e →
            step s = .refused (refusalOf e)) ∧
          (∀ rest, s.interlude.host.inbox = none :: rest →
            step s = .next { s.interlude with host.inbox := rest }) ∧
          (s.interlude.host.inbox = [] → step s = .next s.interlude)) ∧
        ∀ bs, s.interlude.bus = some bs →
          (∀ i, decode ⟨.bus, bs⟩ = .ok i → step s = exec i { s.interlude with bus := none }) ∧
          ∀ e, decode ⟨.bus, bs⟩ = .error e → step s = .refused (refusalOf e)))) ∧
  (∀ bs i, decode ⟨.op, bs⟩ = .ok i → isHostOp i = true) ∧
  ∀ (s t : State) (i : Instr), isHostOp i = true → exec i s = .next t →
    s.seq = [] ∧ (s.issued i).resume = t

/-- What the three resets leave (70_reset_and_hazards.md R350). Power-on (10_state.md R61, R62, R351):
the register map's reset values, empty FIFOs, the sequencer idle, and the shadow state of a block that
is not initialized. A chip reset alone (R355): the chip as after power-on, powered down and with the
nRF24L01's features locked, and nothing else. A sequencer reset alone (R356): the sequencer idle and
not initialized, its settings and CE unspecified, no mark (R62), and nothing else. Unspecified settings
are of their types (10_state.md R50): no 250 kbps on the nRF24L01. -/
def Obligations.ResetState : Prop :=
  (∀ v : ChipVariant, Chip.reset v = {
    config := 0x08, enAa := 0x3F, enRxaddr := 0x03, setupAw := 0x03, setupRetr := 0x03,
    rfCh := 0x02, rfSetup := if v = .nRF24L01 then 0x0F else 0x0E,
    rxDr := false, txDs := false, maxRt := false, plosCnt := 0, arcCnt := 0, cd := false,
    rxAddrP0 := ⟨0xE7, 0xE7, 0xE7, 0xE7, 0xE7⟩, rxAddrP1 := ⟨0xC2, 0xC2, 0xC2, 0xC2, 0xC2⟩,
    rxAddrP2 := 0xC3, rxAddrP3 := 0xC4, rxAddrP4 := 0xC5, rxAddrP5 := 0xC6,
    txAddr := ⟨0xE7, 0xE7, 0xE7, 0xE7, 0xE7⟩,
    rxPwP0 := 0, rxPwP1 := 0, rxPwP2 := 0, rxPwP3 := 0, rxPwP4 := 0, rxPwP5 := 0,
    dynpd := 0, feature := 0, txf := [], rxf := [], rxCorrupt := false,
    featuresUnlocked := decide (v = .nRF24L01P), txActive := false } ∧
    (Chip.reset v).status = 0x0E ∧ (Chip.reset v).fifoStatus = 0x11 ∧
    (Chip.reset v).observeTx = 0x00) ∧
  (State.reset.chip = Chip.reset State.reset.params.variant ∧
    State.reset.chipMode = .powerDown ∧ State.reset.csn = false ∧ State.reset.seq = [] ∧
    State.reset.marks = none ∧ State.reset.sh.initialized = false ∧
    State.reset.sh.networkMask = none ∧ State.reset.sh.ownAddress = none ∧
    State.reset.sh.txAddrCache = none ∧ State.reset.sh.rxP0Cache = none ∧
    State.reset.sh.extraPipes = 0 ∧ State.reset.sh.listening = false ∧
    (State.reset.params.variant = .nRF24L01 → State.reset.sh.settings.dataRate ≠ .kbps250)) ∧
  (∀ s : State,
    let t := applyMove .chipReset s
    t = { s with chip := Chip.reset s.params.variant } ∧ t.chipMode = .powerDown ∧
      (s.params.variant = .nRF24L01 →
        t.chip.featuresUnlocked = false ∧ ∀ p, t.chip.dynamicPayload p = false)) ∧
  ∀ (s : State) (ce : Bool), ∃ (settings : Settings) (n : Nat),
    (s.params.variant = .nRF24L01 → settings.dataRate ≠ .kbps250) ∧
    applyMove (.sequencerReset ce) s =
      { s with
        seq := [], ce := ce, marks := none, drawn := n,
        sh := ⟨false, none, none, settings, false, none, none, 0⟩ }

/-- The machine invariant holds at reset. -/
def Obligations.InvariantAtReset : Prop := State.reset.Inv

/-- Every step keeps the machine invariant, from every state that has it, whatever the environment
does: reserved bits read 0 (10_state.md R23), the FIFOs stay within their bounds (R42, R43), at most 5
listeners and a data rate of the variant (R50; `DEFAULT_DR`'s, 00_scope.md R7, log 22), a mask once
initialized, and the select line deasserted between transactions (R44).
No step changes a launch parameter (R60). These clauses rest on the model's choices: that a step ends
with the sequencer idle (log 1, log 19), the canonical form of the buffers (log 13), and that no
transaction stands on the bus after a step (log 5). -/
def Obligations.InvariantKept : Prop :=
  ∀ s t : State, s.Inv → step s = .next t → t.Inv ∧ t.params = s.params ∧ t.bus = none

/-- Every host operation completes (60_exceptions.md R320, R329): with arguments in range, and payloads
and capacities that one byte can hold (30_encoding.md R119), from a ready state whose environment
resets nothing, over a present chip in the configuration init leaves or over no chip at all, no host
operation faults or is refused, but broadcast without an own address. -/
def Obligations.HostOperationsComplete : Prop :=
  ∀ (s : State) (i : Instr), s.Ready → s.NoResets → s.sh.extraPipes ≤ 5 →
    (s.params.chipPresent = true → s.chip.Admitted) → isHostOp i = true → wellFormed i = true →
    (∀ dr, i = .setDataRate dr → s.params.variant = .nRF24L01 → dr.toNat ≤ 1) →
    (∀ p, i = .broadcast p → s.sh.ownAddress ≠ none) →
    ∃ t, exec i s = .next t ∧ t.marks = none ∧ t.seq = []

/-- Over an absent chip no host operation changes anything of the chip's state (10_state.md R49). -/
def Obligations.AbsentChipUntouched : Prop :=
  ∀ (s t : State) (i : Instr), s.params.chipPresent = false → s.NoResets → isHostOp i = true →
    exec i s = .next t → t.chip = s.chip

/-- The cache invariant (10_state.md R52): a cached address is the register's, after every host
operation on a present chip that nothing resets. -/
def Obligations.CacheInvariantKept : Prop :=
  ∀ (s t : State) (i : Instr), s.Ready → s.Calm → s.sh.extraPipes ≤ 5 → s.CacheInv →
    isHostOp i = true → exec i s = .next t → t.CacheInv

/-- What no host operation but init changes: EN_AA, SETUP_AW, the static widths, DYNPD, FEATURE and the
feature lock (10_state.md R25, R27, R38, R40, R41), and the interrupt masks (60_exceptions.md
R331); and no bit of EN_RXADDR is cleared and no listener removed (R26, R53,
42_addressing_pipes.md R216). -/
def Obligations.ConfigurationKept : Prop :=
  ∀ (s t : State) (i : Instr), s.Ready → s.Calm → s.sh.extraPipes ≤ 5 → isHostOp i = true →
    (∀ m, i ≠ .init m) → exec i s = .next t →
    t.chip.enAa = s.chip.enAa ∧ t.chip.setupAw = s.chip.setupAw ∧
    t.chip.rxPwP0 = s.chip.rxPwP0 ∧ t.chip.rxPwP1 = s.chip.rxPwP1 ∧
    t.chip.rxPwP2 = s.chip.rxPwP2 ∧ t.chip.rxPwP3 = s.chip.rxPwP3 ∧
    t.chip.rxPwP4 = s.chip.rxPwP4 ∧ t.chip.rxPwP5 = s.chip.rxPwP5 ∧
    t.chip.dynpd = s.chip.dynpd ∧ t.chip.feature = s.chip.feature ∧
    t.chip.featuresUnlocked = s.chip.featuresUnlocked ∧
    t.chip.config &&& 0x70 = s.chip.config &&& 0x70 ∧
    s.chip.enRxaddr &&& 0x3F = s.chip.enRxaddr &&& t.chip.enRxaddr &&& 0x3F ∧
    s.sh.extraPipes ≤ t.sh.extraPipes

/-- `sh.listening` (10_state.md R51): set by startListening, which listenToAddress calls, cleared by
stopListening and init, and changed by no other host operation. -/
def Obligations.ListeningFlag : Prop :=
  ∀ (s t : State) (i : Instr), s.Ready → s.Calm → s.sh.extraPipes ≤ 5 → isHostOp i = true →
    exec i s = .next t →
    t.sh.listening = match i with
      | .startListening => true
      | .listenToAddress _ => if s.sh.extraPipes = 5 then s.sh.listening else true
      | .stopListening => false
      | .init _ => false
      | _ => s.sh.listening

/-- The bus commands the programs issue (30_encoding.md R114, R115, R116, R120, R121): whatever the
environment and the chip do, every transaction of a host operation is a well-formed bus command, and
ACTIVATE is issued only by init and only with 0x73. -/
def Obligations.AdmittedTransactions : Prop :=
  ∀ (s t : State) (i : Instr), isHostOp i = true → exec i s = .next t →
    ∃ new, t.busLog = new ++ s.busLog ∧
      ∀ out st inn, .xfer out st inn ∈ new →
        ∃ j, decode ⟨.bus, out⟩ = .ok j ∧ wellFormed j = true ∧
          ∀ x, j = .activate x → x = 0x73 ∧ ∃ m, i = .init m
end

