-- ==== Sys2Proof/Laws/State.lean ====
section
/-! SUPPORT. One lemma per field per update of the state: a field an operation does not write keeps
its value, and a written field holds what the operation says. -/

namespace Sys2Proof.Machine

/-! ### The settings a sequencer reset leaves -/

@[simp] theorem within_has (v : ChipVariant) (g : Settings) :
    v.has (g.within v).dataRate = true := by
  unfold Settings.within
  split
  · assumption
  · cases v <;> rfl

theorem within_of_has {v : ChipVariant} {g : Settings} (h : v.has g.dataRate = true) :
    g.within v = g := if_pos h

@[simp] theorem drawSettings_has (v : ChipVariant) (n : Nat) :
    v.has (Config.drawSettings v n).dataRate = true := within_has v _

variable (s : State)

/-! ### stop -/

@[simp] theorem stop_params (m : Mark) : (s.stop m).params = s.params := rfl
@[simp] theorem stop_chip (m : Mark) : (s.stop m).chip = s.chip := rfl
@[simp] theorem stop_ce (m : Mark) : (s.stop m).ce = s.ce := rfl
@[simp] theorem stop_csn (m : Mark) : (s.stop m).csn = s.csn := rfl
@[simp] theorem stop_seq (m : Mark) : (s.stop m).seq = s.seq := rfl
@[simp] theorem stop_sh (m : Mark) : (s.stop m).sh = s.sh := rfl
@[simp] theorem stop_host (m : Mark) : (s.stop m).host = s.host := rfl
@[simp] theorem stop_now (m : Mark) : (s.stop m).now = s.now := rfl
@[simp] theorem stop_bus (m : Mark) : (s.stop m).bus = s.bus := rfl
@[simp] theorem stop_env (m : Mark) : (s.stop m).env = s.env := rfl
@[simp] theorem stop_drawn (m : Mark) : (s.stop m).drawn = s.drawn := rfl
@[simp] theorem stop_busStatus (m : Mark) : (s.stop m).busStatus = s.busStatus := rfl
@[simp] theorem stop_busIn (m : Mark) : (s.stop m).busIn = s.busIn := rfl
@[simp] theorem stop_busLog (m : Mark) : (s.stop m).busLog = s.busLog := rfl

/-! ### refuse -/

@[simp] theorem refuse_params (r : Refusal) : (s.refuse r).params = s.params := rfl
@[simp] theorem refuse_chip (r : Refusal) : (s.refuse r).chip = s.chip := rfl
@[simp] theorem refuse_ce (r : Refusal) : (s.refuse r).ce = s.ce := rfl
@[simp] theorem refuse_csn (r : Refusal) : (s.refuse r).csn = s.csn := rfl
@[simp] theorem refuse_seq (r : Refusal) : (s.refuse r).seq = s.seq := rfl
@[simp] theorem refuse_sh (r : Refusal) : (s.refuse r).sh = s.sh := rfl
@[simp] theorem refuse_host (r : Refusal) : (s.refuse r).host = s.host := rfl
@[simp] theorem refuse_now (r : Refusal) : (s.refuse r).now = s.now := rfl
@[simp] theorem refuse_bus (r : Refusal) : (s.refuse r).bus = s.bus := rfl
@[simp] theorem refuse_env (r : Refusal) : (s.refuse r).env = s.env := rfl
@[simp] theorem refuse_drawn (r : Refusal) : (s.refuse r).drawn = s.drawn := rfl
@[simp] theorem refuse_busStatus (r : Refusal) : (s.refuse r).busStatus = s.busStatus := rfl
@[simp] theorem refuse_busIn (r : Refusal) : (s.refuse r).busIn = s.busIn := rfl
@[simp] theorem refuse_busLog (r : Refusal) : (s.refuse r).busLog = s.busLog := rfl

/-! ### raise -/

@[simp] theorem raise_params (r : Fault) : (s.raise r).params = s.params := rfl
@[simp] theorem raise_chip (r : Fault) : (s.raise r).chip = s.chip := rfl
@[simp] theorem raise_ce (r : Fault) : (s.raise r).ce = s.ce := rfl
@[simp] theorem raise_csn (r : Fault) : (s.raise r).csn = s.csn := rfl
@[simp] theorem raise_seq (r : Fault) : (s.raise r).seq = s.seq := rfl
@[simp] theorem raise_sh (r : Fault) : (s.raise r).sh = s.sh := rfl
@[simp] theorem raise_host (r : Fault) : (s.raise r).host = s.host := rfl
@[simp] theorem raise_now (r : Fault) : (s.raise r).now = s.now := rfl
@[simp] theorem raise_bus (r : Fault) : (s.raise r).bus = s.bus := rfl
@[simp] theorem raise_env (r : Fault) : (s.raise r).env = s.env := rfl
@[simp] theorem raise_drawn (r : Fault) : (s.raise r).drawn = s.drawn := rfl
@[simp] theorem raise_busStatus (r : Fault) : (s.raise r).busStatus = s.busStatus := rfl
@[simp] theorem raise_busIn (r : Fault) : (s.raise r).busIn = s.busIn := rfl
@[simp] theorem raise_busLog (r : Fault) : (s.raise r).busLog = s.busLog := rfl

/-! ### onChip -/

@[simp] theorem onChip_params (f : Chip → Chip) : (s.onChip f).params = s.params := rfl
@[simp] theorem onChip_ce (f : Chip → Chip) : (s.onChip f).ce = s.ce := rfl
@[simp] theorem onChip_csn (f : Chip → Chip) : (s.onChip f).csn = s.csn := rfl
@[simp] theorem onChip_seq (f : Chip → Chip) : (s.onChip f).seq = s.seq := rfl
@[simp] theorem onChip_sh (f : Chip → Chip) : (s.onChip f).sh = s.sh := rfl
@[simp] theorem onChip_host (f : Chip → Chip) : (s.onChip f).host = s.host := rfl
@[simp] theorem onChip_now (f : Chip → Chip) : (s.onChip f).now = s.now := rfl
@[simp] theorem onChip_bus (f : Chip → Chip) : (s.onChip f).bus = s.bus := rfl
@[simp] theorem onChip_marks (f : Chip → Chip) : (s.onChip f).marks = s.marks := rfl
@[simp] theorem onChip_env (f : Chip → Chip) : (s.onChip f).env = s.env := rfl
@[simp] theorem onChip_drawn (f : Chip → Chip) : (s.onChip f).drawn = s.drawn := rfl
@[simp] theorem onChip_busStatus (f : Chip → Chip) : (s.onChip f).busStatus = s.busStatus := rfl
@[simp] theorem onChip_busIn (f : Chip → Chip) : (s.onChip f).busIn = s.busIn := rfl
@[simp] theorem onChip_busLog (f : Chip → Chip) : (s.onChip f).busLog = s.busLog := rfl

/-! ### setCe -/

@[simp] theorem setCe_params (v : Bool) : (s.setCe v).params = s.params := rfl
@[simp] theorem setCe_chip (v : Bool) : (s.setCe v).chip = s.chip := rfl
@[simp] theorem setCe_csn (v : Bool) : (s.setCe v).csn = s.csn := rfl
@[simp] theorem setCe_seq (v : Bool) : (s.setCe v).seq = s.seq := rfl
@[simp] theorem setCe_sh (v : Bool) : (s.setCe v).sh = s.sh := rfl
@[simp] theorem setCe_host (v : Bool) : (s.setCe v).host = s.host := rfl
@[simp] theorem setCe_now (v : Bool) : (s.setCe v).now = s.now := rfl
@[simp] theorem setCe_bus (v : Bool) : (s.setCe v).bus = s.bus := rfl
@[simp] theorem setCe_marks (v : Bool) : (s.setCe v).marks = s.marks := rfl
@[simp] theorem setCe_env (v : Bool) : (s.setCe v).env = s.env := rfl
@[simp] theorem setCe_drawn (v : Bool) : (s.setCe v).drawn = s.drawn := rfl
@[simp] theorem setCe_busStatus (v : Bool) : (s.setCe v).busStatus = s.busStatus := rfl
@[simp] theorem setCe_busIn (v : Bool) : (s.setCe v).busIn = s.busIn := rfl

/-! ### reply -/

@[simp] theorem reply_params (o : List Byte) (x : Byte) (d : List Byte) :
    (s.reply o x d).params = s.params := rfl
@[simp] theorem reply_chip (o : List Byte) (x : Byte) (d : List Byte) :
    (s.reply o x d).chip = s.chip := rfl
@[simp] theorem reply_ce (o : List Byte) (x : Byte) (d : List Byte) :
    (s.reply o x d).ce = s.ce := rfl
@[simp] theorem reply_seq (o : List Byte) (x : Byte) (d : List Byte) :
    (s.reply o x d).seq = s.seq := rfl
@[simp] theorem reply_sh (o : List Byte) (x : Byte) (d : List Byte) :
    (s.reply o x d).sh = s.sh := rfl
@[simp] theorem reply_host (o : List Byte) (x : Byte) (d : List Byte) :
    (s.reply o x d).host = s.host := rfl
@[simp] theorem reply_now (o : List Byte) (x : Byte) (d : List Byte) :
    (s.reply o x d).now = s.now := rfl
@[simp] theorem reply_bus (o : List Byte) (x : Byte) (d : List Byte) :
    (s.reply o x d).bus = s.bus := rfl
@[simp] theorem reply_marks (o : List Byte) (x : Byte) (d : List Byte) :
    (s.reply o x d).marks = s.marks := rfl
@[simp] theorem reply_env (o : List Byte) (x : Byte) (d : List Byte) :
    (s.reply o x d).env = s.env := rfl
@[simp] theorem reply_drawn (o : List Byte) (x : Byte) (d : List Byte) :
    (s.reply o x d).drawn = s.drawn := rfl

/-! ### drawBytes -/

@[simp] theorem drawBytes_params (n : Nat) : (s.drawBytes n).2.params = s.params := rfl
@[simp] theorem drawBytes_chip (n : Nat) : (s.drawBytes n).2.chip = s.chip := rfl
@[simp] theorem drawBytes_ce (n : Nat) : (s.drawBytes n).2.ce = s.ce := rfl
@[simp] theorem drawBytes_csn (n : Nat) : (s.drawBytes n).2.csn = s.csn := rfl
@[simp] theorem drawBytes_seq (n : Nat) : (s.drawBytes n).2.seq = s.seq := rfl
@[simp] theorem drawBytes_sh (n : Nat) : (s.drawBytes n).2.sh = s.sh := rfl
@[simp] theorem drawBytes_host (n : Nat) : (s.drawBytes n).2.host = s.host := rfl
@[simp] theorem drawBytes_now (n : Nat) : (s.drawBytes n).2.now = s.now := rfl
@[simp] theorem drawBytes_bus (n : Nat) : (s.drawBytes n).2.bus = s.bus := rfl
@[simp] theorem drawBytes_marks (n : Nat) : (s.drawBytes n).2.marks = s.marks := rfl
@[simp] theorem drawBytes_env (n : Nat) : (s.drawBytes n).2.env = s.env := rfl
@[simp] theorem drawBytes_busStatus (n : Nat) : (s.drawBytes n).2.busStatus = s.busStatus := rfl
@[simp] theorem drawBytes_busIn (n : Nat) : (s.drawBytes n).2.busIn = s.busIn := rfl
@[simp] theorem drawBytes_busLog (n : Nat) : (s.drawBytes n).2.busLog = s.busLog := rfl

/-! ### drawBool -/

@[simp] theorem drawBool_params : s.drawBool.2.params = s.params := rfl
@[simp] theorem drawBool_chip : s.drawBool.2.chip = s.chip := rfl
@[simp] theorem drawBool_ce : s.drawBool.2.ce = s.ce := rfl
@[simp] theorem drawBool_csn : s.drawBool.2.csn = s.csn := rfl
@[simp] theorem drawBool_seq : s.drawBool.2.seq = s.seq := rfl
@[simp] theorem drawBool_sh : s.drawBool.2.sh = s.sh := rfl
@[simp] theorem drawBool_host : s.drawBool.2.host = s.host := rfl
@[simp] theorem drawBool_now : s.drawBool.2.now = s.now := rfl
@[simp] theorem drawBool_bus : s.drawBool.2.bus = s.bus := rfl
@[simp] theorem drawBool_marks : s.drawBool.2.marks = s.marks := rfl
@[simp] theorem drawBool_env : s.drawBool.2.env = s.env := rfl
@[simp] theorem drawBool_busStatus : s.drawBool.2.busStatus = s.busStatus := rfl
@[simp] theorem drawBool_busIn : s.drawBool.2.busIn = s.busIn := rfl
@[simp] theorem drawBool_busLog : s.drawBool.2.busLog = s.busLog := rfl

/-! ### drawBoolIf -/

@[simp] theorem drawBoolIf_params (c : Bool) : (s.drawBoolIf c).2.params = s.params := rfl
@[simp] theorem drawBoolIf_chip (c : Bool) : (s.drawBoolIf c).2.chip = s.chip := rfl
@[simp] theorem drawBoolIf_ce (c : Bool) : (s.drawBoolIf c).2.ce = s.ce := rfl
@[simp] theorem drawBoolIf_csn (c : Bool) : (s.drawBoolIf c).2.csn = s.csn := rfl
@[simp] theorem drawBoolIf_seq (c : Bool) : (s.drawBoolIf c).2.seq = s.seq := rfl
@[simp] theorem drawBoolIf_sh (c : Bool) : (s.drawBoolIf c).2.sh = s.sh := rfl
@[simp] theorem drawBoolIf_host (c : Bool) : (s.drawBoolIf c).2.host = s.host := rfl
@[simp] theorem drawBoolIf_now (c : Bool) : (s.drawBoolIf c).2.now = s.now := rfl
@[simp] theorem drawBoolIf_bus (c : Bool) : (s.drawBoolIf c).2.bus = s.bus := rfl
@[simp] theorem drawBoolIf_marks (c : Bool) : (s.drawBoolIf c).2.marks = s.marks := rfl
@[simp] theorem drawBoolIf_env (c : Bool) : (s.drawBoolIf c).2.env = s.env := rfl
@[simp] theorem drawBoolIf_busStatus (c : Bool) : (s.drawBoolIf c).2.busStatus = s.busStatus := rfl
@[simp] theorem drawBoolIf_busIn (c : Bool) : (s.drawBoolIf c).2.busIn = s.busIn := rfl
@[simp] theorem drawBoolIf_busLog (c : Bool) : (s.drawBoolIf c).2.busLog = s.busLog := rfl

/-! ### memWrite -/

@[simp] theorem memWrite_params (b : BufId) (i : Nat) (v : List Byte) :
    (s.memWrite b i v).params = s.params := by
  cases b <;> rfl
@[simp] theorem memWrite_chip (b : BufId) (i : Nat) (v : List Byte) :
    (s.memWrite b i v).chip = s.chip := by
  cases b <;> rfl
@[simp] theorem memWrite_ce (b : BufId) (i : Nat) (v : List Byte) :
    (s.memWrite b i v).ce = s.ce := by
  cases b <;> rfl
@[simp] theorem memWrite_csn (b : BufId) (i : Nat) (v : List Byte) :
    (s.memWrite b i v).csn = s.csn := by
  cases b <;> rfl
@[simp] theorem memWrite_seq (b : BufId) (i : Nat) (v : List Byte) :
    (s.memWrite b i v).seq = s.seq := by
  cases b <;> rfl
@[simp] theorem memWrite_sh (b : BufId) (i : Nat) (v : List Byte) :
    (s.memWrite b i v).sh = s.sh := by
  cases b <;> rfl
@[simp] theorem memWrite_now (b : BufId) (i : Nat) (v : List Byte) :
    (s.memWrite b i v).now = s.now := by
  cases b <;> rfl
@[simp] theorem memWrite_bus (b : BufId) (i : Nat) (v : List Byte) :
    (s.memWrite b i v).bus = s.bus := by
  cases b <;> rfl
@[simp] theorem memWrite_marks (b : BufId) (i : Nat) (v : List Byte) :
    (s.memWrite b i v).marks = s.marks := by
  cases b <;> rfl
@[simp] theorem memWrite_env (b : BufId) (i : Nat) (v : List Byte) :
    (s.memWrite b i v).env = s.env := by
  cases b <;> rfl
@[simp] theorem memWrite_drawn (b : BufId) (i : Nat) (v : List Byte) :
    (s.memWrite b i v).drawn = s.drawn := by
  cases b <;> rfl
@[simp] theorem memWrite_busStatus (b : BufId) (i : Nat) (v : List Byte) :
    (s.memWrite b i v).busStatus = s.busStatus := by
  cases b <;> rfl
@[simp] theorem memWrite_busIn (b : BufId) (i : Nat) (v : List Byte) :
    (s.memWrite b i v).busIn = s.busIn := by
  cases b <;> rfl
@[simp] theorem memWrite_busLog (b : BufId) (i : Nat) (v : List Byte) :
    (s.memWrite b i v).busLog = s.busLog := by
  cases b <;> rfl

/-! ### push -/

@[simp] theorem push_params (op : Instr) : (s.push op).params = s.params := rfl
@[simp] theorem push_chip (op : Instr) : (s.push op).chip = s.chip := rfl
@[simp] theorem push_ce (op : Instr) : (s.push op).ce = s.ce := rfl
@[simp] theorem push_csn (op : Instr) : (s.push op).csn = s.csn := rfl
@[simp] theorem push_sh (op : Instr) : (s.push op).sh = s.sh := rfl
@[simp] theorem push_host (op : Instr) : (s.push op).host = s.host := rfl
@[simp] theorem push_now (op : Instr) : (s.push op).now = s.now := rfl
@[simp] theorem push_bus (op : Instr) : (s.push op).bus = s.bus := rfl
@[simp] theorem push_marks (op : Instr) : (s.push op).marks = s.marks := rfl
@[simp] theorem push_env (op : Instr) : (s.push op).env = s.env := rfl
@[simp] theorem push_drawn (op : Instr) : (s.push op).drawn = s.drawn := rfl
@[simp] theorem push_busStatus (op : Instr) : (s.push op).busStatus = s.busStatus := rfl
@[simp] theorem push_busIn (op : Instr) : (s.push op).busIn = s.busIn := rfl
@[simp] theorem push_busLog (op : Instr) : (s.push op).busLog = s.busLog := rfl

/-! ### onShadow -/

@[simp] theorem onShadow_params (f : Shadow → Shadow) : (s.onShadow f).params = s.params := rfl
@[simp] theorem onShadow_chip (f : Shadow → Shadow) : (s.onShadow f).chip = s.chip := rfl
@[simp] theorem onShadow_ce (f : Shadow → Shadow) : (s.onShadow f).ce = s.ce := rfl
@[simp] theorem onShadow_csn (f : Shadow → Shadow) : (s.onShadow f).csn = s.csn := rfl
@[simp] theorem onShadow_seq (f : Shadow → Shadow) : (s.onShadow f).seq = s.seq := rfl
@[simp] theorem onShadow_host (f : Shadow → Shadow) : (s.onShadow f).host = s.host := rfl
@[simp] theorem onShadow_now (f : Shadow → Shadow) : (s.onShadow f).now = s.now := rfl
@[simp] theorem onShadow_bus (f : Shadow → Shadow) : (s.onShadow f).bus = s.bus := rfl
@[simp] theorem onShadow_marks (f : Shadow → Shadow) : (s.onShadow f).marks = s.marks := rfl
@[simp] theorem onShadow_env (f : Shadow → Shadow) : (s.onShadow f).env = s.env := rfl
@[simp] theorem onShadow_drawn (f : Shadow → Shadow) : (s.onShadow f).drawn = s.drawn := rfl
@[simp] theorem onShadow_busStatus (f : Shadow → Shadow) :
    (s.onShadow f).busStatus = s.busStatus := rfl
@[simp] theorem onShadow_busIn (f : Shadow → Shadow) : (s.onShadow f).busIn = s.busIn := rfl
@[simp] theorem onShadow_busLog (f : Shadow → Shadow) : (s.onShadow f).busLog = s.busLog := rfl

/-! ### onSettings -/

@[simp] theorem onSettings_params (f : Settings → Settings) :
    (s.onSettings f).params = s.params := rfl
@[simp] theorem onSettings_chip (f : Settings → Settings) : (s.onSettings f).chip = s.chip := rfl
@[simp] theorem onSettings_ce (f : Settings → Settings) : (s.onSettings f).ce = s.ce := rfl
@[simp] theorem onSettings_csn (f : Settings → Settings) : (s.onSettings f).csn = s.csn := rfl
@[simp] theorem onSettings_seq (f : Settings → Settings) : (s.onSettings f).seq = s.seq := rfl
@[simp] theorem onSettings_host (f : Settings → Settings) : (s.onSettings f).host = s.host := rfl
@[simp] theorem onSettings_now (f : Settings → Settings) : (s.onSettings f).now = s.now := rfl
@[simp] theorem onSettings_bus (f : Settings → Settings) :
    (s.onSettings f).bus = s.bus := rfl
@[simp] theorem onSettings_marks (f : Settings → Settings) :
    (s.onSettings f).marks = s.marks := rfl
@[simp] theorem onSettings_env (f : Settings → Settings) : (s.onSettings f).env = s.env := rfl
@[simp] theorem onSettings_drawn (f : Settings → Settings) :
    (s.onSettings f).drawn = s.drawn := rfl
@[simp] theorem onSettings_busStatus (f : Settings → Settings) :
    (s.onSettings f).busStatus = s.busStatus := rfl
@[simp] theorem onSettings_busIn (f : Settings → Settings) :
    (s.onSettings f).busIn = s.busIn := rfl
@[simp] theorem onSettings_busLog (f : Settings → Settings) :
    (s.onSettings f).busLog = s.busLog := rfl

/-! ### clock -/

@[simp] theorem clock_params (d : Nat) : (s.clock d).params = s.params := rfl
@[simp] theorem clock_chip (d : Nat) : (s.clock d).chip = s.chip := rfl
@[simp] theorem clock_ce (d : Nat) : (s.clock d).ce = s.ce := rfl
@[simp] theorem clock_csn (d : Nat) : (s.clock d).csn = s.csn := rfl
@[simp] theorem clock_seq (d : Nat) : (s.clock d).seq = s.seq := rfl
@[simp] theorem clock_sh (d : Nat) : (s.clock d).sh = s.sh := rfl
@[simp] theorem clock_host (d : Nat) : (s.clock d).host = s.host := rfl
@[simp] theorem clock_bus (d : Nat) : (s.clock d).bus = s.bus := rfl
@[simp] theorem clock_marks (d : Nat) : (s.clock d).marks = s.marks := rfl
@[simp] theorem clock_env (d : Nat) : (s.clock d).env = s.env := rfl
@[simp] theorem clock_drawn (d : Nat) : (s.clock d).drawn = s.drawn := rfl
@[simp] theorem clock_busStatus (d : Nat) : (s.clock d).busStatus = s.busStatus := rfl
@[simp] theorem clock_busIn (d : Nat) : (s.clock d).busIn = s.busIn := rfl
@[simp] theorem clock_busLog (d : Nat) : (s.clock d).busLog = s.busLog := rfl

/-! ### setLocals -/

@[simp] theorem setLocals_params (g : Locals → Locals) :
    (s.setLocals g).params = s.params := by
  unfold State.setLocals; split <;> rfl
@[simp] theorem setLocals_chip (g : Locals → Locals) :
    (s.setLocals g).chip = s.chip := by
  unfold State.setLocals; split <;> rfl
@[simp] theorem setLocals_ce (g : Locals → Locals) :
    (s.setLocals g).ce = s.ce := by
  unfold State.setLocals; split <;> rfl
@[simp] theorem setLocals_csn (g : Locals → Locals) :
    (s.setLocals g).csn = s.csn := by
  unfold State.setLocals; split <;> rfl
@[simp] theorem setLocals_sh (g : Locals → Locals) :
    (s.setLocals g).sh = s.sh := by
  unfold State.setLocals; split <;> rfl
@[simp] theorem setLocals_host (g : Locals → Locals) :
    (s.setLocals g).host = s.host := by
  unfold State.setLocals; split <;> rfl
@[simp] theorem setLocals_now (g : Locals → Locals) :
    (s.setLocals g).now = s.now := by
  unfold State.setLocals; split <;> rfl
@[simp] theorem setLocals_bus (g : Locals → Locals) :
    (s.setLocals g).bus = s.bus := by
  unfold State.setLocals; split <;> rfl
@[simp] theorem setLocals_marks (g : Locals → Locals) :
    (s.setLocals g).marks = s.marks := by
  unfold State.setLocals; split <;> rfl
@[simp] theorem setLocals_env (g : Locals → Locals) :
    (s.setLocals g).env = s.env := by
  unfold State.setLocals; split <;> rfl
@[simp] theorem setLocals_drawn (g : Locals → Locals) :
    (s.setLocals g).drawn = s.drawn := by
  unfold State.setLocals; split <;> rfl
@[simp] theorem setLocals_busStatus (g : Locals → Locals) :
    (s.setLocals g).busStatus = s.busStatus := by
  unfold State.setLocals; split <;> rfl
@[simp] theorem setLocals_busIn (g : Locals → Locals) :
    (s.setLocals g).busIn = s.busIn := by
  unfold State.setLocals; split <;> rfl
@[simp] theorem setLocals_busLog (g : Locals → Locals) :
    (s.setLocals g).busLog = s.busLog := by
  unfold State.setLocals; split <;> rfl

/-! ### atLabel -/

@[simp] theorem atLabel_params (l : Label) :
    (s.atLabel l).params = s.params := by
  unfold State.atLabel; split <;> rfl
@[simp] theorem atLabel_chip (l : Label) :
    (s.atLabel l).chip = s.chip := by
  unfold State.atLabel; split <;> rfl
@[simp] theorem atLabel_ce (l : Label) :
    (s.atLabel l).ce = s.ce := by
  unfold State.atLabel; split <;> rfl
@[simp] theorem atLabel_csn (l : Label) :
    (s.atLabel l).csn = s.csn := by
  unfold State.atLabel; split <;> rfl
@[simp] theorem atLabel_sh (l : Label) :
    (s.atLabel l).sh = s.sh := by
  unfold State.atLabel; split <;> rfl
@[simp] theorem atLabel_host (l : Label) :
    (s.atLabel l).host = s.host := by
  unfold State.atLabel; split <;> rfl
@[simp] theorem atLabel_now (l : Label) :
    (s.atLabel l).now = s.now := by
  unfold State.atLabel; split <;> rfl
@[simp] theorem atLabel_bus (l : Label) :
    (s.atLabel l).bus = s.bus := by
  unfold State.atLabel; split <;> rfl
@[simp] theorem atLabel_marks (l : Label) :
    (s.atLabel l).marks = s.marks := by
  unfold State.atLabel; split <;> rfl
@[simp] theorem atLabel_env (l : Label) :
    (s.atLabel l).env = s.env := by
  unfold State.atLabel; split <;> rfl
@[simp] theorem atLabel_drawn (l : Label) :
    (s.atLabel l).drawn = s.drawn := by
  unfold State.atLabel; split <;> rfl
@[simp] theorem atLabel_busStatus (l : Label) :
    (s.atLabel l).busStatus = s.busStatus := by
  unfold State.atLabel; split <;> rfl
@[simp] theorem atLabel_busIn (l : Label) :
    (s.atLabel l).busIn = s.busIn := by
  unfold State.atLabel; split <;> rfl
@[simp] theorem atLabel_busLog (l : Label) :
    (s.atLabel l).busLog = s.busLog := by
  unfold State.atLabel; split <;> rfl

/-! ### taken -/

@[simp] theorem taken_params : s.taken.params = s.params := by
  unfold State.taken; split <;> rfl
@[simp] theorem taken_chip : s.taken.chip = s.chip := by
  unfold State.taken; split <;> rfl
@[simp] theorem taken_ce : s.taken.ce = s.ce := by
  unfold State.taken; split <;> rfl
@[simp] theorem taken_csn : s.taken.csn = s.csn := by
  unfold State.taken; split <;> rfl
@[simp] theorem taken_seq : s.taken.seq = s.seq := by
  unfold State.taken; split <;> rfl
@[simp] theorem taken_sh : s.taken.sh = s.sh := by
  unfold State.taken; split <;> rfl
@[simp] theorem taken_now : s.taken.now = s.now := by
  unfold State.taken; split <;> rfl
@[simp] theorem taken_marks : s.taken.marks = s.marks := by
  unfold State.taken; split <;> rfl
@[simp] theorem taken_env : s.taken.env = s.env := by
  unfold State.taken; split <;> rfl
@[simp] theorem taken_drawn : s.taken.drawn = s.drawn := by
  unfold State.taken; split <;> rfl
@[simp] theorem taken_busStatus : s.taken.busStatus = s.busStatus := by
  unfold State.taken; split <;> rfl
@[simp] theorem taken_busIn : s.taken.busIn = s.busIn := by
  unfold State.taken; split <;> rfl
@[simp] theorem taken_busLog : s.taken.busLog = s.busLog := by
  unfold State.taken; split <;> rfl

/-! ### give -/

@[simp] theorem give_params (v : Result) : (s.give v).params = s.params := rfl
@[simp] theorem give_chip (v : Result) : (s.give v).chip = s.chip := rfl
@[simp] theorem give_ce (v : Result) : (s.give v).ce = s.ce := rfl
@[simp] theorem give_csn (v : Result) : (s.give v).csn = s.csn := rfl
@[simp] theorem give_sh (v : Result) : (s.give v).sh = s.sh := rfl
@[simp] theorem give_now (v : Result) : (s.give v).now = s.now := rfl
@[simp] theorem give_marks (v : Result) : (s.give v).marks = s.marks := rfl
@[simp] theorem give_env (v : Result) : (s.give v).env = s.env := rfl
@[simp] theorem give_drawn (v : Result) : (s.give v).drawn = s.drawn := rfl
@[simp] theorem give_bus (v : Result) : (s.give v).bus = s.bus := rfl
@[simp] theorem give_busStatus (v : Result) : (s.give v).busStatus = s.busStatus := rfl
@[simp] theorem give_busIn (v : Result) : (s.give v).busIn = s.busIn := rfl
@[simp] theorem give_busLog (v : Result) : (s.give v).busLog = s.busLog := rfl

/-! ### chipReset -/

@[simp] theorem chipReset_params : s.chipReset.params = s.params := rfl
@[simp] theorem chipReset_ce : s.chipReset.ce = s.ce := rfl
@[simp] theorem chipReset_csn : s.chipReset.csn = s.csn := rfl
@[simp] theorem chipReset_seq : s.chipReset.seq = s.seq := rfl
@[simp] theorem chipReset_sh : s.chipReset.sh = s.sh := rfl
@[simp] theorem chipReset_host : s.chipReset.host = s.host := rfl
@[simp] theorem chipReset_now : s.chipReset.now = s.now := rfl
@[simp] theorem chipReset_bus : s.chipReset.bus = s.bus := rfl
@[simp] theorem chipReset_marks : s.chipReset.marks = s.marks := rfl
@[simp] theorem chipReset_env : s.chipReset.env = s.env := rfl
@[simp] theorem chipReset_drawn : s.chipReset.drawn = s.drawn := rfl
@[simp] theorem chipReset_busStatus : s.chipReset.busStatus = s.busStatus := rfl
@[simp] theorem chipReset_busIn : s.chipReset.busIn = s.busIn := rfl
@[simp] theorem chipReset_busLog : s.chipReset.busLog = s.busLog := rfl

/-! ### sequencerReset -/

@[simp] theorem sequencerReset_params (c : Bool) : (s.sequencerReset c).params = s.params := rfl
@[simp] theorem sequencerReset_chip (c : Bool) : (s.sequencerReset c).chip = s.chip := rfl
@[simp] theorem sequencerReset_csn (c : Bool) : (s.sequencerReset c).csn = s.csn := rfl
@[simp] theorem sequencerReset_host (c : Bool) : (s.sequencerReset c).host = s.host := rfl
@[simp] theorem sequencerReset_now (c : Bool) : (s.sequencerReset c).now = s.now := rfl
@[simp] theorem sequencerReset_bus (c : Bool) : (s.sequencerReset c).bus = s.bus := rfl
@[simp] theorem sequencerReset_marks (c : Bool) : (s.sequencerReset c).marks = none := rfl
@[simp] theorem sequencerReset_env (c : Bool) : (s.sequencerReset c).env = s.env := rfl
@[simp] theorem sequencerReset_busStatus (c : Bool) :
    (s.sequencerReset c).busStatus = s.busStatus := rfl
@[simp] theorem sequencerReset_busIn (c : Bool) : (s.sequencerReset c).busIn = s.busIn := rfl
@[simp] theorem sequencerReset_busLog (c : Bool) : (s.sequencerReset c).busLog = s.busLog := rfl

/-! ### Written fields -/

@[simp] theorem stop_marks (m : Mark) : (s.stop m).marks = some m := rfl
@[simp] theorem refuse_marks (r : Refusal) : (s.refuse r).marks = some (.refusal r) := rfl
@[simp] theorem raise_marks (r : Fault) : (s.raise r).marks = some (.fault r) := rfl
@[simp] theorem onChip_chip (f : Chip → Chip) : (s.onChip f).chip = f s.chip := rfl
@[simp] theorem setCe_ce (v : Bool) : (s.setCe v).ce = v := rfl
@[simp] theorem setCe_busLog (v : Bool) : (s.setCe v).busLog = .ce v :: s.busLog := rfl
@[simp] theorem reply_csn (o : List Byte) (x : Byte) (d : List Byte) :
    (s.reply o x d).csn = false := rfl
@[simp] theorem reply_busStatus (o : List Byte) (x : Byte) (d : List Byte) :
    (s.reply o x d).busStatus = x := rfl
@[simp] theorem reply_busIn (o : List Byte) (x : Byte) (d : List Byte) :
    (s.reply o x d).busIn = d := rfl
@[simp] theorem reply_busLog (o : List Byte) (x : Byte) (d : List Byte) :
    (s.reply o x d).busLog = .xfer o x d :: s.busLog := rfl
@[simp] theorem drawBytes_drawn (n : Nat) : (s.drawBytes n).2.drawn = s.drawn + n := rfl
@[simp] theorem drawBytes_length (n : Nat) : (s.drawBytes n).1.length = n := by
  simp [State.drawBytes]
@[simp] theorem drawBool_drawn : s.drawBool.2.drawn = s.drawn + 1 := rfl
@[simp] theorem push_seq (op : Instr) : (s.push op).seq = ⟨op, .s1, .fresh⟩ :: s.seq := rfl
@[simp] theorem push_locals (op : Instr) : (s.push op).locals = .fresh := rfl
@[simp] theorem give_seq (v : Result) : (s.give v).seq = handBack v s.seq.tail := rfl
@[simp] theorem give_host (v : Result) : (s.give v).host =
    if s.seq.tail.isEmpty then { s.host with result := v } else s.host := rfl
@[simp] theorem taken_bus : s.taken.bus = none := by
  cases h : s.bus <;> simp [State.taken, h]
@[simp] theorem onShadow_sh (f : Shadow → Shadow) : (s.onShadow f).sh = f s.sh := rfl
@[simp] theorem onSettings_sh (f : Settings → Settings) :
    (s.onSettings f).sh = { s.sh with settings := f s.sh.settings } := rfl
@[simp] theorem clock_now (d : Nat) : (s.clock d).now = s.now + (d + 1) := rfl
@[simp] theorem chipReset_chip : s.chipReset.chip = Chip.reset s.params.variant := rfl
@[simp] theorem sequencerReset_seq (c : Bool) : (s.sequencerReset c).seq = [] := rfl
@[simp] theorem sequencerReset_ce (c : Bool) : (s.sequencerReset c).ce = c := rfl

@[simp] theorem setLocals_seq_isEmpty (g : Locals → Locals) :
    (s.setLocals g).seq.isEmpty = s.seq.isEmpty := by
  unfold State.setLocals; split <;> simp_all

@[simp] theorem atLabel_seq_isEmpty (l : Label) : (s.atLabel l).seq.isEmpty = s.seq.isEmpty := by
  unfold State.atLabel; split <;> simp_all

@[simp] theorem atLabel_stopped (l : Label) : (s.atLabel l).stopped = s.stopped := by
  simp [State.stopped]

@[simp] theorem setLocals_stopped (g : Locals → Locals) :
    (s.setLocals g).stopped = s.stopped := by
  simp [State.stopped]

@[simp] theorem atLabel_locals (l : Label) : (s.atLabel l).locals = s.locals := by
  cases h : s.seq <;> simp [State.atLabel, State.locals, h]

theorem setLocals_locals (g : Locals → Locals) (h : s.seq ≠ []) :
    (s.setLocals g).locals = g s.locals := by
  cases h' : s.seq with
  | nil => exact absurd h' h
  | cons f r => simp [State.setLocals, State.locals, h']

end Sys2Proof.Machine
end

