-- ==== Sys2Proof/Laws/Environment.lean ====
section
/-! SUPPORT. Everything the other agents can do between two micro-steps: radio steps write the flags,
the counters, the FIFOs and `txActive` and nothing else (41_radio_core.md R197); in the admitted
configuration none is refused (R205); the clock never goes back. -/

namespace Sys2Proof.Machine

/-! ## Two states that differ only in what the environment writes -/

section
variable {s t : State} (h : s.steady = t.steady)
include h

theorem params_of_steady : s.params = t.params := by
  have e := congrArg State.params h
  exact e

theorem ce_of_steady : s.ce = t.ce := by
  have e := congrArg State.ce h
  exact e

theorem csn_of_steady : s.csn = t.csn := by
  have e := congrArg State.csn h
  exact e

theorem seq_of_steady : s.seq = t.seq := by
  have e := congrArg State.seq h
  exact e

theorem sh_of_steady : s.sh = t.sh := by
  have e := congrArg State.sh h
  exact e

theorem host_of_steady : s.host = t.host := by
  have e := congrArg State.host h
  exact e

theorem marks_of_steady : s.marks = t.marks := by
  have e := congrArg State.marks h
  exact e

theorem busStatus_of_steady : s.busStatus = t.busStatus := by
  have e := congrArg State.busStatus h
  exact e

theorem busIn_of_steady : s.busIn = t.busIn := by
  have e := congrArg State.busIn h
  exact e

theorem busLog_of_steady : s.busLog = t.busLog := by
  have e := congrArg State.busLog h
  exact e

theorem chip_of_steady : s.chip.steady = t.chip.steady := by
  have e := congrArg State.chip h
  exact e

theorem stopped_of_steady : s.stopped = t.stopped := by
  unfold State.stopped
  rw [marks_of_steady h, seq_of_steady h]

theorem locals_of_steady : s.locals = t.locals := by
  unfold State.locals
  rw [seq_of_steady h]

theorem kept_of_steady : s.kept = t.kept := by
  unfold State.kept
  rw [h, busLog_of_steady h]

end

/-! ## Radio steps keep the rest of the chip -/

@[simp] theorem pushRx_steady (p : Fin 6) (d : List Byte) (c : Chip) :
    (c.pushRx p d).steady = c.steady := rfl

@[simp] theorem success_steady (q : Option (List Byte)) (c : Chip) :
    (c.success q).steady = c.steady := by
  cases q <;> rfl

@[simp] theorem exhausted_steady (c : Chip) : c.exhausted.steady = c.steady := rfl

@[simp] theorem startCycle_steady (c : Chip) : c.startCycle.steady = c.steady := by
  unfold Chip.startCycle; split <;> rfl

@[simp] theorem attempt_steady (o : AttemptOutcome) (c : Chip) :
    (c.attempt o).steady = c.steady := by
  unfold Chip.attempt
  dsimp only
  split
  · simp
  · split
    · simp
    · split
      · simp
      · split
        · exact startCycle_steady c
        · simp

@[simp] theorem sendAck_steady (m : AckMatch) (p : Fin 6) (c : Chip) :
    (c.sendAck m p).steady = c.steady := by
  unfold Chip.sendAck
  split
  · rfl
  · cases m <;> simp only <;> split <;> rfl

@[simp] theorem accept_steady (m : AckMatch) (p : Fin 6) (k : Packet) (c : Chip) :
    (c.accept m p k).steady = c.steady := by
  unfold Chip.accept
  split
  · rfl
  · dsimp only
    split <;> split <;> simp

/-- The admitted configuration is made of registers no radio step writes. -/
theorem admitted_of_steady {c d : Chip} (h : c.steady = d.steady) (hd : d.Admitted) :
    c.Admitted := by
  have e1 := congrArg Chip.setupAw h
  have e2 := congrArg Chip.featuresUnlocked h
  have e3 := congrArg Chip.feature h
  have e4 := congrArg Chip.dynpd h
  dsimp only [Chip.steady] at e1 e2 e3 e4
  have a1 : c.awAdmitted = d.awAdmitted := by simp [Chip.awAdmitted, e1]
  have a2 (p : Fin 6) : c.dynamicPayload p = d.dynamicPayload p := by
    simp [Chip.dynamicPayload, Chip.enDpl, e2, e3, e4]
  exact ⟨a1.trans hd.1, fun p => (a2 p).trans (hd.2 p)⟩

/-- Nor does one change whether a radio step can be refused. -/
theorem tame_of_steady {c d : Chip} (h : c.steady = d.steady) (hd : d.Tame) : c.Tame := by
  have e := congrArg Chip.config h
  dsimp only [Chip.steady] at e
  rcases hd with hd | hd
  · exact .inl (admitted_of_steady h hd)
  · right
    unfold Chip.pwrUp at hd ⊢
    rw [e, hd]

theorem attemptDue_asleep {s : State} (h : s.chip.pwrUp = false) : s.attemptDue = false := by
  simp [State.attemptDue, Chip.txReady, h]

theorem chipMode_asleep {s : State} (h : s.chip.pwrUp = false) : s.chipMode = .powerDown := by
  simp [State.chipMode, h]

theorem onChip_steady {f : Chip → Chip} (s : State) (h : (f s.chip).steady = s.chip.steady) :
    (s.onChip f).steady = s.steady := by
  simp only [State.steady, State.onChip, h]

theorem txAttempt_steady (o : AttemptOutcome) (s : State) (h : s.chip.Tame) :
    (s.txAttempt o).steady = s.steady := by
  unfold State.txAttempt
  rcases h with h | h
  · split
    · rfl
    · simp [h.1, onChip_steady]
  · simp [attemptDue_asleep h]

theorem txAbandon_steady (s : State) : s.txAbandon.steady = s.steady := by
  unfold State.txAbandon
  split
  · exact onChip_steady s rfl
  · rfl

theorem receive_steady (k : Packet) (n : Nat) (s : State) (h : s.chip.Tame) :
    (s.receive k n).steady = s.steady := by
  unfold State.receive
  rcases h with h | h
  swap
  · simp [chipMode_asleep h]
  split
  · rfl
  · simp only [h.1, Bool.not_true, Bool.false_eq_true, if_false]
    split
    · rfl
    · split
      · rfl
      · simp [h.2, onChip_steady]

/-- One move that resets nothing writes only what R197 lists, the clock and nothing else. -/
theorem applyMove_steady (m : EnvMove) (s : State) (hm : isReset m = false)
    (h : s.chip.Tame) : (applyMove m s).steady = s.steady := by
  cases m with
  | clock d => rfl
  | txAttempt o => exact txAttempt_steady o s h
  | txAbandon => exact txAbandon_steady s
  | receive k n => exact receive_steady k n s h
  | chipReset => simp [isReset] at hm
  | sequencerReset c => simp [isReset] at hm

theorem applyMoves_steady (ms : List EnvMove) (s : State) (hm : ∀ m ∈ ms, isReset m = false)
    (h : s.chip.Tame) : (applyMoves ms s).steady = s.steady := by
  induction ms generalizing s with
  | nil => rfl
  | cons m ms ih =>
    unfold applyMoves
    split
    · rfl
    · have e := applyMove_steady m s (hm m (by simp)) h
      have a := tame_of_steady (chip_of_steady e) h
      rw [ih _ (fun x hx => hm x (by simp [hx])) a, e]

theorem afterScript_steady (s : State) (h : s.chip.Tame) :
    s.afterScript.steady = s.steady := by
  unfold State.afterScript
  split
  · exact txAttempt_steady _ { s with drawn := s.drawn + 1 } h
  · rfl

/-! ## The coming answers and the clock -/

@[simp] theorem txAttempt_env (o : AttemptOutcome) (s : State) : (s.txAttempt o).env = s.env := by
  unfold State.txAttempt; split <;> try split
  all_goals rfl

@[simp] theorem txAttempt_now (o : AttemptOutcome) (s : State) : (s.txAttempt o).now = s.now := by
  unfold State.txAttempt; split <;> try split
  all_goals rfl

@[simp] theorem txAbandon_env (s : State) : s.txAbandon.env = s.env := by
  unfold State.txAbandon; split <;> rfl

@[simp] theorem txAbandon_now (s : State) : s.txAbandon.now = s.now := by
  unfold State.txAbandon; split <;> rfl

@[simp] theorem receive_env (k : Packet) (n : Nat) (s : State) : (s.receive k n).env = s.env := by
  unfold State.receive
  dsimp only
  repeat' split
  all_goals rfl

@[simp] theorem receive_now (k : Packet) (n : Nat) (s : State) : (s.receive k n).now = s.now := by
  unfold State.receive
  dsimp only
  repeat' split
  all_goals rfl

@[simp] theorem applyMove_env (m : EnvMove) (s : State) : (applyMove m s).env = s.env := by
  cases m <;> simp [applyMove]

theorem applyMove_now (m : EnvMove) (s : State) : s.now ≤ (applyMove m s).now := by
  cases m <;> simp [applyMove]

@[simp] theorem applyMoves_env (ms : List EnvMove) (s : State) :
    (applyMoves ms s).env = s.env := by
  induction ms generalizing s with
  | nil => rfl
  | cons m ms ih => unfold applyMoves; split <;> simp [ih]

theorem applyMoves_now (ms : List EnvMove) (s : State) : s.now ≤ (applyMoves ms s).now := by
  induction ms generalizing s with
  | nil => exact Nat.le_refl _
  | cons m ms ih =>
    unfold applyMoves
    split
    · exact Nat.le_refl _
    · exact (applyMove_now m s).trans (ih _)

/-- An interlude uses up one list of the script. -/
@[simp] theorem interlude_env (s : State) : s.interlude.env = s.env.tail := by
  unfold State.interlude
  split
  · rename_i h; simp [h]
  · rename_i h
    unfold State.afterScript
    split <;> simp [h]

/-- The clock never goes back (00_scope.md R5). -/
theorem interlude_now (s : State) : s.now ≤ s.interlude.now := by
  unfold State.interlude
  split
  · rename_i ms rest _
    exact applyMoves_now ms { s with env := rest }
  · unfold State.afterScript; split <;> simp

/-! ## What no other agent writes -/

@[simp] theorem txAttempt_bus (o : AttemptOutcome) (s : State) : (s.txAttempt o).bus = s.bus := by
  unfold State.txAttempt; split <;> try split
  all_goals rfl

@[simp] theorem txAbandon_bus (s : State) : s.txAbandon.bus = s.bus := by
  unfold State.txAbandon; split <;> rfl

@[simp] theorem receive_bus (k : Packet) (n : Nat) (s : State) :
    (s.receive k n).bus = s.bus := by
  unfold State.receive
  dsimp only
  repeat' split
  all_goals rfl

@[simp] theorem applyMove_bus (m : EnvMove) (s : State) : (applyMove m s).bus = s.bus := by
  cases m <;> simp [applyMove, State.chipReset, State.sequencerReset]

@[simp] theorem applyMoves_bus (ms : List EnvMove) (s : State) :
    (applyMoves ms s).bus = s.bus := by
  induction ms generalizing s with
  | nil => rfl
  | cons m ms ih => unfold applyMoves; split <;> simp [ih]

/-- No other agent puts a transaction on the bus, or takes one off (20_memory.md R81). -/
@[simp] theorem interlude_bus (s : State) : s.interlude.bus = s.bus := by
  unfold State.interlude
  split
  · simp
  · unfold State.afterScript
    split <;> simp

/-! ## Interludes -/

/-- What the environment does in the admitted configuration, short of a reset (R197, R205). -/
theorem interlude_steady (s : State) (hr : s.NoResets) (h : s.chip.Tame) :
    s.interlude.steady = s.steady := by
  unfold State.interlude
  split
  · rename_i ms rest he
    exact applyMoves_steady ms { s with env := rest } (fun m hm => hr ms (by simp [he]) m hm) h
  · exact afterScript_steady s h

theorem interlude_noResets (s : State) (hr : s.NoResets) : s.interlude.NoResets := by
  intro ms hms m hm
  rw [interlude_env] at hms
  exact hr ms (List.mem_of_mem_tail hms) m hm

theorem interlude_calm (s : State) (h : s.Calm) : s.interlude.Calm := by
  have e := interlude_steady s h.noResets (.inl h.admitted)
  exact ⟨interlude_noResets s h.noResets, (params_of_steady e) ▸ h.present,
    admitted_of_steady (chip_of_steady e) h.admitted⟩

/-- A silent environment does nothing. -/
@[simp] theorem interlude_quiet (s : State) (he : s.env = []) (hp : s.params.txProgress = .free) :
    s.interlude = s := by
  unfold State.interlude
  simp [he, State.afterScript, hp]

end Sys2Proof.Machine
end

