-- ==== Sys2Proof/Laws/Bus.lean ====
section
/-! SUPPORT. Everything a bus transaction can do (20_memory.md R82): it writes the chip, the count of
draws, the bus latch and one entry of the trace, and nothing else; with a present chip its status
byte is STATUS before its effect; with an absent one it writes no chip register (10_state.md R49). -/

namespace Sys2Proof.Machine

/-! ## Effects -/

/-- An effect that writes the chip and the count of draws only. -/
def ChipOnly (e : State → List Byte × State) : Prop :=
  ∀ s, (e s).2 = { s with chip := (e s).2.chip, drawn := (e s).2.drawn }

theorem chipOnly_write {n : Nat} {f : State → State}
    (h : ∀ s, f s = { s with chip := (f s).chip, drawn := (f s).drawn }) :
    ChipOnly fun s => (List.replicate n 0, f s) := fun s => h s

theorem chipOnly_onChip {n : Nat} (f : Chip → Chip) :
    ChipOnly fun s => (List.replicate n 0, s.onChip f) := fun _ => rfl

theorem readReg_chipOnly (a : Reg) : ChipOnly (State.readReg a) := by
  intro s
  cases a <;> rfl

theorem readReg_length (a : Reg) (s : State) : (s.readReg a).1.length = a.width := by
  cases a <;> rfl

/-- Reading a register writes no register (20_memory.md R89). -/
@[simp] theorem readReg_chip (a : Reg) (s : State) : (s.readReg a).2.chip = s.chip := by
  cases a <;> rfl

theorem maybePop_only (s : State) :
    s.maybePop = { s with chip := s.maybePop.chip, drawn := s.maybePop.drawn } := by
  unfold State.maybePop
  dsimp only
  repeat' split
  all_goals rfl

theorem readPayload_chipOnly (n : Nat) : ChipOnly (State.readPayload n) := by
  intro s
  unfold State.readPayload
  dsimp only
  repeat' split
  all_goals first | rfl | (rw [maybePop_only]; rfl)

theorem readPayload_length (n : Nat) (s : State) : (s.readPayload n).1.length = n := by
  unfold State.readPayload
  dsimp only
  repeat' split
  all_goals simp
  all_goals omega

theorem readWidth_chipOnly : ChipOnly State.readWidth := by
  intro s
  unfold State.readWidth
  repeat' split
  all_goals rfl

theorem readWidth_length (s : State) : s.readWidth.1.length = 1 := by
  unfold State.readWidth
  repeat' split
  all_goals simp

@[simp] theorem readWidth_chip (s : State) : s.readWidth.2.chip = s.chip := by
  unfold State.readWidth
  repeat' split
  all_goals rfl

theorem stageAck_only (p : Fin 6) (d : List Byte) (s : State) :
    s.stageAck p d = { s with chip := (s.stageAck p d).chip, drawn := (s.stageAck p d).drawn } := by
  unfold State.stageAck
  dsimp only
  repeat' split
  all_goals rfl

theorem activate_only' (x : Byte) (s : State) :
    (if x = 0x73 ∧ s.params.variant = .nRF24L01 then
      s.onChip fun c => { c with featuresUnlocked := !c.featuresUnlocked } else s) =
    { s with chip := (if x = 0x73 ∧ s.params.variant = .nRF24L01 then
      s.onChip fun c => { c with featuresUnlocked := !c.featuresUnlocked } else s).chip,
             drawn := (if x = 0x73 ∧ s.params.variant = .nRF24L01 then
      s.onChip fun c => { c with featuresUnlocked := !c.featuresUnlocked } else s).drawn } := by
  split <;> rfl

/-! ## One transaction -/

/-- With a present chip. -/
theorem transact_present (r : Bool) (out : List Byte) (e : State → List Byte × State) (s : State)
    (h : s.params.chipPresent = true) :
    s.transact r out e =
      (e { s with csn := true }).2.reply out s.chip.status (e { s with csn := true }).1 := by
  simp [State.transact, h]

/-- With an absent chip no register is written. -/
theorem transact_absent_chip (r : Bool) (out : List Byte) (e : State → List Byte × State)
    (s : State) (h : s.params.chipPresent = false) : (s.transact r out e).chip = s.chip := by
  simp only [State.transact, h, State.absentReply]
  cases s.params.absentRead <;> cases r <;> rfl

/-- The whole frame of a transaction. -/
theorem transact_only (r : Bool) (out : List Byte) {e : State → List Byte × State}
    (he : ChipOnly e) (s : State) :
    s.transact r out e =
      { s with chip := (s.transact r out e).chip, drawn := (s.transact r out e).drawn,
               csn := false, busStatus := (s.transact r out e).busStatus,
               busIn := (s.transact r out e).busIn,
               busLog := .xfer out (s.transact r out e).busStatus (s.transact r out e).busIn ::
                 s.busLog } := by
  cases h : s.params.chipPresent
  · simp only [State.transact, h, State.absentReply]
    cases s.params.absentRead <;> cases r <;> rfl
  · rw [transact_present r out e s h, he]
    rfl

/-- The whole state after a transaction with a present chip. -/
theorem transact_exchanged (r : Bool) (out : List Byte) {e : State → List Byte × State}
    (he : ChipOnly e) (s : State) (h : s.params.chipPresent = true) :
    s.transact r out e =
      s.exchanged out (e { s with csn := true }).1 (e { s with csn := true }).2.chip
        (e { s with csn := true }).2.drawn := by
  rw [transact_present r out e s h, he]
  rfl

/-! ### rRegister -/

theorem rRegister_only (a : Reg) (s : State) :
    s.rRegister a =
      { s with chip := (s.rRegister a).chip, drawn := (s.rRegister a).drawn,
               csn := false, busStatus := (s.rRegister a).busStatus, busIn := (s.rRegister a).busIn,
               busLog := .xfer (regCommand 0b000 a :: List.replicate a.width 0) (s.rRegister a).busStatus
                 (s.rRegister a).busIn :: s.busLog } :=
  transact_only _ _ (readReg_chipOnly a) s

@[simp] theorem rRegister_params (a : Reg) (s : State) : (s.rRegister a).params = s.params := by
  rw [rRegister_only]
@[simp] theorem rRegister_ce (a : Reg) (s : State) : (s.rRegister a).ce = s.ce := by
  rw [rRegister_only]
@[simp] theorem rRegister_seq (a : Reg) (s : State) : (s.rRegister a).seq = s.seq := by
  rw [rRegister_only]
@[simp] theorem rRegister_sh (a : Reg) (s : State) : (s.rRegister a).sh = s.sh := by
  rw [rRegister_only]
@[simp] theorem rRegister_host (a : Reg) (s : State) : (s.rRegister a).host = s.host := by
  rw [rRegister_only]
@[simp] theorem rRegister_now (a : Reg) (s : State) : (s.rRegister a).now = s.now := by
  rw [rRegister_only]
@[simp] theorem rRegister_marks (a : Reg) (s : State) : (s.rRegister a).marks = s.marks := by
  rw [rRegister_only]
@[simp] theorem rRegister_bus (a : Reg) (s : State) : (s.rRegister a).bus = s.bus := by
  rw [rRegister_only]
@[simp] theorem rRegister_env (a : Reg) (s : State) : (s.rRegister a).env = s.env := by
  rw [rRegister_only]
@[simp] theorem rRegister_csn (a : Reg) (s : State) : (s.rRegister a).csn = false := by
  rw [rRegister_only]
@[simp] theorem rRegister_stopped (a : Reg) (s : State) : (s.rRegister a).stopped = s.stopped := by
  simp [State.stopped]
@[simp] theorem rRegister_locals (a : Reg) (s : State) : (s.rRegister a).locals = s.locals := by
  simp [State.locals]

theorem rRegister_chip (a : Reg) (s : State) (h : s.params.chipPresent = true) :
    (s.rRegister a).chip = s.chip := by
  simp [State.rRegister, transact_present _ _ _ _ h]

theorem rRegister_status (a : Reg) (s : State) (h : s.params.chipPresent = true) :
    (s.rRegister a).busStatus = s.chip.status := by
  rw [State.rRegister, transact_present _ _ _ _ h]; rfl

theorem rRegister_absent (a : Reg) (s : State) (h : s.params.chipPresent = false) :
    (s.rRegister a).chip = s.chip :=
  transact_absent_chip _ _ _ s h

/-! ### wRegister -/

theorem wRegister_only (a : Reg) (v : List Byte) (s : State) :
    s.wRegister a v =
      { s with chip := (s.wRegister a v).chip, drawn := (s.wRegister a v).drawn,
               csn := false, busStatus := (s.wRegister a v).busStatus, busIn := (s.wRegister a v).busIn,
               busLog := .xfer (regCommand 0b001 a :: v) (s.wRegister a v).busStatus
                 (s.wRegister a v).busIn :: s.busLog } :=
  transact_only _ _ (chipOnly_onChip _) s

@[simp] theorem wRegister_params (a : Reg) (v : List Byte) (s : State) : (s.wRegister a v).params = s.params := by
  rw [wRegister_only]
@[simp] theorem wRegister_ce (a : Reg) (v : List Byte) (s : State) : (s.wRegister a v).ce = s.ce := by
  rw [wRegister_only]
@[simp] theorem wRegister_seq (a : Reg) (v : List Byte) (s : State) : (s.wRegister a v).seq = s.seq := by
  rw [wRegister_only]
@[simp] theorem wRegister_sh (a : Reg) (v : List Byte) (s : State) : (s.wRegister a v).sh = s.sh := by
  rw [wRegister_only]
@[simp] theorem wRegister_host (a : Reg) (v : List Byte) (s : State) : (s.wRegister a v).host = s.host := by
  rw [wRegister_only]
@[simp] theorem wRegister_now (a : Reg) (v : List Byte) (s : State) : (s.wRegister a v).now = s.now := by
  rw [wRegister_only]
@[simp] theorem wRegister_marks (a : Reg) (v : List Byte) (s : State) : (s.wRegister a v).marks = s.marks := by
  rw [wRegister_only]
@[simp] theorem wRegister_bus (a : Reg) (v : List Byte) (s : State) : (s.wRegister a v).bus = s.bus := by
  rw [wRegister_only]
@[simp] theorem wRegister_env (a : Reg) (v : List Byte) (s : State) : (s.wRegister a v).env = s.env := by
  rw [wRegister_only]
@[simp] theorem wRegister_csn (a : Reg) (v : List Byte) (s : State) : (s.wRegister a v).csn = false := by
  rw [wRegister_only]
@[simp] theorem wRegister_stopped (a : Reg) (v : List Byte) (s : State) : (s.wRegister a v).stopped = s.stopped := by
  simp [State.stopped]
@[simp] theorem wRegister_locals (a : Reg) (v : List Byte) (s : State) : (s.wRegister a v).locals = s.locals := by
  simp [State.locals]

theorem wRegister_chip (a : Reg) (v : List Byte) (s : State) (h : s.params.chipPresent = true) :
    (s.wRegister a v).chip = s.chip.writeReg s.params.variant a v := by
  rw [State.wRegister, State.writeXfer, transact_present _ _ _ _ h]; rfl

theorem wRegister_status (a : Reg) (v : List Byte) (s : State) (h : s.params.chipPresent = true) :
    (s.wRegister a v).busStatus = s.chip.status := by
  rw [State.wRegister, State.writeXfer, transact_present _ _ _ _ h]; rfl

theorem wRegister_absent (a : Reg) (v : List Byte) (s : State) (h : s.params.chipPresent = false) :
    (s.wRegister a v).chip = s.chip :=
  transact_absent_chip _ _ _ s h

/-! ### rRxPayload -/

theorem rRxPayload_only (n : Nat) (s : State) :
    s.rRxPayload n =
      { s with chip := (s.rRxPayload n).chip, drawn := (s.rRxPayload n).drawn,
               csn := false, busStatus := (s.rRxPayload n).busStatus, busIn := (s.rRxPayload n).busIn,
               busLog := .xfer (0x61 :: List.replicate n 0) (s.rRxPayload n).busStatus
                 (s.rRxPayload n).busIn :: s.busLog } :=
  transact_only _ _ (readPayload_chipOnly n) s

@[simp] theorem rRxPayload_params (n : Nat) (s : State) : (s.rRxPayload n).params = s.params := by
  rw [rRxPayload_only]
@[simp] theorem rRxPayload_ce (n : Nat) (s : State) : (s.rRxPayload n).ce = s.ce := by
  rw [rRxPayload_only]
@[simp] theorem rRxPayload_seq (n : Nat) (s : State) : (s.rRxPayload n).seq = s.seq := by
  rw [rRxPayload_only]
@[simp] theorem rRxPayload_sh (n : Nat) (s : State) : (s.rRxPayload n).sh = s.sh := by
  rw [rRxPayload_only]
@[simp] theorem rRxPayload_host (n : Nat) (s : State) : (s.rRxPayload n).host = s.host := by
  rw [rRxPayload_only]
@[simp] theorem rRxPayload_now (n : Nat) (s : State) : (s.rRxPayload n).now = s.now := by
  rw [rRxPayload_only]
@[simp] theorem rRxPayload_marks (n : Nat) (s : State) : (s.rRxPayload n).marks = s.marks := by
  rw [rRxPayload_only]
@[simp] theorem rRxPayload_bus (n : Nat) (s : State) : (s.rRxPayload n).bus = s.bus := by
  rw [rRxPayload_only]
@[simp] theorem rRxPayload_env (n : Nat) (s : State) : (s.rRxPayload n).env = s.env := by
  rw [rRxPayload_only]
@[simp] theorem rRxPayload_csn (n : Nat) (s : State) : (s.rRxPayload n).csn = false := by
  rw [rRxPayload_only]
@[simp] theorem rRxPayload_stopped (n : Nat) (s : State) : (s.rRxPayload n).stopped = s.stopped := by
  simp [State.stopped]
@[simp] theorem rRxPayload_locals (n : Nat) (s : State) : (s.rRxPayload n).locals = s.locals := by
  simp [State.locals]

theorem rRxPayload_status (n : Nat) (s : State) (h : s.params.chipPresent = true) :
    (s.rRxPayload n).busStatus = s.chip.status := by
  rw [State.rRxPayload, transact_present _ _ _ _ h]; rfl

theorem rRxPayload_absent (n : Nat) (s : State) (h : s.params.chipPresent = false) :
    (s.rRxPayload n).chip = s.chip :=
  transact_absent_chip _ _ _ s h

/-! ### rRxPlWid -/

theorem rRxPlWid_only (s : State) :
    s.rRxPlWid =
      { s with chip := s.rRxPlWid.chip, drawn := s.rRxPlWid.drawn,
               csn := false, busStatus := s.rRxPlWid.busStatus, busIn := s.rRxPlWid.busIn,
               busLog := .xfer [0x60, 0] s.rRxPlWid.busStatus
                 s.rRxPlWid.busIn :: s.busLog } :=
  transact_only _ _ (readWidth_chipOnly) s

@[simp] theorem rRxPlWid_params (s : State) : s.rRxPlWid.params = s.params := by
  rw [rRxPlWid_only]
@[simp] theorem rRxPlWid_ce (s : State) : s.rRxPlWid.ce = s.ce := by
  rw [rRxPlWid_only]
@[simp] theorem rRxPlWid_seq (s : State) : s.rRxPlWid.seq = s.seq := by
  rw [rRxPlWid_only]
@[simp] theorem rRxPlWid_sh (s : State) : s.rRxPlWid.sh = s.sh := by
  rw [rRxPlWid_only]
@[simp] theorem rRxPlWid_host (s : State) : s.rRxPlWid.host = s.host := by
  rw [rRxPlWid_only]
@[simp] theorem rRxPlWid_now (s : State) : s.rRxPlWid.now = s.now := by
  rw [rRxPlWid_only]
@[simp] theorem rRxPlWid_marks (s : State) : s.rRxPlWid.marks = s.marks := by
  rw [rRxPlWid_only]
@[simp] theorem rRxPlWid_bus (s : State) : s.rRxPlWid.bus = s.bus := by
  rw [rRxPlWid_only]
@[simp] theorem rRxPlWid_env (s : State) : s.rRxPlWid.env = s.env := by
  rw [rRxPlWid_only]
@[simp] theorem rRxPlWid_csn (s : State) : s.rRxPlWid.csn = false := by
  rw [rRxPlWid_only]
@[simp] theorem rRxPlWid_stopped (s : State) : s.rRxPlWid.stopped = s.stopped := by
  simp [State.stopped]
@[simp] theorem rRxPlWid_locals (s : State) : s.rRxPlWid.locals = s.locals := by
  simp [State.locals]

theorem rRxPlWid_chip (s : State) (h : s.params.chipPresent = true) :
    s.rRxPlWid.chip = s.chip := by
  simp [State.rRxPlWid, transact_present _ _ _ _ h]

theorem rRxPlWid_status (s : State) (h : s.params.chipPresent = true) :
    s.rRxPlWid.busStatus = s.chip.status := by
  rw [State.rRxPlWid, transact_present _ _ _ _ h]; rfl

theorem rRxPlWid_absent (s : State) (h : s.params.chipPresent = false) :
    s.rRxPlWid.chip = s.chip :=
  transact_absent_chip _ _ _ s h

/-! ### wTxPayload -/

theorem wTxPayload_only (d : List Byte) (s : State) :
    s.wTxPayload d =
      { s with chip := (s.wTxPayload d).chip, drawn := (s.wTxPayload d).drawn,
               csn := false, busStatus := (s.wTxPayload d).busStatus, busIn := (s.wTxPayload d).busIn,
               busLog := .xfer (0xA0 :: d) (s.wTxPayload d).busStatus
                 (s.wTxPayload d).busIn :: s.busLog } :=
  transact_only _ _ (chipOnly_onChip _) s

@[simp] theorem wTxPayload_params (d : List Byte) (s : State) : (s.wTxPayload d).params = s.params := by
  rw [wTxPayload_only]
@[simp] theorem wTxPayload_ce (d : List Byte) (s : State) : (s.wTxPayload d).ce = s.ce := by
  rw [wTxPayload_only]
@[simp] theorem wTxPayload_seq (d : List Byte) (s : State) : (s.wTxPayload d).seq = s.seq := by
  rw [wTxPayload_only]
@[simp] theorem wTxPayload_sh (d : List Byte) (s : State) : (s.wTxPayload d).sh = s.sh := by
  rw [wTxPayload_only]
@[simp] theorem wTxPayload_host (d : List Byte) (s : State) : (s.wTxPayload d).host = s.host := by
  rw [wTxPayload_only]
@[simp] theorem wTxPayload_now (d : List Byte) (s : State) : (s.wTxPayload d).now = s.now := by
  rw [wTxPayload_only]
@[simp] theorem wTxPayload_marks (d : List Byte) (s : State) : (s.wTxPayload d).marks = s.marks := by
  rw [wTxPayload_only]
@[simp] theorem wTxPayload_bus (d : List Byte) (s : State) : (s.wTxPayload d).bus = s.bus := by
  rw [wTxPayload_only]
@[simp] theorem wTxPayload_env (d : List Byte) (s : State) : (s.wTxPayload d).env = s.env := by
  rw [wTxPayload_only]
@[simp] theorem wTxPayload_csn (d : List Byte) (s : State) : (s.wTxPayload d).csn = false := by
  rw [wTxPayload_only]
@[simp] theorem wTxPayload_stopped (d : List Byte) (s : State) : (s.wTxPayload d).stopped = s.stopped := by
  simp [State.stopped]
@[simp] theorem wTxPayload_locals (d : List Byte) (s : State) : (s.wTxPayload d).locals = s.locals := by
  simp [State.locals]

theorem wTxPayload_chip (d : List Byte) (s : State) (h : s.params.chipPresent = true) :
    (s.wTxPayload d).chip = s.chip.pushTx ⟨d, false, none⟩ := by
  rw [State.wTxPayload, State.writeXfer, transact_present _ _ _ _ h]; rfl

theorem wTxPayload_status (d : List Byte) (s : State) (h : s.params.chipPresent = true) :
    (s.wTxPayload d).busStatus = s.chip.status := by
  rw [State.wTxPayload, State.writeXfer, transact_present _ _ _ _ h]; rfl

theorem wTxPayload_absent (d : List Byte) (s : State) (h : s.params.chipPresent = false) :
    (s.wTxPayload d).chip = s.chip :=
  transact_absent_chip _ _ _ s h

/-! ### wTxPayloadNoack -/

theorem wTxPayloadNoack_only (d : List Byte) (s : State) :
    s.wTxPayloadNoack d =
      { s with chip := (s.wTxPayloadNoack d).chip, drawn := (s.wTxPayloadNoack d).drawn,
               csn := false, busStatus := (s.wTxPayloadNoack d).busStatus, busIn := (s.wTxPayloadNoack d).busIn,
               busLog := .xfer (0xB0 :: d) (s.wTxPayloadNoack d).busStatus
                 (s.wTxPayloadNoack d).busIn :: s.busLog } :=
  transact_only _ _ (chipOnly_onChip _) s

@[simp] theorem wTxPayloadNoack_params (d : List Byte) (s : State) : (s.wTxPayloadNoack d).params = s.params := by
  rw [wTxPayloadNoack_only]
@[simp] theorem wTxPayloadNoack_ce (d : List Byte) (s : State) : (s.wTxPayloadNoack d).ce = s.ce := by
  rw [wTxPayloadNoack_only]
@[simp] theorem wTxPayloadNoack_seq (d : List Byte) (s : State) : (s.wTxPayloadNoack d).seq = s.seq := by
  rw [wTxPayloadNoack_only]
@[simp] theorem wTxPayloadNoack_sh (d : List Byte) (s : State) : (s.wTxPayloadNoack d).sh = s.sh := by
  rw [wTxPayloadNoack_only]
@[simp] theorem wTxPayloadNoack_host (d : List Byte) (s : State) : (s.wTxPayloadNoack d).host = s.host := by
  rw [wTxPayloadNoack_only]
@[simp] theorem wTxPayloadNoack_now (d : List Byte) (s : State) : (s.wTxPayloadNoack d).now = s.now := by
  rw [wTxPayloadNoack_only]
@[simp] theorem wTxPayloadNoack_marks (d : List Byte) (s : State) : (s.wTxPayloadNoack d).marks = s.marks := by
  rw [wTxPayloadNoack_only]
@[simp] theorem wTxPayloadNoack_bus (d : List Byte) (s : State) : (s.wTxPayloadNoack d).bus = s.bus := by
  rw [wTxPayloadNoack_only]
@[simp] theorem wTxPayloadNoack_env (d : List Byte) (s : State) : (s.wTxPayloadNoack d).env = s.env := by
  rw [wTxPayloadNoack_only]
@[simp] theorem wTxPayloadNoack_csn (d : List Byte) (s : State) : (s.wTxPayloadNoack d).csn = false := by
  rw [wTxPayloadNoack_only]
@[simp] theorem wTxPayloadNoack_stopped (d : List Byte) (s : State) : (s.wTxPayloadNoack d).stopped = s.stopped := by
  simp [State.stopped]
@[simp] theorem wTxPayloadNoack_locals (d : List Byte) (s : State) : (s.wTxPayloadNoack d).locals = s.locals := by
  simp [State.locals]

theorem wTxPayloadNoack_chip (d : List Byte) (s : State) (h : s.params.chipPresent = true) :
    (s.wTxPayloadNoack d).chip = if s.chip.enDynAck then s.chip.pushTx ⟨d, true, none⟩ else s.chip := by
  rw [State.wTxPayloadNoack, State.writeXfer, transact_present _ _ _ _ h]; rfl

theorem wTxPayloadNoack_status (d : List Byte) (s : State) (h : s.params.chipPresent = true) :
    (s.wTxPayloadNoack d).busStatus = s.chip.status := by
  rw [State.wTxPayloadNoack, State.writeXfer, transact_present _ _ _ _ h]; rfl

theorem wTxPayloadNoack_absent (d : List Byte) (s : State) (h : s.params.chipPresent = false) :
    (s.wTxPayloadNoack d).chip = s.chip :=
  transact_absent_chip _ _ _ s h

/-! ### wAckPayload -/

theorem wAckPayload_only (p : Fin 6) (d : List Byte) (s : State) :
    s.wAckPayload p d =
      { s with chip := (s.wAckPayload p d).chip, drawn := (s.wAckPayload p d).drawn,
               csn := false, busStatus := (s.wAckPayload p d).busStatus, busIn := (s.wAckPayload p d).busIn,
               busLog := .xfer (BitVec.ofNat 8 (0xA8 + p.val) :: d) (s.wAckPayload p d).busStatus
                 (s.wAckPayload p d).busIn :: s.busLog } :=
  transact_only _ _ (chipOnly_write (stageAck_only p d)) s

@[simp] theorem wAckPayload_params (p : Fin 6) (d : List Byte) (s : State) : (s.wAckPayload p d).params = s.params := by
  rw [wAckPayload_only]
@[simp] theorem wAckPayload_ce (p : Fin 6) (d : List Byte) (s : State) : (s.wAckPayload p d).ce = s.ce := by
  rw [wAckPayload_only]
@[simp] theorem wAckPayload_seq (p : Fin 6) (d : List Byte) (s : State) : (s.wAckPayload p d).seq = s.seq := by
  rw [wAckPayload_only]
@[simp] theorem wAckPayload_sh (p : Fin 6) (d : List Byte) (s : State) : (s.wAckPayload p d).sh = s.sh := by
  rw [wAckPayload_only]
@[simp] theorem wAckPayload_host (p : Fin 6) (d : List Byte) (s : State) : (s.wAckPayload p d).host = s.host := by
  rw [wAckPayload_only]
@[simp] theorem wAckPayload_now (p : Fin 6) (d : List Byte) (s : State) : (s.wAckPayload p d).now = s.now := by
  rw [wAckPayload_only]
@[simp] theorem wAckPayload_marks (p : Fin 6) (d : List Byte) (s : State) : (s.wAckPayload p d).marks = s.marks := by
  rw [wAckPayload_only]
@[simp] theorem wAckPayload_bus (p : Fin 6) (d : List Byte) (s : State) : (s.wAckPayload p d).bus = s.bus := by
  rw [wAckPayload_only]
@[simp] theorem wAckPayload_env (p : Fin 6) (d : List Byte) (s : State) : (s.wAckPayload p d).env = s.env := by
  rw [wAckPayload_only]
@[simp] theorem wAckPayload_csn (p : Fin 6) (d : List Byte) (s : State) : (s.wAckPayload p d).csn = false := by
  rw [wAckPayload_only]
@[simp] theorem wAckPayload_stopped (p : Fin 6) (d : List Byte) (s : State) : (s.wAckPayload p d).stopped = s.stopped := by
  simp [State.stopped]
@[simp] theorem wAckPayload_locals (p : Fin 6) (d : List Byte) (s : State) : (s.wAckPayload p d).locals = s.locals := by
  simp [State.locals]

theorem wAckPayload_status (p : Fin 6) (d : List Byte) (s : State) (h : s.params.chipPresent = true) :
    (s.wAckPayload p d).busStatus = s.chip.status := by
  rw [State.wAckPayload, State.writeXfer, transact_present _ _ _ _ h]; rfl

theorem wAckPayload_absent (p : Fin 6) (d : List Byte) (s : State) (h : s.params.chipPresent = false) :
    (s.wAckPayload p d).chip = s.chip :=
  transact_absent_chip _ _ _ s h

/-! ### flushTx -/

theorem flushTx_only (s : State) :
    s.flushTx =
      { s with chip := s.flushTx.chip, drawn := s.flushTx.drawn,
               csn := false, busStatus := s.flushTx.busStatus, busIn := s.flushTx.busIn,
               busLog := .xfer [0xE1] s.flushTx.busStatus
                 s.flushTx.busIn :: s.busLog } :=
  transact_only _ _ (chipOnly_onChip _) s

@[simp] theorem flushTx_params (s : State) : s.flushTx.params = s.params := by
  rw [flushTx_only]
@[simp] theorem flushTx_ce (s : State) : s.flushTx.ce = s.ce := by
  rw [flushTx_only]
@[simp] theorem flushTx_seq (s : State) : s.flushTx.seq = s.seq := by
  rw [flushTx_only]
@[simp] theorem flushTx_sh (s : State) : s.flushTx.sh = s.sh := by
  rw [flushTx_only]
@[simp] theorem flushTx_host (s : State) : s.flushTx.host = s.host := by
  rw [flushTx_only]
@[simp] theorem flushTx_now (s : State) : s.flushTx.now = s.now := by
  rw [flushTx_only]
@[simp] theorem flushTx_marks (s : State) : s.flushTx.marks = s.marks := by
  rw [flushTx_only]
@[simp] theorem flushTx_bus (s : State) : s.flushTx.bus = s.bus := by
  rw [flushTx_only]
@[simp] theorem flushTx_env (s : State) : s.flushTx.env = s.env := by
  rw [flushTx_only]
@[simp] theorem flushTx_csn (s : State) : s.flushTx.csn = false := by
  rw [flushTx_only]
@[simp] theorem flushTx_stopped (s : State) : s.flushTx.stopped = s.stopped := by
  simp [State.stopped]
@[simp] theorem flushTx_locals (s : State) : s.flushTx.locals = s.locals := by
  simp [State.locals]

theorem flushTx_chip (s : State) (h : s.params.chipPresent = true) :
    s.flushTx.chip = { s.chip with txf := [] } := by
  rw [State.flushTx, State.writeXfer, transact_present _ _ _ _ h]; rfl

theorem flushTx_status (s : State) (h : s.params.chipPresent = true) :
    s.flushTx.busStatus = s.chip.status := by
  rw [State.flushTx, State.writeXfer, transact_present _ _ _ _ h]; rfl

theorem flushTx_absent (s : State) (h : s.params.chipPresent = false) :
    s.flushTx.chip = s.chip :=
  transact_absent_chip _ _ _ s h

/-! ### flushRx -/

theorem flushRx_only (s : State) :
    s.flushRx =
      { s with chip := s.flushRx.chip, drawn := s.flushRx.drawn,
               csn := false, busStatus := s.flushRx.busStatus, busIn := s.flushRx.busIn,
               busLog := .xfer [0xE2] s.flushRx.busStatus
                 s.flushRx.busIn :: s.busLog } :=
  transact_only _ _ (chipOnly_onChip _) s

@[simp] theorem flushRx_params (s : State) : s.flushRx.params = s.params := by
  rw [flushRx_only]
@[simp] theorem flushRx_ce (s : State) : s.flushRx.ce = s.ce := by
  rw [flushRx_only]
@[simp] theorem flushRx_seq (s : State) : s.flushRx.seq = s.seq := by
  rw [flushRx_only]
@[simp] theorem flushRx_sh (s : State) : s.flushRx.sh = s.sh := by
  rw [flushRx_only]
@[simp] theorem flushRx_host (s : State) : s.flushRx.host = s.host := by
  rw [flushRx_only]
@[simp] theorem flushRx_now (s : State) : s.flushRx.now = s.now := by
  rw [flushRx_only]
@[simp] theorem flushRx_marks (s : State) : s.flushRx.marks = s.marks := by
  rw [flushRx_only]
@[simp] theorem flushRx_bus (s : State) : s.flushRx.bus = s.bus := by
  rw [flushRx_only]
@[simp] theorem flushRx_env (s : State) : s.flushRx.env = s.env := by
  rw [flushRx_only]
@[simp] theorem flushRx_csn (s : State) : s.flushRx.csn = false := by
  rw [flushRx_only]
@[simp] theorem flushRx_stopped (s : State) : s.flushRx.stopped = s.stopped := by
  simp [State.stopped]
@[simp] theorem flushRx_locals (s : State) : s.flushRx.locals = s.locals := by
  simp [State.locals]

theorem flushRx_chip (s : State) (h : s.params.chipPresent = true) :
    s.flushRx.chip = { s.chip with rxf := [], rxCorrupt := false } := by
  rw [State.flushRx, State.writeXfer, transact_present _ _ _ _ h]; rfl

theorem flushRx_status (s : State) (h : s.params.chipPresent = true) :
    s.flushRx.busStatus = s.chip.status := by
  rw [State.flushRx, State.writeXfer, transact_present _ _ _ _ h]; rfl

theorem flushRx_absent (s : State) (h : s.params.chipPresent = false) :
    s.flushRx.chip = s.chip :=
  transact_absent_chip _ _ _ s h

/-! ### nop -/

theorem nop_only (s : State) :
    s.nop =
      { s with chip := s.nop.chip, drawn := s.nop.drawn,
               csn := false, busStatus := s.nop.busStatus, busIn := s.nop.busIn,
               busLog := .xfer [0xFF] s.nop.busStatus
                 s.nop.busIn :: s.busLog } :=
  transact_only _ _ (chipOnly_write (fun _ => rfl)) s

@[simp] theorem nop_params (s : State) : s.nop.params = s.params := by
  rw [nop_only]
@[simp] theorem nop_ce (s : State) : s.nop.ce = s.ce := by
  rw [nop_only]
@[simp] theorem nop_seq (s : State) : s.nop.seq = s.seq := by
  rw [nop_only]
@[simp] theorem nop_sh (s : State) : s.nop.sh = s.sh := by
  rw [nop_only]
@[simp] theorem nop_host (s : State) : s.nop.host = s.host := by
  rw [nop_only]
@[simp] theorem nop_now (s : State) : s.nop.now = s.now := by
  rw [nop_only]
@[simp] theorem nop_marks (s : State) : s.nop.marks = s.marks := by
  rw [nop_only]
@[simp] theorem nop_bus (s : State) : s.nop.bus = s.bus := by
  rw [nop_only]
@[simp] theorem nop_env (s : State) : s.nop.env = s.env := by
  rw [nop_only]
@[simp] theorem nop_csn (s : State) : s.nop.csn = false := by
  rw [nop_only]
@[simp] theorem nop_stopped (s : State) : s.nop.stopped = s.stopped := by
  simp [State.stopped]
@[simp] theorem nop_locals (s : State) : s.nop.locals = s.locals := by
  simp [State.locals]

theorem nop_chip (s : State) (h : s.params.chipPresent = true) :
    s.nop.chip = s.chip := by
  rw [State.nop, State.writeXfer, transact_present _ _ _ _ h]; rfl

theorem nop_status (s : State) (h : s.params.chipPresent = true) :
    s.nop.busStatus = s.chip.status := by
  rw [State.nop, State.writeXfer, transact_present _ _ _ _ h]; rfl

theorem nop_absent (s : State) (h : s.params.chipPresent = false) :
    s.nop.chip = s.chip :=
  transact_absent_chip _ _ _ s h

/-! ### activate -/

theorem activate_only (x : Byte) (s : State) :
    s.activate x =
      { s with chip := (s.activate x).chip, drawn := (s.activate x).drawn,
               csn := false, busStatus := (s.activate x).busStatus, busIn := (s.activate x).busIn,
               busLog := .xfer [0x50, x] (s.activate x).busStatus
                 (s.activate x).busIn :: s.busLog } :=
  transact_only _ _ (chipOnly_write (activate_only' x)) s

@[simp] theorem activate_params (x : Byte) (s : State) : (s.activate x).params = s.params := by
  rw [activate_only]
@[simp] theorem activate_ce (x : Byte) (s : State) : (s.activate x).ce = s.ce := by
  rw [activate_only]
@[simp] theorem activate_seq (x : Byte) (s : State) : (s.activate x).seq = s.seq := by
  rw [activate_only]
@[simp] theorem activate_sh (x : Byte) (s : State) : (s.activate x).sh = s.sh := by
  rw [activate_only]
@[simp] theorem activate_host (x : Byte) (s : State) : (s.activate x).host = s.host := by
  rw [activate_only]
@[simp] theorem activate_now (x : Byte) (s : State) : (s.activate x).now = s.now := by
  rw [activate_only]
@[simp] theorem activate_marks (x : Byte) (s : State) : (s.activate x).marks = s.marks := by
  rw [activate_only]
@[simp] theorem activate_bus (x : Byte) (s : State) : (s.activate x).bus = s.bus := by
  rw [activate_only]
@[simp] theorem activate_env (x : Byte) (s : State) : (s.activate x).env = s.env := by
  rw [activate_only]
@[simp] theorem activate_csn (x : Byte) (s : State) : (s.activate x).csn = false := by
  rw [activate_only]
@[simp] theorem activate_stopped (x : Byte) (s : State) : (s.activate x).stopped = s.stopped := by
  simp [State.stopped]
@[simp] theorem activate_locals (x : Byte) (s : State) : (s.activate x).locals = s.locals := by
  simp [State.locals]

theorem activate_status (x : Byte) (s : State) (h : s.params.chipPresent = true) :
    (s.activate x).busStatus = s.chip.status := by
  rw [State.activate, State.writeXfer, transact_present _ _ _ _ h]; rfl

theorem activate_absent (x : Byte) (s : State) (h : s.params.chipPresent = false) :
    (s.activate x).chip = s.chip :=
  transact_absent_chip _ _ _ s h

/-! ## Replies -/

theorem rRegister_busIn (a : Reg) (s : State) (h : s.params.chipPresent = true) :
    (s.rRegister a).busIn = (s.readReg a).1 := by
  rw [State.rRegister, transact_present _ _ _ _ h]
  cases a <;> rfl

theorem rRxPlWid_busIn (s : State) (h : s.params.chipPresent = true) :
    s.rRxPlWid.busIn = s.readWidth.1 := by
  rw [State.rRxPlWid, transact_present _ _ _ _ h]
  unfold State.readWidth
  simp only [State.reply]
  repeat' split
  all_goals simp_all [State.drawBytes]

theorem rRxPayload_chip (n : Nat) (s : State) (h : s.params.chipPresent = true) :
    (s.rRxPayload n).chip = (s.readPayload n).2.chip := by
  rw [State.rRxPayload, transact_present _ _ _ _ h]
  unfold State.readPayload State.maybePop
  simp only [State.reply]
  repeat' split
  all_goals simp_all [State.drawBytes, State.drawBool, State.onChip]

theorem rRxPayload_busIn (n : Nat) (s : State) (h : s.params.chipPresent = true) :
    (s.rRxPayload n).busIn = (s.readPayload n).1 := by
  rw [State.rRxPayload, transact_present _ _ _ _ h]
  unfold State.readPayload
  simp only [State.reply]
  repeat' split
  all_goals simp_all [State.drawBytes]

theorem wAckPayload_chip (p : Fin 6) (d : List Byte) (s : State)
    (h : s.params.chipPresent = true) :
    (s.wAckPayload p d).chip = (s.stageAck p d).chip := by
  rw [State.wAckPayload, State.writeXfer, transact_present _ _ _ _ h]
  unfold State.stageAck
  simp only [State.reply]
  repeat' split
  all_goals simp_all [State.drawBool, State.onChip]

theorem activate_chip (x : Byte) (s : State) (h : s.params.chipPresent = true) :
    (s.activate x).chip =
      if x = 0x73 ∧ s.params.variant = .nRF24L01 then
        { s.chip with featuresUnlocked := !s.chip.featuresUnlocked }
      else s.chip := by
  rw [State.activate, State.writeXfer, transact_present _ _ _ _ h]
  simp only [State.reply]
  split <;> rfl

end Sys2Proof.Machine
end

