-- ==== Sys2Proof/Laws/Sequencer.lean ====
section
/-! SUPPORT. What the sequencer's primitives do, said once. `Tracks q s x`: the running state `s` is the
explicit state `x` but for what radio steps, the clock and the chip's answers write, and its chip is
exactly `x`'s if `q`, which says that the environment is silent. Each primitive carries `Tracks` to
the state its rule gives, so a program's effect is read off its primitives. -/

namespace Sys2Proof.Machine

/-! ## Running and stopped -/

theorem stopped_eq_false {s : State} : s.stopped = false ↔ s.marks = none ∧ s.seq ≠ [] := by
  cases hm : s.marks <;> cases hq : s.seq <;> simp [State.stopped, hm, hq]

theorem compute_running {s : State} (h : s.stopped = false) (f : State → State) :
    s.compute f = f s := by
  simp [State.compute, h]

theorem compute_stopped {s : State} (h : s.stopped = true) (f : State → State) :
    s.compute f = s := by
  simp [State.compute, h]

theorem here_stopped {s : State} (h : s.stopped = true) (l : Label) (f : State → State) :
    s.here l f = s := compute_stopped h _

theorem stepAt_stopped {s : State} (h : s.stopped = true) (l : Label) (f : State → State) :
    s.stepAt l f = s := compute_stopped h _

/-- A micro-step takes place only where the sequencer stands. -/
theorem here_elsewhere {s : State} {l : Label} (h : s.isAt l = false) (f : State → State) :
    s.here l f = s := by
  simp [State.here, State.compute, h]

theorem here_eq {s : State} {l : Label} (h : s.stopped = false) (hl : s.isAt l = true)
    (f : State → State) : s.here l f = f s := by
  simp [State.here, State.compute, h, hl]

theorem stepAt_eq {s : State} {l : Label} (h : s.stopped = false) (hl : s.isAt l = true)
    (f : State → State) : s.stepAt l f = s.interlude.compute f := here_eq h hl _

theorem isAt_cons {x : State} {f : Frame} {r : List Frame} (l : Label) (hx : x.seq = f :: r) :
    x.isAt l = decide (f.label = l) := by
  simp [State.isAt, hx]

@[simp] theorem isAt_atLabel (l : Label) (s : State) (h : s.seq ≠ []) :
    (s.atLabel l).isAt l = true := by
  cases hs : s.seq with
  | nil => exact absurd hs h
  | cons f r => simp [State.atLabel, State.isAt, hs]

@[simp] theorem handBack_cons (v : Result) (f : Frame) (r : List Frame) :
    handBack v (f :: r) = ⟨f.op, f.label, { f.locals with got := v }⟩ :: r := rfl

@[simp] theorem handBack_nil (v : Result) : handBack v [] = [] := rfl

@[simp] theorem handBack_length (v : Result) (r : List Frame) :
    (handBack v r).length = r.length := by
  cases r <;> rfl

theorem atLabel_cons {x : State} {f : Frame} {r : List Frame} (l : Label) (hx : x.seq = f :: r) :
    x.atLabel l = { x with seq := ⟨f.op, l, f.locals⟩ :: r } := by
  simp [State.atLabel, hx]

theorem setLocals_cons {x : State} {f : Frame} {r : List Frame} (g : Locals → Locals)
    (hx : x.seq = f :: r) :
    x.setLocals g = { x with seq := ⟨f.op, f.label, g f.locals⟩ :: r } := by
  simp [State.setLocals, hx]

/-- `issue` with every check passed. -/
theorem issue_ready {op : Instr} {needsInit argsOk : Bool} {p : State → State} {s : State}
    (hs : s.seq = []) (hi : needsInit = true → s.sh.initialized = true) (ha : argsOk = true) :
    s.issue op needsInit argsOk p =
      (p (({ s with host := { s.host with result := .none } } : State).push op)).outcome := by
  unfold State.issue
  cases needsInit <;> simp_all

theorem outcome_next {s : State} (h : s.marks = none) : s.outcome = .next s := by
  simp [State.outcome, h]

/-! ## States equal but for what the environment and the answers write -/

section
variable {s t : State} (h : s.kept = t.kept)
include h

theorem params_of_kept : s.params = t.params := by
  have e := congrArg State.params h
  exact e

theorem ce_of_kept : s.ce = t.ce := by
  have e := congrArg State.ce h
  exact e

theorem seq_of_kept : s.seq = t.seq := by
  have e := congrArg State.seq h
  exact e

theorem sh_of_kept : s.sh = t.sh := by
  have e := congrArg State.sh h
  exact e

theorem host_of_kept : s.host = t.host := by
  have e := congrArg State.host h
  exact e

theorem bus_of_kept : s.bus = t.bus := by
  have e := congrArg State.bus h
  exact e

theorem marks_of_kept : s.marks = t.marks := by
  have e := congrArg State.marks h
  exact e

theorem sent_of_kept :
    s.busLog.map BusEvent.outgoing = t.busLog.map BusEvent.outgoing := by
  have e := congrArg State.busLog h
  exact e

theorem chip_of_kept : s.chip.steady = t.chip.steady := by
  have e := congrArg State.chip h
  exact e

theorem stopped_of_kept : s.stopped = t.stopped := by
  unfold State.stopped
  rw [marks_of_kept h, seq_of_kept h]

theorem locals_of_kept : s.locals = t.locals := by
  unfold State.locals
  rw [seq_of_kept h]

theorem isAt_of_kept (l : Label) : s.isAt l = t.isAt l := by
  unfold State.isAt
  rw [seq_of_kept h]

theorem mask_of_kept : s.mask = t.mask := by
  unfold State.mask
  rw [sh_of_kept h]

end

/-- The parts that make two states equal but for that. -/
theorem kept_ext {s t : State} (hp : s.params = t.params) (hc : s.chip.steady = t.chip.steady)
    (he : s.ce = t.ce) (hq : s.seq = t.seq) (hs : s.sh = t.sh) (hh : s.host = t.host)
    (hm : s.marks = t.marks) (hb : s.bus = t.bus)
    (hl : s.busLog.map BusEvent.outgoing = t.busLog.map BusEvent.outgoing) :
    s.kept = t.kept := by
  simp only [State.kept, State.steady, State.mk.injEq]
  exact ⟨hp, hc, he, trivial, hq, hs, hh, trivial, hm, trivial, trivial, hb, trivial, trivial, hl⟩

@[simp] theorem kept_atLabel (l : Label) (s : State) : (s.atLabel l).kept = s.kept.atLabel l := by
  cases hs : s.seq <;> simp [State.atLabel, State.kept, State.steady, hs]

@[simp] theorem kept_setLocals (g : Locals → Locals) (s : State) :
    (s.setLocals g).kept = s.kept.setLocals g := by
  cases hs : s.seq <;> simp [State.setLocals, State.kept, State.steady, hs]

theorem atLabel_now_update (l : Label) (n : Nat) (s : State) :
    ({ s with now := n } : State).atLabel l = { s.atLabel l with now := n } := by
  cases hs : s.seq <;> simp [State.atLabel, hs]

/-! ### Registers no radio step writes -/

section
variable {c d : Chip} (h : c.steady = d.steady)
include h

theorem config_of_steady : c.config = d.config := by
  have e := congrArg Chip.config h
  exact e

theorem enAa_of_steady : c.enAa = d.enAa := by
  have e := congrArg Chip.enAa h
  exact e

theorem enRxaddr_of_steady : c.enRxaddr = d.enRxaddr := by
  have e := congrArg Chip.enRxaddr h
  exact e

theorem rfSetup_of_steady : c.rfSetup = d.rfSetup := by
  have e := congrArg Chip.rfSetup h
  exact e

theorem configReads_of_steady : c.configReads = d.configReads := by
  simp [Chip.configReads, Chip.crcForced, Chip.enCrc, config_of_steady h, enAa_of_steady h]

end

/-- What a write leaves of the registers no radio step writes does not depend on the others. -/
theorem writeReg_steady (v : ChipVariant) (a : Reg) (b : List Byte) (c : Chip) :
    (c.writeReg v a b).steady = (c.steady.writeReg v a b).steady := by
  cases a <;> simp only [Chip.writeReg] <;> (try split) <;> (try split) <;>
    first | rfl | simp_all [Chip.steady]

theorem writeReg_of_steady {c d : Chip} (h : c.steady = d.steady) (v : ChipVariant) (a : Reg)
    (b : List Byte) : (c.writeReg v a b).steady = (d.writeReg v a b).steady := by
  rw [writeReg_steady, h, ← writeReg_steady]

/-! ## Tracking a running operation -/

/-- `s` runs, no reset is to come, the chip is present and refuses no radio step, and `s` is `x`,
no earlier, but for what the environment and the answers write; if `q`, the environment is silent and
the chip is `x`'s. -/
structure Tracks (q : Prop) (s x : State) : Prop where
  running  : s.stopped = false
  noResets : s.NoResets
  present  : x.params.chipPresent = true
  tame     : x.chip.Tame
  same     : s.kept = x.kept
  later    : x.now ≤ s.now
  silent   : q → s.env = [] ∧ x.params.txProgress = .free ∧ s.chip = x.chip

namespace Tracks

variable {q : Prop} {s x : State} (h : Tracks q s x)
include h

/-- Renames the tracked state. -/
theorem of_eq {x' : State} (e : x = x') : Tracks q s x' := e ▸ h

theorem params_eq : s.params = x.params := params_of_kept h.same

theorem present_here : s.params.chipPresent = true := by rw [h.params_eq, h.present]

theorem tame_here : s.chip.Tame := tame_of_steady (chip_of_kept h.same) h.tame

theorem locals_eq : s.locals = x.locals := locals_of_kept h.same

theorem isAt_eq (l : Label) : s.isAt l = x.isAt l := isAt_of_kept h.same l

theorem interlude : Tracks q s.interlude x := by
  have e := interlude_steady s h.noResets h.tame_here
  refine ⟨(stopped_of_steady e).trans h.running, interlude_noResets s h.noResets, h.present,
    h.tame, (kept_of_steady e).trans h.same, h.later.trans (interlude_now s), fun hq => ?_⟩
  obtain ⟨he, hp, hc⟩ := h.silent hq
  rw [interlude_quiet s he (by rw [h.params_eq]; exact hp)]
  exact ⟨he, hp, hc⟩

/-- A change of the fields that neither the environment nor the chip writes. -/
theorem change {f : State → State} (hp : (f x).params = x.params) (hc : (f x).chip = x.chip)
    (hd : (f s).chip = s.chip)
    (hk : (f s).kept = (f x).kept) (hn : (f x).now ≤ (f s).now) (he : (f s).env = s.env)
    (hr : (f s).stopped = false) : Tracks q (f s) (f x) :=
  ⟨hr, by intro ms hms; rw [he] at hms; exact h.noResets ms hms, by rw [hp]; exact h.present,
    by rw [hc]; exact h.tame, hk, hn, by rw [he, hp, hd, hc]; exact h.silent⟩

theorem onShadow (g : Shadow → Shadow) : Tracks q (s.onShadow g) (x.onShadow g) :=
  h.change rfl rfl rfl (congrArg (State.onShadow g) h.same) h.later rfl h.running

theorem onSettings (g : Settings → Settings) : Tracks q (s.onSettings g) (x.onSettings g) :=
  h.onShadow _

theorem setCe (v : Bool) : Tracks q (s.setCe v) (x.setCe v) :=
  h.change rfl rfl rfl (congrArg (State.setCe v) h.same) h.later rfl h.running

theorem atLabel (l : Label) : Tracks q (s.atLabel l) (x.atLabel l) :=
  h.change (by simp) (by simp) (by simp)
    (by rw [kept_atLabel, kept_atLabel, h.same]) (by simpa using h.later) (by simp)
    (by simpa [State.stopped] using h.running)

theorem setLocals (g : Locals → Locals) : Tracks q (s.setLocals g) (x.setLocals g) :=
  h.change (by simp) (by simp) (by simp)
    (by rw [kept_setLocals, kept_setLocals, h.same]) (by simpa using h.later) (by simp)
    (by simpa [State.stopped] using h.running)

theorem memWrite (b : BufId) (i : Nat) (v : List Byte) :
    Tracks q (s.memWrite b i v) (x.memWrite b i v) := by
  cases b
  · exact h.change (f := State.memWrite .readBuf i v) rfl rfl rfl
      (congrArg (State.memWrite .readBuf i v) h.same) h.later rfl h.running
  · exact h.change (f := State.memWrite .respBuf i v) rfl rfl rfl
      (congrArg (State.memWrite .respBuf i v) h.same) h.later rfl h.running

theorem push (op : Instr) : Tracks q (s.push op) (x.push op) :=
  h.change rfl rfl rfl (congrArg (State.push op) h.same) h.later rfl
    (by rw [stopped_eq_false]; exact ⟨(stopped_eq_false.mp h.running).1, by simp⟩)

/-! ### Micro-steps -/

/-- What takes place at a label the sequencer stands at. -/
theorem stepAt_eq (l : Label) (hl : x.isAt l = true) (f : State → State) :
    s.stepAt l f = f s.interlude := by
  rw [Machine.stepAt_eq h.running ((h.isAt_eq l).trans hl), compute_running h.interlude.running]

/-- A micro-step, from what its effect does. -/
theorem micro {x' : State} (l next : Label) (hl : x.isAt l = true) {f : State → State}
    (hf : ∀ y, Tracks q y x → Tracks q (f y) x') :
    Tracks q (s.micro l next f) (x'.atLabel next) := by
  have h1 := hf _ h.interlude
  rw [State.micro, h.stepAt_eq l hl, compute_running h1.running]
  exact h1.atLabel next

/-- `return`: the state just before it has had its interlude. -/
theorem ret_eq (l : Label) (hl : x.isAt l = true) (v : State → Result) :
    s.ret l v = s.interlude.give (v s.interlude) := h.stepAt_eq l hl _

/-- The last assignment and the return, likewise. -/
theorem finish_eq (l : Label) (hl : x.isAt l = true) (f : State → State) :
    s.finish l f = (f s.interlude).give .none := h.stepAt_eq l hl _

/-- `call`: the called program starts in a frame of its own. -/
theorem call_eq (l next : Label) (hl : x.isAt l = true) (op : Instr) (p : State → State) :
    s.call l next op p = p ((s.interlude.atLabel next).push op) := h.stepAt_eq l hl _

/-- What the called program starts from. -/
theorem called (next : Label) (op : Instr) :
    Tracks q ((s.interlude.atLabel next).push op) ((x.atLabel next).push op) :=
  (h.interlude.atLabel next).push op

/-- A return to a caller. -/
theorem give (v : Result) (hne : x.seq.tail ≠ []) : Tracks q (s.give v) (x.give v) := by
  refine h.change rfl rfl rfl (congrArg (State.give v) h.same) h.later rfl ?_
  rw [stopped_eq_false]
  refine ⟨(stopped_eq_false.mp h.running).1, ?_⟩
  rw [give_seq, seq_of_kept h.same]
  cases hx : x.seq.tail with
  | nil => exact absurd hx hne
  | cons f r => simp

/-- The return of an operation that nothing called: the machine is at rest. -/
theorem ends (v : Result) :
    (s.give v).outcome = .next (s.give v) ∧ (s.give v).kept = (x.give v).kept ∧
      x.now ≤ (s.give v).now ∧ (q → (s.give v).chip = x.chip) :=
  ⟨outcome_next (stopped_eq_false.mp h.running).1, congrArg (State.give v) h.same, h.later,
    fun hq => (h.silent hq).2.2⟩

/-- A delay: the clock reaches the bound. -/
theorem delay (l next : Label) (hl : x.isAt l = true) (t : Nat) :
    Tracks q (s.delay l next t) { x.atLabel next with now := x.now + t } := by
  have h1 := h.micro l next hl (x' := { x with now := x.now + t })
    (f := fun s => s.interlude.compute fun s' => { s' with now := max s'.now (s.now + t) })
    fun y hy => by
      have hi := hy.interlude
      rw [compute_running hi.running]
      refine ⟨hi.running, hi.noResets, hi.present, hi.tame, hi.same, ?_, hi.silent⟩
      have := hy.later
      dsimp only
      omega
  rw [atLabel_now_update] at h1
  exact h1

/-! ### Transactions -/

/-- What a register write leaves of `x`. -/
theorem wRegister {a : Reg} {v : List Byte}
    (ht : (x.chip.writeReg x.params.variant a v).Tame) :
    Tracks q (s.wRegister a v)
      { x with chip := x.chip.writeReg x.params.variant a v,
               busLog := sends (regCommand 0b001 a :: v) :: x.busLog } := by
  refine ⟨by simpa using h.running, by intro ms; simpa using h.noResets ms, h.present, ht, ?_,
    by simpa using h.later, fun hq => ?_⟩
  rotate_left
  · obtain ⟨he, hp, hc⟩ := h.silent hq
    refine ⟨by simpa using he, hp, ?_⟩
    rw [wRegister_chip a v s h.present_here, h.params_eq, hc]
  refine kept_ext ?_ ?_ ?_ ?_ ?_ ?_ ?_ ?_ ?_
  · simpa using params_of_kept h.same
  · rw [wRegister_chip a v s h.present_here, h.params_eq]
    exact writeReg_of_steady (by have e := chip_of_kept h.same; exact e) _ _ _
  · simpa using ce_of_kept h.same
  · simpa using seq_of_kept h.same
  · simpa using sh_of_kept h.same
  · simpa using host_of_kept h.same
  · simpa using marks_of_kept h.same
  · simpa using bus_of_kept h.same
  · rw [wRegister_only]
    simpa [BusEvent.outgoing, sends] using sent_of_kept h.same

/-- A transaction that leaves the registers no radio step writes as `f` says. -/
theorem transact {s' : State} {out : List Byte} {f : Chip → Chip}
    (hp : s'.params = s.params) (hc : s'.chip = f s.chip)
    (hf : (f s.chip).steady = (f x.chip).steady) (he : s'.ce = s.ce) (hq : s'.seq = s.seq)
    (hs : s'.sh = s.sh) (hh : s'.host = s.host) (hn : s'.now = s.now) (hm : s'.marks = s.marks)
    (hv : s'.env = s.env) (hb : s'.bus = s.bus)
    (hl : s'.busLog.map BusEvent.outgoing = sends out :: s.busLog.map BusEvent.outgoing)
    (ht : (f x.chip).Tame) :
    Tracks q s' { x with chip := f x.chip, busLog := sends out :: x.busLog } := by
  refine ⟨?_, ?_, h.present, ht, ?_, by rw [hn]; exact h.later, fun hq' => ?_⟩
  · have := h.running
    unfold State.stopped at this ⊢
    rw [hm, hq]
    exact this
  · intro ms hms
    rw [hv] at hms
    exact h.noResets ms hms
  · refine kept_ext (by have e := params_of_kept h.same; exact hp.trans e)
      ((congrArg Chip.steady hc).trans hf)
      (by have e := ce_of_kept h.same; exact he.trans e) (by have e := seq_of_kept h.same; exact hq.trans e)
      (by have e := sh_of_kept h.same; exact hs.trans e) (by have e := host_of_kept h.same; exact hh.trans e)
      (by have e := marks_of_kept h.same; exact hm.trans e)
      (by have e := bus_of_kept h.same; exact hb.trans e) ?_
    rw [hl]
    simp only [List.map_cons, sent_of_kept h.same]
    rfl
  · obtain ⟨he', hp', hc'⟩ := h.silent hq'
    exact ⟨hv.trans he', hp', by rw [hc, hc']⟩

/-- A register read leaves `x` but for the trace. -/
theorem rRegister (a : Reg) :
    Tracks q (s.rRegister a)
      { x with busLog := sends (regCommand 0b000 a :: List.replicate a.width 0) :: x.busLog } :=
  h.transact (f := id) (by simp) (rRegister_chip a s h.present_here) (by have e := chip_of_kept h.same; exact e)
    (by simp) (by simp) (by simp) (by simp) (by simp) (by simp) (by simp) (by simp)
    (by rw [rRegister_only]; simp [BusEvent.outgoing, sends]) h.tame

/-- `NOP` leaves `x` but for the trace. -/
theorem nop : Tracks q s.nop { x with busLog := sends [0xFF] :: x.busLog } :=
  h.transact (f := id) (by simp) (nop_chip s h.present_here) (by have e := chip_of_kept h.same; exact e)
    (by simp) (by simp) (by simp) (by simp) (by simp) (by simp) (by simp) (by simp)
    (by rw [nop_only]; simp [BusEvent.outgoing, sends]) h.tame

/-- `R_RX_PL_WID` leaves `x` but for the trace. -/
theorem rRxPlWid : Tracks q s.rRxPlWid { x with busLog := sends [0x60, 0] :: x.busLog } :=
  h.transact (f := id) (by simp) (rRxPlWid_chip s h.present_here) (by have e := chip_of_kept h.same; exact e)
    (by simp) (by simp) (by simp) (by simp) (by simp) (by simp) (by simp) (by simp)
    (by rw [rRxPlWid_only]; simp [BusEvent.outgoing, sends]) h.tame

/-- `FLUSH_TX` empties TXF. -/
theorem flushTx :
    Tracks q s.flushTx
      { x with chip := { x.chip with txf := [] }, busLog := sends [0xE1] :: x.busLog } :=
  h.transact (f := fun c => { c with txf := [] }) (by simp) (flushTx_chip s h.present_here)
    (by have e := chip_of_kept h.same; exact e)
    (by simp) (by simp) (by simp) (by simp) (by simp) (by simp) (by simp) (by simp)
    (by rw [flushTx_only]; simp [BusEvent.outgoing, sends])
    (h.tame.imp (fun a => ⟨a.1, a.2⟩) id)

/-- `FLUSH_RX` empties RXF and clears `rxCorrupt`. -/
theorem flushRx :
    Tracks q s.flushRx
      { x with chip := { x.chip with rxf := [], rxCorrupt := false },
               busLog := sends [0xE2] :: x.busLog } :=
  h.transact (f := fun c => { c with rxf := [], rxCorrupt := false }) (by simp)
    (flushRx_chip s h.present_here)
    (by have e := chip_of_kept h.same
        exact congrArg (fun c : Chip => { c with rxCorrupt := false }) e)
    (by simp) (by simp) (by simp) (by simp) (by simp) (by simp) (by simp) (by simp)
    (by rw [flushRx_only]; simp [BusEvent.outgoing, sends])
    (h.tame.imp (fun a => ⟨a.1, a.2⟩) id)

/-- `ACTIVATE` toggles the feature lock or does nothing. -/
theorem activate (b : Byte) {d : Chip}
    (hd : d = if b = 0x73 ∧ x.params.variant = .nRF24L01 then
      { x.chip with featuresUnlocked := !x.chip.featuresUnlocked } else x.chip) (ht : d.Tame) :
    Tracks q (s.activate b) { x with chip := d, busLog := sends [0x50, b] :: x.busLog } := by
  have e : s.params.variant = x.params.variant := by rw [h.params_eq]
  subst hd
  refine h.transact
    (f := fun c => if b = 0x73 ∧ x.params.variant = .nRF24L01 then
      { c with featuresUnlocked := !c.featuresUnlocked } else c)
    (by simp) ?_ ?_ (by simp) (by simp) (by simp) (by simp) (by simp) (by simp) (by simp)
    (by simp) ?_ ht
  · rw [activate_chip b s h.present_here, ← e]
  · have hs := chip_of_kept h.same
    split
    · have hu : s.chip.featuresUnlocked = x.chip.featuresUnlocked := by
        have e := congrArg Chip.featuresUnlocked hs
        exact e
      rw [hu]
      exact congrArg (fun c : Chip => { c with featuresUnlocked := !x.chip.featuresUnlocked }) hs
    · exact hs
  · rw [activate_only]
    simp [BusEvent.outgoing, sends]

/-- A read into a local: what every state the read can meet answers, `x`'s locals hold. -/
theorem readInto (l next : Label) (hl : x.isAt l = true) (a : Reg)
    (put : Byte → Locals → Locals) {P : Byte → Prop} {f : Frame} {r : List Frame}
    (hx : x.seq = f :: r) (hP : ∀ y, Tracks q y x → P ((y.rRegister a).busIn.headD 0)) :
    ∃ w, P w ∧ Tracks q (s.readInto l next a put)
      { x with seq := ⟨f.op, next, put w f.locals⟩ :: r,
               busLog := sends (regCommand 0b000 a :: List.replicate a.width 0) :: x.busLog } := by
  have h1 := (h.interlude.rRegister a).setLocals
    (put ((State.rRegister a s.interlude).busIn.headD 0))
  refine ⟨_, hP _ h.interlude, ?_⟩
  rw [State.readInto, State.micro, h.stepAt_eq l hl, compute_running h1.running]
  exact (h1.atLabel next).of_eq (by simp [State.setLocals, State.atLabel, hx])

/-- A whole-register write at a micro-step, with a value the locals or the shadow state give. -/
theorem writeFrom (l next : Label) (hl : x.isAt l = true) (a : Reg)
    (g : State → List Byte) {v : List Byte} (hg : ∀ y, Tracks q y x → g y = v)
    (ht : (x.chip.writeReg x.params.variant a v).Tame) {f : Frame} {r : List Frame}
    (hx : x.seq = f :: r) :
    Tracks q (s.writeFrom l next a g)
      { x with seq := ⟨f.op, next, f.locals⟩ :: r,
               chip := x.chip.writeReg x.params.variant a v,
               busLog := sends (regCommand 0b001 a :: v) :: x.busLog } := by
  have h1 := h.micro l next hl (f := fun s => s.wRegister a (g s))
    fun y hy => by
      rw [hg y hy]
      exact hy.wRegister ht
  exact h1.of_eq (by simp [State.atLabel, hx])

/-- A read-modify-write of a register, the value read put into `v`. -/
theorem modify (l next : Label) (hl : x.isAt l = true) (a : Reg) (g : Byte → Byte)
    {P : Byte → Prop} {f : Frame} {r : List Frame} (hx : x.seq = f :: r)
    (hP : ∀ y, Tracks q y x → P ((y.rRegister a).busIn.headD 0))
    (ht : ∀ w, P w → (x.chip.writeReg x.params.variant a [g w]).Tame) :
    ∃ w, P w ∧
      Tracks q (s.modify l next a g)
        { x with chip := x.chip.writeReg x.params.variant a [g w],
                 seq := ⟨f.op, next, { f.locals with v := w }⟩ :: r,
                 busLog := sends [regCommand 0b001 a, g w] ::
                   sends (regCommand 0b000 a :: List.replicate a.width 0) :: x.busLog } := by
  obtain ⟨w, hw, h1⟩ := h.readInto l l.succ hl a (fun b o => { o with v := b }) hx hP
  exact ⟨w, hw, h1.writeFrom l.succ next (by simp [State.isAt]) a _
    (fun y hy => by rw [hy.locals_eq]; rfl) (ht w hw) rfl⟩

/-- What a CONFIG read answers. -/
theorem read_config : (s.rRegister .config).busIn.headD 0 ∈ x.chip.configReads := by
  rw [rRegister_busIn _ _ h.present_here, ← configReads_of_steady (chip_of_kept h.same)]
  simp only [State.readReg, Chip.configReads]
  split
  · rename_i hc
    by_cases hb : Config.freeBool s.drawn = true <;> simp [State.drawBoolIf, hc, hb]
  · rename_i hc
    simp [State.drawBoolIf, hc]

theorem read_enRxaddr : (s.rRegister .enRxaddr).busIn.headD 0 = x.chip.enRxaddr := by
  rw [rRegister_busIn _ _ h.present_here, ← enRxaddr_of_steady (chip_of_kept h.same)]
  rfl

theorem read_rfSetup : (s.rRegister .rfSetup).busIn.headD 0 = x.chip.rfSetup := by
  rw [rRegister_busIn _ _ h.present_here, ← rfSetup_of_steady (chip_of_kept h.same)]
  rfl

end Tracks

/-- The issue of an operation. -/
theorem Tracks.start {s : State} (hi : s.Idle) (hr : s.NoResets)
    (hp : s.params.chipPresent = true) (ht : s.chip.Tame) (op : Instr) :
    Tracks s.Silent (({ s with host := { s.host with result := .none } } : State).push op)
      (({ s with host := { s.host with result := .none } } : State).push op) :=
  ⟨by rw [stopped_eq_false]; exact ⟨hi.1, by simp⟩, hr, hp, ht, rfl, Nat.le_refl _,
    fun h => ⟨h.1, h.2, rfl⟩⟩

/-! ## What is added to the trace -/

/-- From `s` to `t` the trace is only added to, and every transaction added sends bytes that `P`
admits. -/
def AddsTo (P : List Byte → Prop) (s t : State) : Prop :=
  ∃ new, t.busLog = new ++ s.busLog ∧ ∀ out st inn, .xfer out st inn ∈ new → P out

/-- Every run of `f` adds so. -/
def Adds (P : List Byte → Prop) (f : State → State) : Prop := ∀ s, AddsTo P s (f s)

section
variable {P : List Byte → Prop}

theorem AddsTo.refl (s : State) : AddsTo P s s := ⟨[], rfl, by simp⟩

theorem AddsTo.trans {s t u : State} (h1 : AddsTo P s t) (h2 : AddsTo P t u) : AddsTo P s u := by
  obtain ⟨a, ha, pa⟩ := h1
  obtain ⟨b, hb, pb⟩ := h2
  refine ⟨b ++ a, by rw [hb, ha, List.append_assoc], fun o st i h => ?_⟩
  rcases List.mem_append.mp h with h | h
  · exact pb _ _ _ h
  · exact pa _ _ _ h

theorem AddsTo.weaken {Q : List Byte → Prop} {s t : State} (h : AddsTo P s t)
    (hq : ∀ o, P o → Q o) : AddsTo Q s t := by
  obtain ⟨a, ha, pa⟩ := h
  exact ⟨a, ha, fun o st i m => hq o (pa o st i m)⟩

theorem Adds.comp {f g : State → State} (hf : Adds P f) (hg : Adds P g) :
    Adds P fun s => g (f s) := fun s => (hf s).trans (hg _)

theorem adds_none {f : State → State} (h : ∀ s, (f s).busLog = s.busLog) : Adds P f :=
  fun s => ⟨[], by simp [h], by simp⟩

theorem adds_id : Adds P (id : State → State) := adds_none fun _ => rfl

theorem adds_one {f : State → State} {out : List Byte} {st : State → Byte}
    {inn : State → List Byte} (h : ∀ s, (f s).busLog = .xfer out (st s) (inn s) :: s.busLog)
    (hp : P out) : Adds P f := fun s =>
  ⟨[.xfer out (st s) (inn s)], h s, fun o a b m => by
    simp only [List.mem_singleton, BusEvent.xfer.injEq] at m
    exact m.1 ▸ hp⟩

theorem adds_wRegister {a : Reg} {v : List Byte} (hp : P (regCommand 0b001 a :: v)) :
    Adds P (State.wRegister a v) :=
  adds_one (st := fun s => (s.wRegister a v).busStatus) (inn := fun s => (s.wRegister a v).busIn)
    (fun s => by rw [wRegister_only]) hp

theorem adds_rRegister {a : Reg} (hp : P (regCommand 0b000 a :: List.replicate a.width 0)) :
    Adds P (State.rRegister a) :=
  adds_one (st := fun s => (s.rRegister a).busStatus) (inn := fun s => (s.rRegister a).busIn)
    (fun s => by rw [rRegister_only]) hp

theorem adds_flushTx (hp : P [0xE1]) : Adds P State.flushTx :=
  adds_one (st := fun s => s.flushTx.busStatus) (inn := fun s => s.flushTx.busIn)
    (fun s => by rw [flushTx_only]) hp

theorem adds_flushRx (hp : P [0xE2]) : Adds P State.flushRx :=
  adds_one (st := fun s => s.flushRx.busStatus) (inn := fun s => s.flushRx.busIn)
    (fun s => by rw [flushRx_only]) hp

theorem adds_nop (hp : P [0xFF]) : Adds P State.nop :=
  adds_one (st := fun s => s.nop.busStatus) (inn := fun s => s.nop.busIn)
    (fun s => by rw [nop_only]) hp

theorem adds_rRxPlWid (hp : P [0x60, 0]) : Adds P State.rRxPlWid :=
  adds_one (st := fun s => s.rRxPlWid.busStatus) (inn := fun s => s.rRxPlWid.busIn)
    (fun s => by rw [rRxPlWid_only]) hp

theorem adds_rRxPayload {n : Nat} (hp : P (0x61 :: List.replicate n 0)) :
    Adds P (State.rRxPayload n) :=
  adds_one (st := fun s => (s.rRxPayload n).busStatus) (inn := fun s => (s.rRxPayload n).busIn)
    (fun s => by rw [rRxPayload_only]) hp

theorem adds_wTxPayload {d : List Byte} (hp : P (0xA0 :: d)) : Adds P (State.wTxPayload d) :=
  adds_one (st := fun s => (s.wTxPayload d).busStatus) (inn := fun s => (s.wTxPayload d).busIn)
    (fun s => by rw [wTxPayload_only]) hp

theorem adds_wTxPayloadNoack {d : List Byte} (hp : P (0xB0 :: d)) :
    Adds P (State.wTxPayloadNoack d) :=
  adds_one (st := fun s => (s.wTxPayloadNoack d).busStatus)
    (inn := fun s => (s.wTxPayloadNoack d).busIn) (fun s => by rw [wTxPayloadNoack_only]) hp

theorem adds_wAckPayload {p : Fin 6} {d : List Byte}
    (hp : P (BitVec.ofNat 8 (0xA8 + p.val) :: d)) : Adds P (State.wAckPayload p d) :=
  adds_one (st := fun s => (s.wAckPayload p d).busStatus)
    (inn := fun s => (s.wAckPayload p d).busIn) (fun s => by rw [wAckPayload_only]) hp

theorem adds_activate {x : Byte} (hp : P [0x50, x]) : Adds P (State.activate x) :=
  adds_one (st := fun s => (s.activate x).busStatus) (inn := fun s => (s.activate x).busIn)
    (fun s => by rw [activate_only]) hp

theorem adds_setCe (v : Bool) : Adds P (State.setCe v) := fun s =>
  ⟨[.ce v], by rw [setCe_busLog]; rfl, by simp⟩

end

theorem txAttempt_busLog (o : AttemptOutcome) (s : State) : (s.txAttempt o).busLog = s.busLog := by
  unfold State.txAttempt; split <;> try split
  all_goals rfl

theorem applyMove_busLog (m : EnvMove) (s : State) : (applyMove m s).busLog = s.busLog := by
  cases m with
  | clock d => rfl
  | txAttempt o => exact txAttempt_busLog o s
  | txAbandon => simp only [applyMove, State.txAbandon]; split <;> rfl
  | receive k n =>
    simp only [applyMove, State.receive]
    repeat' split
    all_goals rfl
  | chipReset => rfl
  | sequencerReset c => rfl

theorem applyMoves_busLog (ms : List EnvMove) (s : State) :
    (applyMoves ms s).busLog = s.busLog := by
  induction ms generalizing s with
  | nil => rfl
  | cons m ms ih => unfold applyMoves; split <;> simp [ih, applyMove_busLog]

@[simp] theorem interlude_busLog (s : State) : s.interlude.busLog = s.busLog := by
  unfold State.interlude
  split
  · exact applyMoves_busLog _ _
  · unfold State.afterScript
    split
    · exact txAttempt_busLog _ _
    · rfl

section
variable {P : List Byte → Prop}

theorem Adds.compute {f : State → State} (hf : Adds P f) : Adds P (State.compute f) := fun s => by
  unfold State.compute
  split
  · exact adds_id s
  · exact hf s

theorem Adds.here {f : State → State} (hf : Adds P f) (l : Label) : Adds P (State.here l f) :=
  Adds.compute fun s => by
    split
    · exact hf s
    · exact adds_id s

theorem Adds.stepAt {f : State → State} (hf : Adds P f) (l : Label) : Adds P (State.stepAt l f) :=
  Adds.here (fun s => by simpa [AddsTo] using hf.compute s.interlude) l

theorem adds_atLabel (l : Label) : Adds P (State.atLabel l) := adds_none fun _ => by simp

theorem Adds.micro {f : State → State} (hf : Adds P f) (l next : Label) :
    Adds P (State.micro l next f) :=
  Adds.stepAt (hf.comp (adds_atLabel next).compute) l

theorem adds_ret (l : Label) (v : State → Result) : Adds P (State.ret l v) :=
  Adds.stepAt (f := fun s => s.give (v s)) (adds_none fun _ => rfl) l

theorem adds_onShadow (g : Shadow → Shadow) : Adds P (State.onShadow g) := adds_none fun _ => rfl

theorem Adds.finish {f : State → State} (hf : Adds P f) (l : Label) : Adds P (State.finish l f) :=
  Adds.stepAt (hf.comp (g := State.give .none) (adds_none fun _ => rfl)) l

theorem adds_setLocals (g : Locals → Locals) : Adds P (State.setLocals g) :=
  adds_none fun _ => by simp

theorem Adds.call {f : State → State} (hf : Adds P f) (l next : Label) (op : Instr) :
    Adds P (State.call l next op f) :=
  Adds.stepAt (fun s => by simpa [AddsTo] using hf ((s.atLabel next).push op)) l

theorem adds_delay (l next : Label) (t : Nat) : Adds P (State.delay l next t) :=
  Adds.micro (fun s => by
    have h : Adds P (State.compute fun s' => { s' with now := max s'.now (s.now + t) }) :=
      Adds.compute (adds_none fun _ => rfl)
    obtain ⟨new, e, hp⟩ := h s.interlude
    exact ⟨new, by rw [interlude_busLog] at e; exact e, hp⟩) l next

theorem adds_readInto {l next : Label} {a : Reg} {put : Byte → Locals → Locals}
    (hp : P (regCommand 0b000 a :: List.replicate a.width 0)) :
    Adds P (State.readInto l next a put) :=
  Adds.micro (fun s => by simpa [AddsTo] using adds_rRegister hp s) l next

theorem adds_writeFrom {l next : Label} {a : Reg} {v : State → List Byte}
    (hp : ∀ s, P (regCommand 0b001 a :: v s)) : Adds P (State.writeFrom l next a v) :=
  Adds.micro (fun s => adds_wRegister (hp s) s) l next

/-- A read-modify-write of a one-byte register. -/
theorem adds_modify {l next : Label} {a : Reg} {g : Byte → Byte}
    (hr : P (regCommand 0b000 a :: List.replicate a.width 0))
    (hw : ∀ b, P [regCommand 0b001 a, b]) : Adds P (State.modify l next a g) :=
  (adds_readInto hr).comp (adds_writeFrom fun _ => hw _)

theorem adds_flushBoth {l next : Label} (h1 : P [0xE1]) (h2 : P [0xE2]) :
    Adds P (State.flushBoth l next) :=
  ((adds_flushRx h2).micro l l.succ).comp ((adds_flushTx h1).micro l.succ next)

theorem adds_statusInto {l next : Label} (h : P [0xFF]) : Adds P (State.statusInto l next) :=
  Adds.micro (fun s => by simpa [AddsTo] using adds_nop h s) l next

end

/-- The answer of a register read of a present chip is the newest. -/
theorem rRegister_lastAnswer (a : Reg) (s : State) (h : s.params.chipPresent = true) :
    ∃ st, lastAnswer (regCommand 0b000 a :: List.replicate a.width 0) (s.rRegister a).busLog =
      some (st, (s.readReg a).1) := by
  rw [rRegister_only, ← rRegister_busIn a s h]
  exact ⟨_, by simp only [lastAnswer, if_true]; rfl⟩

/-- A trace to which no transaction of `out` is added keeps its last answer. -/
theorem lastAnswer_addsTo {out : List Byte} {s t : State} (h : AddsTo (· ≠ out) s t) :
    lastAnswer out t.busLog = lastAnswer out s.busLog := by
  obtain ⟨new, e, h⟩ := h
  rw [e]
  clear e
  induction new with
  | nil => rfl
  | cons v new ih =>
    have ih := ih fun o st i m => h o st i (List.mem_cons_of_mem _ m)
    cases v with
    | ce l => exact ih
    | xfer o st i =>
      rw [List.cons_append, lastAnswer, if_neg (h o st i (List.mem_cons_self ..)), ih]

/-- A trace to which no transaction of `out` is added keeps its status bytes. -/
theorem statusesOf_addsTo {out : List Byte} {s t : State} (h : AddsTo (· ≠ out) s t) :
    statusesOf out t.busLog = statusesOf out s.busLog := by
  obtain ⟨new, e, h⟩ := h
  rw [e]
  clear e
  induction new with
  | nil => rfl
  | cons v new ih =>
    have ih := ih fun o st i m => h o st i (List.mem_cons_of_mem _ m)
    cases v with
    | ce l => exact ih
    | xfer o st i =>
      rw [List.cons_append, statusesOf, if_neg (h o st i (List.mem_cons_self ..)), ih]

end Sys2Proof.Machine
end

