-- ==== Sys2Proof/Laws/Programs.lean ====
section
/-! SUPPORT. What the programs that others call leave, said once each: startListening, transmit's
parts and its poll, and read. The statements about host operations cite these. -/

namespace Sys2Proof.Machine

variable {q : Prop}

/-- Tracks any state equal but for what the environment and the answers write. -/
theorem Tracks.of_kept {s x x' : State} (h : Tracks q s x) (e : x.kept = x'.kept)
    (n : x'.now ≤ x.now) (c : q → x.chip = x'.chip) : Tracks q s x' :=
  ⟨h.running, h.noResets, (params_of_kept e) ▸ h.present,
    tame_of_steady (chip_of_kept e).symm h.tame, h.same.trans e, n.trans h.later,
    fun hq => by
      have e' := params_of_kept e
      rw [← e', ← c hq]
      exact h.silent hq⟩

/-- A micro-step that leaves `x'`. -/
theorem Tracks.micro_at {s x x1 : State} (x' : State) (h : Tracks q s x) (l next : Label)
    (hl : x.isAt l = true) {e : State → State}
    (he : ∀ y, Tracks q y x → Tracks q (e y) x1) (hx : x1.atLabel next = x' := by rfl) :
    Tracks q (s.micro l next e) x' :=
  (h.micro l next hl he).of_eq hx

/-- A micro-step whose effect leaves something open, of which `P` says what the trace shows. -/
theorem Tracks.micro_open {α : Type} {P : α → List BusEvent → Prop} (X : α → State)
    {s x : State} (h : Tracks q s x) (l next : Label) (hl : x.isAt l = true) {e : State → State}
    (he : ∀ y, Tracks q y x → ∃ a, P a (e y).busLog ∧
      Tracks q ((e y).atLabel next) (X a)) :
    ∃ a, P a (s.micro l next e).busLog ∧ Tracks q (s.micro l next e) (X a) := by
  obtain ⟨a, ha, h1⟩ := he _ h.interlude
  have hr := h1.running
  rw [atLabel_stopped] at hr
  refine ⟨a, ?_⟩
  rw [State.micro, h.stepAt_eq l hl, compute_running hr, atLabel_busLog]
  exact ⟨ha, h1⟩

/-- Clearing all three flags at once (30_encoding.md R126). -/
theorem writeReg_irqAll (v : ChipVariant) (c : Chip) :
    c.writeReg v .status [irqAll] = c.flagsCleared := by
  simp [Chip.writeReg, Chip.flagsCleared, bit, irqAll]

/-- Clearing RX_DR alone. -/
theorem writeReg_irqRxDr (v : ChipVariant) (c : Chip) :
    c.writeReg v .status [irqRxDr] = { c with rxDr := false } := by
  simp [Chip.writeReg, bit, irqRxDr]

/-- Both flushes. -/
theorem Tracks.flushBoth {s x : State} (h : Tracks q s x) (l next : Label) {f : Frame}
    {r : List Frame} (hx : x.seq = f :: r) (hl : x.isAt l = true) :
    Tracks q (s.flushBoth l next)
      { x with seq := ⟨f.op, next, f.locals⟩ :: r, chip := x.chip.flushed,
               busLog := sends [0xE1] :: sends [0xE2] :: x.busLog } := by
  have h1 := h.micro l l.succ hl fun y hy => hy.flushRx
  refine (h1.micro l.succ next (by simp [hx]) fun y hy => hy.flushTx).of_eq ?_
  simp [State.atLabel, hx, Chip.flushed]

/-! ## startListening (43_mode_control.md R232) -/

theorem pipe0Restored_none {s : State} (h : s.ownPipe0 = none) : s.pipe0Restored = s := by
  cases e : s.sh.ownAddress with
  | none => simp only [State.pipe0Restored, e]
  | some o =>
    simp only [State.ownPipe0, e] at h
    by_cases c : s.sh.rxP0Cache = some (fullAddress o s.mask)
    · simp only [State.pipe0Restored, e, if_pos c]
    · simp only [if_neg c, reduceCtorEq] at h

theorem pipe0Restored_some {s : State} {a : Addr} (h : s.ownPipe0 = some a) :
    s.pipe0Restored =
      { s with chip.rxAddrP0 := a, sh.rxP0Cache := some a,
               busLog := sends (0x2A :: a.toList) :: s.busLog } := by
  cases e : s.sh.ownAddress with
  | none => simp only [State.ownPipe0, e, reduceCtorEq] at h
  | some o =>
    simp only [State.ownPipe0, e] at h
    by_cases c : s.sh.rxP0Cache = some (fullAddress o s.mask)
    · simp only [if_pos c, reduceCtorEq] at h
    · simp only [if_neg c, Option.some.injEq] at h
      subst h
      simp only [State.pipe0Restored, e, if_neg c]

theorem ownPipe0_of_sh {s t : State} (h : s.sh = t.sh) : s.ownPipe0 = t.ownPipe0 := by
  unfold State.ownPipe0 State.mask
  rw [h]

@[simp] theorem pipe0Restored_now (s : State) : s.pipe0Restored.now = s.now := by
  cases h : s.ownPipe0 with
  | none => rw [pipe0Restored_none h]
  | some a => rw [pipe0Restored_some h]

@[simp] theorem pipe0Restored_params (s : State) : s.pipe0Restored.params = s.params := by
  cases h : s.ownPipe0 with
  | none => rw [pipe0Restored_none h]
  | some a => rw [pipe0Restored_some h]

/-- S3: the cached address decides. -/
theorem restorePipe0_tracks {s x : State} (h : Tracks q s x) (ha : x.chip.Admitted) {op : Instr}
    {o : Locals} {r : List Frame} (hx : x.seq = ⟨op, .s3, o⟩ :: r) :
    Tracks q (restorePipe0 s) { x.pipe0Restored with seq := ⟨op, .s4, o⟩ :: r } := by
  have hy {y z : State} (h : Tracks q y z) (e : z.sh = x.sh) : y.ownPipe0 = x.ownPipe0 :=
    ownPipe0_of_sh ((sh_of_kept h.same).trans e)
  unfold restorePipe0
  cases hp : x.ownPipe0 with
  | none =>
    rw [pipe0Restored_none hp]
    have h1 := h.micro_at { x with seq := ⟨op, Label.s3.succ, o⟩ :: r } .s3 Label.s3.succ (by simp [State.isAt, hx]) (x1 := x)
      (e := fun s => match s.ownPipe0 with
        | none => s
        | some a => s.wRegister .rxAddrP0 a.toList)
      (fun y t => by rw [hy t rfl, hp]; exact t) (by simp [State.atLabel, hx])
    exact h1.micro_at _ Label.s3.succ .s4 rfl (fun y t => by rw [hy t rfl, hp]; exact t)
  | some a =>
    rw [pipe0Restored_some hp]
    have h1 := h.micro_at
      { x with seq := ⟨op, Label.s3.succ, o⟩ :: r, chip.rxAddrP0 := a,
               busLog := sends (0x2A :: a.toList) :: x.busLog }
      .s3 Label.s3.succ (by simp [State.isAt, hx])
      (e := fun s => match s.ownPipe0 with
        | none => s
        | some a => s.wRegister .rxAddrP0 a.toList)
      (fun y t => by
        rw [hy t rfl, hp]
        exact t.wRegister (a := .rxAddrP0) (v := a.toList) (.inl ha))
      (by simp [State.atLabel, hx]; exact ⟨rfl, rfl⟩)
    exact h1.micro_at _ Label.s3.succ .s4 rfl (fun y t => by
      rw [hy t rfl, hp]
      exact t.onShadow fun h => { h with rxP0Cache := some a })

/-- The program up to its return. -/
theorem startListening_tracks {s x : State} (h : Tracks q s x) (ha : x.chip.Admitted) {op : Instr}
    {o : Locals} {r : List Frame} (hx : x.seq = ⟨op, .s1, o⟩ :: r) :
    ∃ v ∈ x.chip.configReads, ∃ s' f', startListeningProgram s = s'.give .none ∧
      Tracks q s' { x.listened v with seq := f' :: r } := by
  obtain ⟨v, hv, h1⟩ := h.modify (P := (· ∈ x.chip.configReads)) .s1 .s2
    (by simp [State.isAt, hx]) .config (fun v => withBits v (pwrUp ||| primRx)) hx
    (fun y hy => hy.read_config) (fun _ _ => .inl ha)
  have h2 := h1.writeFrom .s2 .s3 rfl .status (fun _ => [irqAll]) (v := [irqAll]) (fun _ _ => rfl)
    (.inl ha) rfl
  rw [writeReg_irqAll] at h2
  have h3 := restorePipe0_tracks h2 ha rfl
  have h4 := h3.micro .s4 .s5 rfl fun y hy => hy.setCe true
  have h5 := h4.flushBoth .s5 .s6 rfl rfl
  have h6 := h5.interlude.onShadow fun h => { h with listening := true }
  refine ⟨v, hv, _, ⟨op, .s6, { o with v := v }⟩, h5.finish_eq .s6 rfl _, h6.of_eq ?_⟩
  dsimp only [State.listened]
  cases hp : x.ownPipe0 with
  | none => rw [pipe0Restored_none, pipe0Restored_none] <;> first | exact hp | rfl
  | some a => rw [pipe0Restored_some, pipe0Restored_some] <;> first | exact hp | rfl

/-! ## read (45_receive_ackq.md R282) -/

/-- Of the registers no radio step writes, a payload read writes `rxCorrupt` only. -/
theorem readPayload_steady (n : Nat) (s : State) :
    (s.readPayload n).2.chip.steady =
      ({ s.chip with rxCorrupt := (s.readPayload n).2.chip.rxCorrupt } : Chip).steady := by
  unfold State.readPayload State.maybePop
  dsimp only
  repeat' split
  all_goals rfl

/-- `R_RX_PAYLOAD`, from what the chip holds after it. -/
theorem Tracks.rRxPayload {s x : State} (h : Tracks q s x) (n : Nat) :
    ∃ c : Chip, c.steady = ({ x.chip with rxCorrupt := c.rxCorrupt } : Chip).steady ∧
      (q → ∃ s0 : State, s0.chip = x.chip ∧ (s.rRxPayload n).busIn = (s0.readPayload n).1 ∧
        c = (s0.readPayload n).2.chip) ∧
      Tracks q (s.rRxPayload n)
        { x with chip := c, busLog := sends (0x61 :: List.replicate n 0) :: x.busLog } := by
  have hs := (readPayload_steady n s).trans (congrArg
    (fun c : Chip => ({ c with rxCorrupt := (s.readPayload n).2.chip.rxCorrupt } : Chip))
    (chip_of_kept h.same))
  refine ⟨(s.readPayload n).2.chip, hs,
    fun hq => ⟨s, (h.silent hq).2.2, rRxPayload_busIn n s h.present_here, rfl⟩, ?_⟩
  refine h.transact (f := fun _ => (s.readPayload n).2.chip)
    (by simp) (rRxPayload_chip n s h.present_here) rfl (by simp) (by simp) (by simp) (by simp)
    (by simp) (by simp) (by simp) (by simp) ?_
    (tame_of_steady (d := { x.chip with rxCorrupt := (s.readPayload n).2.chip.rxCorrupt }) hs
      (h.tame.imp (fun a => ⟨a.1, a.2⟩) id))
  rw [rRxPayload_only]
  simp [BusEvent.outgoing, sends]

theorem rRxPayload_busIn_length (n : Nat) (s : State) (h : s.params.chipPresent = true) :
    (s.rRxPayload n).busIn.length = n := by
  rw [rRxPayload_busIn n s h, readPayload_length]

/-- A payload read's answer is the newest. -/
theorem rRxPayload_lastAnswer (n : Nat) (s : State) :
    ∃ st, lastAnswer (0x61 :: List.replicate n 0) (s.rRxPayload n).busLog =
      some (st, (s.rRxPayload n).busIn) := by
  rw [rRxPayload_only]
  exact ⟨_, by simp only [lastAnswer, if_true]; rfl⟩

/-- So is a width read's, of one byte. -/
theorem rRxPlWid_lastAnswer (s : State) (h : s.params.chipPresent = true) :
    ∃ st, lastAnswer [0x60, 0x00] s.rRxPlWid.busLog = some (st, [s.rRxPlWid.busIn.headD 0]) := by
  have hl : s.rRxPlWid.busIn.length = 1 := by rw [rRxPlWid_busIn s h, readWidth_length]
  obtain ⟨w, hw⟩ := List.length_eq_one_iff.mp hl
  rw [rRxPlWid_only]
  exact ⟨s.rRxPlWid.busStatus, by simp [lastAnswer, hw]⟩

/-- The width of an entry that stands at the head. -/
theorem readWidth_head {s : State} {e : RxEntry} {r : List RxEntry} (hf : s.chip.rxf = e :: r)
    (hc : s.chip.rxCorrupt = false) (hu : s.chip.featuresUnlocked = true) :
    s.readWidth.1 = [BitVec.ofNat 8 e.data.length] := by
  simp [State.readWidth, hf, hc, hu]

/-- A read of as many of the head's bytes as `cap` admits. -/
theorem readPayload_head {s : State} {e : RxEntry} {r : List RxEntry} (cap : Nat)
    (hf : s.chip.rxf = e :: r) (hc : s.chip.rxCorrupt = false) :
    (s.readPayload (min e.data.length cap)).1 = e.data.take cap ∧
      if e.data.length ≤ cap then
        (s.readPayload (min e.data.length cap)).2.chip = { s.chip with rxf := r }
      else
        (s.readPayload (min e.data.length cap)).2.chip = { s.chip with rxCorrupt := true } ∨
          (s.readPayload (min e.data.length cap)).2.chip =
            { s.chip with rxCorrupt := true, rxf := r } := by
  by_cases h : e.data.length ≤ cap
  · rw [if_pos h, Nat.min_eq_left h, List.take_of_length_le h]
    simp [State.readPayload, hf, hc, State.drawBytes]
  · have hlt : cap < e.data.length := by omega
    rw [if_neg h, Nat.min_eq_right (by omega)]
    by_cases hb : Config.freeBool s.drawn = true <;>
      simp [State.readPayload, hf, hc, hlt, State.maybePop, State.drawBool, State.onChip, hb]

theorem admitted_unlocked {c : Chip} (h : c.Admitted) : c.featuresUnlocked = true := by
  have := h.2 0
  simp [Chip.dynamicPayload, Chip.enDpl] at this
  exact this.1.1

section
variable {P : List Byte → Prop}

theorem adds_interlude : Adds P State.interlude := adds_none interlude_busLog

/-- S4 of read, its transaction. -/
theorem adds_readPayloadInto {l next : Label} (h : ∀ n, P (0x61 :: List.replicate n 0)) :
    Adds P fun s : State => s.micro l next fun s =>
      let s := s.rRxPayload s.locals.n
      s.setLocals fun o => { o with d := s.busIn } :=
  Adds.micro (fun s => by simpa [AddsTo] using adds_rRxPayload (h s.locals.n) s) l next

/-- read from its copy to its return. -/
theorem adds_readTail {b : BufId} (h : P [0x27, 0x40]) :
    Adds P fun s : State =>
      let s := s.micro Label.s4.succ .s5 fun s => s.memWrite b 0 s.locals.d
      let s := s.clearIrq .s5 .s6 irqRxDr
      s.setCeStep .s6 .s7 true := fun s =>
  ((Adds.micro (f := fun s => s.memWrite b 0 s.locals.d) (adds_none fun _ => by simp)
    Label.s4.succ .s5) _).trans <|
  (adds_writeFrom (l := .s5) (next := .s6) (a := .status) (v := fun _ => [irqRxDr])
    (fun _ => h) _).trans ((adds_setCe true).micro .s6 .s7 _)

/-- read makes three transactions. -/
theorem adds_read {b : BufId} {cap : Nat} (h1 : P [0x60, 0x00])
    (h2 : ∀ n, P (0x61 :: List.replicate n 0)) (h3 : P [0x27, 0x40]) :
    Adds P (readProgram b cap) := fun s =>
  ((adds_setCe false).micro .s1 .s2 _).trans <|
  ((Adds.micro (f := fun s : State => s.rRxPlWid.setLocals fun o =>
      { o with w := s.rRxPlWid.busIn.headD 0 })
    (fun s => by simpa [AddsTo] using adds_rRxPlWid h1 s) .s2 .s3) _).trans <|
  (((adds_setLocals _).micro .s3 .s4) _).trans <| (adds_readPayloadInto h2 _).trans <|
  (adds_readTail h3 _).trans (adds_ret _ _ _)

end

/-- The program up to its return. -/
theorem read_tracks {s x : State} (h : Tracks q s x) (b : BufId) (cap : Nat) {op : Instr}
    {o : Locals} {r : List Frame} (hx : x.seq = ⟨op, .s1, o⟩ :: r) :
    ∃ d c s' f', d.length ≤ cap ∧ d.length ≤ 255 ∧
      c.steady = ({ x.chip with rxCorrupt := c.rxCorrupt } : Chip).steady ∧
      (q → x.chip.GivesHead cap d c) ∧ ReadAnswered cap d s'.busLog ∧
      readProgram b cap s = s'.give (.count d.length) ∧
      Tracks q s' { x.hasRead b d c with seq := f' :: r } := by
  have h1 := h.micro_at { x with seq := ⟨op, .s2, o⟩ :: r, ce := false,
                                  busLog := .ce false :: x.busLog } .s1 .s2
    (by simp [State.isAt, hx]) (fun y hy => hy.setCe false) (by simp [State.atLabel, hx])
  obtain ⟨w, ⟨hw1, sw, hlw⟩, h2⟩ := h1.micro_open
    (P := fun w log => (q → ∃ s0 : State, s0.chip = x.chip ∧ w = s0.readWidth.1.headD 0) ∧
      ∃ sw, lastAnswer [0x60, 0x00] log = some (sw, [w])) (fun w : Byte =>
      { x with seq := ⟨op, .s3, { o with w := w }⟩ :: r, ce := false,
               busLog := sends [0x60, 0] :: .ce false :: x.busLog }) .s2 .s3 rfl
    (e := fun s =>
      let s := s.rRxPlWid
      s.setLocals fun o => { o with w := s.busIn.headD 0 })
    fun y hy => ⟨_, ⟨fun hq => ⟨y, (hy.silent hq).2.2, by rw [rRxPlWid_busIn y hy.present_here]⟩,
      by simpa using rRxPlWid_lastAnswer y hy.present_here⟩,
      (hy.rRxPlWid.setLocals _).atLabel _⟩
  have h3 := h2.micro_at { x with
      seq := ⟨op, .s4, { o with w := w, n := min w.toNat cap }⟩ :: r, ce := false,
      busLog := sends [0x60, 0] :: .ce false :: x.busLog } .s3 .s4 rfl
    fun y hy => hy.setLocals fun o => { o with n := min o.w.toNat cap }
  obtain ⟨⟨d, c⟩, ⟨hd, hs, hg, sd, hld⟩, h4⟩ := h3.micro_open
    (P := fun a : List Byte × Chip => fun log => a.1.length = min w.toNat cap ∧
      a.2.steady = ({ x.chip with rxCorrupt := a.2.rxCorrupt } : Chip).steady ∧
      (q → ∃ s0 : State, s0.chip = x.chip ∧ a.1 = (s0.readPayload (min w.toNat cap)).1 ∧
        a.2 = (s0.readPayload (min w.toNat cap)).2.chip) ∧
      ∃ sd, lastAnswer (0x61 :: List.replicate (min w.toNat cap) 0) log = some (sd, a.1)) (fun a =>
      { x with
        seq := ⟨op, Label.s4.succ, { o with w := w, n := min w.toNat cap, d := a.1 }⟩ :: r,
        ce := false, chip := a.2,
        busLog := sends (0x61 :: List.replicate (min w.toNat cap) 0) :: sends [0x60, 0] ::
          .ce false :: x.busLog }) .s4 Label.s4.succ rfl
    (e := fun s =>
      let s := s.rRxPayload s.locals.n
      s.setLocals fun o => { o with d := s.busIn })
    fun y hy => by
      have e : y.locals.n = min w.toNat cap := by rw [hy.locals_eq]; rfl
      dsimp only
      rw [e]
      obtain ⟨c, hs, hg, h5⟩ := hy.rRxPayload (min w.toNat cap)
      exact ⟨((y.rRxPayload (min w.toNat cap)).busIn, c),
        ⟨rRxPayload_busIn_length _ _ hy.present_here, hs, hg,
          by simpa using rRxPayload_lastAnswer (min w.toNat cap) y⟩, (h5.setLocals _).atLabel _⟩
  dsimp only at hd hs hg h4 hld
  have hw := w.isLt
  have h5 := h4.micro (x' := State.memWrite b 0 d
      { x with
        seq := ⟨op, Label.s4.succ, { o with w := w, n := min w.toNat cap, d := d }⟩ :: r,
        ce := false, chip := c,
        busLog := sends (0x61 :: List.replicate (min w.toNat cap) 0) :: sends [0x60, 0] ::
          .ce false :: x.busLog }) Label.s4.succ .s5 rfl (f := fun s => s.memWrite b 0 s.locals.d)
    fun y hy => by
      have e : y.locals.d = d := by rw [hy.locals_eq]; rfl
      rw [e]
      exact hy.memWrite b 0 d
  have h6 := h5.writeFrom .s5 .s6 (by cases b <;> rfl) .status (fun _ => [irqRxDr])
    (v := [irqRxDr]) (fun _ _ => rfl)
    (by
      rw [writeReg_irqRxDr]
      have ht : c.Tame := tame_of_steady hs (h.tame.imp (fun a => ⟨a.1, a.2⟩) id)
      cases b <;> exact ht.imp (fun a => ⟨a.1, a.2⟩) id)
    (f := ⟨op, .s5, { o with w := w, n := min w.toNat cap, d := d }⟩) (r := r)
    (by cases b <;> rfl)
  have h7 := h6.micro .s6 .s7 (by cases b <;> rfl) fun y hy => hy.setCe true
  rw [writeReg_irqRxDr] at h7
  have h8 := h7.interlude
  refine ⟨d, c, _, ⟨op, .s7, { o with w := w, n := min w.toNat cap, d := d }⟩, by omega,
    by omega, hs, fun hq e rest hf hc hu hl => ?_, ?_,
    (h7.ret_eq .s7 (by cases b <;> rfl) _).trans ?_, h8.of_eq ?_⟩
  · obtain ⟨s0, e0, hw0⟩ := hw1 hq
    obtain ⟨s1, e1, hd1, hc1⟩ := hg hq
    have hn : w.toNat = e.data.length := by
      rw [hw0, readWidth_head (by rw [e0]; exact hf) (by rw [e0]; exact hc)
        (by rw [e0]; exact hu)]
      have h32 : e.data.length ≤ 32 := hl
      simp
      omega
    rw [hn] at hd1 hc1
    have hp := readPayload_head (s := s1) cap (by rw [e1]; exact hf) (by rw [e1]; exact hc)
    rw [← hd1, ← hc1, e1] at hp
    exact hp
  · refine ⟨sw, w, sd, ?_, hd, ?_⟩
    · refine (lastAnswer_addsTo ?_).trans hlw
      exact (((adds_setLocals _).micro .s3 .s4) _).trans <|
        (adds_readPayloadInto (by simp) _).trans ((adds_readTail (by decide) _).trans (adds_interlude _))
    · rw [hd]
      exact (lastAnswer_addsTo ((adds_readTail (by simp) _).trans
        (adds_interlude _))).trans hld
  · exact congrArg (fun n => State.give (.count n) _)
      ((congrArg Locals.n h8.locals_eq).trans (by rw [hd]; cases b <;> rfl))
  · rw [← hd]
    cases b <;> rfl

/-! ## transmit (44_transmit.md R250) -/

/-- One NOP, its status byte kept: it is the newest answer. -/
theorem statusInto_tracks {s x : State} (h : Tracks q s x) (l next : Label)
    (hl : x.isAt l = true) {f : Frame} {r : List Frame} (hx : x.seq = f :: r) :
    ∃ st : Byte, (∃ inn, lastAnswer [0xFF] (s.statusInto l next).busLog = some (st, inn)) ∧
      statusesOf [0xFF] (s.statusInto l next).busLog = st :: statusesOf [0xFF] s.busLog ∧
      (q → st = x.chip.status) ∧
      Tracks q (s.statusInto l next)
        { x with seq := ⟨f.op, next, { f.locals with st := st }⟩ :: r,
                 busLog := sends [0xFF] :: x.busLog } := by
  have hi := h.interlude
  have h1 := hi.nop.setLocals fun o => { o with st := s.interlude.nop.busStatus }
  have hn : s.interlude.nop.busLog =
      .xfer [0xFF] s.interlude.nop.busStatus s.interlude.nop.busIn :: s.busLog := by
    rw [nop_only]
    simp
  refine ⟨s.interlude.nop.busStatus, ?_⟩
  rw [State.statusInto, State.micro, h.stepAt_eq l hl, compute_running h1.running]
  refine ⟨⟨s.interlude.nop.busIn, ?_⟩, ?_, fun hq => ?_, ?_⟩
  · rw [atLabel_busLog, setLocals_busLog, hn]
    simp [lastAnswer]
  · rw [atLabel_busLog, setLocals_busLog, hn]
    simp [statusesOf]
  · rw [nop_status _ hi.present_here, (hi.silent hq).2.2]
  · exact (h1.atLabel next).of_eq (by simp [State.setLocals, State.atLabel, hx])

/-- The poll ends with a flag in the last status byte, and no earlier one had a flag, or with the
watchdog. -/
theorem pollLoop_tracks (n : Nat) {s x : State} (h : Tracks q s x) {op : Instr} {o : Locals}
    {r : List Frame} (hx : x.seq = ⟨op, .s9a, o⟩ :: r) :
    ∃ (st : Byte) (earlier : List Byte), (q → st = x.chip.status) ∧
      statusesOf [0xFF] (pollLoop n s).busLog = st :: (earlier ++ statusesOf [0xFF] s.busLog) ∧
      (∀ b ∈ earlier, pollEnds b = false) ∧
      (pollEnds st = true ∨ o.t0 + tWatchdog ≤ (pollLoop n s).now) ∧
      Tracks q (pollLoop n s)
        { x with seq := ⟨op, .s10, { o with st := st }⟩ :: r,
                 busLog := List.replicate (earlier.length + 1) (sends [0xFF]) ++ x.busLog } := by
  induction n generalizing s x o with
  | zero =>
    obtain ⟨st, -, hs, hq, h1⟩ := statusInto_tracks h .s9a .s9b (by simp [State.isAt, hx]) hx
    have hy := h1.interlude
    have hst : (s.statusInto .s9a .s9b).interlude.locals.st = st := by rw [hy.locals_eq]; rfl
    have ht0 : (s.statusInto .s9a .s9b).interlude.locals.t0 = o.t0 := by rw [hy.locals_eq]; rfl
    have hz : Tracks q
        (if pollEnds st then (s.statusInto .s9a .s9b).interlude
         else { (s.statusInto .s9a .s9b).interlude with
           now := max (s.statusInto .s9a .s9b).interlude.now (o.t0 + tWatchdog) })
        { x with seq := ⟨op, .s9b, { o with st := st }⟩ :: r,
                 busLog := sends [0xFF] :: x.busLog } := by
      split
      · exact hy
      · exact ⟨hy.running, hy.noResets, hy.present, hy.tame, hy.same,
          hy.later.trans (Nat.le_max_left _ _), hy.silent⟩
    have e : pollLoop 0 s =
        State.atLabel .s10 (if pollEnds st then (s.statusInto .s9a .s9b).interlude
         else { (s.statusInto .s9a .s9b).interlude with
           now := max (s.statusInto .s9a .s9b).interlude.now (o.t0 + tWatchdog) }) := by
      rw [← compute_running hz.running (State.atLabel .s10), pollLoop, State.micro,
        h1.stepAt_eq .s9b rfl, hst, ht0]
    have hl : (pollLoop 0 s).busLog = (s.statusInto .s9a .s9b).busLog := by
      rw [e, atLabel_busLog]
      split <;> simp
    refine ⟨st, [], hq, by rw [hl, hs]; rfl, by simp, ?_, ?_⟩
    · by_cases hp : pollEnds st = true
      · exact .inl hp
      · right
        rw [e, if_neg hp, atLabel_now]
        exact Nat.le_max_right _ _
    · rw [e]
      exact hz.atLabel .s10
  | succ n ih =>
    obtain ⟨st, -, hs, hq, h1⟩ := statusInto_tracks h .s9a .s9b (by simp [State.isAt, hx]) hx
    have hy := h1.interlude
    have hst : (s.statusInto .s9a .s9b).interlude.locals.st = st := by rw [hy.locals_eq]; rfl
    have ht0 : (s.statusInto .s9a .s9b).interlude.locals.t0 = o.t0 := by rw [hy.locals_eq]; rfl
    have hne := (stopped_eq_false.mp hy.running).2
    rw [pollLoop, h1.stepAt_eq .s9b rfl, hst, ht0]
    have leave : (((s.statusInto .s9a .s9b).interlude).atLabel .s10).isAt .s9a = false := by
      rw [(hy.atLabel .s10).isAt_eq]; rfl
    split
    · rename_i hp
      rw [leave, if_neg (by simp)]
      exact ⟨st, [], hq, by rw [atLabel_busLog, interlude_busLog, hs]; rfl, by simp, .inl hp, hy.atLabel .s10⟩
    · rename_i hp
      split
      · rename_i hw
        rw [leave, if_neg (by simp)]
        exact ⟨st, [], hq, by rw [atLabel_busLog, interlude_busLog, hs]; rfl, by simp, .inr (by simpa using hw), hy.atLabel .s10⟩
      · rw [isAt_atLabel _ _ hne, if_pos rfl]
        obtain ⟨st', earlier, hq', hs', hb, he, h3⟩ := ih (hy.atLabel .s9a) rfl
        refine ⟨st', earlier ++ [st], hq', ?_, ?_, he, h3.of_eq ?_⟩
        · rw [hs', atLabel_busLog, interlude_busLog, hs, List.append_assoc]
          rfl
        · intro b hb'
          rcases List.mem_append.mp hb' with m | m
          · exact hb b m
          · rw [List.mem_singleton.mp m]
            simpa using hp
        · rw [List.length_append, List.length_singleton,
            List.replicate_succ' (n := earlier.length + 1), List.append_assoc]
          rfl

/-- S2: the cache decides. -/
theorem setTx_tracks {s x : State} (h : Tracks q s x) (ha : x.chip.Admitted) {op : Instr}
    {o : Locals} {r : List Frame} (hx : x.seq = ⟨op, .s2, o⟩ :: r) :
    Tracks q (setTxAddress s)
      { (if x.sh.txAddrCache = some o.fa then x
         else { x with chip.txAddr := o.fa, sh.txAddrCache := some o.fa,
                       busLog := sends (0x30 :: o.fa.toList) :: x.busLog }) with
        seq := ⟨op, .s3, o⟩ :: r } := by
  have hf {y z : State} (h : Tracks q y z) (e : z.seq = ⟨op, .s2, o⟩ :: r ∨
      z.seq = ⟨op, Label.s2.succ, o⟩ :: r) : y.locals.fa = o.fa := by
    rw [h.locals_eq]
    rcases e with e | e <;> simp [State.locals, e]
  by_cases hc : x.sh.txAddrCache = some o.fa
  · have h1 := h.micro_at { x with seq := ⟨op, Label.s2.succ, o⟩ :: r } .s2 Label.s2.succ (x1 := x)
      (by simp [State.isAt, hx])
      (e := fun s => if s.sh.txAddrCache = some s.locals.fa then s
        else s.wRegister .txAddr s.locals.fa.toList)
      (fun y hy => by rw [hf hy (.inl hx), sh_of_kept hy.same, if_pos hc]; exact hy)
      (by simp [State.atLabel, hx])
    have h2 := h1.micro Label.s2.succ .s3 rfl
      (f := fun s => s.onShadow fun h => { h with txAddrCache := some s.locals.fa })
      fun y hy => by
        rw [hf hy (.inr rfl)]
        exact hy.onShadow fun h => { h with txAddrCache := some o.fa }
    refine h2.of_eq ?_
    rw [if_pos hc]
    simp [State.atLabel, State.onShadow, ← hc]
  · have h1 := h.micro_at
      { x with seq := ⟨op, Label.s2.succ, o⟩ :: r, chip.txAddr := o.fa,
               busLog := sends (0x30 :: o.fa.toList) :: x.busLog } .s2 Label.s2.succ
      (by simp [State.isAt, hx])
      (e := fun s => if s.sh.txAddrCache = some s.locals.fa then s
        else s.wRegister .txAddr s.locals.fa.toList)
      (fun y hy => by
        rw [hf hy (.inl hx), sh_of_kept hy.same, if_neg hc]
        exact hy.wRegister (a := .txAddr) (v := o.fa.toList) (.inl ha))
      (by simp [State.atLabel, hx]; exact ⟨rfl, rfl⟩)
    have h2 := h1.micro Label.s2.succ .s3 rfl
      (f := fun s => s.onShadow fun h => { h with txAddrCache := some s.locals.fa })
      fun y hy => by
        rw [hf hy (.inr rfl)]
        exact hy.onShadow fun h => { h with txAddrCache := some o.fa }
    rw [if_neg hc]
    exact h2

/-- S3: the cache decides. -/
theorem divert_tracks {s x : State} (h : Tracks q s x) (ha : x.chip.Admitted) (ack : Bool)
    {op : Instr} {o : Locals} {r : List Frame} (hx : x.seq = ⟨op, .s3, o⟩ :: r) :
    Tracks q (divertPipe0 ack s)
      { (if ack = false ∨ x.sh.rxP0Cache = some o.fa then x
         else { x with chip.rxAddrP0 := o.fa, sh.rxP0Cache := some o.fa,
                       busLog := sends (0x2A :: o.fa.toList) :: x.busLog }) with
        seq := ⟨op, .s4, o⟩ :: r } := by
  have hf {y z : State} (h : Tracks q y z) (e : z.seq = ⟨op, .s3, o⟩ :: r ∨
      z.seq = ⟨op, Label.s3.succ, o⟩ :: r) : y.locals.fa = o.fa := by
    rw [h.locals_eq]
    rcases e with e | e <;> simp [State.locals, e]
  by_cases hc : ack = false ∨ x.sh.rxP0Cache = some o.fa
  · have h1 := h.micro_at { x with seq := ⟨op, Label.s3.succ, o⟩ :: r } .s3 Label.s3.succ (x1 := x)
      (by simp [State.isAt, hx])
      (e := fun s => if !ack ∨ s.sh.rxP0Cache = some s.locals.fa then s
        else s.wRegister .rxAddrP0 s.locals.fa.toList)
      (fun y hy => by
        rw [hf hy (.inl hx), sh_of_kept hy.same, if_pos (by simpa using hc)]; exact hy)
      (by simp [State.atLabel, hx])
    rw [if_pos hc]
    cases ack with
    | false => exact h1.micro_at _ Label.s3.succ .s4 rfl fun y hy => hy
    | true =>
      have hc : x.sh.rxP0Cache = some o.fa := by simpa using hc
      have h2 := h1.micro Label.s3.succ .s4 rfl
        (f := fun s => s.onShadow fun h => { h with rxP0Cache := some s.locals.fa })
        fun y hy => by
          rw [hf hy (.inr rfl)]
          exact hy.onShadow fun h => { h with rxP0Cache := some o.fa }
      exact h2.of_eq (by simp [State.atLabel, State.onShadow, ← hc])
  · obtain ⟨rfl, hc'⟩ : ack = true ∧ ¬ x.sh.rxP0Cache = some o.fa := by
      cases ack <;> simp_all
    have h1 := h.micro_at
      { x with seq := ⟨op, Label.s3.succ, o⟩ :: r, chip.rxAddrP0 := o.fa,
               busLog := sends (0x2A :: o.fa.toList) :: x.busLog } .s3 Label.s3.succ
      (by simp [State.isAt, hx])
      (e := fun s => if !true ∨ s.sh.rxP0Cache = some s.locals.fa then s
        else s.wRegister .rxAddrP0 s.locals.fa.toList)
      (fun y hy => by
        rw [hf hy (.inl hx), sh_of_kept hy.same, if_neg (by simpa using hc)]
        exact hy.wRegister (a := .rxAddrP0) (v := o.fa.toList) (.inl ha))
      (by simp [State.atLabel, hx]; exact ⟨rfl, rfl⟩)
    rw [if_neg hc]
    exact h1.micro Label.s3.succ .s4 rfl
      (f := fun s => s.onShadow fun h => { h with rxP0Cache := some s.locals.fa })
      fun y hy => by
        rw [hf hy (.inr rfl)]
        exact hy.onShadow fun h => { h with rxP0Cache := some o.fa }

/-- S2 and S3. -/
theorem addressed_tracks {s x : State} (h : Tracks q s x) (ha : x.chip.Admitted) (ack : Bool)
    {op : Instr} {o : Locals} {r : List Frame} (hx : x.seq = ⟨op, .s2, o⟩ :: r) :
    Tracks q (divertPipe0 ack (setTxAddress s))
      { x.addressed o.fa ack with seq := ⟨op, .s4, o⟩ :: r } := by
  have h3 := divert_tracks (setTx_tracks h ha hx) (by
    dsimp only
    split <;> exact ha) ack rfl
  refine h3.of_eq ?_
  by_cases h1 : x.sh.txAddrCache = some o.fa <;>
    by_cases h2 : ack = false ∨ x.sh.rxP0Cache = some o.fa <;> simp [State.addressed, h1, h2]
theorem addressed_cases (a : Addr) (ack : Bool) (x : State) :
    x.addressed a ack = { x with chip := (x.addressed a ack).chip, sh := (x.addressed a ack).sh,
                                 busLog := (x.addressed a ack).busLog } := by
  unfold State.addressed
  dsimp only
  split <;> split <;> rfl

theorem addressed_chip (a : Addr) (ack : Bool) (x : State) :
    (x.addressed a ack).chip =
      { x.chip with txAddr := (x.addressed a ack).chip.txAddr,
                    rxAddrP0 := (x.addressed a ack).chip.rxAddrP0 } := by
  unfold State.addressed
  dsimp only
  split <;> split <;> rfl

theorem addressed_sh (a : Addr) (ack : Bool) (x : State) :
    (x.addressed a ack).sh =
      { x.sh with txAddrCache := (x.addressed a ack).sh.txAddrCache,
                  rxP0Cache := (x.addressed a ack).sh.rxP0Cache } := by
  unfold State.addressed
  dsimp only
  split <;> split <;> rfl

@[simp] theorem addressed_configReads (a : Addr) (ack : Bool) (x : State) :
    (x.addressed a ack).chip.configReads = x.chip.configReads := by
  rw [addressed_chip]
  rfl

@[simp] theorem addressed_listening (a : Addr) (ack : Bool) (x : State) :
    (x.addressed a ack).sh.listening = x.sh.listening := by
  rw [addressed_sh]

theorem addressed_admitted (a : Addr) (ack : Bool) {x : State} (h : x.chip.Admitted) :
    (x.addressed a ack).chip.Admitted := by
  rw [addressed_chip]
  exact h

theorem addressed_seq (a : Addr) (ack : Bool) (x : State) (q : List Frame) :
    ({ x with seq := q } : State).addressed a ack = { x.addressed a ack with seq := q } := by
  unfold State.addressed
  by_cases h1 : x.sh.txAddrCache = some a <;>
    by_cases h2 : ack = false ∨ x.sh.rxP0Cache = some a <;>
    simp [h1, h2]

/-- A payload write changes only TXF among what a present chip holds. -/
theorem loaded_steady (d : List Byte) (ack : Bool) (c : Chip) :
    (c.loaded d ack).steady = c.steady := by
  unfold Chip.loaded Chip.pushTx
  repeat' split
  all_goals rfl

theorem loaded_admitted (d : List Byte) (ack : Bool) {c : Chip} (h : c.Admitted) :
    (c.loaded d ack).Admitted := by
  unfold Chip.loaded Chip.pushTx
  repeat' split
  all_goals exact h

theorem loadTx_tracks {s x : State} (h : Tracks q s x) (ack : Bool) (d : List Byte) :
    Tracks q (if ack then s.wTxPayload d else s.wTxPayloadNoack d)
      { x with chip := x.chip.loaded d ack,
               busLog := sends ((if ack then 0xA0 else 0xB0) :: d) :: x.busLog } := by
  have hs : (s.chip.loaded d ack).steady = (x.chip.loaded d ack).steady := by
    rw [loaded_steady, loaded_steady]
    exact chip_of_kept h.same
  have ht : (x.chip.loaded d ack).Tame := tame_of_steady (loaded_steady d ack _) h.tame
  cases ack
  · refine h.transact (f := Chip.loaded d false) (by simp) ?_ hs (by simp) (by simp) (by simp)
      (by simp) (by simp) (by simp) (by simp) (by simp) ?_ ht
    · simp only [Bool.false_eq_true, if_false]
      rw [wTxPayloadNoack_chip d s h.present_here]
      rfl
    · simp only [Bool.false_eq_true, if_false]
      rw [wTxPayloadNoack_only]
      simp [BusEvent.outgoing, sends]
  · refine h.transact (f := Chip.loaded d true) (by simp) ?_ hs (by simp) (by simp) (by simp)
      (by simp) (by simp) (by simp) (by simp) (by simp) ?_ ht
    · simp only [if_true]
      rw [wTxPayload_chip d s h.present_here]
      rfl
    · simp only [if_true]
      rw [wTxPayload_only]
      simp [BusEvent.outgoing, sends]

/-- A later clock is still tracked. -/
theorem Tracks.later_now {s x : State} (h : Tracks q s x) {n : Nat} (hn : n ≤ s.now) :
    Tracks q s { x with now := n } :=
  ⟨h.running, h.noResets, h.present, h.tame, h.same, hn, h.silent⟩

/-- S6c: the cold-start delay, unless the chip was active. -/
theorem coldStart_tracks {s x : State} (h : Tracks q s x) {op : Instr} {o : Locals}
    {r : List Frame} (hx : x.seq = ⟨op, .s6c, o⟩ :: r) :
    Tracks q (if s.locals.wasActive then s.micro .s6c .s7 id else s.delay .s6c .s7 tColdstartTx)
      { x with seq := ⟨op, .s7, o⟩ :: r,
               now := if o.wasActive then x.now else x.now + tColdstartTx } := by
  have e : s.locals = o := by rw [h.locals_eq]; simp [State.locals, hx]
  rw [e]
  by_cases hb : o.wasActive = true
  · rw [if_pos hb, if_pos hb]
    exact (h.micro .s6c .s7 (by simp [State.isAt, hx]) fun y hy => hy).of_eq
      (by simp [State.atLabel, hx])
  · rw [if_neg hb, if_neg hb]
    exact (h.delay .s6c .s7 (by simp [State.isAt, hx]) tColdstartTx).of_eq
      (by simp [State.atLabel, hx])

/-- S4 to S8, and t0. -/
theorem triggered_tracks {s x : State} (h : Tracks q s x) (ha : x.chip.Admitted) (ack : Bool)
    {op : Instr} {o : Locals} {r : List Frame} (hx : x.seq = ⟨op, .s4, o⟩ :: r) :
    ∃ cfg t0, (cfg ∈ x.chip.configReads ∧ (x.triggered cfg o.p ack).now ≤ t0) ∧
      Tracks q (triggerTransmit ack s)
        { x.triggered cfg o.p ack with
          seq := ⟨op, .s9a, { o with cfg := cfg, wasActive := bit cfg 1,
                                     wasListening := x.sh.listening, t0 := t0 }⟩ :: r } := by
  have h4 := h.writeFrom .s4 .s5 (by simp [State.isAt, hx]) .status (fun _ => [irqAll])
    (v := [irqAll]) (fun _ _ => rfl) (.inl ha) hx
  rw [writeReg_irqAll] at h4
  obtain ⟨cfg, hc, h5⟩ := h4.readInto (P := (· ∈ x.chip.configReads)) .s5 Label.s5.succ rfl .config
    (fun v o => { o with cfg := v }) rfl fun y hy => hy.read_config
  have h5' := h5.micro_at { x with
      chip := x.chip.flagsCleared,
      seq := ⟨op, .s6a, { o with cfg := cfg, wasActive := bit cfg 1,
                                 wasListening := x.sh.listening }⟩ :: r,
      busLog := sends [0x00, 0x00] :: sends [0x27, 0x70] :: x.busLog } Label.s5.succ .s6a rfl
    (e := fun s => s.setLocals fun o =>
      { o with wasActive := bit o.cfg 1, wasListening := s.sh.listening })
    fun y hy => by
      rw [sh_of_kept hy.same]
      exact hy.setLocals fun o => { o with wasActive := bit o.cfg 1,
                                           wasListening := x.sh.listening }
  have h6a := h5'.micro_at { x with
      chip := x.chip.flagsCleared,
      seq := ⟨op, .s6b, { o with cfg := cfg, wasActive := bit cfg 1,
                                 wasListening := x.sh.listening }⟩ :: r,
      ce := false,
      busLog := .ce false :: sends [0x00, 0x00] :: sends [0x27, 0x70] :: x.busLog } .s6a .s6b rfl
    fun y hy => hy.setCe false
  have h6b := h6a.writeFrom .s6b .s6c rfl .config
    (fun s => [withoutBits (withBits s.locals.cfg pwrUp) primRx])
    (v := [withoutBits (withBits cfg pwrUp) primRx])
    (fun y hy => by rw [hy.locals_eq]; rfl) (.inl ha) rfl
  have h6c := coldStart_tracks h6b rfl
  have h7 := h6c.micro_at { x with
      chip := ({ x.chip.flagsCleared with
        config := ((cfg ||| 0x02) &&& 0xFE) &&& 0x7F } : Chip).loaded o.p ack,
      seq := ⟨op, .s8, { o with cfg := cfg, wasActive := bit cfg 1,
                                wasListening := x.sh.listening }⟩ :: r,
      ce := false, now := if bit cfg 1 then x.now else x.now + tColdstartTx,
      busLog := sends ((if ack then 0xA0 else 0xB0) :: o.p) ::
        sends [0x20, (cfg ||| 0x02) &&& 0xFE] :: .ce false :: sends [0x00, 0x00] ::
        sends [0x27, 0x70] :: x.busLog } .s7 .s8 rfl
    (e := fun s => if ack then s.wTxPayload s.locals.p else s.wTxPayloadNoack s.locals.p)
    fun y hy => by
      have e : y.locals.p = o.p := by rw [hy.locals_eq]; rfl
      rw [e]
      exact loadTx_tracks hy ack o.p
  have h8 := h7.micro_at { x.triggered cfg o.p ack with
      seq := ⟨op, Label.s8.succ, { o with cfg := cfg, wasActive := bit cfg 1,
                                          wasListening := x.sh.listening }⟩ :: r }
    .s8 Label.s8.succ rfl fun y hy => hy.setCe true
  obtain ⟨t0, ht, h9⟩ := h8.micro_open
    (P := fun t0 _ => (x.triggered cfg o.p ack).now ≤ t0) (fun t0 : Nat =>
      { x.triggered cfg o.p ack with
        seq := ⟨op, .s9a, { o with cfg := cfg, wasActive := bit cfg 1,
                                   wasListening := x.sh.listening, t0 := t0 }⟩ :: r })
    Label.s8.succ .s9a rfl (e := fun s => s.setLocals fun o => { o with t0 := s.now })
    fun y hy => ⟨y.now, hy.later, (hy.setLocals fun o => { o with t0 := y.now }).atLabel .s9a⟩
  exact ⟨cfg, t0, ⟨hc, ht⟩, h9⟩

section
variable {P : List Byte → Prop}

theorem adds_restorePipe0 (h : ∀ v : Addr, P [0x2A, v.b0, v.b1, v.b2, v.b3, v.b4]) :
    Adds P restorePipe0 := by
  refine Adds.comp (f := State.micro .s3 Label.s3.succ _) (g := State.micro Label.s3.succ .s4 _)
    (Adds.micro (fun s => ?_) _ _) (Adds.micro (fun s => ?_) _ _)
  · split
    · exact adds_id s
    · rename_i a _
      exact adds_wRegister (a := .rxAddrP0) (v := a.toList) (h _) s
  · split
    · exact adds_id s
    · exact adds_onShadow _ s

theorem adds_startListening (h0 : P [0x00, 0x00]) (h1 : ∀ b, P [0x20, b]) (h2 : P [0x27, 0x70])
    (h3 : ∀ v : Addr, P [0x2A, v.b0, v.b1, v.b2, v.b3, v.b4]) (h4 : P [0xE1]) (h5 : P [0xE2]) :
    Adds P startListeningProgram := fun s =>
  (adds_modify (l := .s1) (next := .s2) (a := .config) (g := fun v => withBits v (pwrUp ||| primRx))
    h0 h1 s).trans <|
  (adds_writeFrom (l := .s2) (next := .s3) (a := .status) (v := fun _ => [irqAll])
    (fun _ => h2) _).trans <| (adds_restorePipe0 h3 _).trans <|
  ((adds_setCe true).micro .s4 .s5 _).trans <|
  (adds_flushBoth (l := .s5) (next := .s6) h4 h5 _).trans ((adds_onShadow _).finish .s6 _)

theorem adds_restoreState (h0 : P [0x00, 0x00]) (h1 : ∀ b, P [0x20, b]) (h2 : P [0x27, 0x70])
    (h3 : ∀ v : Addr, P [0x2A, v.b0, v.b1, v.b2, v.b3, v.b4]) (h4 : P [0xE1]) (h5 : P [0xE2]) :
    Adds P restoreState := by
  intro s
  unfold restoreState
  split
  · exact adds_modify (l := .s11) (next := .s12) (a := .config)
      (g := fun v => withoutBits v pwrUp) h0 h1 s
  · split
    · exact (adds_startListening h0 h1 h2 h3 h4 h5).call _ _ _ s
    · exact adds_id.micro .s11 .s12 s

end

/-- The frames and the host's side play no part. -/
theorem listened_frame (v : Byte) (x : State) (q : List Frame) (g : HostSide) :
    ({ x with seq := q, host := g } : State).listened v =
      { x.listened v with seq := q, host := g } := by
  dsimp only [State.listened]
  cases hp : x.ownPipe0 with
  | none => rw [pipe0Restored_none, pipe0Restored_none] <;> exact hp
  | some a => rw [pipe0Restored_some, pipe0Restored_some] <;> exact hp

theorem listened_host (v : Byte) (x : State) : (x.listened v).host = x.host := by
  have e := congrArg State.host (listened_frame v x x.seq x.host)
  exact e

theorem restored_frame (b : Bool) (v : Byte) (x : State) (q : List Frame) (g : HostSide) :
    ({ x with seq := q, host := g } : State).restored b v =
      { x.restored b v with seq := q, host := g } := by
  unfold State.restored
  cases b
  · rfl
  · by_cases h : x.sh.listening = true
    · simp only [h, if_true, reduceCtorEq, if_false]
      exact listened_frame v x q g
    · simp [h]

theorem restored_host (b : Bool) (v : Byte) (x : State) : (x.restored b v).host = x.host := by
  have e := congrArg State.host (restored_frame b v x x.seq x.host)
  exact e

/-- transmit leaves the host's side as it is. -/
theorem transmits_host {s u : State} {target : Byte} {payload : List Byte} {ack ok : Bool}
    {log : List BusEvent} (h : s.Transmits target payload ack ok u log) : u.host = s.host := by
  rcases h with ⟨-, -, rfl⟩ | ⟨-, cfg, v, st, polls, earlier, -, -, -, -, -, -, -, rfl⟩
  · rfl
  · rw [restored_host]
    exact (congrArg State.host (addressed_cases (fullAddress target s.mask) ack s):)

theorem restored_seq (b : Bool) (v : Byte) (x : State) : (x.restored b v).seq = x.seq := by
  have e := congrArg State.seq (restored_frame b v x x.seq x.host)
  exact e

/-- S11, from the value its CONFIG read answers. -/
theorem restoreState_tracks {s x : State} (h : Tracks q s x) (ha : x.chip.Admitted) {op : Instr}
    {o : Locals} {r : List Frame} (hx : x.seq = ⟨op, .s11, o⟩ :: r)
    (hl : o.wasListening = x.sh.listening) :
    ∃ v ∈ x.chip.configReads, ∃ o', o'.st = o.st ∧
      Tracks q (restoreState s) { x.restored o.wasActive v with seq := ⟨op, .s12, o'⟩ :: r } := by
  have e : s.locals = o := by rw [h.locals_eq]; simp [State.locals, hx]
  have hs : x.isAt .s11 = true := by simp [State.isAt, hx]
  unfold restoreState State.restored
  rw [e, hl]
  cases hb : o.wasActive with
  | true =>
    simp only [Bool.not_true, Bool.false_eq_true, reduceCtorEq, if_false]
    by_cases hw : x.sh.listening = true
    · simp only [hw, if_true]
      rw [h.call_eq .s11 .s12 hs]
      obtain ⟨v, hv, s', f', e', h1⟩ := startListening_tracks (h.called .s12 .startListening)
        (by simpa using ha) (by rw [push_seq])
      rw [e']
      refine ⟨v, by simpa using hv, { o with got := .none }, rfl,
        (h1.give .none ?_).of_eq ?_⟩
      · simp [State.atLabel, hx]
      · have e1 : (x.atLabel .s12).push .startListening =
            { x with seq := ⟨.startListening, .s1, .fresh⟩ :: ⟨op, .s12, o⟩ :: r,
                     host := x.host } := by
          simp [State.atLabel, hx, State.push]
        rw [e1, listened_frame]
        simp [State.give, hx, State.atLabel, listened_host]
    · simp only [hw, Bool.false_eq_true, if_false]
      refine ⟨x.chip.config, ?_, o, rfl, (h.micro .s11 .s12 hs fun y hy => hy).of_eq ?_⟩
      · unfold Chip.configReads; split <;> simp
      · simp [State.atLabel, hx]
  | false =>
    simp only [Bool.not_false, if_true]
    obtain ⟨v, hv, h1⟩ := h.modify (P := (· ∈ x.chip.configReads)) .s11 .s12 hs .config
      (fun v => withoutBits v pwrUp) hx (fun y hy => hy.read_config) (fun _ _ => .inl ha)
    exact ⟨v, hv, { o with v := v }, rfl, h1⟩

theorem addressed_frame (a : Addr) (ack : Bool) (x : State) (q : List Frame) (g : HostSide) :
    ({ x with seq := q, host := g } : State).addressed a ack =
      { x.addressed a ack with seq := q, host := g } := by
  unfold State.addressed
  by_cases h1 : x.sh.txAddrCache = some a <;>
    by_cases h2 : ack = false ∨ x.sh.rxP0Cache = some a <;>
    simp [h1, h2]

/-- The program up to its return, for a payload that is not empty. -/
theorem transmit_tracks {s x : State} (h : Tracks q s x) (ha : x.chip.Admitted) {op : Instr}
    {o : Locals} {r : List Frame} (hx : x.seq = ⟨op, .s1, o⟩ :: r) (target : Byte)
    {payload : List Byte} (hp : payload ≠ []) (ack : Bool) :
    ∃ (cfg st v : Byte) (earlier : List Byte) (s' : State) (f' : Frame),
      let x0 := (x.addressed (fullAddress target x.mask) ack).triggered cfg
        (clipPayload payload) ack
      let x1 := x0.polled (earlier.length + 1) st
      cfg ∈ x.chip.configReads ∧ v ∈ x1.chip.configReads ∧
      (q → st = x0.chip.status) ∧
      (∃ rest, statusesOf [0xFF] s'.busLog = st :: (earlier ++ rest)) ∧
      (∀ b ∈ earlier, pollEnds b = false) ∧
      transmitProgram target payload ack s = s'.give (.bool (statusTxDs st)) ∧
      Tracks q s' { x1.restored (bit cfg 1) v with seq := f' :: r } := by
  have h1 := h.micro_at { x with
      seq := ⟨op, .s2, { o with p := clipPayload payload,
                                fa := fullAddress target x.mask }⟩ :: r } .s1 .s2
    (by simp [State.isAt, hx])
    (e := fun s => s.setLocals fun o =>
      { o with p := clipPayload payload, fa := fullAddress target s.mask })
    (fun y hy => by
      rw [mask_of_kept hy.same]
      exact hy.setLocals fun o =>
        { o with p := clipPayload payload, fa := fullAddress target x.mask })
    (by simp [State.setLocals, State.atLabel, hx])
  have h2 := addressed_tracks h1 ha ack rfl
  rw [addressed_seq] at h2
  dsimp only at h2
  obtain ⟨cfg, t0, ⟨hc, ht⟩, h3⟩ := triggered_tracks h2 (addressed_admitted _ _ ha) ack rfl
  obtain ⟨s8, hs8, h3⟩ : ∃ s8, s8 = _ ∧ Tracks q s8 _ := ⟨_, rfl, h3⟩
  obtain ⟨st, earlier, hsil, hm, hb, hw, h4⟩ := pollLoop_tracks (pollFuel s8) h3 rfl
  dsimp only at hw h4 ht hm
  have hn := h4.later
  have h5 := h4.later_now (n := (((x.addressed (fullAddress target x.mask) ack).triggered cfg
    (clipPayload payload) ack).polled (earlier.length + 1) st).now) (by
      simp only [State.polled]
      split
      · exact hn
      · rename_i hb
        rcases hw with hw | hw
        · exact absurd hw (by simpa [pollEnds, statusTxDs, statusMaxRt] using hb)
        · exact (Nat.add_le_add_right ht _).trans hw)
  have h10 := h5.micro_at { ((x.addressed (fullAddress target x.mask) ack).triggered cfg
      (clipPayload payload) ack).polled (earlier.length + 1) st with
        seq := ⟨op, .s11, { o with
          p := clipPayload payload, fa := fullAddress target x.mask, cfg := cfg,
          wasActive := bit cfg 1,
          wasListening := (x.addressed (fullAddress target x.mask) ack).sh.listening,
          t0 := t0, st := st }⟩ :: r }
    .s10 .s11 rfl fun y hy => hy.setCe false
  obtain ⟨v, hv, o', hst, h11⟩ := restoreState_tracks h10
    (by
      refine loaded_admitted (clipPayload payload) ack
        (c := ({ (x.addressed (fullAddress target x.mask) ack).chip.flagsCleared with
          config := ((cfg ||| 0x02) &&& 0xFE) &&& 0x7F } : Chip)) ?_
      exact addressed_admitted _ _ ha) rfl rfl
  have hm' := (statusesOf_addsTo ((((adds_setCe false).micro .s10 .s11) _).trans <|
    (adds_restoreState (P := (· ≠ [0xFF])) (by decide) (by simp) (by decide) (by simp)
      (by decide) (by decide) _).trans (adds_interlude _))).trans hm
  have h12 := h11.interlude
  have hl := (congrArg Locals.st h12.locals_eq).trans
    ((show State.locals { seq := ⟨op, .s12, o'⟩ :: r, .. } = o' from rfl).symm ▸ hst)
  have hq := restored_frame (bit cfg 1) v
    (((x.addressed (fullAddress target x.mask) ack).triggered cfg (clipPayload payload)
      ack).polled (earlier.length + 1) st)
    (⟨op, .s11, { o with
          p := clipPayload payload, fa := fullAddress target x.mask, cfg := cfg,
          wasActive := bit cfg 1,
          wasListening := (x.addressed (fullAddress target x.mask) ack).sh.listening,
          t0 := t0, st := st }⟩ :: r)
    (((x.addressed (fullAddress target x.mask) ack).triggered cfg (clipPayload payload)
      ack).polled (earlier.length + 1) st).host
  dsimp only at hq h11 h12
  refine ⟨cfg, st, v, earlier, (restoreState _).interlude, ⟨op, .s12, o'⟩, by simpa using hc, hv,
    hsil, ⟨_, hm'⟩, hb, ?_, h12.of_eq (by rw [hq]; simp only [restored_host])⟩
  subst hs8
  unfold transmitProgram
  rw [if_neg (by simpa using hp)]
  exact (h11.ret_eq .s12 rfl _).trans
    (congrArg (fun a => State.give (.bool (statusTxDs a)) _) hl)

/-- transmit as it returns to its caller, from a state `y` whose frames and host's side are the
caller's (44_transmit.md R250). -/
theorem transmit_returns {s y : State} {op : Instr} {o : Locals} {r : List Frame} {g : HostSide}
    (h : Tracks q s { y with seq := ⟨op, .s1, o⟩ :: r, host := g }) (hq : y.Silent → q)
    (ha : y.chip.Admitted) (target : Byte) (payload : List Byte) (ack : Bool) :
    ∃ (ok : Bool) (u s' : State) (f' : Frame),
      transmitProgram target payload ack s = s'.give (.bool ok) ∧
      Tracks q s' { u with seq := f' :: r, host := g } ∧
      u.seq = y.seq ∧ u.host = y.host ∧ y.Transmits target payload ack ok u s'.busLog := by
  by_cases hp : payload = []
  · subst hp
    refine ⟨false, y, s, _, ?_, h, rfl, rfl, .inl ⟨rfl, rfl, rfl⟩⟩
    exact here_eq h.running ((h.isAt_eq .s1).trans rfl) _
  · obtain ⟨cfg, st, v, earlier, s', f', hcfg, hv, hsil, ⟨rest, hla⟩, hb, hprog, ht⟩ :=
      transmit_tracks h ha (op := op) (o := o) (r := r) rfl target hp ack
    have e1 := addressed_frame (fullAddress target y.mask) ack y (⟨op, .s1, o⟩ :: r) g
    have em : ({ y with seq := ⟨op, .s1, o⟩ :: r, host := g } : State).mask = y.mask := rfl
    rw [em, e1] at hv hsil ht
    obtain ⟨u, hu⟩ : ∃ u, u = (((y.addressed (fullAddress target y.mask) ack).triggered cfg
        (clipPayload payload) ack).polled (earlier.length + 1) st).restored (bit cfg 1) v :=
      ⟨_, rfl⟩
    have e2 := restored_frame (bit cfg 1) v (((y.addressed (fullAddress target y.mask)
      ack).triggered cfg (clipPayload payload) ack).polled (earlier.length + 1) st)
      (⟨op, .s1, o⟩ :: r) g
    have e3 := congrArg State.host (addressed_frame (fullAddress target y.mask) ack y y.seq y.host)
    have e4 := congrArg State.seq (addressed_frame (fullAddress target y.mask) ack y y.seq y.host)
    have e5 := restored_seq (bit cfg 1) v (((y.addressed (fullAddress target y.mask)
      ack).triggered cfg (clipPayload payload) ack).polled (earlier.length + 1) st)
    have e6 := restored_host (bit cfg 1) v (((y.addressed (fullAddress target y.mask)
      ack).triggered cfg (clipPayload payload) ack).polled (earlier.length + 1) st)
    refine ⟨bit st 5, u, s', f', hprog, ht.of_eq ?_, ?_, ?_, .inr ⟨hp, cfg, v, st,
      earlier.length + 1, earlier, hcfg, hv, fun h => hsil (hq h), rfl, ?_, rfl, ?_, hu⟩⟩
    · rw [hu]
      exact congrArg (fun z : State => ({ z with seq := f' :: r } : State)) e2
    · rw [hu, e5]
      exact e4
    · rw [hu, e6]
      exact e3
    · rw [hla]
      simp
    · intro b m
      simpa [pollEnds, statusTxDs, statusMaxRt] using hb b m

end Sys2Proof.Machine
end

