-- ==== Sys2Proof/Laws/Initialization.lean ====
section
/-! SUPPORT. What the two halves of the initialization leave (70_reset_and_hazards.md R352), said once
each. -/

namespace Sys2Proof.Machine

variable {q : Prop}

/-! ## Bits of CONFIG along the way -/

theorem config_powered_down (v : Byte) : bit (withoutBits v pwrUp &&& 0x7F) 1 = false := by
  revert v; decide

theorem mem_configReads {c : Chip} {w : Byte} (h : w ∈ c.configReads) :
    w = c.config ∨ w = c.config ||| 0x08 := by
  unfold Chip.configReads at h
  split at h <;> simp_all

/-- The CONFIG value that init writes with the CRC code, from the values its two reads answer. -/
theorem config_with_crc (c v w : Byte) (b : Bool) (hv : v = c ∨ v = c ||| 0x08)
    (hw : w = withoutBits v pwrUp &&& 0x7F ∨ w = (withoutBits v pwrUp &&& 0x7F) ||| 0x08) :
    withField w crcMask (if b then 0x0C else 0x08) &&& 0x7F =
      (c &&& 0x71) ||| (if b then 0x0C else 0x08) := by
  have h : ∀ (c : Byte) (b : Bool),
      (withField (withoutBits c pwrUp &&& 0x7F) crcMask (if b then 0x0C else 0x08) &&& 0x7F =
        (c &&& 0x71) ||| (if b then 0x0C else 0x08)) ∧
      (withField ((withoutBits c pwrUp &&& 0x7F) ||| 0x08) crcMask
          (if b then 0x0C else 0x08) &&& 0x7F = (c &&& 0x71) ||| (if b then 0x0C else 0x08)) ∧
      (c ||| 0x08) &&& 0x71 = c &&& 0x71 := by
    decide
  rcases hv with rfl | rfl <;> rcases hw with rfl | rfl
  · exact (h v b).1
  · exact (h v b).2.1
  · exact (h _ b).1.trans (by rw [(h c b).2.2])
  · exact (h _ b).2.1.trans (by rw [(h c b).2.2])

/-- What holds of such a value: powered down, EN_CRC set, no reserved bit. -/
theorem config_settled (c : Byte) (b : Bool) :
    let f := (c &&& 0x71) ||| (if b then 0x0C else 0x08)
    bit f 1 = false ∧ bit f 3 = true ∧ withoutBits f pwrUp = f ∧ f &&& 0x7F = f := by
  revert c b; decide

theorem defaultCrc_code (p : Params) :
    (Params.defaultCrc p).code = if p.defaultCrc16 then 0x0C else 0x08 := by
  unfold Params.defaultCrc
  split <;> rfl

theorem channel_unclipped (c : BitVec 7) : (c.setWidth 8 &&& 0x7F : Byte) = c.setWidth 8 := by
  revert c; decide

/-! ## S1 to S9 -/

/-- The RF_SETUP value after S6. -/
def State.levelSet (s : State) : Byte :=
  withField s.chip.rfSetup paMask s.params.defaultPa.code &&& rfSetupMask s.params.variant

/-- The state after S9, from the values `v` and `w` that the two CONFIG reads answer. -/
def State.settled (mask : BitVec 32) (v w : Byte) (s : State) : State :=
  let crc : Byte := if s.params.defaultCrc16 then 0x0C else 0x08
  { s with
    chip := { s.chip with
      config := withField w crcMask crc &&& 0x7F,
      setupRetr := retryByte s.params.defaultArd s.params.defaultArc,
      rfSetup := withField s.levelSet (drMask s.params.variant) s.params.defaultDr.code &&&
        rfSetupMask s.params.variant,
      rfCh := s.params.defaultCh.setWidth 8, plosCnt := 0 },
    ce := false, now := s.now + tPor,
    sh := { s.sh with
      networkMask := some mask,
      settings := ⟨Params.defaultCrc s.params, s.params.defaultDr, s.params.defaultPa,
        s.params.defaultCh, s.params.defaultArd, s.params.defaultArc,
        s.sh.settings.ackEnabled⟩ },
    busLog := [sends [0x25, s.params.defaultCh.setWidth 8], sends [0x20, withField w crcMask crc],
      sends [0x00, 0x00],
      sends [0x26, withField s.levelSet (drMask s.params.variant) s.params.defaultDr.code],
      sends [0x06, 0x00],
      sends [0x26, withField s.chip.rfSetup paMask s.params.defaultPa.code],
      sends [0x06, 0x00], sends [0x24, retryByte s.params.defaultArd s.params.defaultArc],
      sends [0x20, withoutBits v pwrUp], sends [0x00, 0x00], .ce false] ++ s.busLog }

/-- S1 to S5: power-down, the mask, the wait and the retry setting. -/
theorem initStart_tracks {s x : State} (h : Tracks q s x) (mask : BitVec 32) {op : Instr}
    {o : Locals} {r : List Frame} (hx : x.seq = ⟨op, .s1, o⟩ :: r) :
    ∃ v ∈ x.chip.configReads,
      Tracks q
        (let s := s.setCeStep .s1 .s2 false
         let s := s.clearBits .s2 .s3 .config pwrUp
         let s := s.micro .s3 .s4 (State.onShadow fun h => { h with networkMask := some mask })
         let s := s.delay .s4 .s5 tPor
         let s := s.writeFrom .s5 Label.s5.succ .setupRetr fun s =>
           [retryByte s.params.defaultArd s.params.defaultArc]
         s.micro Label.s5.succ .s6 fun s => s.onSettings fun g =>
           { g with retryDelay := s.params.defaultArd, retryCount := s.params.defaultArc })
        { x with
          seq := ⟨op, .s6, { o with v := v }⟩ :: r,
          chip := { x.chip with
            config := withoutBits v pwrUp &&& 0x7F,
            setupRetr := retryByte x.params.defaultArd x.params.defaultArc },
          ce := false, now := x.now + tPor,
          sh := { x.sh with
            networkMask := some mask,
            settings := { x.sh.settings with
              retryDelay := x.params.defaultArd, retryCount := x.params.defaultArc } },
          busLog := sends [0x24, retryByte x.params.defaultArd x.params.defaultArc] ::
            sends [0x20, withoutBits v pwrUp] :: sends [0x00, 0x00] :: .ce false :: x.busLog } := by
  have h1 := h.micro_at { x with seq := ⟨op, .s2, o⟩ :: r, ce := false,
                                  busLog := .ce false :: x.busLog } .s1 .s2
    (by simp [State.isAt, hx]) (fun y hy => hy.setCe false) (by simp [State.atLabel, hx])
  obtain ⟨v, hv, h2⟩ := h1.modify (P := (· ∈ x.chip.configReads)) .s2 .s3 rfl .config
    (fun v => withoutBits v pwrUp) rfl (fun y hy => by have e := hy.read_config; exact e)
    (fun w _ => .inr (config_powered_down w))
  have h3 := h2.micro .s3 .s4 rfl
    (f := State.onShadow fun h => { h with networkMask := some mask }) fun y hy => hy.onShadow _
  have h4 := h3.delay .s4 .s5 rfl tPor
  have h5 := h4.writeFrom .s5 Label.s5.succ rfl .setupRetr
    (fun s => [retryByte s.params.defaultArd s.params.defaultArc])
    (v := [retryByte x.params.defaultArd x.params.defaultArc])
    (fun y hy => by rw [hy.params_eq]; rfl) (.inr (config_powered_down v)) rfl
  have h6 := h5.micro Label.s5.succ .s6 rfl
    (f := fun s => s.onSettings fun g =>
      { g with retryDelay := s.params.defaultArd, retryCount := s.params.defaultArc })
    fun y hy => by rw [hy.params_eq]; exact hy.onSettings _
  exact ⟨v, hv, h6⟩

/-- S6 and S7: a field of RF_SETUP and its shadow value. -/
theorem rfField_tracks {s x : State} (h : Tracks q s x) (hp : x.chip.pwrUp = false) {op : Instr}
    {o : Locals} {r : List Frame} (l next : Label) (hx : x.seq = ⟨op, l, o⟩ :: r)
    (m c : Params → Byte) (g : Params → Settings → Settings) :
    Tracks q
      ((s.setField l l.succ.succ .rfSetup (m s.params) (c s.params)).micro l.succ.succ next
        fun s => s.onSettings (g s.params))
      { x with
        seq := ⟨op, next, { o with v := x.chip.rfSetup }⟩ :: r,
        chip := { x.chip with
          rfSetup := withField x.chip.rfSetup (m x.params) (c x.params) &&&
            rfSetupMask x.params.variant },
        sh := { x.sh with settings := g x.params x.sh.settings },
        busLog := sends [0x26, withField x.chip.rfSetup (m x.params) (c x.params)] ::
          sends [0x06, 0x00] :: x.busLog } := by
  rw [h.params_eq]
  obtain ⟨w, hw, h1⟩ := h.modify (P := (· = x.chip.rfSetup)) l l.succ.succ
    (by simp [State.isAt, hx]) .rfSetup (fun v => withField v (m x.params) (c x.params)) hx
    (fun y hy => hy.read_rfSetup) (fun _ _ => .inr hp)
  rw [hw] at h1
  have h2 := h1.micro l.succ.succ next (by simp [State.isAt])
    (f := fun s => s.onSettings (g s.params))
    fun y hy => by rw [hy.params_eq]; exact hy.onSettings _
  exact h2

/-- S8: the CRC field and its shadow value. -/
theorem crcField_tracks {s x : State} (h : Tracks q s x) {op : Instr} {o : Locals}
    {r : List Frame} (hx : x.seq = ⟨op, .s8, o⟩ :: r)
    (hc : ∀ w ∈ x.chip.configReads,
      bit (withField w crcMask (if x.params.defaultCrc16 then 0x0C else 0x08) &&& 0x7F) 1 = false) :
    ∃ w ∈ x.chip.configReads,
      Tracks q
        ((s.setField .s8 Label.s8.succ.succ .config crcMask (Params.defaultCrc s.params).code).micro
          Label.s8.succ.succ .s9
          fun s => s.onSettings fun g => { g with crc := Params.defaultCrc s.params })
        (let v := withField w crcMask (if x.params.defaultCrc16 then 0x0C else 0x08)
         { x with
          seq := ⟨op, .s9, { o with v := w }⟩ :: r,
          chip := { x.chip with config := v &&& 0x7F },
          sh := { x.sh with
            settings := { x.sh.settings with crc := Params.defaultCrc x.params } },
          busLog := sends [0x20, v] :: sends [0x00, 0x00] :: x.busLog }) := by
  rw [h.params_eq, defaultCrc_code]
  obtain ⟨w, hw, h1⟩ := h.modify (P := (· ∈ x.chip.configReads)) .s8 Label.s8.succ.succ
    (by simp [State.isAt, hx]) .config
    (fun v => withField v crcMask (if x.params.defaultCrc16 then 0x0C else 0x08)) hx
    (fun y hy => hy.read_config) (fun w hw => .inr (hc w hw))
  have h2 := h1.micro Label.s8.succ.succ .s9 rfl
    (f := fun s => s.onSettings fun g => { g with crc := Params.defaultCrc s.params })
    fun y hy => by rw [hy.params_eq]; exact hy.onSettings _
  exact ⟨w, hw, h2⟩

/-- S9: the channel and its shadow value. -/
theorem channel_tracks {s x : State} (h : Tracks q s x) (hp : x.chip.pwrUp = false) {op : Instr}
    {o : Locals} {r : List Frame} (hx : x.seq = ⟨op, .s9, o⟩ :: r) :
    Tracks q
      ((s.writeFrom .s9 Label.s9.succ .rfCh fun s => [s.params.defaultCh.setWidth 8]).micro
        Label.s9.succ .s10 fun s => s.onSettings fun g => { g with channel := s.params.defaultCh })
      { x with
        seq := ⟨op, .s10, o⟩ :: r,
        chip := { x.chip with rfCh := x.params.defaultCh.setWidth 8, plosCnt := 0 },
        sh := { x.sh with settings := { x.sh.settings with channel := x.params.defaultCh } },
        busLog := sends [0x25, x.params.defaultCh.setWidth 8] :: x.busLog } := by
  have h1 := h.writeFrom .s9 Label.s9.succ (by simp [State.isAt, hx]) .rfCh
    (fun s => [s.params.defaultCh.setWidth 8]) (v := [x.params.defaultCh.setWidth 8])
    (fun y hy => by rw [hy.params_eq]) (.inr hp) hx
  simp only [Chip.writeReg, List.headD_cons, channel_unclipped] at h1
  have h2 := h1.micro Label.s9.succ .s10 rfl
    (f := fun s => s.onSettings fun g => { g with channel := s.params.defaultCh })
    fun y hy => by rw [hy.params_eq]; exact hy.onSettings _
  exact h2

/-- S1 to S9. -/
theorem initSettings_tracks {s x : State} (h : Tracks q s x) (mask : BitVec 32) {op : Instr}
    {o : Locals} {r : List Frame} (hx : x.seq = ⟨op, .s1, o⟩ :: r) :
    ∃ v ∈ x.chip.configReads,
      ∃ w ∈ ({ x.chip with config := withoutBits v pwrUp &&& 0x7F } : Chip).configReads, ∃ o',
        Tracks q (initSettings mask s)
          { x.settled mask v w with seq := ⟨op, .s10, o'⟩ :: r } := by
  obtain ⟨v, hv, h5⟩ := initStart_tracks h mask hx
  have h6 := rfField_tracks h5 (config_powered_down v) .s6 .s7 rfl (fun _ => paMask)
    (fun p => p.defaultPa.code) fun p g => { g with paLevel := p.defaultPa }
  have h7 := rfField_tracks h6 (config_powered_down v) .s7 .s8 rfl (fun p => drMask p.variant)
    (fun p => p.defaultDr.code) fun p g => { g with dataRate := p.defaultDr }
  obtain ⟨w, hw, h8⟩ := crcField_tracks h7 rfl fun w hw => by
    have hc := config_with_crc x.chip.config v w x.params.defaultCrc16 (mem_configReads hv)
      (mem_configReads hw)
    exact (congrArg (bit · 1) hc).trans (config_settled x.chip.config x.params.defaultCrc16).1
  have h9 := channel_tracks h8 (by
    have hc := config_with_crc x.chip.config v w x.params.defaultCrc16 (mem_configReads hv)
      (mem_configReads hw)
    exact (congrArg (bit · 1) hc).trans (config_settled x.chip.config x.params.defaultCrc16).1) rfl
  exact ⟨v, hv, w, hw, _, h9⟩

/-! ## S10 to S18 -/

/-- The features after ACTIVATE (40_bus_commands.md R150). -/
def State.opened (s : State) : Bool :=
  if s.params.variant = .nRF24L01 then !s.chip.featuresUnlocked else s.chip.featuresUnlocked

/-- The chip after S14, before its flags and FIFOs are cleared. -/
def State.extended (s : State) : Chip :=
  { s.chip with
    featuresUnlocked := s.opened, feature := if s.opened then 0x07 else s.chip.feature,
    enAa := 0x3F, dynpd := if s.opened then 0x3F else s.chip.dynpd, setupAw := 0x03 }

/-- S10 to S14: the features and the pipes' enables. -/
theorem initPipes_tracks {s x : State} (h : Tracks q s x) (hp : x.chip.pwrUp = false) {op : Instr}
    {o : Locals} {r : List Frame} (hx : x.seq = ⟨op, .s10, o⟩ :: r) :
    Tracks q
      (let s := s.micro .s10 .s11 (State.activate 0x73)
       let s := s.writeFrom .s11 .s12 .feature fun _ => [0x07]
       let s := s.writeFrom .s12 .s13 .enAa fun _ => [0x3F]
       let s := s.writeFrom .s13 .s14 .dynpd fun _ => [0x3F]
       s.writeFrom .s14 .s15 .setupAw fun _ => [0x03])
      { x with
        seq := ⟨op, .s15, o⟩ :: r, chip := x.extended,
        busLog := sends [0x23, 0x03] :: sends [0x3C, 0x3F] :: sends [0x21, 0x3F] ::
          sends [0x3D, 0x07] :: sends [0x50, 0x73] :: x.busLog } := by
  have h10 := h.micro_at { x with
      seq := ⟨op, .s11, o⟩ :: r,
      chip := { x.chip with featuresUnlocked := x.opened },
      busLog := sends [0x50, 0x73] :: x.busLog } .s10 .s11 (by simp [State.isAt, hx])
    (fun y hy => hy.activate 0x73 (d := { x.chip with featuresUnlocked := x.opened })
      (by unfold State.opened
          by_cases hv : x.params.variant = .nRF24L01
          · rw [if_pos hv, if_pos ⟨rfl, hv⟩]
          · rw [if_neg hv, if_neg fun h => hv h.2]) (.inr hp))
    (by simp [State.atLabel, hx])
  have h11 := (h10.writeFrom .s11 .s12 rfl .feature (fun _ => [0x07]) (v := [0x07])
      (fun _ _ => rfl)
      (.inr (by cases ho : x.opened <;> simpa [Chip.writeReg, ho, Chip.pwrUp] using hp)) rfl).of_eq
    (x' := { x with
      seq := ⟨op, .s12, o⟩ :: r,
      chip := { x.chip with featuresUnlocked := x.opened,
                            feature := if x.opened then 0x07 else x.chip.feature },
      busLog := sends [0x3D, 0x07] :: sends [0x50, 0x73] :: x.busLog })
    (by cases x.opened <;> simp [Chip.writeReg] <;> rfl)
  have h12 := h11.writeFrom .s12 .s13 rfl .enAa (fun _ => [0x3F]) (v := [0x3F]) (fun _ _ => rfl)
    (.inr hp) rfl
  have h13 := (h12.writeFrom .s13 .s14 rfl .dynpd (fun _ => [0x3F]) (v := [0x3F]) (fun _ _ => rfl)
      (.inr (by cases ho : x.opened <;> simpa [Chip.writeReg, ho, Chip.pwrUp] using hp)) rfl).of_eq
    (x' := { x with
      seq := ⟨op, .s14, o⟩ :: r,
      chip := { x.chip with featuresUnlocked := x.opened,
                            feature := if x.opened then 0x07 else x.chip.feature, enAa := 0x3F,
                            dynpd := if x.opened then 0x3F else x.chip.dynpd },
      busLog := sends [0x3C, 0x3F] :: sends [0x21, 0x3F] :: sends [0x3D, 0x07] ::
        sends [0x50, 0x73] :: x.busLog })
    (by cases x.opened <;> simp [Chip.writeReg] <;> exact ⟨rfl, rfl⟩)
  exact h13.writeFrom .s14 .s15 rfl .setupAw (fun _ => [0x03]) (v := [0x03]) (fun _ _ => rfl)
    (.inr hp) rfl

/-- S10 to S17, before the flush, from a powered-down chip with EN_CRC set. -/
theorem initCleared_tracks {s x : State} (h : Tracks q s x) {op : Instr} {o : Locals}
    {r : List Frame} (hx : x.seq = ⟨op, .s10, o⟩ :: r) (hp : bit x.chip.config 1 = false)
    (hc : bit x.chip.config 3 = true) (hw : withoutBits x.chip.config pwrUp = x.chip.config)
    (hr : x.chip.config &&& 0x7F = x.chip.config) :
    ∃ o',
      Tracks q
        (let s := s.micro .s10 .s11 (State.activate 0x73)
         let s := s.writeFrom .s11 .s12 .feature fun _ => [0x07]
         let s := s.writeFrom .s12 .s13 .enAa fun _ => [0x3F]
         let s := s.writeFrom .s13 .s14 .dynpd fun _ => [0x3F]
         let s := s.writeFrom .s14 .s15 .setupAw fun _ => [0x03]
         let s := s.clearIrq .s15 .s16 irqAll
         let s := s.clearBits .s16 .s17 .config pwrUp
         s.micro .s17 .s18 (State.onSettings fun g => { g with ackEnabled := true }))
        { x with
          seq := ⟨op, .s18, o'⟩ :: r, chip := x.extended.flagsCleared,
          sh := { x.sh with settings := { x.sh.settings with ackEnabled := true } },
          busLog := [sends [0x20, x.chip.config], sends [0x00, 0x00],
            sends [0x27, 0x70], sends [0x23, 0x03], sends [0x3C, 0x3F], sends [0x21, 0x3F],
            sends [0x3D, 0x07], sends [0x50, 0x73]] ++ x.busLog } := by
  have h14 := initPipes_tracks h hp hx
  have h15 := h14.writeFrom .s15 .s16 rfl .status (fun _ => [irqAll]) (v := [irqAll])
    (fun _ _ => rfl) (.inr (by rw [writeReg_irqAll]; exact hp)) rfl
  rw [writeReg_irqAll] at h15
  have hread : ∀ y : State, Tracks q y { x with
      chip := x.extended.flagsCleared, seq := ⟨op, .s16, o⟩ :: r,
      busLog := sends [0x27, 0x70] :: sends [0x23, 0x03] :: sends [0x3C, 0x3F] ::
        sends [0x21, 0x3F] :: sends [0x3D, 0x07] :: sends [0x50, 0x73] :: x.busLog } →
      (y.rRegister .config).busIn.headD 0 = x.chip.config := fun y hy => by
    have e := hy.read_config
    have hf : x.extended.flagsCleared.crcForced = false := by
      have e3 : x.extended.flagsCleared.enCrc = true := hc
      simp [Chip.crcForced, e3]
    unfold Chip.configReads at e
    dsimp only at e
    rw [hf, if_neg (by simp), List.mem_singleton] at e
    exact e
  obtain ⟨w, hw', h16⟩ := h15.modify (P := (· = x.chip.config)) .s16 .s17 rfl .config
    (fun v => withoutBits v pwrUp) rfl hread (fun w hw' => .inr (config_powered_down w))
  rw [hw'] at h16
  have h17 := h16.micro .s17 .s18 rfl (f := State.onSettings fun g => { g with ackEnabled := true })
    fun y hy => hy.onSettings _
  refine ⟨{ o with v := x.chip.config }, h17.of_eq ?_⟩
  simp only [State.atLabel, State.onSettings, State.onShadow, Chip.writeReg, List.headD_cons, hw,
    hr]
  have e : ({ x.extended.flagsCleared with config := x.chip.config } : Chip) =
      x.extended.flagsCleared := rfl
  rw [e]
  rfl

/-- S10 to S18. -/
theorem initFeatures_tracks {s x : State} (h : Tracks q s x) {op : Instr} {o : Locals}
    {r : List Frame} (hx : x.seq = ⟨op, .s10, o⟩ :: r) (hp : bit x.chip.config 1 = false)
    (hc : bit x.chip.config 3 = true) (hw : withoutBits x.chip.config pwrUp = x.chip.config)
    (hr : x.chip.config &&& 0x7F = x.chip.config) :
    ∃ o',
      Tracks q (initFeatures s)
        { x with
          seq := ⟨op, .s19, o'⟩ :: r, chip := x.extended.flagsCleared.flushed,
          sh := { x.sh with settings := { x.sh.settings with ackEnabled := true } },
          busLog := [sends [0xE1], sends [0xE2], sends [0x20, x.chip.config], sends [0x00, 0x00],
            sends [0x27, 0x70], sends [0x23, 0x03], sends [0x3C, 0x3F], sends [0x21, 0x3F],
            sends [0x3D, 0x07], sends [0x50, 0x73]] ++ x.busLog } := by
  obtain ⟨o', h17⟩ := initCleared_tracks h hx hp hc hw hr
  exact ⟨o', h17.flushBoth .s18 .s19 rfl rfl⟩

end Sys2Proof.Machine
end

