-- ==== Sys2Proof/Laws/Asleep.lean ====
section
/-! SUPPORT. What holds of a chip that is powered down, in every environment that resets nothing: no
radio step is enabled but TxAbandon (41_radio_core.md R174, R184, R190), so what a program leaves of the
flags, the counters and the FIFOs stays. -/

namespace Sys2Proof.Machine

/-! ## The environment -/

theorem applyMove_asleep (m : EnvMove) {s : State} (hm : isReset m = false)
    (h : s.chip.pwrUp = false) :
    (applyMove m s).chip = s.chip ∨
      (applyMove m s).chip = { s.chip with txActive := false } := by
  cases m with
  | clock d => exact .inl rfl
  | txAttempt o =>
    left
    simp [applyMove, State.txAttempt, attemptDue_asleep h]
  | txAbandon =>
    simp only [applyMove, State.txAbandon]
    split
    · exact .inr rfl
    · exact .inl rfl
  | receive k n =>
    left
    simp [applyMove, State.receive, State.chipMode, h]
  | chipReset => simp [isReset] at hm
  | sequencerReset c => simp [isReset] at hm

/-- What the environment can do to a powered-down chip: end a transmit cycle. -/
theorem interlude_asleep {s : State} (hr : s.NoResets) (h : s.chip.pwrUp = false) :
    s.interlude.chip = s.chip ∨ s.interlude.chip = { s.chip with txActive := false } := by
  have moves (ms : List EnvMove) (hms : ∀ m ∈ ms, isReset m = false) (s : State)
      (h : s.chip.pwrUp = false) :
      (applyMoves ms s).chip = s.chip ∨
        (applyMoves ms s).chip = { s.chip with txActive := false } := by
    induction ms generalizing s with
    | nil => exact .inl rfl
    | cons m ms ih =>
      unfold applyMoves
      split
      · exact .inl rfl
      · have hi := ih (fun x hx => hms x (List.mem_cons_of_mem _ hx)) (applyMove m s)
        rcases applyMove_asleep m (hms m (List.mem_cons_self ..)) h with e | e <;>
          rcases hi (by rw [e]; exact h) with e' | e' <;> rw [e', e] <;> simp
  unfold State.interlude
  split
  · rename_i ms rest he
    exact moves ms (fun m hm => hr ms (by simp [he]) m hm) { s with env := rest } h
  · left
    simp [State.afterScript, attemptDue_asleep h]

/-- The flags of `c` that are set are set in `d`. -/
def Chip.FlagsIn (c d : Chip) : Prop :=
  (c.rxDr = true → d.rxDr = true) ∧ (c.txDs = true → d.txDs = true) ∧
    (c.maxRt = true → d.maxRt = true)

theorem Chip.FlagsIn.refl (c : Chip) : c.FlagsIn c := ⟨id, id, id⟩

theorem Chip.FlagsIn.trans {c d e : Chip} (h : c.FlagsIn d) (k : d.FlagsIn e) : c.FlagsIn e :=
  ⟨k.1 ∘ h.1, k.2.1 ∘ h.2.1, k.2.2 ∘ h.2.2⟩

theorem attempt_flags (o : AttemptOutcome) (c : Chip) : c.FlagsIn (c.attempt o) := by
  have h1 : c.FlagsIn c.startCycle := by
    unfold Chip.startCycle; split <;> exact ⟨id, id, id⟩
  have h2 (q : Option (List Byte)) (d : Chip) : d.FlagsIn (d.success q) := by
    cases q <;> simp [Chip.FlagsIn, Chip.success, Chip.pushRx]
  unfold Chip.attempt
  dsimp only
  split
  · exact h1
  · split
    · exact h1.trans (h2 _ _)
    · split
      · exact h1.trans (h2 _ _)
      · split
        · exact h1
        · exact h1.trans (by simp [Chip.FlagsIn, Chip.exhausted])

theorem accept_flags (m : AckMatch) (p : Fin 6) (k : Packet) (c : Chip) :
    c.FlagsIn (c.accept m p k) := by
  have h1 (d : Chip) : d.FlagsIn (d.sendAck m p) := by
    unfold Chip.sendAck
    split
    · exact .refl d
    · cases m <;> simp only <;> split <;> simp [Chip.FlagsIn]
  unfold Chip.accept
  split
  · exact .refl c
  · have h2 : c.FlagsIn (if k.dup then c else c.pushRx p k.data) := by
      split <;> simp [Chip.FlagsIn, Chip.pushRx]
    refine h2.trans ?_
    dsimp only
    generalize (if k.dup then c else c.pushRx p k.data) = d
    split
    · exact h1 d
    · exact .refl d

/-- No radio step clears a flag (41_radio_core.md R197). -/
theorem applyMove_flags (m : EnvMove) {s : State} (hm : isReset m = false) :
    s.chip.FlagsIn (applyMove m s).chip := by
  cases m with
  | clock d => exact .refl _
  | txAttempt o =>
    simp only [applyMove, State.txAttempt]
    split
    · exact .refl _
    · split
      · exact .refl _
      · exact attempt_flags o _
  | txAbandon =>
    simp only [applyMove, State.txAbandon]
    split <;> exact ⟨id, id, id⟩
  | receive k n =>
    simp only [applyMove, State.receive]
    repeat' split
    all_goals first
      | exact .refl _
      | exact accept_flags _ _ _ _
  | chipReset => simp [isReset] at hm
  | sequencerReset c => simp [isReset] at hm

theorem interlude_flags {s : State} (hr : s.NoResets) : s.chip.FlagsIn s.interlude.chip := by
  have moves (ms : List EnvMove) (hms : ∀ m ∈ ms, isReset m = false) (s : State) :
      s.chip.FlagsIn (applyMoves ms s).chip := by
    induction ms generalizing s with
    | nil => exact .refl _
    | cons m ms ih =>
      unfold applyMoves
      split
      · exact .refl _
      · exact (applyMove_flags m (hms m (List.mem_cons_self ..))).trans
          (ih (fun x hx => hms x (List.mem_cons_of_mem _ hx)) _)
  unfold State.interlude
  split
  · rename_i ms rest he
    exact moves ms (fun m hm => hr ms (by simp [he]) m hm) { s with env := rest }
  · unfold State.afterScript
    split
    · exact applyMove_flags (.txAttempt _) (s := { s with drawn := s.drawn + 1 }) rfl
    · exact .refl _

/-! ## What a program keeps of it -/

/-- `P` speaks of the flags, the counters, the FIFOs and `txActive` so that neither TxAbandon nor a
command of the programs but a write of STATUS can make it false. -/
structure Chip.Durable (P : Chip → Prop) : Prop where
  rest    : ∀ c, P c → P { c with txActive := false }
  write   : ∀ v a w c, a ≠ .status → P c → P (c.writeReg v a w)
  flushTx : ∀ c, P c → P { c with txf := [] }
  flushRx : ∀ c, P c → P { c with rxf := [], rxCorrupt := false }
  unlock  : ∀ c b, P c → P { c with featuresUnlocked := b }

/-- A write of another register leaves the flags, the counters but PLOS_CNT, which it can only clear,
the FIFOs and `txActive`. -/
theorem writeReg_leaves (v : ChipVariant) (a : Reg) (w : List Byte) (c : Chip) (ha : a ≠ .status) :
    let d := c.writeReg v a w
    (d.rxDr = c.rxDr ∧ d.txDs = c.txDs ∧ d.maxRt = c.maxRt) ∧ d.arcCnt = c.arcCnt ∧
      (d.plosCnt = c.plosCnt ∨ d.plosCnt = 0) ∧ d.txf = c.txf ∧ d.rxf = c.rxf ∧
      d.txActive = c.txActive := by
  cases a <;> simp only [Chip.writeReg] <;>
    first
    | exact absurd rfl ha
    | (simp; done)
    | (split <;> simp)

theorem plosCnt_durable : Chip.Durable fun c => c.plosCnt = 0 :=
  ⟨fun _ h => h, fun v a w c ha h => (writeReg_leaves v a w c ha).2.2.1.elim (·.trans h) id,
    fun _ h => h, fun _ h => h, fun _ _ h => h⟩

theorem flagsIn_durable (c : Chip) : Chip.Durable (c.FlagsIn ·) :=
  ⟨fun _ h => h, fun v a w d ha h => by
    obtain ⟨e1, e2, e3⟩ := (writeReg_leaves v a w d ha).1
    exact ⟨e1.symm ▸ h.1, e2.symm ▸ h.2.1, e3.symm ▸ h.2.2⟩,
    fun _ h => h, fun _ h => h, fun _ _ h => h⟩

/-- ARC_CNT is what it was in `c`, and no cycle runs where none ran in `c`. -/
def Chip.CycleIn (c d : Chip) : Prop :=
  d.arcCnt = c.arcCnt ∧ (c.txActive = false → d.txActive = false)

theorem cycleIn_durable (c : Chip) : Chip.Durable (c.CycleIn ·) :=
  ⟨fun _ h => ⟨h.1, fun _ => rfl⟩, fun v a w d ha h => by
    obtain ⟨-, e1, -, -, -, e2⟩ := writeReg_leaves v a w d ha
    exact ⟨e1.trans h.1, e2.symm ▸ h.2⟩,
    fun _ h => h, fun _ h => h, fun _ _ h => h⟩

/-- Both FIFOs empty, once they are, stay so. -/
theorem flushed_durable {P : Chip → Prop} (D : Chip.Durable P) :
    Chip.Durable fun c => P c ∧ c.txf = [] ∧ c.rxf = [] :=
  ⟨fun c h => ⟨D.rest c h.1, h.2⟩,
    fun v a w c ha h => ⟨D.write v a w c ha h.1, by
      obtain ⟨-, -, -, e1, e2, -⟩ := writeReg_leaves v a w c ha
      exact ⟨e1.trans h.2.1, e2.trans h.2.2⟩⟩,
    fun c h => ⟨D.flushTx c h.1, rfl, h.2.2⟩, fun c h => ⟨D.flushRx c h.1, h.2.1, rfl⟩,
    fun c b h => ⟨D.unlock c b h.1, h.2⟩⟩

/-- All three flags are clear. -/
def Chip.FlagsClear (c : Chip) : Prop := c.rxDr = false ∧ c.txDs = false ∧ c.maxRt = false

theorem flagsClear_durable {P : Chip → Prop} (D : Chip.Durable P) :
    Chip.Durable fun c => P c ∧ c.FlagsClear :=
  ⟨fun c h => ⟨D.rest c h.1, h.2⟩,
    fun v a w c ha h => ⟨D.write v a w c ha h.1, by
      obtain ⟨e1, e2, e3⟩ := (writeReg_leaves v a w c ha).1
      exact ⟨e1.trans h.2.1, e2.trans h.2.2.1, e3.trans h.2.2.2⟩⟩,
    fun c h => ⟨D.flushTx c h.1, h.2⟩, fun c h => ⟨D.flushRx c h.1, h.2⟩,
    fun c b h => ⟨D.unlock c b h.1, h.2⟩⟩

/-- A present chip that is powered down and meets `P`, and no reset to come. -/
structure State.Asleep (P : Chip → Prop) (s : State) : Prop where
  noResets : s.NoResets
  present  : s.params.chipPresent = true
  down     : s.chip.pwrUp = false
  holds    : P s.chip

namespace State.Asleep

variable {P : Chip → Prop} {s t : State}

theorem of_same (h : s.Asleep P) (hp : t.params = s.params) (hc : t.chip = s.chip)
    (he : t.env = s.env) : t.Asleep P :=
  ⟨by intro ms; rw [he]; exact h.noResets ms, by rw [hp]; exact h.present, by rw [hc]; exact h.down,
    by rw [hc]; exact h.holds⟩

theorem mode (h : s.Asleep P) : s.chipMode = .powerDown := by
  simp [State.chipMode, h.down]

variable (D : Chip.Durable P)
include D

theorem interlude (h : s.Asleep P) : s.interlude.Asleep P := by
  have e := params_of_steady (interlude_steady s h.noResets (.inr h.down))
  rcases interlude_asleep h.noResets h.down with hc | hc
  · exact ⟨interlude_noResets s h.noResets, by rw [e]; exact h.present, by rw [hc]; exact h.down,
      by rw [hc]; exact h.holds⟩
  · exact ⟨interlude_noResets s h.noResets, by rw [e]; exact h.present, by rw [hc]; exact h.down,
      by rw [hc]; exact D.rest _ h.holds⟩

/-- A micro-step whose effect keeps it, whether it takes place or not. -/
theorem stepAt (h : s.Asleep P) (l : Label) {f : State → State}
    (hf : ∀ y : State, y.Asleep P → (f y).Asleep P) : (s.stepAt l f).Asleep P := by
  unfold State.stepAt State.here State.compute
  split
  · exact h
  · dsimp only
    split
    · split
      · exact h.interlude D
      · exact hf _ (h.interlude D)
    · exact h

theorem micro (h : s.Asleep P) (l next : Label) {f : State → State}
    (hf : ∀ y : State, y.Asleep P → (f y).Asleep P) : (s.micro l next f).Asleep P :=
  h.stepAt D l fun y hy => by
    unfold State.compute
    split
    · exact hf y hy
    · exact (hf y hy).of_same (by simp) (by simp) (by simp)

/-- A micro-step that leaves the chip alone. -/
theorem micro_same (h : s.Asleep P) (l next : Label) {f : State → State}
    (hf : ∀ y : State, (f y).params = y.params ∧ (f y).chip = y.chip ∧ (f y).env = y.env) :
    (s.micro l next f).Asleep P :=
  h.micro D l next fun y hy => hy.of_same (hf y).1 (hf y).2.1 (hf y).2.2

theorem finish (h : s.Asleep P) (l : Label) (g : Shadow → Shadow) :
    (s.finish l (State.onShadow g)).Asleep P :=
  h.stepAt D l fun _ hy => hy.of_same rfl rfl rfl

theorem delay (h : s.Asleep P) (l next : Label) (n : Nat) : (s.delay l next n).Asleep P :=
  h.micro D l next fun y hy => by
    unfold State.compute
    split
    · exact hy.interlude D
    · exact (hy.interlude D).of_same rfl rfl rfl

theorem readInto (h : s.Asleep P) (l next : Label) (a : Reg) (put : Byte → Locals → Locals) :
    (s.readInto l next a put).Asleep P :=
  h.micro D l next fun y hy => hy.of_same (by simp) (by simp [rRegister_chip a y hy.present])
    (by simp)

/-- A register write that does not power the chip up. -/
theorem writeFrom (h : s.Asleep P) (l next : Label) (a : Reg) (g : State → List Byte)
    (ha : a ≠ .status)
    (hd : a = .config → ∀ y : State, bit ((g y).headD 0 &&& 0x7F) 1 = false) :
    (s.writeFrom l next a g).Asleep P :=
  h.micro D l next fun y hy => by
    refine ⟨by intro ms; simpa using hy.noResets ms, by simpa using hy.present, ?_, ?_⟩
    · rw [wRegister_chip a _ y hy.present]
      by_cases hc : a = .config
      · subst hc
        exact hd rfl y
      · have e : (y.chip.writeReg y.params.variant a (g y)).config = y.chip.config := by
          cases a <;> simp only [Chip.writeReg] <;> first | rfl | (split <;> rfl) | simp at hc
        rw [Chip.pwrUp, e]
        exact hy.down
    · rw [wRegister_chip a _ y hy.present]
      exact D.write _ _ _ _ ha hy.holds

/-- Any register write but one of STATUS keeps `P`, wherever the program stands. -/
theorem write_holds (h : s.Asleep P) (l next : Label) (a : Reg) (g : State → List Byte)
    (ha : a ≠ .status) : P (s.writeFrom l next a g).chip := by
  unfold State.writeFrom State.micro State.stepAt State.here State.compute
  split
  · exact h.holds
  · dsimp only
    split
    · have hi := h.interlude D
      have hw : P (s.interlude.wRegister a (g s.interlude)).chip := by
        rw [wRegister_chip a _ _ hi.present]
        exact D.write _ _ _ _ ha hi.holds
      split
      · exact hi.holds
      · split
        · exact hw
        · rw [atLabel_chip]
          exact hw
    · exact h.holds

theorem modify (h : s.Asleep P) (l next : Label) (a : Reg) (g : Byte → Byte) (ha : a ≠ .status)
    (hd : a = .config → ∀ b, bit (g b &&& 0x7F) 1 = false) : (s.modify l next a g).Asleep P :=
  (h.readInto D l l.succ a _).writeFrom D l.succ next a _ ha fun e _ => hd e _

theorem flushRx (h : s.Asleep P) (l next : Label) : (s.micro l next State.flushRx).Asleep P :=
  h.micro D l next fun y hy => by
    refine ⟨by intro ms; simpa using hy.noResets ms, by simpa using hy.present, ?_, ?_⟩ <;>
      rw [flushRx_chip y hy.present]
    · exact hy.down
    · exact D.flushRx _ hy.holds

theorem flushTx (h : s.Asleep P) (l next : Label) : (s.micro l next State.flushTx).Asleep P :=
  h.micro D l next fun y hy => by
    refine ⟨by intro ms; simpa using hy.noResets ms, by simpa using hy.present, ?_, ?_⟩ <;>
      rw [flushTx_chip y hy.present]
    · exact hy.down
    · exact D.flushTx _ hy.holds

theorem flushBoth (h : s.Asleep P) (l next : Label) : (s.flushBoth l next).Asleep P :=
  (h.flushRx D l l.succ).flushTx D l.succ next

theorem activate (h : s.Asleep P) (l next : Label) (x : Byte) :
    (s.micro l next (State.activate x)).Asleep P :=
  h.micro D l next fun y hy => by
    refine ⟨by intro ms; simpa using hy.noResets ms, by simpa using hy.present, ?_, ?_⟩ <;>
      rw [activate_chip x y hy.present] <;> split
    · exact hy.down
    · exact hy.down
    · exact D.unlock _ _ hy.holds
    · exact hy.holds

end State.Asleep

/-- A running program's chip after a micro-step is what the effect makes of the chip before it. -/
theorem Tracks.micro_chip {q : Prop} {s x : State} (h : Tracks q s x) (l next : Label)
    (hl : x.isAt l = true) (f : State → State) :
    (s.micro l next f).chip = (f s.interlude).chip := by
  rw [State.micro, h.stepAt_eq l hl]
  unfold State.compute
  split
  · rfl
  · simp

/-- An assignment to the shadow state that ends an operation leaves a next state. -/
theorem Tracks.finish_next {q : Prop} {s x : State} (h : Tracks q s x) (l : Label)
    (hl : x.isAt l = true) (g : Shadow → Shadow) :
    (s.finish l (State.onShadow g)).outcome = .next (s.finish l (State.onShadow g)) := by
  rw [h.finish_eq l hl]
  exact ((h.interlude.onShadow g).ends _).1

/-! ## init (70_reset_and_hazards.md R352) -/

section
variable {P : Chip → Prop} (D : Chip.Durable P) {q : Prop} {s x : State}
include D

/-- S8: the program's own position says that the written CONFIG keeps the chip down. -/
theorem crcField_asleep (h : Tracks q s x) {op : Instr} {o : Locals} {r : List Frame}
    (hx : x.seq = ⟨op, .s8, o⟩ :: r)
    (hc : ∀ w ∈ x.chip.configReads,
      bit (withField w crcMask (if x.params.defaultCrc16 then 0x0C else 0x08) &&& 0x7F) 1 = false)
    (hs : s.Asleep P) :
    ((s.setField .s8 Label.s8.succ.succ .config crcMask (Params.defaultCrc s.params).code).micro
      Label.s8.succ.succ .s9
      fun s => s.onSettings fun g => { g with crc := Params.defaultCrc s.params }).Asleep P := by
  rw [h.params_eq, defaultCrc_code]
  obtain ⟨w, hw, h1⟩ := h.modify (P := (· ∈ x.chip.configReads)) .s8 Label.s8.succ.succ
    (by simp [State.isAt, hx]) .config
    (fun v => withField v crcMask (if x.params.defaultCrc16 then 0x0C else 0x08)) hx
    (fun y hy => hy.read_config) (fun w hw => .inr (hc w hw))
  refine State.Asleep.micro_same (P := P) D ⟨h1.noResets, h1.present_here, ?_, ?_⟩ _ _
    fun _ => ⟨rfl, rfl, rfl⟩
  · have e := config_of_steady (chip_of_kept h1.same)
    unfold Chip.pwrUp
    exact (congrArg (bit · 1) e).trans (hc w hw)
  · exact (hs.readInto D .s8 Label.s8.succ .config _).write_holds D Label.s8.succ _ .config _
      (by decide)

/-- S1 to S9 keep `P` of a chip that was powered down before. -/
theorem initSettings_asleep (h : Tracks q s x) (mask : BitVec 32) {op : Instr} {o : Locals}
    {r : List Frame} (hx : x.seq = ⟨op, .s1, o⟩ :: r) (hs : s.Asleep P) :
    (initSettings mask s).Asleep P := by
  obtain ⟨v, hv, h5⟩ := initStart_tracks h mask hx
  have h6 := rfField_tracks h5 (config_powered_down v) .s6 .s7 rfl (fun _ => paMask)
    (fun p => p.defaultPa.code) fun p g => { g with paLevel := p.defaultPa }
  have h7 := rfField_tracks h6 (config_powered_down v) .s7 .s8 rfl (fun p => drMask p.variant)
    (fun p => p.defaultDr.code) fun p g => { g with dataRate := p.defaultDr }
  have a2 := (hs.micro_same D .s1 .s2 (f := State.setCe false) fun _ => ⟨rfl, rfl, rfl⟩).modify D
    .s2 .s3 .config (fun v => withoutBits v pwrUp) (by decide) fun _ => config_powered_down
  have a5 := ((a2.micro_same D .s3 .s4
    (f := State.onShadow fun h => { h with networkMask := some mask })
    fun _ => ⟨rfl, rfl, rfl⟩).delay D .s4 .s5 tPor).writeFrom D .s5 Label.s5.succ .setupRetr
    (fun s => [retryByte s.params.defaultArd s.params.defaultArc]) (by decide)
    (fun e => by cases e)
  have a6 := a5.micro_same D Label.s5.succ .s6
    (f := fun s => s.onSettings fun g =>
      { g with retryDelay := s.params.defaultArd, retryCount := s.params.defaultArc })
    fun _ => ⟨rfl, rfl, rfl⟩
  have level (l next : Label) {t : State} (m c : Byte) (g : Params → Settings → Settings)
      (a : t.Asleep P) :
      ((t.setField l l.succ.succ .rfSetup m c).micro l.succ.succ next
        fun s => s.onSettings (g s.params)).Asleep P :=
    (a.modify D l l.succ.succ .rfSetup (fun v => withField v m c) (by decide)
      (fun e => by cases e)).micro_same D _ _ fun _ => ⟨rfl, rfl, rfl⟩
  have a8 := crcField_asleep D h7 rfl (fun w hw => by
    have hc := config_with_crc x.chip.config v w x.params.defaultCrc16 (mem_configReads hv)
      (mem_configReads hw)
    exact (congrArg (bit · 1) hc).trans (config_settled x.chip.config x.params.defaultCrc16).1)
    (level .s7 .s8 _ _ (fun p g => { g with dataRate := p.defaultDr })
      (level .s6 .s7 _ _ (fun p g => { g with paLevel := p.defaultPa }) a6))
  exact (a8.writeFrom D .s9 Label.s9.succ .rfCh (fun s => [s.params.defaultCh.setWidth 8])
    (by decide) (fun e => by cases e)).micro_same D Label.s9.succ .s10
    (f := fun s => s.onSettings fun g => { g with channel := s.params.defaultCh })
    fun _ => ⟨rfl, rfl, rfl⟩

end

/-- What both flushes leave, in any environment that resets nothing. -/
theorem flushBoth_asleep {P : Chip → Prop} (D : Chip.Durable P) {q : Prop} {s x : State}
    (h : Tracks q s x) (l next : Label) {f : Frame} {r : List Frame} (hx : x.seq = f :: r)
    (hl : x.isAt l = true) (hs : s.Asleep P) :
    (s.flushBoth l next).Asleep fun c => P c ∧ c.txf = [] ∧ c.rxf = [] := by
  have h1 := h.micro l l.succ hl fun y hy => hy.flushRx
  have e1 := h.micro_chip l l.succ hl State.flushRx
  rw [flushRx_chip _ h.interlude.present_here] at e1
  have a1 := hs.flushRx D l l.succ
  have D1 : Chip.Durable fun c => P c ∧ c.rxf = [] :=
    ⟨fun c hc => ⟨D.rest c hc.1, hc.2⟩,
      fun v a w c ha hc => ⟨D.write v a w c ha hc.1, by
        exact (writeReg_leaves v a w c ha).2.2.2.2.1.trans hc.2⟩,
      fun c hc => ⟨D.flushTx c hc.1, hc.2⟩, fun c hc => ⟨D.flushRx c hc.1, rfl⟩,
      fun c b hc => ⟨D.unlock c b hc.1, hc.2⟩⟩
  have a1' : (s.micro l l.succ State.flushRx).Asleep fun c => P c ∧ c.rxf = [] :=
    ⟨a1.noResets, a1.present, a1.down, a1.holds, by rw [e1]⟩
  have e2 := h1.micro_chip l.succ next (by simp [hx]) State.flushTx
  rw [flushTx_chip _ h1.interlude.present_here] at e2
  have a2 := a1'.flushTx D1 l.succ next
  exact ⟨a2.noResets, a2.present, a2.down, a2.holds.1, by rw [State.flushBoth, e2], a2.holds.2⟩

section
variable {q : Prop} {s x : State}

/-- S9 clears PLOS_CNT, which stays 0. -/
theorem initSettings_plosCnt (h : Tracks q s x) (mask : BitVec 32) {op : Instr} {o : Locals}
    {r : List Frame} (hx : x.seq = ⟨op, .s1, o⟩ :: r) :
    (initSettings mask s).Asleep fun c => c.plosCnt = 0 := by
  obtain ⟨v, hv, h5⟩ := initStart_tracks h mask hx
  have h6 := rfField_tracks h5 (config_powered_down v) .s6 .s7 rfl (fun _ => paMask)
    (fun p => p.defaultPa.code) fun p g => { g with paLevel := p.defaultPa }
  have h7 := rfField_tracks h6 (config_powered_down v) .s7 .s8 rfl (fun p => drMask p.variant)
    (fun p => p.defaultDr.code) fun p g => { g with dataRate := p.defaultDr }
  have settled := (config_settled x.chip.config x.params.defaultCrc16).1
  obtain ⟨w, hw, h8⟩ := crcField_tracks h7 rfl fun w hw =>
    (congrArg (bit · 1) (config_with_crc x.chip.config v w x.params.defaultCrc16
      (mem_configReads hv) (mem_configReads hw))).trans settled
  have hp := (congrArg (bit · 1) (config_with_crc x.chip.config v w x.params.defaultCrc16
      (mem_configReads hv) (mem_configReads hw))).trans settled
  have h9 := h8.writeFrom .s9 Label.s9.succ rfl .rfCh (fun s => [s.params.defaultCh.setWidth 8])
    (v := [x.params.defaultCh.setWidth 8]) (fun y hy => by rw [hy.params_eq]) (.inr hp) rfl
  have e9 := h8.micro_chip .s9 Label.s9.succ rfl
    fun s => s.wRegister .rfCh [s.params.defaultCh.setWidth 8]
  rw [wRegister_chip _ _ _ h8.interlude.present_here] at e9
  refine State.Asleep.micro_same (P := fun c => c.plosCnt = 0) plosCnt_durable
    ⟨h9.noResets, h9.present_here, ?_, ?_⟩ Label.s9.succ .s10
    (f := fun s => s.onSettings fun g => { g with channel := s.params.defaultCh })
    fun _ => ⟨rfl, rfl, rfl⟩
  · have e := config_of_steady (chip_of_kept h9.same)
    unfold Chip.pwrUp
    exact (congrArg (bit · 1) e).trans hp
  · exact (congrArg Chip.plosCnt e9).trans rfl

/-- S10 to S18: the flags and the FIFOs are left clear, and `P` as it was. -/
theorem initFeatures_asleep {P : Chip → Prop} (D : Chip.Durable P)
    (hP : ∀ c, P c → P c.flagsCleared) (h : Tracks q s x) {op : Instr} {o : Locals}
    {r : List Frame} (hx : x.seq = ⟨op, .s10, o⟩ :: r) (hp : bit x.chip.config 1 = false)
    (hc : bit x.chip.config 3 = true) (hw : withoutBits x.chip.config pwrUp = x.chip.config)
    (hr : x.chip.config &&& 0x7F = x.chip.config) (hs : s.Asleep P) :
    (initFeatures s).Asleep fun c => (P c ∧ c.FlagsClear) ∧ c.txf = [] ∧ c.rxf = [] := by
  obtain ⟨o', h17⟩ := initCleared_tracks h hx hp hc hw hr
  have h14 := initPipes_tracks h hp hx
  have a14 := ((((hs.activate D .s10 .s11 0x73).writeFrom D .s11 .s12 .feature (fun _ => [0x07])
    (by decide) (fun e => by cases e)).writeFrom D .s12 .s13 .enAa (fun _ => [0x3F]) (by decide)
    (fun e => by cases e)).writeFrom D .s13 .s14 .dynpd (fun _ => [0x3F]) (by decide)
    (fun e => by cases e)).writeFrom D .s14 .s15 .setupAw (fun _ => [0x03]) (by decide)
    (fun e => by cases e)
  have i14 := a14.interlude D
  have e15 := h14.micro_chip .s15 .s16 rfl (State.wRegister .status [irqAll])
  rw [wRegister_chip _ _ _ h14.interlude.present_here, writeReg_irqAll] at e15
  have h15 := h14.writeFrom .s15 .s16 rfl .status (fun _ => [irqAll]) (v := [irqAll])
    (fun _ _ => rfl) (.inr (by rw [writeReg_irqAll]; exact hp)) rfl
  have D' := flagsClear_durable D
  have a15 : State.Asleep (fun c => P c ∧ c.FlagsClear) _ :=
    ⟨h15.noResets, h15.present_here, (congrArg Chip.pwrUp e15).trans i14.down,
      by rw [show (State.writeFrom .s15 .s16 .status (fun _ => [irqAll]) _).chip = _ from e15]
         exact ⟨hP _ i14.holds, rfl, rfl, rfl⟩⟩
  exact flushBoth_asleep D' h17 .s18 .s19 rfl rfl
    ((a15.modify D' .s16 .s17 .config (fun v => withoutBits v pwrUp) (by decide)
      fun _ => config_powered_down).micro_same D' .s17 .s18
      (f := State.onSettings fun g => { g with ackEnabled := true }) fun _ => ⟨rfl, rfl, rfl⟩)

end

end Sys2Proof.Machine
end

