-- ==== Sys2Proof/Laws/Flags.lean ====
section
/-! SUPPORT. The bits of STATUS and FIFO_STATUS, read one by one (10_state.md R31, R39). -/

namespace Sys2Proof.Machine

/-- The bits of a byte laid out as STATUS is. -/
theorem statusByte_bits (a b m f : Bool) (p : BitVec 3) :
    let st : Byte := 0#1 ++ BitVec.ofBool a ++ BitVec.ofBool b ++ BitVec.ofBool m ++ p ++
      BitVec.ofBool f
    bit st 7 = false ∧ bit st 6 = a ∧ bit st 5 = b ∧ bit st 4 = m ∧ bit st 0 = f ∧
      statusPipe st = p := by
  revert a b m f p
  decide

/-- The bits of a byte laid out as FIFO_STATUS is. -/
theorem fifoByte_bits (a b m f : Bool) :
    let st : Byte := 0#2 ++ BitVec.ofBool a ++ BitVec.ofBool b ++ 0#2 ++ BitVec.ofBool m ++
      BitVec.ofBool f
    bit st 7 = false ∧ bit st 6 = false ∧ bit st 5 = a ∧ bit st 4 = b ∧ bit st 3 = false ∧
      bit st 2 = false ∧ bit st 1 = m ∧ bit st 0 = f := by
  revert a b m f
  decide

variable (c : Chip)

@[simp] theorem bit_status_reserved : bit c.status 7 = false := (statusByte_bits ..).1
@[simp] theorem bit_status_rxDr : bit c.status 6 = c.rxDr := (statusByte_bits ..).2.1
@[simp] theorem bit_status_txDs : bit c.status 5 = c.txDs := (statusByte_bits ..).2.2.1
@[simp] theorem bit_status_maxRt : bit c.status 4 = c.maxRt := (statusByte_bits ..).2.2.2.1
@[simp] theorem bit_status_txFull : bit c.status 0 = c.txFull := (statusByte_bits ..).2.2.2.2.1
@[simp] theorem statusPipe_status : statusPipe c.status = c.rxPNo :=
  (statusByte_bits c.rxDr c.txDs c.maxRt c.txFull c.rxPNo).2.2.2.2.2

@[simp] theorem bit_fifo_txFull : bit c.fifoStatus 5 = c.txFull := (fifoByte_bits ..).2.2.1
@[simp] theorem bit_fifo_txEmpty : bit c.fifoStatus 4 = c.txEmpty := (fifoByte_bits ..).2.2.2.1
@[simp] theorem bit_fifo_rxFull : bit c.fifoStatus 1 = c.rxFull :=
  (fifoByte_bits ..).2.2.2.2.2.2.1
@[simp] theorem bit_fifo_rxEmpty : bit c.fifoStatus 0 = c.rxEmpty :=
  (fifoByte_bits ..).2.2.2.2.2.2.2

theorem txFull_eq : c.txFull = decide (c.txf.length = 3) := rfl
theorem rxFull_eq : c.rxFull = decide (c.rxf.length = 3) := rfl
theorem txEmpty_eq : c.txEmpty = decide (c.txf.length = 0) := by cases h : c.txf <;> simp [Chip.txEmpty, h]
theorem rxEmpty_eq : c.rxEmpty = decide (c.rxf.length = 0) := by cases h : c.rxf <;> simp [Chip.rxEmpty, h]

end Sys2Proof.Machine
end

