-- ==== Sys2Proof/Laws/Memory.lean ====
section
/-! SUPPORT. The caller's buffers: every write keeps the canonical form, a read after a write gives
what was written, and a write leaves every other byte alone (20_memory.md R86). -/

namespace Sys2Proof.Machine

/-! ## One byte -/

@[simp] theorem Memory.get_put_same (m : Memory) (i : Nat) (b : Byte) :
    (Memory.put m i b).get i = some b := by
  induction m with
  | nil => simp [Memory.put, Memory.get]
  | cons c m ih =>
    obtain ⟨k, x⟩ := c
    unfold Memory.put
    split
    · simp [Memory.get]
    · split
      · simp [Memory.get]
      · rename_i h
        simp only [Memory.get, ih]
        exact if_neg fun e => h e.symm

theorem Memory.get_put_other (m : Memory) {i j : Nat} (b : Byte) (h : j ≠ i) :
    (Memory.put m i b).get j = m.get j := by
  induction m with
  | nil => simp [Memory.put, Memory.get, Ne.symm h]
  | cons c m ih =>
    obtain ⟨k, x⟩ := c
    unfold Memory.put
    split
    · simp [Memory.get, Ne.symm h]
    · split
      · rename_i e
        subst e
        simp [Memory.get, Ne.symm h]
      · simp [Memory.get, ih]

/-- The form as a statement about neighbours. -/
theorem Memory.wf_cons (i : Nat) (x : Byte) (m : Memory) :
    Memory.wf ((i, x) :: m) = true ↔
      (∀ j y r, m = (j, y) :: r → i < j) ∧ Memory.wf m = true := by
  cases m with
  | nil => simp [Memory.wf]
  | cons c m =>
    obtain ⟨j, y⟩ := c
    simp only [Memory.wf, Bool.and_eq_true, decide_eq_true_eq, List.cons.injEq, Prod.mk.injEq]
    constructor
    · rintro ⟨h1, h2⟩
      refine ⟨?_, h2⟩
      rintro j' y' r ⟨⟨rfl, -⟩, -⟩
      exact h1
    · rintro ⟨h1, h2⟩
      exact ⟨h1 j y m ⟨⟨rfl, rfl⟩, rfl⟩, h2⟩

/-- The first index after a write. -/
theorem Memory.put_head (m : Memory) (i : Nat) (b : Byte) {k : Nat} (hk : k < i)
    (hm : ∀ j y r, m = (j, y) :: r → k < j) :
    ∀ j y r, Memory.put m i b = (j, y) :: r → k < j := by
  intro j y r
  cases m with
  | nil =>
    simp only [Memory.put, List.cons.injEq, Prod.mk.injEq]
    rintro ⟨⟨rfl, -⟩, -⟩
    exact hk
  | cons c m =>
    obtain ⟨l, x⟩ := c
    have hl := hm l x m rfl
    unfold Memory.put
    split
    · simp only [List.cons.injEq, Prod.mk.injEq]
      rintro ⟨⟨rfl, -⟩, -⟩
      exact hk
    · split
      · simp only [List.cons.injEq, Prod.mk.injEq]
        rintro ⟨⟨rfl, -⟩, -⟩
        exact hk
      · simp only [List.cons.injEq, Prod.mk.injEq]
        rintro ⟨⟨rfl, -⟩, -⟩
        exact hl

theorem Memory.wf_put (m : Memory) (i : Nat) (b : Byte) (h : Memory.wf m = true) :
    Memory.wf (Memory.put m i b) = true := by
  induction m with
  | nil => rfl
  | cons c m ih =>
    obtain ⟨k, x⟩ := c
    obtain ⟨h1, h2⟩ := (Memory.wf_cons k x m).mp h
    unfold Memory.put
    split
    · rename_i hi
      refine (Memory.wf_cons i b _).mpr ⟨?_, h⟩
      intro j y r e
      simp only [List.cons.injEq, Prod.mk.injEq] at e
      omega
    · split
      · rename_i e
        subst e
        exact (Memory.wf_cons _ _ _).mpr ⟨h1, h2⟩
      · exact (Memory.wf_cons _ _ _).mpr ⟨Memory.put_head m i b (by omega) h1, ih h2⟩

/-! ## Several bytes -/

theorem Memory.wf_putAll (m : Memory) (i : Nat) (v : List Byte) (h : Memory.wf m = true) :
    Memory.wf (Memory.putAll m i v) = true := by
  induction v generalizing m i with
  | nil => exact h
  | cons b v ih => exact ih _ _ (Memory.wf_put m i b h)

theorem Memory.get_putAll_outside (m : Memory) (i : Nat) (v : List Byte) {j : Nat}
    (h : j < i ∨ i + v.length ≤ j) : (Memory.putAll m i v).get j = m.get j := by
  induction v generalizing m i with
  | nil => rfl
  | cons b v ih =>
    simp only [List.length_cons] at h
    rw [Memory.putAll, ih _ _ (by omega), Memory.get_put_other _ _ (by omega)]

theorem Memory.get_putAll_inside (m : Memory) (i : Nat) (v : List Byte) {k : Nat}
    (h : k < v.length) : (Memory.putAll m i v).get (i + k) = some v[k] := by
  induction v generalizing m i k with
  | nil => simp at h
  | cons b v ih =>
    rw [Memory.putAll]
    cases k with
    | zero =>
      have e := Memory.get_putAll_outside (Memory.put m i b) (i + 1) v (j := i) (.inl (by omega))
      rw [show i + 0 = i from rfl, e]
      simp
    | succ k =>
      have e := ih (Memory.put m i b) (i + 1) (k := k) (by simpa using h)
      rw [show i + (k + 1) = i + 1 + k by omega, e]
      simp

/-! ## The state's buffers -/

/-- Both buffers are in the canonical form. -/
def State.buffersWf (s : State) : Prop :=
  Memory.wf s.host.readBuf = true ∧ Memory.wf s.host.respBuf = true

theorem memWrite_buffersWf (b : BufId) (i : Nat) (v : List Byte) {s : State} (h : s.buffersWf) :
    (s.memWrite b i v).buffersWf := by
  cases b
  · exact ⟨Memory.wf_putAll _ _ _ h.1, h.2⟩
  · exact ⟨h.1, Memory.wf_putAll _ _ _ h.2⟩

theorem reset_buffersWf : State.reset.buffersWf := ⟨rfl, rfl⟩

end Sys2Proof.Machine
end

