-- ==== Sys2Proof/Laws/Runs.lean ====
section
/-! SUPPORT. Everything a host operation can do, said once, whatever the environment does: `Act` lists the
effects, `Runs` is a sequence of them, and every program is one (`exec_runs`). What every effect
keeps, every host operation keeps. -/

namespace Sys2Proof.Machine

/-- The bounds of the shadow state's fields (10_state.md R50). -/
def Shadow.Fits (p : Params) (sh : Shadow) : Prop :=
  sh.extraPipes ≤ numListeners ∧ (sh.initialized = true → sh.networkMask.isSome = true) ∧
    (p.variant.has p.defaultDr = true → p.variant.has sh.settings.dataRate = true)

/-- The effects a host operation `i` is made of. Every bus command comes with the conditions of
30_encoding.md R116 and R121, and a change of the shadow state keeps the bounds of 10_state.md
R50. -/
inductive Act (i : Instr) : State → State → Prop where
  | interlude (s : State) : Act i s s.interlude
  | atLabel (l : Label) (s : State) : Act i s (s.atLabel l)
  | setLocals (g : Locals → Locals) (s : State) : Act i s (s.setLocals g)
  | push (op : Instr) (s : State) : Act i s (s.push op)
  | give (v : Result) (s : State) : Act i s (s.give v)
  | clock (n : Nat) (s : State) : s.now ≤ n → Act i s { s with now := n }
  | setCe (v : Bool) (s : State) : Act i s (s.setCe v)
  | memWrite (b : BufId) (k : Nat) (v : List Byte) (s : State) : Act i s (s.memWrite b k v)
  | onShadow (g : Shadow → Shadow) (s : State)
      (hf : s.sh.Fits s.params → (g s.sh).Fits s.params) : Act i s (s.onShadow g)
  | raise (s : State) (h : s.sh.ownAddress = none) (hi : ∃ p, i = .broadcast p) :
      Act i s (s.raise .ownAddressUnset)
  | rRegister (a : Reg) (s : State) : Act i s (s.rRegister a)
  | wRegister (a : Reg) (v : List Byte) (s : State) (hr : a.isReserved = false)
      (hv : v.length = a.width) : Act i s (s.wRegister a v)
  | rRxPlWid (s : State) : Act i s s.rRxPlWid
  | rRxPayload (n : Nat) (s : State) (h : n ≤ 255) : Act i s (s.rRxPayload n)
  | wTxPayload (d : List Byte) (s : State) (h : 1 ≤ d.length ∧ d.length ≤ maxPayload) :
      Act i s (s.wTxPayload d)
  | wTxPayloadNoack (d : List Byte) (s : State) (h : 1 ≤ d.length ∧ d.length ≤ maxPayload) :
      Act i s (s.wTxPayloadNoack d)
  | wAckPayload (p : Fin 6) (d : List Byte) (s : State) (h : d.length ≤ maxPayload) :
      Act i s (s.wAckPayload p d)
  | flushTx (s : State) : Act i s s.flushTx
  | flushRx (s : State) : Act i s s.flushRx
  | nop (s : State) : Act i s s.nop
  | activate (s : State) (hi : ∃ m, i = .init m) : Act i s (s.activate 0x73)

/-! ## The launch parameters: no agent writes them (10_state.md R60) -/

theorem txAttempt_params (o : AttemptOutcome) (s : State) : (s.txAttempt o).params = s.params := by
  unfold State.txAttempt
  repeat' split
  all_goals rfl

theorem applyMove_params (m : EnvMove) (s : State) : (applyMove m s).params = s.params := by
  cases m with
  | txAttempt o => exact txAttempt_params o s
  | txAbandon => simp only [applyMove, State.txAbandon]; split <;> rfl
  | receive k n =>
    simp only [applyMove, State.receive]
    repeat' split
    all_goals rfl
  | _ => rfl

theorem applyMoves_params (ms : List EnvMove) (s : State) :
    (applyMoves ms s).params = s.params := by
  induction ms generalizing s with
  | nil => rfl
  | cons m ms ih =>
    unfold applyMoves
    split
    · rfl
    · exact (ih _).trans (applyMove_params m s)

theorem interlude_params (s : State) : s.interlude.params = s.params := by
  unfold State.interlude
  split
  · exact applyMoves_params _ _
  · unfold State.afterScript
    split
    · exact txAttempt_params _ _
    · rfl

theorem Act.params {i : Instr} {s t : State} (h : Act i s t) : t.params = s.params := by
  cases h with
  | interlude => exact interlude_params s
  | _ => first | rfl | simp

/-- A sequence of effects. -/
inductive Runs (i : Instr) : State → State → Prop where
  | refl (s : State) : Runs i s s
  | step {s t u : State} : Runs i s t → Act i t u → Runs i s u

namespace Runs

variable {i : Instr} {s t u : State}

theorem trans (h : Runs i s t) (h' : Runs i t u) : Runs i s u := by
  induction h' with
  | refl => exact h
  | step _ a ih => exact ih.step a

theorem single (a : Act i s t) : Runs i s t := (refl s).step a

/-- What every effect keeps, a run keeps. -/
theorem keeps {I : State → Prop} (h : Runs i s t) (hI : ∀ a b, Act i a b → I a → I b) (hs : I s) :
    I t := by
  induction h with
  | refl => exact hs
  | step _ a ih => exact hI _ _ a ih

/-- What every effect relates, a run relates. -/
theorem relates {R : State → State → Prop} (h : Runs i s t) (h0 : ∀ a, R a a)
    (ht : ∀ a b c, R a b → R b c → R a c) (hR : ∀ a b, Act i a b → R a b) : R s t := by
  induction h with
  | refl => exact h0 _
  | step _ a ih => exact ht _ _ _ ih (hR _ _ a)

theorem params (h : Runs i s t) : t.params = s.params :=
  h.relates (R := fun a b => b.params = a.params) (fun _ => rfl) (fun _ _ _ h h' => h'.trans h)
    fun _ _ => Act.params

end Runs

/-! ## Where a program stands -/

/-- Between two micro-steps the environment either keeps the running operation or removes it. -/
theorem applyMove_seq (m : EnvMove) (s : State) :
    (applyMove m s).seq = [] ∨ ((applyMove m s).seq = s.seq ∧ (applyMove m s).sh = s.sh) := by
  cases m with
  | clock d => exact .inr ⟨rfl, rfl⟩
  | txAttempt o => right; simp only [applyMove, State.txAttempt]; split <;> try split
                   all_goals exact ⟨rfl, rfl⟩
  | txAbandon => right; simp only [applyMove, State.txAbandon]; split <;> exact ⟨rfl, rfl⟩
  | receive k n =>
    right
    simp only [applyMove, State.receive]
    repeat' split
    all_goals exact ⟨rfl, rfl⟩
  | chipReset => exact .inr ⟨rfl, rfl⟩
  | sequencerReset c => exact .inl rfl

theorem applyMoves_seq (ms : List EnvMove) (s : State) :
    (applyMoves ms s).seq = [] ∨ ((applyMoves ms s).seq = s.seq ∧ (applyMoves ms s).sh = s.sh) := by
  induction ms generalizing s with
  | nil => exact .inr ⟨rfl, rfl⟩
  | cons m ms ih =>
    unfold applyMoves
    split
    · exact .inr ⟨rfl, rfl⟩
    · rcases applyMove_seq m s with h | ⟨h, h'⟩
      · rcases ih (applyMove m s) with h2 | ⟨h2, -⟩
        · exact .inl h2
        · exact .inl (h2.trans h)
      · rw [← h, ← h']
        exact ih _

theorem interlude_seq (s : State) :
    s.interlude.seq = [] ∨ (s.interlude.seq = s.seq ∧ s.interlude.sh = s.sh) := by
  unfold State.interlude
  split
  · exact applyMoves_seq _ _
  · right
    unfold State.afterScript
    split
    · rcases applyMove_seq (.txAttempt (Config.freeOutcome s.drawn))
        { s with drawn := s.drawn + 1 } with h | h
      · have e : ∀ (o : AttemptOutcome) (x : State), (x.txAttempt o).seq = x.seq ∧
            (x.txAttempt o).sh = x.sh := fun o x => by
          unfold State.txAttempt; split <;> try split
          all_goals exact ⟨rfl, rfl⟩
        exact e _ _
      · exact h
    · exact ⟨rfl, rfl⟩

/-- The running operation stands at `l`, and its locals, the frames below it and the shadow state meet
`C`. -/
def At (l : Label) (C : Locals → List Frame → Shadow → Prop) (t : State) : Prop :=
  ∃ op o r, t.seq = ⟨op, l, o⟩ :: r ∧ C o r t.sh

/-- The running operation has returned to the frames `r`. -/
def Back (r : List Frame) (t : State) : Prop := ∃ v, t.seq = handBack v r

/-- A run that ends stopped or where `E` holds. -/
structure Path (i : Instr) (E : State → Prop) (s t : State) : Prop where
  runs : Runs i s t
  ends : t.stopped = true ∨ E t

section
variable {i : Instr} {C C' : Locals → List Frame → Shadow → Prop} {l l' next : Label}
  {E E' : State → Prop} {s t u : State}

theorem At.locals (h : At l C t) : ∃ r, C t.locals r t.sh := by
  obtain ⟨op, o, r, h1, h2⟩ := h
  exact ⟨r, by simpa [State.locals, h1] using h2⟩

theorem At.of_eq (h : At l C t) (hq : u.seq = t.seq) (hs : u.sh = t.sh) : At l C u := by
  obtain ⟨op, o, r, h1, h2⟩ := h
  exact ⟨op, o, r, hq.trans h1, by rw [hs]; exact h2⟩

theorem At.weaken (h : At l C t) (hC : ∀ o r sh, C o r sh → C' o r sh) : At l C' t := by
  obtain ⟨op, o, r, h1, h2⟩ := h
  exact ⟨op, o, r, h1, hC _ _ _ h2⟩

theorem At.isAt (h : At l C t) : t.isAt l = true := by
  obtain ⟨op, o, r, h1, -⟩ := h
  simp [State.isAt, h1]

theorem At.isAt_other (h : At l C t) (hn : l ≠ l') : t.isAt l' = false := by
  obtain ⟨op, o, r, h1, -⟩ := h
  simp [State.isAt, h1, hn]

theorem At.atLabel (h : At l C t) (l' : Label) : At l' C (t.atLabel l') := by
  obtain ⟨op, o, r, h1, h2⟩ := h
  exact ⟨op, o, r, by simp [State.atLabel, h1], by simpa using h2⟩

theorem At.setLocals {g : Locals → Locals} (h : At l C t)
    (hg : ∀ o r sh, C o r sh → C' (g o) r sh) : At l C' (t.setLocals g) := by
  obtain ⟨op, o, r, h1, h2⟩ := h
  exact ⟨op, g o, r, by simp [State.setLocals, h1], by simpa using hg _ _ _ h2⟩

namespace Path

theorem start (h : E s) : Path i E s s := ⟨.refl s, .inr h⟩

/-- One effect that changes neither frames nor shadow state. -/
theorem act (h : At l C t) (a : Act i t u) (hq : u.seq = t.seq) (hs : u.sh = t.sh) :
    Path i (At l C) t u :=
  ⟨.single a, .inr (h.of_eq hq hs)⟩

theorem trans (p : Path i E s t) (h : t.stopped = false → E t → Path i E' t u)
    (hs : t.stopped = true → u = t) : Path i E' s u := by
  cases ht : t.stopped with
  | true =>
    rw [hs ht]
    exact ⟨p.runs, .inl ht⟩
  | false =>
    have q := h ht (p.ends.resolve_left (by simp [ht]))
    exact ⟨p.runs.trans q.runs, q.ends⟩

/-- The other agents' steps leave the running operation where it stands, or end it. -/
theorem interlude (h : At l C t) : Path i (At l C) t t.interlude :=
  ⟨.single (.interlude t), by
    rcases interlude_seq t with h0 | ⟨h1, h2⟩
    · exact .inl (by simp [State.stopped, h0])
    · exact .inr (h.of_eq h1 h2)⟩

theorem compute (p : Path i E s t) {f : State → State}
    (hf : ∀ y, E y → Path i E' y (f y)) : Path i E' s (t.compute f) :=
  p.trans (fun ht h => by rw [compute_running ht]; exact hf t h) fun ht => compute_stopped ht f

theorem here (p : Path i (At l C) s t) {f : State → State}
    (hf : ∀ y, At l C y → Path i E y (f y)) : Path i E s (t.here l f) :=
  p.compute fun y h => by
    rw [if_pos h.isAt]
    exact hf y h

theorem stepAt (p : Path i (At l C) s t) {f : State → State}
    (hf : ∀ y, At l C y → Path i E y (f y)) : Path i E s (t.stepAt l f) :=
  p.here fun _ h => (interlude h).compute hf

/-- A run keeps the launch parameters. -/
theorem withParams (p : Path i E s t) : Path i (fun u => E u ∧ u.params = s.params) s t :=
  ⟨p.runs, p.ends.imp id fun h => ⟨h, p.runs.params⟩⟩

/-- `stepAt` where the effect depends on the launch parameters. -/
theorem stepAt_params (p : Path i (At l C) s t) {f : State → State}
    (hf : ∀ y, At l C y → y.params = s.params → Path i E y (f y)) :
    Path i E s (t.stepAt l f) :=
  p.withParams.compute
    (f := fun s => if s.isAt l then s.interlude.compute f else s) fun y h => by
    rw [if_pos h.1.isAt]
    exact (interlude h.1).withParams.compute fun z hz => hf z hz.1 (hz.2.trans h.2)

theorem micro (p : Path i (At l C) s t) (next : Label) {f : State → State}
    (hf : ∀ y, At l C y → Path i (At l C') y (f y)) :
    Path i (At next C') s (t.micro l next f) :=
  p.stepAt fun y h => (hf y h).compute fun z hz =>
    ⟨.single (.atLabel next z), .inr (hz.atLabel next)⟩

/-- An empty micro-step. -/
theorem pass (p : Path i (At l C) s t) (next : Label) : Path i (At next C) s (t.micro l next id) :=
  p.micro next fun _ h => start h

theorem setLocals {g : Locals → Locals} (h : At l C t)
    (hg : ∀ o r sh, C o r sh → C' (g o) r sh) : Path i (At l C') t (t.setLocals g) :=
  ⟨.single (.setLocals g t), .inr (h.setLocals hg)⟩

/-- A change of the shadow state within its bounds. -/
theorem shadow {g : Shadow → Shadow} (h : At l C t)
    (hf : ∀ o r sh, C o r sh → sh.Fits t.params → (g sh).Fits t.params)
    (hg : ∀ o r sh, C o r sh → C' o r (g sh)) :
    Runs i t (t.onShadow g) ∧ At l C' (t.onShadow g) := by
  obtain ⟨op, o, r, h1, h2⟩ := h
  exact ⟨.single (.onShadow g t (hf _ _ _ h2)), ⟨op, o, r, h1, hg _ _ _ h2⟩⟩

theorem onShadow {g : Shadow → Shadow} (h : At l C t)
    (hf : ∀ o r sh, C o r sh → sh.Fits t.params → (g sh).Fits t.params)
    (hg : ∀ o r sh, C o r sh → C' o r (g sh)) : Path i (At l C') t (t.onShadow g) :=
  have q := shadow (i := i) h hf hg
  ⟨q.1, .inr q.2⟩

/-- A change of the settings. -/
theorem onSettings {g : Settings → Settings} (h : At l C t)
    (hf : ∀ sh : Shadow, sh.Fits t.params → { sh with settings := g sh.settings }.Fits t.params)
    (hg : ∀ o r sh, C o r sh → C' o r { sh with settings := g sh.settings }) :
    Path i (At l C') t (t.onSettings g) :=
  onShadow h (fun _ _ sh _ => hf sh) hg

theorem setCeStep (p : Path i (At l C) s t) (next : Label) (v : Bool) :
    Path i (At next C) s (t.setCeStep l next v) :=
  p.micro next fun y h => act h (.setCe v y) rfl rfl

theorem clock (h : At l C t) {n : Nat} (hn : t.now ≤ n) :
    Path i (At l C) t { t with now := n } :=
  ⟨.single (.clock n t hn), .inr h⟩

theorem delay (p : Path i (At l C) s t) (next : Label) (d : Nat) :
    Path i (At next C) s (t.delay l next d) :=
  p.micro next fun _ h => (interlude h).compute fun _ hz => clock hz (Nat.le_max_left _ _)

theorem wRegister (h : At l C t) {a : Reg} {v : List Byte} (hr : a.isReserved = false)
    (hv : v.length = a.width) : Path i (At l C) t (t.wRegister a v) :=
  act h (.wRegister a v t hr hv) (by simp) (by simp)

theorem readInto (p : Path i (At l C) s t) (next : Label) (a : Reg)
    {put : Byte → Locals → Locals} (hp : ∀ b o r sh, C o r sh → C' (put b o) r sh) :
    Path i (At next C') s (t.readInto l next a put) :=
  p.micro next fun y h =>
    ⟨(Runs.single (.rRegister a y)).step (.setLocals _ _),
      .inr ((h.of_eq (by simp) (by simp)).setLocals (hp _))⟩

theorem writeFrom (p : Path i (At l C) s t) (next : Label) (a : Reg) {v : State → List Byte}
    (hr : a.isReserved = false) (hv : ∀ y, (v y).length = a.width) :
    Path i (At next C) s (t.writeFrom l next a v) :=
  p.micro next fun _ h => wRegister h hr (hv _)

/-- SetBits, ClearBits and SetField. -/
theorem modify (p : Path i (At l C) s t) (next : Label) (a : Reg) {g : Byte → Byte}
    (hr : a.isReserved = false) (hw : a.width = 1)
    (hp : ∀ b o r sh, C o r sh → C { o with v := b } r sh) :
    Path i (At next C) s (t.modify l next a g) :=
  (p.readInto l.succ a hp).writeFrom next a hr fun _ => hw.symm

theorem statusInto (p : Path i (At l C) s t) (next : Label)
    (hp : ∀ b o r sh, C o r sh → C { o with st := b } r sh) :
    Path i (At next C) s (t.statusInto l next) :=
  p.micro next fun y h =>
    ⟨(Runs.single (.nop y)).step (.setLocals _ _),
      .inr ((h.of_eq (by simp) (by simp)).setLocals (hp _))⟩

theorem flushBoth (p : Path i (At l C) s t) (next : Label) :
    Path i (At next C) s (t.flushBoth l next) :=
  (p.micro l.succ fun y h => act h (.flushRx y) (by simp) (by simp)).micro next
    fun y h => act h (.flushTx y) (by simp) (by simp)

/-- A choice between two continuations. -/
theorem choose (p : Path i E s t) (p' : Path i E s u) (b : Bool) :
    Path i E s (if b then t else u) := by
  cases b
  · exact p'
  · exact p

/-- A return to the frames `r`. -/
theorem give (h : At l C t) (v : Result) {r : List Frame} (hC : ∀ o r' sh, C o r' sh → r' = r) :
    Path i (Back r) t (t.give v) := by
  obtain ⟨op, o, r', h1, h2⟩ := h
  exact ⟨.single (.give v t), .inr ⟨v, by simp [h1, hC _ _ _ h2]⟩⟩

theorem ret (p : Path i (At l C) s t) (v : State → Result) {r : List Frame}
    (hC : ∀ o r' sh, C o r' sh → r' = r) : Path i (Back r) s (t.ret l v) :=
  p.stepAt fun _ h => give h _ hC

theorem retHere (p : Path i (At l C) s t) (v : State → Result) {r : List Frame}
    (hC : ∀ o r' sh, C o r' sh → r' = r) : Path i (Back r) s (t.retHere l v) :=
  p.here fun _ h => give h _ hC

theorem finish (p : Path i (At l C) s t) {f : State → State} {r : List Frame}
    (hf : ∀ y, At l C y → Runs i y (f y) ∧ At l C' (f y)) (hC : ∀ o r' sh, C' o r' sh → r' = r) :
    Path i (Back r) s (t.finish l f) :=
  p.stepAt fun y h =>
    have q := hf y h
    have g := give (i := i) q.2 .none hC
    ⟨q.1.trans g.runs, g.ends⟩

theorem finishHere (p : Path i (At l C) s t) {f : State → State} {r : List Frame}
    (hf : ∀ y, At l C y → Runs i y (f y) ∧ At l C' (f y)) (hC : ∀ o r' sh, C' o r' sh → r' = r) :
    Path i (Back r) s (t.finishHere l f) :=
  p.here fun y h =>
    have q := hf y h
    have g := give (i := i) q.2 .none hC
    ⟨q.1.trans g.runs, g.ends⟩

/-- A call, from what the called program does. -/
theorem call (p : Path i (At l C) s t) (next : Label) (op : Instr) {g : State → State}
    (hg : ∀ y r, y.seq = ⟨op, .s1, .fresh⟩ :: r → r ≠ [] → Path i (Back r) y (g y))
    (hC : ∀ o r sh sh' v, C o r sh → C { o with got := v } r sh') :
    Path i (At next C) s (t.call l next op g) :=
  p.stepAt fun y h => by
    obtain ⟨op', o, r, h1, h2⟩ := h.atLabel next
    have q := hg ((y.atLabel next).push op) _ rfl (by simp [h1])
    refine ⟨((Runs.single (.atLabel next y)).step (.push op _)).trans q.runs, q.ends.imp id ?_⟩
    rintro ⟨v, e⟩
    rw [h1, handBack_cons] at e
    exact ⟨op', _, r, e, hC _ _ _ _ v h2⟩

end Path

end

/-! ## The programs -/

section
variable {i : Instr}

/-- The frames below the running operation. -/
abbrev Below (r : List Frame) : Locals → List Frame → Shadow → Prop := fun _ r' _ => r' = r

/-- And the payload of its transmission. -/
abbrev Holds (r : List Frame) (d : List Byte) : Locals → List Frame → Shadow → Prop :=
  fun o r' _ => r' = r ∧ o.p = d

theorem below {s : State} {op : Instr} {o : Locals} {r : List Frame}
    (h : s.seq = ⟨op, .s1, o⟩ :: r) : Path i (At .s1 (Below r)) s s := Path.start ⟨op, o, r, h, rfl⟩

theorem restorePipe0_runs {s t : State} {r : List Frame} (p : Path i (At .s3 (Below r)) s t) :
    Path i (At .s4 (Below r)) s (restorePipe0 t) := by
  refine Path.micro (C := Below r) (p.micro Label.s3.succ fun y h => ?_) .s4 fun y h => ?_
  · split
    · exact .start h
    · exact Path.wRegister h rfl rfl
  · split
    · exact .start h
    · exact Path.onShadow h (fun _ _ _ _ h => h) fun _ _ _ h => h

theorem startListening_runs {s : State} {op : Instr} {o : Locals} {r : List Frame}
    (h : s.seq = ⟨op, .s1, o⟩ :: r) : Path i (Back r) s (startListeningProgram s) := by
  have h1 := (below (i := i) h).modify .s2 .config (g := fun v => withBits v (pwrUp ||| primRx))
    rfl rfl fun _ _ _ _ h => h
  have h2 := h1.writeFrom .s3 .status (v := fun _ => [irqAll]) rfl fun _ => rfl
  exact (((restorePipe0_runs h2).setCeStep .s5 true).flushBoth .s6).finish (C' := Below r)
    (fun y h => Path.shadow h (fun _ _ _ _ h => h) fun _ _ _ h => h)
    fun _ _ _ h => h

theorem pollLoop_runs (n : Nat) {s t : State} {r : List Frame}
    (p : Path i (At .s9a (Below r)) s t) : Path i (At .s10 (Below r)) s (pollLoop n t) := by
  induction n generalizing t with
  | zero =>
    refine (p.statusInto .s9b fun _ _ _ _ h => h).micro .s10 fun y h => ?_
    split
    · exact .start h
    · exact Path.clock h (Nat.le_max_left _ _)
  | succ n ih =>
    have h1 : Path i (fun u => At .s10 (Below r) u ∨ At .s9a (Below r) u) s
        ((t.statusInto .s9a .s9b).stepAt .s9b fun s =>
          if pollEnds s.locals.st then s.atLabel .s10
          else if s.locals.t0 + tWatchdog ≤ s.now then s.atLabel .s10
          else s.atLabel .s9a) :=
      (p.statusInto .s9b fun _ _ _ _ h => h).stepAt fun y h => by
        split
        · exact ⟨.single (.atLabel _ y), .inr (.inl (h.atLabel _))⟩
        · split
          · exact ⟨.single (.atLabel _ y), .inr (.inl (h.atLabel _))⟩
          · exact ⟨.single (.atLabel _ y), .inr (.inr (h.atLabel _))⟩
    rw [pollLoop]
    split
    · rename_i hl
      exact ih ⟨h1.runs, h1.ends.imp id fun e =>
        e.elim (fun e => absurd hl (by simp [e.isAt_other (l' := .s9a) (by decide)])) id⟩
    · rename_i hl
      exact ⟨h1.runs, h1.ends.imp id fun e => e.elim id fun e => absurd e.isAt hl⟩

theorem restoreState_runs {s t : State} {r : List Frame} (p : Path i (At .s11 (Below r)) s t) :
    Path i (At .s12 (Below r)) s (restoreState t) := by
  unfold restoreState
  split
  · exact p.modify .s12 .config (g := fun v => withoutBits v pwrUp) rfl rfl fun _ _ _ _ h => h
  · split
    · exact p.call .s12 _ (fun y r' h _ => startListening_runs h) fun _ _ _ _ _ h => h
    · exact p.pass .s12

theorem setTxAddress_runs {s t : State} {r : List Frame} {d : List Byte}
    (p : Path i (At .s2 (Holds r d)) s t) : Path i (At .s3 (Holds r d)) s (setTxAddress t) := by
  refine Path.micro (C := Holds r d) (p.micro Label.s2.succ fun y h => ?_) .s3 fun y h => ?_
  · split
    · exact .start h
    · exact Path.wRegister h rfl rfl
  · exact Path.onShadow h (fun _ _ _ _ h => h) fun _ _ _ h => h

theorem divertPipe0_runs {s t : State} {r : List Frame} {d : List Byte} (ack : Bool)
    (p : Path i (At .s3 (Holds r d)) s t) :
    Path i (At .s4 (Holds r d)) s (divertPipe0 ack t) := by
  refine Path.micro (C := Holds r d) (p.micro Label.s3.succ fun y h => ?_) .s4 fun y h => ?_
  · split
    · exact .start h
    · exact Path.wRegister h rfl rfl
  · split
    · exact .start h
    · exact Path.onShadow h (fun _ _ _ _ h => h) fun _ _ _ h => h

theorem clipPayload_bounds {p : List Byte} (h : p ≠ []) :
    1 ≤ (clipPayload p).length ∧ (clipPayload p).length ≤ maxPayload := by
  have : 0 < p.length := List.length_pos_iff.mpr h
  simp [clipPayload, maxPayload]
  omega

theorem triggerTransmit_runs {s t : State} {r : List Frame} {d : List Byte} (ack : Bool)
    (hd : 1 ≤ d.length ∧ d.length ≤ maxPayload) (p : Path i (At .s4 (Holds r d)) s t) :
    Path i (At .s9a (Below r)) s (triggerTransmit ack t) := by
  have h5 := ((p.writeFrom .s5 .status (v := fun _ => [irqAll]) rfl fun _ => rfl).readInto
    Label.s5.succ .config (C' := Holds r d) (put := fun x o => { o with cfg := x })
    fun _ _ _ _ h => h).micro .s6a (C' := Holds r d)
    (f := fun s => s.setLocals fun o =>
      { o with wasActive := bit o.cfg 1, wasListening := s.sh.listening })
    fun y h => Path.setLocals h fun _ _ _ h => h
  have h6 := (h5.setCeStep .s6b false).writeFrom .s6c .config
    (v := fun s => [withoutBits (withBits s.locals.cfg pwrUp) primRx]) rfl fun _ => rfl
  have h7 := fun b => ((h6.pass .s7).choose (h6.delay .s7 tColdstartTx) b).micro .s8 (C' := Below r)
    (f := fun s => if ack then s.wTxPayload s.locals.p else s.wTxPayloadNoack s.locals.p)
    fun y h => by
      obtain ⟨r', -, e⟩ := h.locals
      have hB : At .s7 (Below r) y := h.weaken fun _ _ _ h => h.1
      rw [e]
      split
      · exact Path.act hB (.wTxPayload _ y hd) (by simp) (by simp)
      · exact Path.act hB (.wTxPayloadNoack _ y hd) (by simp) (by simp)
  exact ((h7 _).setCeStep Label.s8.succ true).micro .s9a (C' := Below r)
    (f := fun s => s.setLocals fun o => { o with t0 := s.now })
    fun y h => Path.setLocals h fun _ _ _ h => h

theorem transmit_runs {s : State} {op : Instr} {o : Locals} {r : List Frame}
    (h : s.seq = ⟨op, .s1, o⟩ :: r) (target : Byte) (payload : List Byte) (ack : Bool) :
    Path i (Back r) s (transmitProgram target payload ack s) := by
  unfold transmitProgram
  split
  · exact (below h).retHere _ fun _ _ _ h => h
  · rename_i hne
    have h1 := (below (i := i) h).micro .s2 (C' := Holds r (clipPayload payload))
      (f := fun s => s.setLocals fun o =>
        { o with p := clipPayload payload, fa := fullAddress target s.mask })
      fun y h => Path.setLocals h fun _ _ _ h => ⟨h, rfl⟩
    have h4 := triggerTransmit_runs ack (clipPayload_bounds (p := payload) (by simpa using hne))
      (divertPipe0_runs ack (setTxAddress_runs h1))
    exact (restoreState_runs ((pollLoop_runs _ h4).setCeStep .s11 false)).ret _ fun _ _ _ h => h

/-- And the byte count of its payload read, at most `n`. -/
abbrev Counts (r : List Frame) (n : Nat) : Locals → List Frame → Shadow → Prop :=
  fun o r' _ => r' = r ∧ o.n ≤ n

theorem read_runs {s : State} {op : Instr} {o : Locals} {r : List Frame}
    (h : s.seq = ⟨op, .s1, o⟩ :: r) (b : BufId) (cap : Nat) :
    Path i (Back r) s (readProgram b cap s) := by
  have h2 := ((below (i := i) h).setCeStep .s2 false).micro .s3 (C' := Below r)
    (f := fun s =>
      let s := s.rRxPlWid
      s.setLocals fun o => { o with w := s.busIn.headD 0 })
    fun y h => ⟨(Runs.single (.rRxPlWid y)).step (.setLocals _ _),
      .inr ((h.of_eq (by simp) (by simp)).setLocals fun _ _ _ h => h)⟩
  have h3 := h2.micro .s4 (C' := Counts r 255)
    (f := fun s => s.setLocals fun o => { o with n := min o.w.toNat cap })
    fun y h => Path.setLocals h fun o _ _ h => ⟨h, by
      have := o.w.isLt
      dsimp only
      omega⟩
  have h4 := h3.micro Label.s4.succ (C' := Below r)
    (f := fun s =>
      let s := s.rRxPayload s.locals.n
      s.setLocals fun o => { o with d := s.busIn })
    fun y h => by
      obtain ⟨r', -, e⟩ := h.locals
      exact ⟨(Runs.single (.rRxPayload _ y e)).step (.setLocals _ _),
        .inr (((h.weaken fun _ _ _ h => h.1).of_eq (by simp) (by simp)).setLocals
          fun _ _ _ h => h)⟩
  have h5 := h4.micro .s5 (C' := Below r) (f := fun s => s.memWrite b 0 s.locals.d)
    fun y h => Path.act h (.memWrite b 0 _ y) (by simp) (by simp)
  exact ((h5.writeFrom .s6 .status (v := fun _ => [irqRxDr]) rfl fun _ => rfl).setCeStep .s7
    true).ret _ fun _ _ _ h => h

theorem send_runs {s : State} {op : Instr} {o : Locals} {r : List Frame}
    (h : s.seq = ⟨op, .s1, o⟩ :: r) (target : Byte) (payload : List Byte) (want : Bool) :
    Path i (Back r) s (sendProgram target payload want s) := by
  have h1 := ((below (i := i) h).call Label.s1.succ
    (.transmit target payload s.sh.settings.ackEnabled)
    (fun y r' h _ => transmit_runs h target payload s.sh.settings.ackEnabled)
    fun _ _ _ _ _ h => h).micro .s2 (C' := Below r)
    (f := fun s => s.setLocals fun o => { o with ok := o.got.isTrue })
    fun y h => Path.setLocals h fun _ _ _ h => h
  exact (h1.micro .s3 (C' := Below r)
    (f := fun s =>
      if want then
        let s := s.rRegister .observeTx
        s.setLocals fun o => { o with c := s.busIn.headD 0 &&& 0x0F }
      else s)
    fun y h => by
      split
      · exact ⟨(Runs.single (.rRegister .observeTx y)).step (.setLocals _ _),
          .inr ((h.of_eq (by simp) (by simp)).setLocals fun _ _ _ h => h)⟩
      · exact .start h).ret _ fun _ _ _ h => h

theorem sendAndAwaitResponse_runs {s : State} {op : Instr} {o : Locals} {r : List Frame}
    (h : s.seq = ⟨op, .s1, o⟩ :: r) (target : Byte) (payload : List Byte) :
    Path i (Back r) s (sendAndAwaitResponseProgram target payload s) := by
  have h1 := (below (i := i) h).micro .s2 (C' := Below r) (f := State.flushRx)
    fun y h => Path.act h (.flushRx y) (by simp) (by simp)
  have h2 := (h1.call Label.s2.succ (.send target payload false)
    (fun y r' h _ => send_runs h target payload false) fun _ _ _ _ _ h => h).micro .s3
    (C' := Below r) (f := fun s => s.setLocals fun o => { o with ok := o.got.isTrue })
    fun y h => Path.setLocals h fun _ _ _ h => h
  unfold sendAndAwaitResponseProgram
  dsimp only
  split
  · exact h2.ret _ fun _ _ _ h => h
  · have h3 := h2.pass .s4
    split
    · exact h3.ret _ fun _ _ _ h => h
    · have h5 := (h3.pass .s5).statusInto .s6 fun _ _ _ _ h => h
      split
      · exact h5.ret _ fun _ _ _ h => h
      · exact (((h5.pass .s7).call Label.s7.succ (.read sarCapacity)
          (fun y r' h _ => read_runs h .respBuf sarCapacity) fun _ _ _ _ _ h => h).micro .s8
          (C' := Below r) (f := fun s => s.setLocals fun o => { o with n := o.got.countOf })
          fun y h => Path.setLocals h fun _ _ _ h => h).ret _ fun _ _ _ h => h

theorem readText_runs {s : State} {op : Instr} {o : Locals} {r : List Frame}
    (h : s.seq = ⟨op, .s1, o⟩ :: r) (cap : Nat) : Path i (Back r) s (readTextProgram cap s) := by
  unfold readTextProgram
  split
  · exact (below h).retHere _ fun _ _ _ h => h
  · have h1 := (((below (i := i) h).pass .s2).call Label.s2.succ (.read (cap - 1))
      (fun y r' h _ => read_runs h .readBuf (cap - 1)) fun _ _ _ _ _ h => h).micro .s3
      (C' := Below r) (f := fun s => s.setLocals fun o => { o with n := o.got.countOf })
      fun y h => Path.setLocals h fun _ _ _ h => h
    exact (h1.micro .s4 (C' := Below r) (f := fun s => s.memWrite .readBuf s.locals.n [0x00])
      fun y h => Path.act h (.memWrite _ _ _ y) (by simp) (by simp)).ret _ fun _ _ _ h => h

theorem available_runs {s : State} {op : Instr} {o : Locals} {r : List Frame}
    (h : s.seq = ⟨op, .s1, o⟩ :: r) (want : Bool) :
    Path i (Back r) s (availableProgram want s) := by
  have h1 := (below (i := i) h).statusInto .s2 fun _ _ _ _ h => h
  unfold availableProgram
  dsimp only
  split
  · exact h1.ret _ fun _ _ _ h => h
  · exact ((h1.pass .s3).micro .s4 (C' := Below r)
      (f := fun s =>
        let s := s.rRxPlWid
        s.setLocals fun o => { o with w := s.busIn.headD 0 })
      fun y h => ⟨(Runs.single (.rRxPlWid y)).step (.setLocals _ _),
        .inr ((h.of_eq (by simp) (by simp)).setLocals fun _ _ _ h => h)⟩).ret _ fun _ _ _ h => h

theorem queueResponse_runs {s : State} {op : Instr} {o : Locals} {r : List Frame}
    (h : s.seq = ⟨op, .s1, o⟩ :: r) (payload : List Byte) :
    Path i (Back r) s (queueResponseProgram payload s) := by
  have h1 := (below (i := i) h).statusInto Label.s1.succ fun _ _ _ _ h => h
  unfold queueResponseProgram
  dsimp only
  split
  · exact h1.ret _ fun _ _ _ h => h
  · have h2 := (h1.pass .s2).micro .s3 (C' := Holds r (clipPayload payload))
      (f := fun s => s.setLocals fun o =>
        { o with p := clipPayload payload, entered := !s.sh.listening })
      fun y h => Path.setLocals h fun _ _ _ h => ⟨h, rfl⟩
    have h3 := (h2.micro Label.s3.succ (C' := Holds r (clipPayload payload))
      (f := fun s =>
        if s.locals.entered then
          let s := s.rRegister .config
          s.setLocals fun o => { o with cfg := s.busIn.headD 0 }
        else s)
      fun y h => by
        split
        · exact ⟨(Runs.single (.rRegister .config y)).step (.setLocals _ _),
            .inr ((h.of_eq (by simp) (by simp)).setLocals fun _ _ _ h => h)⟩
        · exact .start h).micro .s4 (C' := Holds r (clipPayload payload))
      (f := fun s =>
        if s.locals.entered then s.wRegister .config [withBits s.locals.cfg (pwrUp ||| primRx)]
        else s)
      fun y h => by
        split
        · exact Path.wRegister h rfl rfl
        · exact .start h
    have h4 := h3.micro .s5 (C' := Below r)
      (f := fun s => s.wAckPayload s.params.ackPpp s.locals.p)
      fun y h => by
        obtain ⟨r', -, e⟩ := h.locals
        rw [e]
        exact Path.act (h.weaken fun _ _ _ h => h.1)
          (.wAckPayload _ _ y (by simp [clipPayload])) (by simp) (by simp)
    exact (h4.micro .s6 (C' := Below r)
      (f := fun s => if s.locals.entered then s.wRegister .config [s.locals.cfg] else s)
      fun y h => by
        split
        · exact Path.wRegister h rfl rfl
        · exact .start h).ret _ fun _ _ _ h => h

theorem ofByte_has (v : ChipVariant) (b : Byte) :
    v.has ((DataRate.ofByte v b).getD .mbps1) = true := by
  cases v <;> unfold DataRate.ofByte <;> split <;> first | rfl | contradiction

/-- A setter: a run of micro-steps, then a shadow setting and the return. -/
theorem setter_runs {s t : State} {l : Label} {r : List Frame} (p : Path i (At l (Below r)) s t)
    (g : Settings → Settings)
    (hg : ∀ g', s.params.variant.has g'.dataRate = true →
      s.params.variant.has (g g').dataRate = true) :
    Path i (Back r) s (t.finish l (State.onSettings g)) :=
  p.stepAt_params fun y h e =>
    have q := Path.shadow (i := i) (C' := Below r) (g := fun h => { h with settings := g h.settings })
      h (fun _ _ _ _ hf => ⟨hf.1, hf.2.1, fun hd => by
        rw [e] at hf hd ⊢
        exact hg _ (hf.2.2 hd)⟩) fun _ _ _ h => h
    have b := Path.give (i := i) q.2 .none fun _ _ _ h => h
    ⟨q.1.trans b.runs, b.ends⟩

/-- The network mask is set. -/
abbrev Masked (r : List Frame) : Locals → List Frame → Shadow → Prop :=
  fun _ r' sh => r' = r ∧ sh.networkMask.isSome = true

/-- A setting within the initialization. -/
theorem initSetting_runs {s t : State} {l : Label} {r : List Frame}
    (p : Path i (At l (Masked r)) s t) (next : Label) (g : Params → Settings → Settings)
    (hg : ∀ p g', (g p g').dataRate = g'.dataRate ∨ (g p g').dataRate = p.defaultDr := by
      exact fun _ _ => .inl rfl) :
    Path i (At next (Masked r)) s (t.micro l next fun s => s.onSettings (g s.params)) :=
  p.micro next fun y h => Path.onSettings h
    (fun sh hf => ⟨hf.1, hf.2.1, fun hd => by
      rcases hg y.params sh.settings with e | e <;> simp only [e]
      · exact hf.2.2 hd
      · exact hd⟩) fun _ _ _ h => h

theorem initSettings_runs {s t : State} {r : List Frame} (mask : BitVec 32)
    (p : Path i (At .s1 (Below r)) s t) :
    Path i (At .s10 (Masked r)) s (initSettings mask t) := by
  have h3 := ((p.setCeStep .s2 false).modify .s3 .config (g := fun v => withoutBits v pwrUp) rfl rfl
    fun _ _ _ _ h => h).micro .s4 (C' := Masked r)
    (f := State.onShadow fun h => { h with networkMask := some mask })
    fun y h => Path.onShadow h (fun _ _ _ _ h => ⟨h.1, fun _ => rfl, h.2.2⟩) fun _ _ _ h => ⟨h, rfl⟩
  have h5 := initSetting_runs ((h3.delay .s5 tPor).writeFrom Label.s5.succ .setupRetr
    (v := fun s => [retryByte s.params.defaultArd s.params.defaultArc]) rfl fun _ => rfl) .s6
    fun p g => { g with retryDelay := p.defaultArd, retryCount := p.defaultArc }
  have h6 := fun x => initSetting_runs (h5.modify Label.s6.succ.succ .rfSetup
    (g := fun v => withField v paMask x) rfl rfl fun _ _ _ _ h => h) .s7
    fun p g => { g with paLevel := p.defaultPa }
  have h7 := fun x m y => initSetting_runs ((h6 x).modify Label.s7.succ.succ .rfSetup
    (g := fun v => withField v m y) rfl rfl fun _ _ _ _ h => h) .s8
    (fun p g => { g with dataRate := p.defaultDr }) fun _ _ => .inr rfl
  have h8 := fun x m y z => initSetting_runs ((h7 x m y).modify Label.s8.succ.succ .config
    (g := fun v => withField v crcMask z) rfl rfl fun _ _ _ _ h => h) .s9
    fun p g => { g with crc := Params.defaultCrc p }
  have h9 := fun x m y z => initSetting_runs ((h8 x m y z).writeFrom Label.s9.succ .rfCh
    (v := fun s => [s.params.defaultCh.setWidth 8]) rfl fun _ => rfl) .s10
    fun p g => { g with channel := p.defaultCh }
  exact h9 _ _ _ _

theorem initFeatures_runs {s t : State} {r : List Frame} (hi : ∃ m, i = .init m)
    (p : Path i (At .s10 (Masked r)) s t) :
    Path i (At .s19 (Masked r)) s (initFeatures t) := by
  have q1 := p.micro .s11 (C' := Masked r) (f := State.activate 0x73)
    fun y h => Path.act h (.activate y hi) (by simp) (by simp)
  have q2 := (((q1.writeFrom .s12 .feature (v := fun _ => [0x07]) rfl fun _ => rfl).writeFrom .s13
    .enAa (v := fun _ => [0x3F]) rfl fun _ => rfl).writeFrom .s14 .dynpd (v := fun _ => [0x3F])
    rfl fun _ => rfl).writeFrom .s15 .setupAw (v := fun _ => [0x03]) rfl fun _ => rfl
  have q3 := (q2.writeFrom .s16 .status (v := fun _ => [irqAll]) rfl fun _ => rfl).modify .s17
    .config (g := fun v => withoutBits v pwrUp) rfl rfl fun _ _ _ _ h => h
  exact (q3.micro .s18 (C' := Masked r) (f := State.onSettings fun g => { g with ackEnabled := true })
    fun y h => Path.onSettings h (fun _ hf => hf) fun _ _ _ h => h).flushBoth .s19

theorem init_runs {s : State} {op : Instr} {o : Locals} {r : List Frame}
    (h : s.seq = ⟨op, .s1, o⟩ :: r) (mask : BitVec 32) (hi : ∃ m, i = .init m) :
    Path i (Back r) s (initProgram mask s) :=
  (initFeatures_runs hi (initSettings_runs mask (below h))).finish (C' := Below r)
    (fun _ h => Path.shadow h (fun _ _ _ h hf => ⟨Nat.zero_le _, fun _ => h.2, hf.2.2⟩)
      fun _ _ _ h => h.1) fun _ _ _ h => h

theorem setOwnAddress_runs {s : State} {op : Instr} {o : Locals} {r : List Frame}
    (h : s.seq = ⟨op, .s1, o⟩ :: r) (node : Byte) :
    Path i (Back r) s (setOwnAddressProgram node s) := by
  have h1 := (below (i := i) h).micro .s2 (C' := Below r)
    (f := fun s => (s.onShadow fun h => { h with ownAddress := some node }).setLocals fun o =>
      { o with fa := fullAddress node s.mask })
    fun y h =>
      have q := Path.shadow (i := i) (C' := Below r)
        (g := fun h => { h with ownAddress := some node }) h (fun _ _ _ _ h => h) fun _ _ _ h => h
      ⟨q.1.step (.setLocals _ _), .inr (q.2.setLocals fun _ _ _ h => h)⟩
  have h3 := (h1.writeFrom .s3 .rxAddrP0 (v := fun s => s.locals.fa.toList) rfl
    fun _ => rfl).modify .s4 .enRxaddr (g := fun v => withBits v (erx 0)) rfl rfl
    fun _ _ _ _ h => h
  exact h3.finish (C' := Below r)
    (fun y h => Path.shadow h (fun _ _ _ _ h => h) fun _ _ _ h => h)
    fun _ _ _ h => h

theorem listenerReg_writable (k : Nat) (node : Byte) (m : BitVec 32) :
    (listenerReg k).isReserved = false ∧
      (listenerBytes k node m).length = (listenerReg k).width := by
  unfold listenerReg listenerBytes
  split <;> first | exact ⟨rfl, rfl⟩ | skip
  rename_i h _ _ _
  rw [if_neg h]
  exact ⟨rfl, rfl⟩

/-- The number of listeners stands. -/
abbrev Slots (r : List Frame) (k : Nat) : Locals → List Frame → Shadow → Prop :=
  fun _ r' sh => r' = r ∧ sh.extraPipes = k

/-- And the slot is the next one. -/
abbrev Slot (r : List Frame) (k : Nat) : Locals → List Frame → Shadow → Prop :=
  fun o r' sh => r' = r ∧ sh.extraPipes = k ∧ o.k = k

theorem listenToAddress_runs {s : State} {op : Instr} {o : Locals} {r : List Frame}
    (h : s.seq = ⟨op, .s1, o⟩ :: r) (node : Byte) :
    Path i (Back r) s (listenToAddressProgram node s) := by
  unfold listenToAddressProgram
  split
  · exact (below h).retHere _ fun _ _ _ h => h
  · rename_i hk
    have hk : s.sh.extraPipes ≠ numListeners := fun e => hk ⟨by simp [State.isAt, h], e⟩
    have h1 := (Path.start (i := i) (E := At .s1 (Slots r s.sh.extraPipes))
      ⟨op, o, r, h, rfl, rfl⟩).micro .s2 (C' := Slot r s.sh.extraPipes)
      (f := fun s => s.setLocals fun o => { o with k := s.sh.extraPipes })
      fun y hy => by
        obtain ⟨op', o', r', e1, e2, e3⟩ := hy
        exact ⟨.single (.setLocals _ y), .inr ⟨op', { o' with k := y.sh.extraPipes }, r',
          by simp [State.setLocals, e1], by simpa using ⟨e2, e3, e3⟩⟩⟩
    have h3 := (h1.micro .s3 (C' := Slot r s.sh.extraPipes)
      (f := fun s => s.wRegister (listenerReg s.locals.k) (listenerBytes s.locals.k node s.mask))
      fun y hy => Path.wRegister hy (listenerReg_writable _ node y.mask).1
        (listenerReg_writable _ node y.mask).2).readInto Label.s3.succ .enRxaddr
      (C' := Slot r s.sh.extraPipes) (put := fun x o => { o with v := x }) fun _ _ _ _ h => h
    have h4 := (h3.writeFrom .s4 .enRxaddr
      (v := fun s => [withBits s.locals.v (erx (s.locals.k + 1))]) rfl fun _ => rfl).micro .s5
      (C' := Below r)
      (f := fun s => s.onShadow fun h => { h with extraPipes := s.locals.k + 1 })
      fun y hy => by
        obtain ⟨r', -, e, e'⟩ := hy.locals
        rw [e']
        exact Path.onShadow hy
          (fun _ _ sh h hf => ⟨by
            have : sh.extraPipes = s.sh.extraPipes := h.2.1
            have hb := hf.1
            simp only [numListeners] at hk hb ⊢
            omega, hf.2⟩) fun _ _ _ h => h.1
    exact (h4.call .s6 .startListening (fun y r' h _ => startListening_runs h)
      fun _ _ _ _ _ h => h).ret _ fun _ _ _ h => h

theorem setActive_runs {s : State} {op : Instr} {o : Locals} {r : List Frame}
    (h : s.seq = ⟨op, .s1, o⟩ :: r) (b : Bool) : Path i (Back r) s (setActiveProgram b s) :=
  (((below h).modify .s2 .config (g := fun v => if b then withBits v pwrUp else withoutBits v pwrUp)
    rfl rfl fun _ _ _ _ h => h).delay .s3 tActivate).ret _ fun _ _ _ h => h

theorem isActive_runs {s : State} {op : Instr} {o : Locals} {r : List Frame}
    (h : s.seq = ⟨op, .s1, o⟩ :: r) : Path i (Back r) s (isActiveProgram s) :=
  ((below h).readInto .s2 .config (C' := Below r) (put := fun x o => { o with v := x })
    fun _ _ _ _ h => h).ret _ fun _ _ _ h => h

theorem stopListening_runs {s : State} {op : Instr} {o : Locals} {r : List Frame}
    (h : s.seq = ⟨op, .s1, o⟩ :: r) : Path i (Back r) s (stopListeningProgram s) :=
  ((((below h).modify .s2 .config (g := fun v => withoutBits v (pwrUp ||| primRx)) rfl rfl
    fun _ _ _ _ h => h).setCeStep .s3 false).flushBoth .s4).finish (C' := Below r)
    (fun _ h => Path.shadow h (fun _ _ _ _ h => h) fun _ _ _ h => h)
    fun _ _ _ h => h

theorem currentMode_runs {s : State} {op : Instr} {o : Locals} {r : List Frame}
    (h : s.seq = ⟨op, .s1, o⟩ :: r) : Path i (Back r) s (currentModeProgram s) :=
  ((((below h).readInto .s2 .config (C' := Below r) (put := fun x o => { o with cfg := x })
    fun _ _ _ _ h => h).micro .s3 (C' := Below r)
    (f := fun s => s.setLocals fun o => { o with ce := s.ce })
    fun _ h => Path.setLocals h fun _ _ _ h => h).readInto .s4 .fifoStatus (C' := Below r)
    (put := fun x o => { o with fs := x }) fun _ _ _ _ h => h).ret _ fun _ _ _ h => h

theorem broadcast_runs {s : State} {op : Instr} {o : Locals} {r : List Frame}
    (h : s.seq = ⟨op, .s1, o⟩ :: r) (payload : List Byte)
    (hi : s.sh.ownAddress = none → ∃ p, i = .broadcast p) :
    Path i (Back r) s (broadcastProgram payload s) := by
  unfold broadcastProgram
  split
  · rename_i ho
    cases hs : s.stopped with
    | true =>
      rw [here_stopped hs]
      exact ⟨.refl s, .inl hs⟩
    | false =>
      rw [here_eq hs (by simp [State.isAt, h])]
      exact ⟨.single (.raise s ho (hi ho)), .inl (by simp [State.stopped, State.raise, State.stop])⟩
  · exact (((below h).pass .s2).call .s3 (.transmit _ payload false)
      (fun y r' h _ => transmit_runs h _ payload false) fun _ _ _ _ _ h => h).ret _
      fun _ _ _ h => h

end

/-- A host operation is its program, issued; the program returns, whatever the environment does; and
arguments in range are in range. The run may be read as one of another operation `j`, if that may
do what `i` may. -/
theorem exec_returns (i j : Instr) (s : State) (hi : isHostOp i = true)
    (hj : (∃ m, i = .init m) → ∃ m, j = .init m)
    (hb : (∃ p, i = .broadcast p) → s.sh.ownAddress = none → ∃ p, j = .broadcast p) :
    ∃ (n a : Bool) (g : State → State),
      exec i s = s.issue i n a g ∧ g (s.issued i) = programOf [] i (s.issued i) ∧
        (s.seq = [] → Path j (Back []) (s.issued i) (g (s.issued i))) ∧
        (wellFormed i = true →
          (∀ dr, i = .setDataRate dr → s.params.variant = .nRF24L01 → dr.toNat ≤ 1) →
          a = true) := by
  have hq (hs : s.seq = []) : (s.issued i).seq = ⟨i, .s1, .fresh⟩ :: [] := by
    simp [State.issued, State.push, hs]
  have set : ∀ {u : State} {l : Label} (g : Settings → Settings)
      (_ : ∀ g', s.params.variant.has g'.dataRate = true →
        s.params.variant.has (g g').dataRate = true),
      Path j (At l (Below [])) (s.issued i) u →
      Path j (Back []) (s.issued i) (u.finish l (State.onSettings g)) :=
    fun g hg p => setter_runs p g hg
  cases i with
  | rRegister | wRegister | activate | rRxPlWid | rRxPayload | wTxPayload | wAckPayload
  | wTxPayloadNoack | flushTx | flushRx | nop => cases hi
  | init m => exact ⟨_, _, _, rfl, rfl, fun hs => init_runs (hq hs) m (hj ⟨m, rfl⟩), fun _ _ => rfl⟩
  | setOwnAddress n => exact ⟨_, _, _, rfl, rfl, fun hs => setOwnAddress_runs (hq hs) n, fun _ _ => rfl⟩
  | listenToAddress n => exact ⟨_, _, _, rfl, rfl, fun hs => listenToAddress_runs (hq hs) n, fun _ _ => rfl⟩
  | setActive b => exact ⟨_, _, _, rfl, rfl, fun hs => setActive_runs (hq hs) b, fun _ _ => rfl⟩
  | isActive => exact ⟨_, _, _, rfl, rfl, fun hs => isActive_runs (hq hs), fun _ _ => rfl⟩
  | startListening => exact ⟨_, _, _, rfl, rfl, fun hs => startListening_runs (hq hs), fun _ _ => rfl⟩
  | stopListening => exact ⟨_, _, _, rfl, rfl, fun hs => stopListening_runs (hq hs), fun _ _ => rfl⟩
  | currentMode => exact ⟨_, _, _, rfl, rfl, fun hs => currentMode_runs (hq hs), fun _ _ => rfl⟩
  | transmit a p k => exact ⟨_, _, _, rfl, rfl, fun hs => transmit_runs (hq hs) a p k, fun _ _ => rfl⟩
  | send a p w => exact ⟨_, _, _, rfl, rfl, fun hs => send_runs (hq hs) a p w, fun _ _ => rfl⟩
  | sendAndAwaitResponse a p =>
    exact ⟨_, _, _, rfl, rfl, fun hs => sendAndAwaitResponse_runs (hq hs) a p, fun _ _ => rfl⟩
  | broadcast p => exact ⟨_, _, _, rfl, rfl, fun hs => broadcast_runs (hq hs) p (hb ⟨p, rfl⟩), fun _ _ => rfl⟩
  | available w => exact ⟨_, _, _, rfl, rfl, fun hs => available_runs (hq hs) w, fun _ _ => rfl⟩
  | read c => exact ⟨_, _, _, rfl, rfl, fun hs => read_runs (hq hs) .readBuf c, fun _ _ => rfl⟩
  | readText c => exact ⟨_, _, _, rfl, rfl, fun hs => readText_runs (hq hs) c, fun _ _ => rfl⟩
  | queueResponse p => exact ⟨_, _, _, rfl, rfl, fun hs => queueResponse_runs (hq hs) p, fun _ _ => rfl⟩
  | setNetworkMask m =>
    exact ⟨_, _, _, rfl, rfl, fun hs => (below (hq hs)).finishHere (C' := Below [])
      (fun _ h => Path.shadow h (fun _ _ _ _ h => ⟨h.1, fun _ => rfl, h.2.2⟩) fun _ _ _ h => h)
      fun _ _ _ h => h, fun _ _ => rfl⟩
  | setChannel c =>
    exact ⟨_, _, _, rfl, rfl, fun hs =>
      set _ (fun _ h => h)
        ((below (hq hs)).writeFrom Label.s1.succ .rfCh (v := fun _ => [c]) rfl fun _ => rfl),
      fun h _ => by simpa [wellFormed] using h⟩
  | setRetries d c =>
    exact ⟨_, _, _, rfl, rfl, fun hs => set _ (fun _ h => h)
      ((below (hq hs)).writeFrom Label.s1.succ .setupRetr (v := fun _ => [retryByte (d.setWidth 4) (c.setWidth 4)]) rfl fun _ => rfl),
      fun h _ => by simpa [wellFormed] using h⟩
  | setDataRate d =>
    refine ⟨_, _, _, rfl, rfl, fun hs => set _ (fun _ _ => ofByte_has _ d)
      ((below (hq hs)).modify Label.s1.succ.succ .rfSetup (g := fun v => withField v (drMask s.params.variant)
        ((DataRate.ofByte s.params.variant d).getD .mbps1).code) rfl rfl fun _ _ _ _ h => h),
      fun h hv => ?_⟩
    have h2 : d.toNat ≤ 2 := by simpa [wellFormed] using h
    have hd : d = 0 ∨ d = 1 ∨ d = 2 := by
      rcases Nat.lt_or_ge d.toNat 1 with h | h
      · exact .inl (BitVec.eq_of_toNat_eq (by simp; omega))
      · rcases Nat.lt_or_ge d.toNat 2 with h | h
        · exact .inr (.inl (BitVec.eq_of_toNat_eq (by simp; omega)))
        · exact .inr (.inr (BitVec.eq_of_toNat_eq (by simp; omega)))
    rcases hd with rfl | rfl | rfl
    · rfl
    · rfl
    · cases h : s.params.variant with
      | nRF24L01 => exact absurd (hv _ rfl h) (by decide)
      | nRF24L01P => rfl
  | setPALevel l =>
    refine ⟨_, _, _, rfl, rfl, fun hs => set _ (fun _ h => h)
      ((below (hq hs)).modify Label.s1.succ.succ .rfSetup (g := fun v => withField v paMask ((PaLevel.ofByte l).getD .m18).code) rfl rfl
      fun _ _ _ _ h => h), fun h _ => ?_⟩
    exact (by decide : ∀ l : Byte, decide (l.toNat ≤ 3) = true → (PaLevel.ofByte l).isSome = true)
      l h
  | setCRC m =>
    refine ⟨_, _, _, rfl, rfl, fun hs => set _ (fun _ h => h)
      ((below (hq hs)).modify Label.s1.succ.succ .config (g := fun v => withField v crcMask ((CrcMode.ofByte m).getD .off).code) rfl rfl
      fun _ _ _ _ h => h), fun h _ => ?_⟩
    exact (by decide : ∀ m : Byte, decide (m.toNat ≤ 2) = true → (CrcMode.ofByte m).isSome = true)
      m h
  | setAckEnabled b => exact ⟨_, _, _, rfl, rfl, fun hs => (below (hq hs)).finishHere (C' := Below [])
      (fun _ h => Path.shadow h (fun _ _ _ _ h => h) fun _ _ _ h => h)
      fun _ _ _ h => h, fun _ _ => rfl⟩
  | assembleFullAddress n =>
    exact ⟨_, _, _, rfl, rfl, fun hs => (below (hq hs)).retHere _ fun _ _ _ h => h, fun _ _ => rfl⟩
  | decomposeAddress a =>
    exact ⟨_, _, _, rfl, rfl, fun hs => (below (hq hs)).retHere _ fun _ _ _ h => h, fun _ _ => rfl⟩

/-- A host operation that answers a next state has run: from its start to that state, whatever the
environment did. -/
theorem exec_runs {i : Instr} {s t : State} (hi : isHostOp i = true) (ht : exec i s = .next t) :
    Runs i (s.issued i) t ∧ t.marks = none ∧ t.seq = [] ∧ s.seq = [] := by
  obtain ⟨n, a, g, he, -, q, -⟩ := exec_returns i i s hi id fun h _ => h
  rw [he] at ht
  unfold State.issue at ht
  split at ht
  · cases ht
  · rename_i hs
    have hs : s.seq = [] := by simpa using hs
    replace q := q hs
    split at ht
    · cases ht
    · split at ht
      · cases ht
      · change (g (s.issued i)).outcome = _ at ht
        revert q ht
        generalize g (s.issued i) = x
        intro q ht
        unfold State.outcome at ht
        split at ht
        · rename_i hm
          injection ht with e
          subst e
          refine ⟨q.runs, hm, q.ends.elim (fun e => ?_) fun ⟨v, e⟩ => e, hs⟩
          simpa [State.stopped, hm] using e
        · cases ht
        · cases ht

end Sys2Proof.Machine
end

