-- ==== Sys2Proof/Tests/Slice0.lean ====
section
/-! SUPPORT. Tests: ill-formed instructions, words written out from the encoding tables, the vectors of
95_test_vectors.md, and a witness for every statement that has hypotheses. Expected values are the
spec's vectors (their names are in the comments) or worked out by hand from the rule named. -/

namespace Sys2Proof.Tests

-- One test after another: side by side they would hold one stack each while they wait.
set_option Elab.async false

open Sys2Proof Sys2Proof.Machine

/-! ## The test instance (95_test_vectors.md, section 0) -/

def params : Params :=
  ⟨true, .nRF24L01, false, .anyPipe, 1, .any, .free, 15, 15, .p0, .mbps1, true, 76⟩

/-- After BlockPowerOn, with a low CE and an environment that does nothing. -/
def atPowerOn : State :=
  { State.reset with
    params := params, chip := Chip.reset .nRF24L01, ce := false, env := [],
    sh := Shadow.reset ⟨.crc8, .mbps1, .m18, 0, 0, 0, false⟩ }

/-- The registers at the end of INIT-1. -/
def chipAfterInit : Chip :=
  { Chip.reset .nRF24L01 with
    config := 0x0C, setupRetr := 0xFF, rfCh := 0x4C, rfSetup := 0x07, dynpd := 0x3F,
    feature := 0x07, featuresUnlocked := true }

/-- The end state of INIT-1. -/
def afterInit : State :=
  { atPowerOn with
    chip := chipAfterInit,
    sh := ⟨true, some 0xAABBCCDD, none, ⟨.crc16, .mbps1, .p0, 76, 15, 15, true⟩, false, none,
      none, 0⟩ }

/-- `A(n)`. -/
def a (n : Byte) : Addr := ⟨n, 0xDD, 0xCC, 0xBB, 0xAA⟩

/-- After `setOwnAddress 0x01` (ADR-2). -/
def afterOwn : State :=
  { afterInit with
    chip := { chipAfterInit with rxAddrP0 := a 0x01 },
    sh := { afterInit.sh with ownAddress := some 0x01, rxP0Cache := some (a 0x01) } }

/-- Listening on pipe 1 for node 0x02 (the start of RAD-11, and P1 after step 3). -/
def listening : State :=
  { afterOwn with
    chip := { afterOwn.chip with config := 0x0F, rxAddrP1 := a 0x02 }, ce := true,
    sh := { afterOwn.sh with listening := true, extraPipes := 1 } }

/-- Ready to transmit one packet to node 0x02 that asks for an acknowledgment (the start of RAD-2). -/
def sending : State :=
  { afterOwn with
    chip := { afterOwn.chip with
      config := 0x0E, rxAddrP0 := a 0x02, txAddr := a 0x02, txf := [⟨[0x41], false, none⟩] },
    ce := true }

/-- The same environment move at each of the next `n` micro-steps; a move has no effect where it is not
enabled. -/
def each (n : Nat) (m : EnvMove) : List (List EnvMove) := List.replicate n [m]

/-- The next state, if there is one. -/
def next (i : Instr) (s : State) : Option State :=
  match exec i s with
  | .next t => some t
  | _ => none

/-- The refusal, if it is one. -/
def refused (i : Instr) (s : State) : Option Refusal :=
  match exec i s with
  | .refused r => some r
  | _ => none

/-- The bytes out of the transactions and the levels of CE, the oldest first; a level is written as
a list of one element more than a byte holds. -/
def trace (t : State) : List (List Nat) :=
  t.busLog.reverse.map fun e =>
    match e with
    | .xfer out _ _ => out.map BitVec.toNat
    | .ce v => [if v then 257 else 256]

/-- The status bytes, the oldest first. -/
def statuses (t : State) : List Byte :=
  t.busLog.reverse.filterMap fun e =>
    match e with
    | .xfer _ st _ => some st
    | .ce _ => none

/-- The result and the trace of an operation. -/
def ran (i : Instr) (s : State) : Option (Result × List (List Nat)) :=
  (next i s).map fun t => (t.host.result, trace t)

/-! ## Ill-formed instructions -/

theorem test_wellFormed_bus :
    wellFormed (.wRegister .rsv18 [0]) = false ∧ wellFormed (.wRegister .rxAddrP0 [1, 2, 3]) = false ∧
    wellFormed (.rRxPayload 256) = false ∧ wellFormed (.wTxPayload []) = false ∧
    wellFormed (.wTxPayload (List.replicate 33 0)) = false ∧
    wellFormed (.wTxPayloadNoack []) = false ∧
    wellFormed (.wTxPayloadNoack (List.replicate 33 0)) = false ∧
    wellFormed (.wAckPayload 6 []) = false ∧
    wellFormed (.wAckPayload 5 (List.replicate 33 0)) = false := by decide

theorem test_wellFormed_ops :
    wellFormed (.setChannel 128) = false ∧ wellFormed (.setRetries 16 0) = false ∧
    wellFormed (.setRetries 0 16) = false ∧ wellFormed (.setDataRate 3) = false ∧
    wellFormed (.setPALevel 4) = false ∧ wellFormed (.setCRC 3) = false ∧
    wellFormed (.read 256) = false ∧ wellFormed (.readText 256) = false := by decide

theorem test_wellFormed_payloads :
    wellFormed (.transmit 0 (List.replicate 256 0) true) = false ∧
    wellFormed (.send 0 (List.replicate 256 0) true) = false ∧
    wellFormed (.sendAndAwaitResponse 0 (List.replicate 256 0)) = false ∧
    wellFormed (.broadcast (List.replicate 256 0)) = false ∧
    wellFormed (.queueResponse (List.replicate 256 0)) = false := by
  decide +kernel

/-! ## Words from the encoding tables (30_encoding.md R112, R113, R119) -/

/-- 000AAAAA and 001AAAAA, with A = 0x17, 0x07, 0x1D, 0x1F and 0x10 (ENC-2 to ENC-5). -/
theorem test_words_registers :
    decode ⟨.bus, [0b00010111, 0]⟩ = .ok (.rRegister .fifoStatus) ∧
    decode ⟨.bus, [0b00011111, 0]⟩ = .ok (.rRegister .rsv1F) ∧
    decode ⟨.bus, [0b00100111, 0x70]⟩ = .ok (.wRegister .status [0x70]) ∧
    decode ⟨.bus, [0b00111101, 0x07]⟩ = .ok (.wRegister .feature [0x07]) ∧
    decode ⟨.bus, [0b00110000, 1, 2, 3, 4, 5]⟩ = .ok (.wRegister .txAddr [1, 2, 3, 4, 5]) := by
  decide

/-- The other bus commands (ENC-7 to ENC-15). -/
theorem test_words_bus :
    decode ⟨.bus, [0b01010000, 0x73]⟩ = .ok (.activate 0x73) ∧
    decode ⟨.bus, [0b01100000, 0xFF]⟩ = .ok .rRxPlWid ∧
    decode ⟨.bus, [0b01100001, 0xFF, 0xFF]⟩ = .ok (.rRxPayload 2) ∧
    decode ⟨.bus, [0b10100000, 0x41]⟩ = .ok (.wTxPayload [0x41]) ∧
    decode ⟨.bus, [0b10101000]⟩ = .ok (.wAckPayload 0 []) ∧
    decode ⟨.bus, [0b10101101, 0x41]⟩ = .ok (.wAckPayload 5 [0x41]) ∧
    decode ⟨.bus, [0b10110000, 0x41]⟩ = .ok (.wTxPayloadNoack [0x41]) ∧
    decode ⟨.bus, [0b11100001]⟩ = .ok .flushTx ∧ decode ⟨.bus, [0b11100010]⟩ = .ok .flushRx ∧
    decode ⟨.bus, [0b11111111]⟩ = .ok .nop := by decide

/-- ENC-6, ENC-13, ENC-16 to ENC-19. -/
theorem test_words_bus_refused :
    refused (.wRegister .rsv18 [0]) afterInit = some .reservedRegisterWrite ∧
    decode ⟨.bus, [0x38, 0]⟩ = .ok (.wRegister .rsv18 [0]) ∧
    decode ⟨.bus, [0xAE]⟩ = .error .badAckPipe ∧
    decode ⟨.bus, [0xE3]⟩ = .error .unadmittedCommand ∧
    decode ⟨.bus, [0x40]⟩ = .error .unadmittedCommand ∧
    decode ⟨.bus, [0xFE]⟩ = .error .unadmittedCommand ∧
    decode ⟨.bus, 0xA0 :: List.replicate 33 0⟩ = .error .badDataLength ∧
    decode ⟨.bus, [0x2A, 1, 2, 3]⟩ = .error .badDataLength := by decide

/-- Initialization, addressing and mode control (ENC-20, ENC-29, R119's op bytes). -/
theorem test_words_modes :
    decode ⟨.op, [0x01, 0xDD, 0xCC, 0xBB, 0xAA]⟩ = .ok (.init 0xAABBCCDD) ∧
    decode ⟨.op, [0x02, 0x01]⟩ = .ok (.setOwnAddress 0x01) ∧
    decode ⟨.op, [0x03, 0x02]⟩ = .ok (.listenToAddress 0x02) ∧
    decode ⟨.op, [0x04, 0x01]⟩ = .ok (.setActive true) ∧
    decode ⟨.op, [0x05]⟩ = .ok .isActive ∧ decode ⟨.op, [0x06]⟩ = .ok .startListening ∧
    decode ⟨.op, [0x07]⟩ = .ok .stopListening ∧ decode ⟨.op, [0x08]⟩ = .ok .currentMode ∧
    decode ⟨.op, [0x30, 0x02]⟩ = .ok (.assembleFullAddress 0x02) ∧
    decode ⟨.op, [0x31, 0x01, 0xDD, 0xCC, 0xBB, 0xAA]⟩ = .ok (.decomposeAddress (a 0x01)) := by
  decide

/-- Transmission and reception (ENC-21 to ENC-23, R119's op bytes). -/
theorem test_words_payloads :
    decode ⟨.op, [0x10, 0x02, 0x01, 0x03, 0x68, 0x69, 0x00]⟩ =
      .ok (.transmit 0x02 [0x68, 0x69, 0x00] true) ∧
    decode ⟨.op, [0x10, 0x02, 0x00, 0x01, 0x55]⟩ = .ok (.transmit 0x02 [0x55] false) ∧
    decode ⟨.op, [0x10, 0x02, 0x03, 0x01, 0x55]⟩ = .error .unknownHostOp ∧
    decode ⟨.op, [0x11, 0x02, 0x01, 0x01, 0x41]⟩ = .ok (.send 0x02 [0x41] true) ∧
    decode ⟨.op, [0x12, 0x02, 0x01, 0x41]⟩ = .ok (.sendAndAwaitResponse 0x02 [0x41]) ∧
    decode ⟨.op, [0x13, 0x01, 0x55]⟩ = .ok (.broadcast [0x55]) ∧
    decode ⟨.op, [0x18, 0x01]⟩ = .ok (.available true) ∧
    decode ⟨.op, [0x19, 0x0A]⟩ = .ok (.read 10) ∧ decode ⟨.op, [0x1A, 0x0A]⟩ = .ok (.readText 10) ∧
    decode ⟨.op, [0x1B, 0x02, 0x4F, 0x4B]⟩ = .ok (.queueResponse [0x4F, 0x4B]) := by decide

/-- The setters (ENC-24, ENC-28, section 2.8's bytes). -/
theorem test_words_setters :
    decode ⟨.op, [0x20, 0x44, 0x33, 0x22, 0x11]⟩ = .ok (.setNetworkMask 0x11223344) ∧
    decode ⟨.op, [0x21, 0x7F]⟩ = .ok (.setChannel 127) ∧
    decode ⟨.op, [0x22, 0xF3]⟩ = .ok (.setRetries 15 3) ∧
    decode ⟨.op, [0x23, 0x02]⟩ = .ok (.setDataRate 2) ∧
    decode ⟨.op, [0x24, 0x00]⟩ = .ok (.setPALevel 0) ∧
    decode ⟨.op, [0x25, 0x01]⟩ = .ok (.setCRC 1) ∧
    decode ⟨.op, [0x26, 0x00]⟩ = .ok (.setAckEnabled false) ∧
    decode ⟨.op, [0x09]⟩ = .error .unknownHostOp := by decide

/-- The opcode table's numbering: the second byte is bits 15 to 8; bytes beyond the word are 0. -/
theorem test_table_words :
    decodeTableWord 16 0x0A19 = some (.read 10) ∧ decodeTableWord 8 0xFF = some .nop ∧
    decodeTableWord 8 0x3D = some (.wRegister .feature [0]) ∧
    decodeTableWord 8 0x10 = some (.transmit 0 [] false) ∧
    decodeTableWord 8 0xA0 = some (.wTxPayload [0]) := by decide +kernel

/-- A placed word is the next step's instruction (here `decomposeAddress`, before any init: ENC-29). -/
theorem test_placed_word :
    (match step (atPowerOn.withFetchWord 48 0xAABBCCDD0131) with
      | .next t => t.host.result
      | _ => .none) = .nodeMask 0x01 0xAABBCCDD := by decide +kernel

/-- A state within isActive, after its read, goes on at S2 and is idle again (10_state.md R22); and the
host's bytes are never a bus command: 0xFF, the NOP of the bus, is no operation (20_memory.md R81). -/
theorem test_resume :
    (match step { afterInit with
        seq := [⟨.isActive, .s2, { Locals.fresh with v := 0x0E }⟩] } with
      | .next t => some (t.host.result, trace t, t.seq.isEmpty)
      | _ => none) = some (.bool true, [], true) ∧
    (match step { afterInit with host.inbox := [some [0xFF]] } with
      | .refused r => some r
      | _ => none) = some .unknownHostOp := by decide +kernel

/-! ## Bus commands (95_test_vectors.md, section 2.2)

The dummy bytes of a read are zeros here, FF in the vectors; their value has no effect. -/

/-- The chip after an instruction. -/
def chipAfter (i : Instr) (c : Chip) : Option Chip :=
  (next i { afterInit with chip := c }).map State.chip

/-- BUS-1, and BUS-22's read: a locked FEATURE reads 0. -/
theorem test_rRegister :
    (next (.rRegister .config) atPowerOn).map (fun t => (t.busStatus, t.busIn)) =
      some (0x0E, [0x08]) ∧
    (next (.rRegister .feature)
      { afterInit with chip.featuresUnlocked := false }).map State.busIn = some [0x00] := by
  decide

/-- BUS-2, BUS-3: STATUS is write-one-to-clear. -/
theorem test_wRegister_status :
    let c := { chipAfterInit with rxDr := true, txDs := true, maxRt := true }
    c.status = 0x7E ∧ (chipAfter (.wRegister .status [0x40]) c).map Chip.status = some 0x3E ∧
    (chipAfter (.wRegister .status [0x00]) c).map Chip.status = some 0x7E := by decide

/-- BUS-4, BUS-5, BUS-22. -/
theorem test_wRegister_masks :
    (chipAfter (.wRegister .config [0xFF]) chipAfterInit).map Chip.config = some 0x7F ∧
    (chipAfter (.wRegister .rfCh [0x80]) { chipAfterInit with plosCnt := 7 }).map
      (fun c => (c.rfCh, c.plosCnt)) = some (0x00, 0) ∧
    (chipAfter (.wRegister .feature [0x07]) (Chip.reset .nRF24L01)).map Chip.feature =
      some 0x00 := by decide

/-- BUS-19 to BUS-21. -/
theorem test_activate :
    (chipAfter (.activate 0x73) (Chip.reset .nRF24L01)).map Chip.featuresUnlocked = some true ∧
    (chipAfter (.activate 0x73) chipAfterInit).map Chip.featuresUnlocked = some false ∧
    (chipAfter (.activate 0x00) (Chip.reset .nRF24L01)).map Chip.featuresUnlocked = some false ∧
    (next (.activate 0x73) { afterInit with params.variant := .nRF24L01P }).map
      (fun t => t.chip.featuresUnlocked) = some true := by decide

/-- BUS-6. -/
theorem test_rRxPlWid :
    (next .rRxPlWid { afterInit with
      chip.rxf := [⟨1, [0x41, 0x42, 0x43, 0x44, 0x45]⟩] }).map State.busIn = some [0x05] := by
  decide

/-- BUS-8 to BUS-10. -/
theorem test_rRxPayload :
    (next (.rRxPayload 5) { afterInit with
      chip.rxf := [⟨1, [0x41, 0x42, 0x43, 0x44, 0x45]⟩] }).map
        (fun t => (t.busIn, t.chip.rxf)) = some ([0x41, 0x42, 0x43, 0x44, 0x45], []) ∧
    (next (.rRxPayload 3) { afterInit with
      chip.rxf := [⟨1, [0x41, 0x42, 0x43, 0x44, 0x45]⟩] }).map State.busIn =
        some [0x41, 0x42, 0x43] ∧
    (next (.rRxPayload 4) { afterInit with chip.rxf := [⟨1, [0x41, 0x42]⟩] }).map
      (fun t => (t.busIn.take 2, t.busIn.length, t.chip.rxf)) = some ([0x41, 0x42], 4, []) := by
  decide

/-- BUS-13, and a payload behind one that waits (R144). -/
theorem test_wTxPayload :
    let e : TxEntry := ⟨[0x40], false, none⟩
    (chipAfter (.wTxPayload [0x41]) { chipAfterInit with txf := [e, e, e] }).map Chip.txf =
      some [e, e, e] ∧
    (chipAfter (.wTxPayload [0x41]) { chipAfterInit with txf := [e] }).map Chip.txf =
      some [e, ⟨[0x41], false, none⟩] := by decide

/-- BUS-16, BUS-17. -/
theorem test_wAckPayload :
    (chipAfter (.wAckPayload 1 [0x4F, 0x4B]) chipAfterInit).map Chip.txf = some [] ∧
    (chipAfter (.wAckPayload 1 [0x4F, 0x4B]) { chipAfterInit with config := 0x0F }).map Chip.txf =
      some [⟨[0x4F, 0x4B], false, some 1⟩] := by decide

/-- BUS-14, BUS-15. -/
theorem test_wTxPayloadNoack :
    (chipAfter (.wTxPayloadNoack [0x41]) chipAfterInit).map Chip.txf =
      some [⟨[0x41], true, none⟩] ∧
    (chipAfter (.wTxPayloadNoack [0x41]) (Chip.reset .nRF24L01)).map Chip.txf = some [] := by
  decide

/-- BUS-24. -/
theorem test_flushTx :
    (chipAfter .flushTx { chipAfterInit with
      txf := [⟨[0x41], false, none⟩, ⟨[0x42], false, none⟩] }).map
        (fun c => (c.txf, c.fifoStatus)) = some ([], 0x11) := by decide

/-- BUS-11, BUS-12. -/
theorem test_flushRx :
    (chipAfter .flushRx { chipAfterInit with
      rxf := [⟨1, [0x41]⟩], rxDr := true, rxCorrupt := true }).map
        (fun c => (c.rxf, c.rxCorrupt, c.status)) = some ([], false, 0x4E) := by decide

/-- BUS-23. -/
theorem test_nop :
    (next .nop { afterInit with chip.txDs := true }).map (fun t => (t.busStatus, t.chip.status)) =
      some (0x2E, 0x2E) := by decide

/-! ## The radio core (section 2.3) -/

/-- RAD-1, RAD-2: a success at the first attempt. -/
theorem test_attempt_succeeds :
    (({ sending with chip.txf := [⟨[0x41], true, none⟩] } : State).txAttempt .lost).chip =
      { sending.chip with txf := [], txDs := true } ∧
    (sending.txAttempt (.acked none)).chip = { sending.chip with txf := [], txDs := true } := by
  decide

/-- RAD-3: an acknowledgment payload after a lost attempt. -/
theorem test_attempt_ack_payload :
    ((sending.txAttempt .lost).txAttempt (.acked (some [0x4F, 0x4B]))).chip =
      { sending.chip with
        txf := [], txDs := true, rxDr := true, rxf := [⟨0, [0x4F, 0x4B]⟩], arcCnt := 1 } := by
  decide

/-- RAD-4, RAD-9: no retransmission allowed; PLOS_CNT stays at 15. -/
theorem test_attempt_exhausted :
    (({ sending with chip.setupRetr := 0xF0 } : State).txAttempt .lost).chip =
      { sending.chip with setupRetr := 0xF0, maxRt := true, plosCnt := 1 } ∧
    (({ sending with chip := { sending.chip with setupRetr := 0xF0, plosCnt := 15 } } :
      State).txAttempt .lost).chip.plosCnt = 15 := by decide

/-- RAD-5 to RAD-7: 16 lost attempts, then nothing until MAX_RT is cleared. -/
theorem test_attempts_lost :
    let s := applyMoves (List.replicate 16 (.txAttempt .lost)) sending
    s.chip.maxRt = true ∧ s.chip.observeTx = 0x1F ∧ s.txAttempt .lost = s ∧
    ((s.wRegister .status [0x10]).txAttempt .lost).chip.arcCnt = 1 := by decide

/-- RAD-8: without the acknowledgment's address on pipe 0 every attempt is lost. -/
theorem test_attempt_wrong_pipe0 :
    (({ sending with chip.rxAddrP0 := a 0x01 } : State).txAttempt (.acked none)).chip =
      { sending.chip with rxAddrP0 := a 0x01, txActive := true, arcCnt := 1 } := by decide

/-- RAD-10: with CE low, a cycle may go on or be abandoned. -/
theorem test_abandon :
    let s : State := { sending with ce := false, chip.txActive := true }
    s.attemptDue = true ∧ s.txAbandon.chip = sending.chip := by decide

/-- RAD-11, RAD-12, RAD-14: a packet, one for nobody, a duplicate. -/
theorem test_receive :
    (listening.receive ⟨a 0x02, [0x41], false, false⟩ 0).chip =
      { listening.chip with rxf := [⟨1, [0x41]⟩], rxDr := true } ∧
    listening.receive ⟨a 0x03, [0x41], false, false⟩ 0 = listening ∧
    listening.receive ⟨a 0x02, [0x41], false, true⟩ 0 = listening := by decide

/-- RAD-13: a full RXF. -/
theorem test_receive_full :
    let s : State := { listening with chip.rxf := [⟨1, [1]⟩, ⟨1, [2]⟩, ⟨1, [3]⟩] }
    s.receive ⟨a 0x02, [0x41], false, false⟩ 0 = s := by decide

/-- RAD-15, RAD-16: pipe 2's address, and the choice between two pipes of one address. -/
theorem test_receive_pipes :
    let s : State := { listening with
      chip := { listening.chip with rxAddrP1 := a 0x10, rxAddrP2 := 0x11, enRxaddr := 0x07 } }
    let s2 : State := { listening with
      chip := { listening.chip with rxAddrP2 := 0x02, enRxaddr := 0x07 } }
    (s.receive ⟨a 0x11, [0x41], false, false⟩ 0).chip.rxf = [⟨2, [0x41]⟩] ∧
    (s2.receive ⟨a 0x02, [0x41], false, false⟩ 0).chip.rxf = [⟨1, [0x41]⟩] ∧
    (s2.receive ⟨a 0x02, [0x41], false, false⟩ 1).chip.rxf = [⟨2, [0x41]⟩] := by decide

/-- RAD-17, RAD-18: a staged payload leaves with the acknowledgment, or not, under perPipe. -/
theorem test_receive_ack_payload :
    let e : TxEntry := ⟨[0x4F, 0x4B], false, some 1⟩
    let f : TxEntry := ⟨[0x4F, 0x4B], false, some 3⟩
    (({ listening with chip.txf := [e] } : State).receive ⟨a 0x02, [0x41], false, false⟩ 0).chip =
      { listening.chip with rxf := [⟨1, [0x41]⟩], rxDr := true, txDs := true } ∧
    (({ listening with params.ackMatch := .perPipe, chip.txf := [f] } : State).receive
      ⟨a 0x02, [0x41], false, false⟩ 0).chip =
      { listening.chip with rxf := [⟨1, [0x41]⟩], rxDr := true, txf := [f] } := by decide

/-- RAD-19: locked features. -/
theorem test_receive_static :
    (({ listening with chip.featuresUnlocked := false } : State).receive
      ⟨a 0x02, [0x41], false, false⟩ 0).marks = some (.refusal .staticPayloadPipe) := by decide

/-! ## Initialization (section 2.10) -/

/-- INIT-1: the trace; every status byte is 0E. -/
theorem test_init_trace :
    (next (.init 0xAABBCCDD) atPowerOn).map (fun t => (trace t, statuses t)) =
      some ([[256], [0x00, 0], [0x20, 0x08], [0x24, 0xFF], [0x06, 0], [0x26, 0x0F], [0x06, 0],
        [0x26, 0x07], [0x00, 0], [0x20, 0x0C], [0x25, 0x4C], [0x50, 0x73], [0x3D, 0x07],
        [0x21, 0x3F], [0x3C, 0x3F], [0x23, 0x03], [0x27, 0x70], [0x00, 0], [0x20, 0x0C], [0xE2],
        [0xE1]], List.replicate 20 0x0E) := by decide +kernel

/-- INIT-1: the end state. RST-1: a second init locks the features of the nRF24L01. -/
theorem test_init_end :
    (next (.init 0xAABBCCDD) atPowerOn).map
      (fun t => (t.chip, t.sh, t.ce, decide (100000 ≤ t.now))) =
      some (chipAfterInit, afterInit.sh, false, true) ∧
    (next (.init 0xAABBCCDD) afterInit).map (fun t => t.chip.featuresUnlocked) = some false := by
  decide +kernel

/-! ## Addressing and mode control (sections 1, 2.4, 2.5) -/

/-- ADR-2. -/
theorem test_setOwnAddress :
    (next (.setOwnAddress 0x01) afterInit).map (fun t => (trace t, t.chip, t.sh)) =
      some ([[0x2A, 0x01, 0xDD, 0xCC, 0xBB, 0xAA], [0x02, 0], [0x22, 0x03]], afterOwn.chip,
        afterOwn.sh) := by decide +kernel

/-- EX-2's first row, EX-7 and P1 step 3. -/
theorem test_listenToAddress :
    ran (.listenToAddress 0x02) afterOwn =
      some (.slot 0, [[0x2B, 0x02, 0xDD, 0xCC, 0xBB, 0xAA], [0x02, 0], [0x22, 0x03], [0x00, 0],
        [0x20, 0x0F], [0x27, 0x70], [257], [0xE2], [0xE1]]) := by decide +kernel

/-- ADR-4 and EX-2's fifth and sixth rows: pipe 2 by its low byte, pipe 5, and no slot left. -/
theorem test_listenToAddress_slots :
    (ran (.listenToAddress 0x02) { afterOwn with sh.extraPipes := 1 }).map
      (fun r => (r.1, r.2.take 3)) = some (.slot 1, [[0x2C, 0x02], [0x02, 0], [0x22, 0x07]]) ∧
    (ran (.listenToAddress 0x14) { afterOwn with
      chip.enRxaddr := 0x1F, sh.extraPipes := 4 }).map (fun r => (r.1, r.2.take 3)) =
      some (.slot 4, [[0x2F, 0x14], [0x02, 0], [0x22, 0x3F]]) ∧
    ran (.listenToAddress 0x15) { afterOwn with sh.extraPipes := 5 } =
      some (.tooManyPipes, []) := by decide +kernel

/-- EX-3. -/
theorem test_setActive :
    (next (.setActive false) afterInit).map (fun t => (trace t, t.now)) =
      some ([[0x00, 0], [0x20, 0x0C]], 1500) ∧
    (next (.setActive true) afterInit).map (fun t => (trace t, t.now)) =
      some ([[0x00, 0], [0x20, 0x0E]], 1500) := by decide +kernel

/-- EX-3, MOD-11: what PWR_UP says. -/
theorem test_isActive :
    ran .isActive { afterInit with chip.config := 0x0E } = some (.bool true, [[0x00, 0]]) ∧
    ran .isActive { listening with chip.config := 0x0D } = some (.bool false, [[0x00, 0]]) := by
  decide +kernel

/-- MOD-1 and MOD-3: with pipe 0 at the own address, and diverted. -/
theorem test_startListening :
    ran .startListening afterOwn =
      some (.none, [[0x00, 0], [0x20, 0x0F], [0x27, 0x70], [257], [0xE2], [0xE1]]) ∧
    ran .startListening { afterOwn with
      chip.rxAddrP0 := a 0x02, sh.rxP0Cache := some (a 0x02) } =
      some (.none, [[0x00, 0], [0x20, 0x0F], [0x27, 0x70],
        [0x2A, 0x01, 0xDD, 0xCC, 0xBB, 0xAA], [257], [0xE2], [0xE1]]) := by decide +kernel

/-- MOD-2: without an own address. -/
theorem test_startListening_no_own :
    (next .startListening afterInit).map (fun t => (t.chip.rxAddrP0, t.chipMode, t.sh.listening)) =
      some (⟨0xE7, 0xE7, 0xE7, 0xE7, 0xE7⟩, .rx, true) := by decide +kernel

/-- MOD-4; and a packet that comes in while it runs (RAD-11) is flushed, the flags staying (R234). -/
theorem test_stopListening :
    (next .stopListening { listening with chip.rxf := [⟨1, [0x41]⟩] }).map
      (fun t => (trace t, t.chip.rxf, t.ce, t.sh.listening)) =
      some ([[0x00, 0], [0x20, 0x0C], [256], [0xE2], [0xE1]], [], false, false) ∧
    (next .stopListening { listening with
      env := [[.receive ⟨a 0x02, [0x41], false, false⟩ 0]], chip.maxRt := true }).map
      (fun t => (t.chip.rxDr, t.chip.maxRt, t.chip.rxf)) = some (true, true, []) := by
  decide +kernel

/-- MOD-5, MOD-6, MOD-10: the mode, and the power-down defect. -/
theorem test_currentMode :
    ran .currentMode afterOwn = some (.mode .powerDown, [[0x00, 0], [0x17, 0]]) ∧
    (ran .currentMode { afterOwn with params.pdCheckQuirk := true }).map Prod.fst =
      some (.mode .standby1) ∧
    (ran .currentMode listening).map Prod.fst = some (.mode .rx) ∧
    (ran .currentMode { afterOwn with
      params.pdCheckQuirk := true, chip := { afterOwn.chip with config := 0, enAa := 0 } }).map
        Prod.fst = some (.mode .powerDown) := by decide +kernel

/-- MOD-7 to MOD-9: the two standby modes, and a packet MAX_RT holds back. -/
theorem test_currentMode_standby :
    (ran .currentMode { sending with ce := false }).map Prod.fst = some (.mode .standby1) ∧
    (ran .currentMode { sending with chip.txf := [] }).map Prod.fst = some (.mode .standby2) ∧
    (ran .currentMode { sending with chip.maxRt := true }).map Prod.fst = some (.mode .tx) := by
  decide +kernel

/-! ## Transmission (section 2.6) -/

/-- The trace of TX-3's and TX-5's addressing. -/
def addressing : List (List Nat) :=
  [[0x30, 0x02, 0xDD, 0xCC, 0xBB, 0xAA], [0x2A, 0x02, 0xDD, 0xCC, 0xBB, 0xAA]]

/-- From S4 to the end, of a transmission that finds and leaves the chip powered down, of a payload
with command byte `c`. -/
def triggering (c : Nat) (d : List Nat) (polls : Nat) : List (List Nat) :=
  [[0x27, 0x70], [0x00, 0], [256], [0x20, 0x0E], c :: d, [257]] ++ List.replicate polls [0xFF] ++
    [[256], [0x00, 0], [0x20, 0x0C]]

/-- TX-3: acknowledged at once; TX-1: an empty payload. -/
theorem test_transmit :
    (next (.transmit 0x02 [0x41] true) { afterOwn with
      env := each 20 (.txAttempt (.acked none)) }).map
        (fun t => ((t.host.result, trace t), t.chip.rxAddrP0, t.chip.txf, t.chipMode)) =
      some ((.bool true, addressing ++ triggering 0xA0 [0x41] 1), a 0x02, [], .powerDown) ∧
    ran (.transmit 0x02 [] true) afterOwn = some (.bool false, []) := by decide +kernel

/-- TX-6 and P5 step 2: a radio core that takes no step. -/
theorem test_transmit_watchdog :
    (next (.transmit 0x02 [0x41] true) afterOwn).map
      (fun t => ((t.host.result, trace t), t.chip.txf, decide (500000 ≤ t.now),
        t.chip.observeTx)) =
      some ((.bool false, addressing ++ triggering 0xA0 [0x41] 1), [⟨[0x41], false, none⟩], true,
        0x00) := by decide +kernel

/-- TX-12: lost, then acknowledged; the count is ARC_CNT. -/
theorem test_send :
    ran (.send 0x02 [0x41] true) { afterOwn with
      env := List.replicate 15 [] ++ [[.txAttempt .lost, .txAttempt (.acked none)]] } =
      some (.sent true (some 1), addressing ++ triggering 0xA0 [0x41] 1 ++ [[0x08, 0]]) := by
  decide +kernel

/-- TX-13 and SET-13: without acknowledgments, no diversion and a no-ack payload. -/
theorem test_send_noack :
    ran (.send 0x02 [0x41] false) { afterOwn with
      sh.settings.ackEnabled := false, env := each 20 (.txAttempt .lost) } =
      some (.sent true none, addressing.take 1 ++ triggering 0xB0 [0x41] 1) := by decide +kernel

/-- P3 step 1: a reply comes with the acknowledgment. -/
theorem test_sendAndAwaitResponse :
    (next (.sendAndAwaitResponse 0x02 [0x41]) { afterOwn with
      env := each 20 (.txAttempt (.acked (some [0x4F, 0x4B]))) }).map
        (fun t => ((t.host.result, trace t), t.host.respBuf, t.chip.status, t.ce)) =
      some ((.received 2,
        [[0xE2]] ++ addressing ++ triggering 0xA0 [0x41] 1 ++
          [[0xFF], [256], [0x60, 0], [0x61, 0, 0], [0x27, 0x40], [257]]),
        [(0, 0x4F), (1, 0x4B)], 0x2E, true) := by decide +kernel

/-- TX-14 and TX-15: no reply, and no acknowledgment. -/
theorem test_sendAndAwaitResponse_none :
    (ran (.sendAndAwaitResponse 0x02 [0x41]) { afterOwn with
      env := each 20 (.txAttempt (.acked none)) }).map Prod.fst = some .sentNoPayload ∧
    (ran (.sendAndAwaitResponse 0x02 [0x41]) afterOwn).map Prod.fst = some .sendFailed := by
  decide +kernel

/-- TX-17: to the own address, without acknowledgment. -/
theorem test_broadcast :
    ran (.broadcast [0x55]) { afterOwn with env := each 20 (.txAttempt .lost) } =
      some (.bool true, [[0x30, 0x01, 0xDD, 0xCC, 0xBB, 0xAA]] ++ triggering 0xB0 [0x55] 1) := by
  decide +kernel

/-- TX-18 and EXC-1. -/
theorem test_broadcast_fault :
    (match exec (.broadcast [0x55]) afterInit with
      | .fault r => some r
      | _ => none) = some .ownAddressUnset := by decide +kernel

/-! ## Reception and the acknowledgment queue (section 2.7) -/

/-- RX-1 and RX-2. -/
theorem test_available :
    ran (.available true) listening = some (.available 0 none, [[0xFF]]) ∧
    ran (.available true) { listening with
      chip := { listening.chip with rxDr := true, rxf := [⟨1, [0x41, 0x42, 0x43]⟩] } } =
      some (.available 3 (some 1), [[0xFF], [0x60, 0]]) := by decide +kernel

/-- P1 step 6. -/
theorem test_read :
    (next (.read 10) { listening with
      chip := { listening.chip with
        rxDr := true, rxf := [⟨0, [0x52, 0x45, 0x50, 0x4C, 0x59]⟩] } }).map
        (fun t => (t.host.result, trace t, t.host.readBuf, t.chip.status)) =
      some (.count 5, [[256], [0x60, 0], [0x61, 0, 0, 0, 0, 0], [0x27, 0x40], [257]],
        [(0, 0x52), (1, 0x45), (2, 0x50), (3, 0x4C), (4, 0x59)], 0x0E) := by decide +kernel

/-- RX-6: the first of two entries; RX_DR is cleared although the second waits. -/
theorem test_read_one_of_two :
    (next (.read 10) { listening with
      chip := { listening.chip with rxDr := true, rxf := [⟨1, [0x41]⟩, ⟨1, [0x42]⟩] } }).map
        (fun t => (t.host.result, t.host.readBuf, t.chip.rxf, t.chip.status)) =
      some (.count 1, [(0, 0x41)], [⟨1, [0x42]⟩], 0x02) := by decide +kernel

/-- RX-9 and RX-10. -/
theorem test_readText :
    (next (.readText 10) { listening with
      chip := { listening.chip with rxDr := true, rxf := [⟨1, [0x68, 0x69, 0x00]⟩] } }).map
        (fun t => (t.host.result, t.host.readBuf)) =
      some (.count 3, [(0, 0x68), (1, 0x69), (2, 0x00), (3, 0x00)]) ∧
    ran (.readText 0) listening = some (.count 0, []) := by decide +kernel

/-- R284: the terminator goes just after the bytes, and the rest of the buffer stays. -/
theorem test_readText_keeps :
    (next (.readText 2) { listening with
      chip := { listening.chip with rxDr := true, rxf := [⟨1, [0x41]⟩] },
      host.readBuf := [(2, 0x7E)] }).map (fun t => (t.host.result, t.host.readBuf)) =
      some (.count 1, [(0, 0x41), (1, 0x00), (2, 0x7E)]) := by decide +kernel

/-- RX-12 and EX-6: listening, and with a full TXF. -/
theorem test_queueResponse :
    (next (.queueResponse [0x4F, 0x4B]) listening).map
      (fun t => (t.host.result, trace t, t.chip.txf)) =
      some (.bool true, [[0xFF], [0xA9, 0x4F, 0x4B]], [⟨[0x4F, 0x4B], false, some 1⟩]) ∧
    ran (.queueResponse [0x4F, 0x4B]) { listening with
      chip.txf := List.replicate 3 ⟨[1], false, none⟩ } = some (.bool false, [[0xFF]]) := by
  decide +kernel

/-- RX-14: not listening, within a transient receive role. -/
theorem test_queueResponse_transient :
    (next (.queueResponse [0x4F, 0x4B]) afterOwn).map
      (fun t => (t.host.result, trace t, t.chip.txf, t.ce, t.sh.listening)) =
      some (.bool true, [[0xFF], [0x00, 0], [0x20, 0x0F], [0xA9, 0x4F, 0x4B], [0x20, 0x0C]],
        [⟨[0x4F, 0x4B], false, some 1⟩], false, false) := by decide +kernel

/-! ## The setters and the address encoder (sections 1, 2.4, 2.8) -/

/-- SET-1: the shadow value, no transaction. -/
theorem test_setNetworkMask :
    (next (.setNetworkMask 0x11223344) afterOwn).map (fun t => (trace t, t.sh.networkMask)) =
      some ([], some 0x11223344) := by decide +kernel

/-- SET-3, SET-4 (ENC-25): the last channel, and one beyond. -/
theorem test_setChannel :
    (next (.setChannel 127) { afterOwn with chip.plosCnt := 3 }).map
      (fun t => (trace t, t.chip.plosCnt)) = some ([[0x25, 0x7F]], 0) ∧
    refused (.setChannel 128) afterOwn = some .argumentOutOfRange := by decide +kernel

/-- SET-5, SET-6, and a delay beyond the field. -/
theorem test_setRetries :
    ran (.setRetries 0 0) afterOwn = some (.none, [[0x24, 0x00]]) ∧
    ran (.setRetries 4 10) afterOwn = some (.none, [[0x24, 0x4A]]) ∧
    refused (.setRetries 16 0) afterOwn = some .argumentOutOfRange := by decide +kernel

/-- SET-7, SET-8, SET-9 (ENC-27). -/
theorem test_setDataRate :
    ran (.setDataRate 1) afterOwn = some (.none, [[0x06, 0], [0x26, 0x0F]]) ∧
    ran (.setDataRate 2) { afterOwn with
      params.variant := .nRF24L01P, chip.rfSetup := 0x0F } =
      some (.none, [[0x06, 0], [0x26, 0x27]]) ∧
    refused (.setDataRate 2) afterOwn = some .argumentOutOfRange := by decide +kernel

/-- SET-10. -/
theorem test_setPALevel :
    ran (.setPALevel 0) afterOwn = some (.none, [[0x06, 0], [0x26, 0x01]]) := by decide +kernel

/-- SET-11, SET-12 (its write), ENC-26. -/
theorem test_setCRC :
    ran (.setCRC 1) listening = some (.none, [[0x00, 0], [0x20, 0x0B]]) ∧
    ran (.setCRC 0) afterOwn = some (.none, [[0x00, 0], [0x20, 0x00]]) ∧
    refused (.setCRC 3) afterOwn = some .argumentOutOfRange := by decide +kernel

/-- SET-13: the flag alone. -/
theorem test_setAckEnabled :
    (next (.setAckEnabled false) afterOwn).map (fun t => (trace t, t.sh.settings.ackEnabled)) =
      some ([], false) := by decide +kernel

/-- ADR-1 and EX-8. -/
theorem test_assembleFullAddress :
    ran (.assembleFullAddress 0x02) afterInit = some (.address (a 0x02), []) := by decide +kernel

/-- EX-1, and ENC-29: admitted before init. -/
theorem test_decomposeAddress :
    ran (.decomposeAddress (a 0x01)) atPowerOn = some (.nodeMask 0x01 0xAABBCCDD, []) ∧
    ran (.decomposeAddress ⟨0x12, 0x34, 0x56, 0x78, 0x9A⟩) atPowerOn =
      some (.nodeMask 0x12 0x9A785634, []) := by decide +kernel

/-- EXC-2 (ENC-30) and EXC-3. -/
theorem test_operations_refused :
    refused .startListening atPowerOn = some .notInitialized ∧
    refused (.init 0) (afterInit.push .isActive) = some .operationInProgress := by decide +kernel

/-- RST-4: an init over an absent chip completes. -/
theorem test_init_absent :
    (next (.init 0xAABBCCDD) { atPowerOn with
      params.chipPresent := false, params.absentRead := .all0or1 }).map
        (fun t => (t.chip, t.sh.initialized)) = some (Chip.reset .nRF24L01, true) := by
  decide +kernel

/-! ## Witnesses: states and operands that meet the hypotheses of each statement together -/

/-- The bus commands at the boundary values of their operands. -/
theorem witness_DecodeInvertsEncode_bus :
    wellFormed (.rRegister .rsv1F) = true ∧ wellFormed (.wRegister .feature [0xFF]) = true ∧
    wellFormed (.wRegister .rxAddrP0 [1, 2, 3, 4, 5]) = true ∧ wellFormed (.activate 0xFF) = true ∧
    wellFormed .rRxPlWid = true ∧ wellFormed (.rRxPayload 0) = true ∧
    wellFormed (.rRxPayload 255) = true ∧ wellFormed (.wTxPayload [0]) = true ∧
    wellFormed (.wTxPayload (List.replicate 32 0xFF)) = true ∧
    wellFormed (.wAckPayload 0 []) = true ∧
    wellFormed (.wAckPayload 5 (List.replicate 32 0xFF)) = true ∧
    wellFormed (.wTxPayloadNoack [0]) = true ∧ wellFormed .flushTx = true ∧
    wellFormed .flushRx = true ∧ wellFormed .nop = true := by decide

/-- The host operations at the boundary values of their operands. -/
theorem witness_DecodeInvertsEncode_ops :
    wellFormed (.init 0xFFFFFFFF) = true ∧ wellFormed (.setOwnAddress 0xFF) = true ∧
    wellFormed (.listenToAddress 0) = true ∧ wellFormed (.setActive true) = true ∧
    wellFormed .isActive = true ∧ wellFormed .startListening = true ∧
    wellFormed .stopListening = true ∧ wellFormed .currentMode = true ∧
    wellFormed (.transmit 0xFF [] true) = true ∧
    wellFormed (.send 0 (List.replicate 255 0) false) = true ∧
    wellFormed (.sendAndAwaitResponse 0 []) = true ∧ wellFormed (.broadcast [0]) = true ∧
    wellFormed (.available true) = true ∧ wellFormed (.read 255) = true ∧
    wellFormed (.readText 0) = true ∧ wellFormed (.queueResponse []) = true := by decide +kernel

/-- The setters and the address encoder likewise. -/
theorem witness_DecodeInvertsEncode_setters :
    wellFormed (.setNetworkMask 0) = true ∧ wellFormed (.setChannel 127) = true ∧
    wellFormed (.setRetries 15 15) = true ∧ wellFormed (.setDataRate 2) = true ∧
    wellFormed (.setPALevel 3) = true ∧ wellFormed (.setCRC 2) = true ∧
    wellFormed (.setAckEnabled false) = true ∧ wellFormed (.assembleFullAddress 0xFF) = true ∧
    wellFormed (.decomposeAddress (a 0xFF)) = true := by decide

/-- The ends of every range of refused command bytes and op bytes, and the least and the greatest flags
byte that is refused. -/
theorem witness_UnadmittedCommandsRefused :
    ([0x40, 0x4F, 0x51, 0x5F, 0x62, 0x9F, 0xA1, 0xA7, 0xB1, 0xE0, 0xE3, 0xFE].all fun b : Byte =>
      (decode ⟨.bus, [b]⟩ == .error .unadmittedCommand)) = true ∧
    decode ⟨.bus, [0xAE]⟩ = .error .badAckPipe ∧ decode ⟨.bus, [0xAF]⟩ = .error .badAckPipe ∧
    ([0x00, 0x09, 0x0F, 0x14, 0x17, 0x1C, 0x1F, 0x27, 0x2F, 0x32, 0xFF].all fun b : Byte =>
      (decode ⟨.op, [b]⟩ == .error .unknownHostOp)) = true ∧
    ([0x02, 0xFF].all fun f : Byte =>
      decode ⟨.op, [0x10, 0x02, f, 0x01, 0x41]⟩ == .error .unknownHostOp &&
      decode ⟨.op, [0x11, 0x02, f, 0x01, 0x41]⟩ == .error .unknownHostOp &&
      decode ⟨.op, [0x18, f]⟩ == .error .unknownHostOp) = true := by
  decide

/-- Lengths that are and are not a register's width, and the payload lengths 0, 33 and 256. -/
theorem witness_DataLengths :
    Reg.isReserved .config = false ∧ [(0 : Byte)].length = Reg.width .config ∧
    [(0 : Byte), 0].length ≠ Reg.width .config ∧
    ¬(1 ≤ ([] : List Byte).length ∧ ([] : List Byte).length ≤ 32) ∧
    ¬(1 ≤ (List.replicate 33 (0 : Byte)).length ∧ (List.replicate 33 (0 : Byte)).length ≤ 32) ∧
    (5 : BitVec 3).toNat < 6 ∧ 32 < (List.replicate 33 (0 : Byte)).length ∧ 255 < 256 := by decide

/-- RegisterRead, StatusRegisters, FlushTx, FlushRx, Nop and Activate: a present chip. FlushRx also: a
standing partial read that another command keeps. -/
theorem witness_bus_present :
    afterInit.params.chipPresent = true ∧
    (let s : State := { afterInit with chip.rxCorrupt := true }
     s.chip.rxCorrupt = true ∧ isHostOp .nop = false ∧ ∃ t, exec .nop s = .next t) :=
  ⟨rfl, rfl, rfl, _, rfl⟩

/-- A one-byte register, a five-byte one and RF_CH, which clears a counter of another. -/
theorem witness_RegisterWrite :
    afterInit.params.chipPresent = true ∧
    (Reg.isReserved .rfCh = false ∧ [(0x80 : Byte)].length = Reg.width .rfCh) ∧
    Reg.isReserved .txAddr = false ∧ [(1 : Byte), 2, 3, 4, 5].length = Reg.width .txAddr := by
  decide

/-- The first and last reserved addresses. -/
theorem witness_ReservedAndReadOnlyRegisters :
    Reg.isReserved .rsv18 = true ∧ Reg.isReserved .rsv1F = true ∧
    afterInit.params.chipPresent = true := by decide

/-- Payloads of 1 and 32 bytes; pipes 5 and 6; an empty acknowledgment payload. -/
theorem witness_PayloadWrites_AckPayloadWrite :
    afterInit.params.chipPresent = true ∧
    (1 ≤ [(0x41 : Byte)].length ∧ [(0x41 : Byte)].length ≤ 32) ∧
    (1 ≤ (List.replicate 32 (0 : Byte)).length ∧ (List.replicate 32 (0 : Byte)).length ≤ 32) ∧
    (5 : BitVec 3).toNat < 6 ∧ 6 ≤ (6 : BitVec 3).toNat ∧ ([] : List Byte).length ≤ 32 := by decide

/-- An entry of RXF at the boundary of the bytes read, without and with a standing partial read. -/
theorem witness_PayloadRead :
    (let s : State := { afterInit with chip.rxf := [⟨1, [0x41, 0x42]⟩] }
     s.params.chipPresent = true ∧ s.chip.rxCorrupt = false ∧ s.chip.featuresUnlocked = true ∧
     s.chip.rxf = [⟨1, [0x41, 0x42]⟩] ∧ (2 ≤ 2 ∧ 1 < 2 ∧ 255 ≤ 255)) ∧
    ({ afterInit with chip.rxCorrupt := true } : State).chip.rxCorrupt = true := by decide

/-- AbsentChipTransaction and AbsentChipUntouched. -/
theorem witness_absent :
    let s : State := { afterInit with params.chipPresent := false, params.absentRead := .all0or1 }
    s.params.chipPresent = false ∧ isHostOp (.rRxPayload 255) = false ∧
    wellFormed (.rRxPayload 255) = true ∧ s.NoResets ∧ isHostOp (.setAckEnabled true) = true ∧
    ∃ t, exec (.setAckEnabled true) s = .next t :=
  ⟨rfl, rfl, rfl, by simp [State.NoResets, afterInit, atPowerOn], rfl, _, rfl⟩

/-- A cycle of 16 attempts, and one of a single attempt. -/
theorem witness_RetriesExhausted :
    sending.params.chipPresent = true ∧ sending.attemptDue = true ∧
    sending.chip.txActive = false ∧ sending.marks = none ∧
    sending.chip.txf = [⟨[0x41], false, none⟩] ∧ sending.chip.awAdmitted = true ∧
    bit sending.chip.enAa 0 = true ∧ 14 < sending.chip.arc.toNat ∧
    ({ sending with chip.setupRetr := 0xF0 } : State).chip.arc.toNat = 0 := by decide

/-- AttemptSucceeds, without a payload and with one of 32 bytes. -/
theorem witness_AttemptSucceeds :
    sending.params.chipPresent = true ∧ sending.attemptDue = true ∧
    sending.chip.txf = [⟨[0x41], false, none⟩] ∧ sending.chip.awAdmitted = true ∧
    bit sending.chip.enAa 0 = true ∧ sending.chip.rxAddrP0 = sending.chip.txAddr ∧
    bit sending.chip.enRxaddr 0 = true ∧ sending.chip.featuresUnlocked = true ∧
    bit sending.chip.feature 1 = true ∧ bit sending.chip.feature 2 = true ∧
    bit sending.chip.dynpd 0 = true ∧ sending.chip.rxf.length < 3 ∧
    1 ≤ (List.replicate 32 (0 : Byte)).length ∧ (List.replicate 32 (0 : Byte)).length ≤ 32 := by
  decide

/-- AcknowledgmentExpected: a no-ack packet; ENAA_P0 clear; pipe 0 elsewhere; pipe 0 disabled; and what
keeps an acknowledgment with a payload out: locked features, each of the three bits, a full RXF. -/
theorem witness_AcknowledgmentExpected :
    (let s : State := { sending with chip.txf := [⟨[0x41], true, none⟩] }
     s.chip.txf = [⟨[0x41], true, none⟩] ∧ s.attemptDue = true ∧ s.chip.awAdmitted = true) ∧
    (let s : State := { sending with chip.enAa := 0x3E }
     bit s.chip.enAa 0 = false ∧ s.attemptDue = true) ∧
    (let s : State := { sending with chip.rxAddrP0 := a 0x01 }
     bit s.chip.enAa 0 = true ∧ s.chip.rxAddrP0 ≠ s.chip.txAddr) ∧
    bit ({ sending with chip.enRxaddr := 0x02 } : State).chip.enRxaddr 0 = false ∧
    (sending.chip.txf = [⟨[0x41], false, none⟩] ∧ bit sending.chip.enAa 0 = true) ∧
    ({ sending with chip.featuresUnlocked := false } : State).chip.featuresUnlocked = false ∧
    bit ({ sending with chip.feature := 0x05 } : State).chip.feature 1 = false ∧
    bit ({ sending with chip.feature := 0x03 } : State).chip.feature 2 = false ∧
    bit ({ sending with chip.dynpd := 0x3E } : State).chip.dynpd 0 = false ∧
    3 ≤ ({ sending with chip.rxf := List.replicate 3 ⟨0, [1]⟩ } : State).chip.rxf.length ∧
    sending.chip.enAa = 0x3F ∧ sending.params.chipPresent = true := by decide

/-- MaxRtBlocks: MAX_RT holds a packet back. -/
theorem witness_MaxRtBlocks :
    let s : State := { sending with chip.maxRt := true }
    s.chip.maxRt = true ∧ s.params.chipPresent = true ∧ s.chipMode = .tx ∧
    s.chip.awAdmitted = true ∧ s.chip.txActive = false ∧ s.chip.txf = [⟨[0x41], false, none⟩] ∧
    bit s.chip.enAa 0 = true ∧ 0 < s.chip.arc.toNat := by decide

/-- Abandon, its three clauses. -/
theorem witness_Abandon :
    (let s : State := { sending with ce := false, chip.txActive := true }
     s.params.chipPresent = true ∧ s.chip.txActive = true ∧ s.ce = false ∧
     bit s.chip.config 1 = true ∧ bit s.chip.config 0 = false ∧ s.chip.txf ≠ [] ∧
     s.chip.maxRt = false) ∧
    (let s : State := { sending with chip.txActive := true }
     s.ce = true ∧ bit s.chip.config 1 = true ∧ bit s.chip.config 0 = false ∧ s.chip.txf ≠ []) ∧
    sending.chip.txActive = false := by decide

/-- PacketReceived, with payloads of 1 and 32 bytes. -/
theorem witness_PacketReceived :
    listening.params.chipPresent = true ∧ listening.chipMode = .rx ∧
    listening.chip.awAdmitted = true ∧
    (1 ≤ [(0x41 : Byte)].length ∧ (List.replicate 32 (0 : Byte)).length ≤ 32) ∧
    listening.chip.matching (a 0x02) = [1] ∧ listening.chip.dynamicPayload 1 = true := by decide

/-- AckPayloadSent: the feature off; on with an empty TXF; with a head; with an entry for the pipe
behind another; with none. -/
theorem witness_AckPayloadSent :
    (Chip.reset .nRF24L01).enAckPay = false ∧ chipAfterInit.enAckPay = true ∧
    chipAfterInit.txf = [] ∧
    (let l : List TxEntry := [⟨[1], false, some 2⟩]
     let e : TxEntry := ⟨[2], false, some 1⟩
     ({ chipAfterInit with txf := l ++ [e] } : Chip).txf = l ++ [e] ∧
     (∀ x ∈ l, x.ppp ≠ some 1) ∧ e.ppp = some 1) := by decide

/-- PacketNotForThisChip: not receiving; and receiving, for an address on no pipe. -/
theorem witness_PacketNotForThisChip :
    afterInit.chipMode ≠ .rx ∧ listening.chip.awAdmitted = true ∧
    ∀ p : Fin 6, bit listening.chip.enRxaddr p.val = true →
      a 0x03 ≠ match p with
        | 0 => listening.chip.rxAddrP0
        | 1 => listening.chip.rxAddrP1
        | 2 => { listening.chip.rxAddrP1 with b0 := listening.chip.rxAddrP2 }
        | 3 => { listening.chip.rxAddrP1 with b0 := listening.chip.rxAddrP3 }
        | 4 => { listening.chip.rxAddrP1 with b0 := listening.chip.rxAddrP4 }
        | 5 => { listening.chip.rxAddrP1 with b0 := listening.chip.rxAddrP5 } := by decide

/-- RadioStepsRefused, its clauses. RadioStepsWrite: `t` is the state after a step. -/
theorem witness_RadioStepsRefused :
    (let s : State := { sending with chip.setupAw := 0x02 }
     s.params.chipPresent = true ∧ s.chip.setupAw ≠ 0x03 ∧ s.attemptDue = true) ∧
    (let s : State := { listening with chip.setupAw := 0x01 }
     s.chip.setupAw ≠ 0x03 ∧ s.chipMode = .rx) ∧
    (let s : State := { listening with chip.featuresUnlocked := false }
     s.chip.setupAw = 0x03 ∧ s.chipMode = .rx ∧ s.chip.matching (a 0x02) = [1] ∧
     s.chip.dynamicPayload 1 = false) := by decide

/-- An environment that receives packets and lets time pass, and resets nothing. -/
def busyEnv : List (List EnvMove) :=
  [[.clock 3, .receive ⟨a 0x02, [0x41], false, false⟩ 0], [], [.txAttempt .lost, .txAbandon]]

theorem busyEnv_noResets : ∀ ms ∈ busyEnv, ∀ m ∈ ms, isReset m = false := by decide

theorem chip_admitted : chipAfterInit.Admitted := ⟨by decide, by decide⟩

/-- A next state of an operation, with its result. -/
theorem exec_of_result {i : Instr} {s : State} {r : Result}
    (h : (next i s).map (·.host.result) = some r) : ∃ t, exec i s = .next t ∧ t.host.result = r := by
  unfold next at h
  split at h
  · rename_i t e
    exact ⟨t, e, by simpa using h⟩
  · simp at h

/-- InitInitializes: from power-on, powered down, no cycle active; and again from a listening state. -/
theorem witness_InitInitializes :
    (atPowerOn.Idle ∧ atPowerOn.NoResets ∧ atPowerOn.params.chipPresent = true ∧
      atPowerOn.chip.Tame ∧ bit atPowerOn.chip.config 1 = false ∧
      atPowerOn.chip.txActive = false ∧
      ∃ t, exec (.init 0xAABBCCDD) atPowerOn = .next t ∧ t.host.result = .none) ∧
    (let s : State := { listening with env := busyEnv }
     s.Idle ∧ s.NoResets ∧ s.params.chipPresent = true ∧ s.chip.Tame ∧
       ∃ t, exec (.init 0xAABBCCDD) s = .next t ∧ t.host.result = .none) :=
  ⟨⟨⟨rfl, rfl⟩, by simp [State.NoResets, atPowerOn], rfl, .inr rfl, rfl, rfl,
      exec_of_result (by decide +kernel)⟩,
    ⟨rfl, rfl⟩, busyEnv_noResets, rfl, .inl ⟨by decide, by decide⟩,
      exec_of_result (by decide +kernel)⟩

/-- StopListening in an environment that delivers a packet before the power-down, with flags set. -/
theorem witness_StopListening :
    let s : State := { listening with
      env := busyEnv, chip.rxDr := true, chip.txDs := true, chip.maxRt := true }
    s.Ready ∧ s.Calm ∧ s.chip.rxDr = true ∧ s.chip.txDs = true ∧ s.chip.maxRt = true ∧
    ∃ t, exec .stopListening s = .next t ∧ t.host.result = .none :=
  ⟨⟨⟨rfl, rfl⟩, rfl⟩, ⟨busyEnv_noResets, rfl, ⟨by decide, by decide⟩⟩, rfl, rfl, rfl,
    exec_of_result (by decide +kernel)⟩

/-- Every statement that asks for `Ready` and `Calm` (SetOwnAddress, SetActive, StartListening,
StopListening, ModeQueries, Transmit, Send, SendAndAwaitResponse, Available, Read, ReadText,
QueueResponse, SetChannelAndRetries, RfSetupSetters, SetCRC), and ShadowSetters: powered down with a
silent environment, where StartListening's cache invariant and own address hold too; and listening
with a busy one. -/
theorem witness_Ready_Calm :
    (afterOwn.Ready ∧ afterOwn.Calm ∧ afterOwn.Silent ∧ afterOwn.CacheInv ∧
      afterOwn.sh.ownAddress = some 0x01 ∧ afterOwn.sh.networkMask = some 0xAABBCCDD) ∧
    (let s : State := { listening with env := busyEnv }
     s.Ready ∧ s.Calm ∧ s.sh.networkMask = some 0xAABBCCDD) :=
  ⟨⟨⟨⟨rfl, rfl⟩, rfl⟩, ⟨by simp [State.NoResets, afterOwn, afterInit, atPowerOn], rfl,
      ⟨by decide, by decide⟩⟩, ⟨rfl, rfl⟩, ⟨by decide, by decide⟩, rfl, rfl⟩,
    ⟨⟨rfl, rfl⟩, rfl⟩, ⟨busyEnv_noResets, rfl, ⟨by decide, by decide⟩⟩, rfl⟩

/-- ListenToAddress: no slot left, the last one, and the first. -/
theorem witness_ListenToAddress :
    (let s : State := { afterOwn with sh.extraPipes := 5 }
     s.Ready ∧ s.sh.extraPipes = 5) ∧
    (let s : State := { afterOwn with sh.extraPipes := 4 }
     s.Ready ∧ s.Calm ∧ s.sh.networkMask = some 0xAABBCCDD ∧ s.sh.extraPipes < 5) ∧
    afterOwn.sh.extraPipes = 0 :=
  ⟨⟨⟨⟨rfl, rfl⟩, rfl⟩, rfl⟩, ⟨⟨⟨rfl, rfl⟩, rfl⟩,
    ⟨by simp [State.NoResets, afterOwn, afterInit, atPowerOn], rfl, ⟨by decide, by decide⟩⟩,
    rfl, by decide⟩, rfl⟩

/-- Transmit's first clause and Broadcast's: an empty payload; with and without an own address. -/
theorem witness_Broadcast :
    (afterInit.Ready ∧ afterInit.sh.ownAddress = none) ∧
    (afterOwn.Ready ∧ afterOwn.Calm ∧ afterOwn.sh.networkMask = some 0xAABBCCDD ∧
      afterOwn.sh.ownAddress = some 0x01) :=
  ⟨⟨⟨⟨rfl, rfl⟩, rfl⟩, rfl⟩, witness_Ready_Calm.1.1, witness_Ready_Calm.1.2.1, rfl, rfl⟩

/-- Read, Available and QueueResponse in a silent environment: an entry at the head of RXF that fits a
buffer of its size, and is cut by one of a byte less; and ReadText's and ReadBuffer's least buffers. -/
theorem witness_reading :
    let s : State := { listening with chip.rxDr := true, chip.rxf := [⟨1, [0x41, 0x42]⟩] }
    s.Ready ∧ s.Calm ∧ s.Silent ∧ s.chip.rxf = [⟨1, [0x41, 0x42]⟩] ∧ s.chip.rxCorrupt = false ∧
    s.chip.featuresUnlocked = true ∧
    (([0x41, 0x42] : List Byte).length ≤ 2 ∧ ¬([0x41, 0x42] : List Byte).length ≤ 1 ∧ 0 < 1) ∧
    (∃ t, exec (.read 1) listening = .next t) ∧ ∃ t, exec (.readText 3) s = .next t :=
  ⟨⟨⟨rfl, rfl⟩, rfl⟩, ⟨by simp [State.NoResets, listening, afterOwn, afterInit, atPowerOn], rfl,
      ⟨by decide, by decide⟩⟩, ⟨rfl, rfl⟩, rfl, rfl, rfl, by decide, ⟨_, rfl⟩, _, rfl⟩

/-- ReadBuffer's second clause: a response of two bytes, and none. -/
theorem witness_ReadBuffer_response :
    (let s : State := { afterOwn with env := each 20 (.txAttempt (.acked (some [0x4F, 0x4B]))) }
     s.Ready ∧ s.Calm ∧ s.sh.networkMask = some 0xAABBCCDD ∧
     ∃ t, exec (.sendAndAwaitResponse 0x02 [0x41]) s = .next t ∧ t.host.result = .received 2) ∧
    ∃ t, exec (.sendAndAwaitResponse 0x02 [0x41]) afterOwn = .next t ∧
      t.host.result = .sendFailed :=
  ⟨⟨⟨⟨rfl, rfl⟩, rfl⟩, ⟨by
      intro ms h m hm
      obtain rfl := List.eq_of_mem_replicate h
      obtain rfl := List.mem_singleton.mp hm
      rfl, rfl, ⟨by decide, by decide⟩⟩, rfl, exec_of_result (by decide +kernel)⟩,
    exec_of_result (by decide +kernel)⟩

/-- The argument values at and beyond each setter's range. -/
theorem witness_setter_ranges :
    ((127 : Byte).toNat ≤ 127 ∧ ¬(128 : Byte).toNat ≤ 127) ∧
    ((15 : Byte).toNat ≤ 15 ∧ ¬(16 : Byte).toNat ≤ 15) ∧
    refused (.setDataRate 3) { afterOwn with params.variant := .nRF24L01P } =
      some .argumentOutOfRange ∧
    refused (.setPALevel 4) afterOwn = some .argumentOutOfRange := by decide

/-- AssembleFullAddress: a mask, and a chip whose six pipes hold addresses of one mask. -/
theorem witness_AssembleFullAddress :
    (afterOwn.Ready ∧ afterOwn.sh.networkMask = some 0xAABBCCDD) ∧
    (let c : Chip := { chipAfterInit with rxAddrP0 := a 0x01, rxAddrP1 := a 0x02 }
     (0xAABBCCDD : BitVec 32) ≠ 0x11223344 ∧ ∀ p : Fin 6, ∃ k, c.pipeAddr p = fullAddress k 0xAABBCCDD) := by
  refine ⟨⟨⟨⟨rfl, rfl⟩, rfl⟩, rfl⟩, by decide, fun p => ?_⟩
  match p with
  | 0 => exact ⟨0x01, by decide⟩
  | 1 => exact ⟨0x02, by decide⟩
  | 2 => exact ⟨0xC3, by decide⟩
  | 3 => exact ⟨0xC4, by decide⟩
  | 4 => exact ⟨0xC5, by decide⟩
  | 5 => exact ⟨0xC6, by decide⟩

/-- OperationsRefused, and DecomposeAddress before any init. -/
theorem witness_OperationsRefused :
    isHostOp .isActive = true ∧ (afterInit.push .isActive).seq ≠ [] ∧ atPowerOn.Idle ∧
    atPowerOn.sh.initialized = false :=
  ⟨rfl, by simp [State.push], ⟨rfl, rfl⟩, rfl⟩

/-- StepRunsDecoded, each clause: a marked state; a running operation; a host operation that decodes, and
bytes that do not; a pause; no move left; a transaction on the bus that decodes, and one that does
not; and an operation that completes. -/
theorem witness_StepRunsDecoded :
    (let s : State := { afterInit with marks := some (.fault .ownAddressUnset) }
     s.marks = some (.fault .ownAddressUnset)) ∧
    (afterInit.push .isActive).interlude.seq ≠ [] ∧
    (let s : State := { afterInit with host.inbox := [some [0x05]] }
     s.marks = none ∧ s.interlude.marks = none ∧ s.interlude.seq = [] ∧
     s.interlude.bus = none ∧ s.interlude.host.inbox = [some [0x05]] ∧
     decode ⟨.op, [0x05]⟩ = .ok .isActive) ∧
    (let s : State := { afterInit with host.inbox := [some [0x09]] }
     s.interlude.host.inbox = [some [0x09]] ∧ decode ⟨.op, [0x09]⟩ = .error .unknownHostOp) ∧
    ({ afterInit with host.inbox := [none] } : State).interlude.host.inbox = [none] ∧
    afterInit.interlude.host.inbox = [] ∧
    (let s : State := { afterInit with bus := some [0xFF] }
     s.interlude.bus = some [0xFF] ∧ decode ⟨.bus, [0xFF]⟩ = .ok .nop) ∧
    (let s : State := { afterInit with bus := some [0xE3] }
     s.interlude.bus = some [0xE3] ∧ decode ⟨.bus, [0xE3]⟩ = .error .unadmittedCommand) ∧
    isHostOp .isActive = true ∧ ∃ t, exec .isActive afterInit = .next t :=
  ⟨rfl, List.cons_ne_nil _ _, by decide, by decide, rfl,
    rfl, by decide, by decide, rfl, _, rfl⟩

/-- ResetState: the variant its clauses name, at reset and of a state a partial reset may meet. -/
theorem witness_ResetState :
    State.reset.params.variant = .nRF24L01 ∧ listening.params.variant = .nRF24L01 := ⟨rfl, rfl⟩

/-- InvariantKept: a state with the invariant and a step from it. -/
theorem witness_InvariantKept : afterOwn.Inv ∧ ∃ t, step afterOwn = .next t :=
  ⟨⟨rfl, by simp only [Chip.reservedZero]; decide, ⟨by decide, by decide,
      by simp [afterOwn, chipAfterInit, Chip.reset], by simp [afterOwn, chipAfterInit, Chip.reset]⟩,
      by decide, fun _ => rfl, rfl, rfl, rfl, rfl, rfl⟩, _, rfl⟩

/-- HostOperationsComplete: over a present chip and over none; broadcast with an own address; the
fastest rate of the nRF24L01. -/
theorem witness_HostOperationsComplete :
    (afterOwn.Ready ∧ afterOwn.NoResets ∧ afterOwn.sh.extraPipes ≤ 5 ∧
      afterOwn.params.chipPresent = true ∧ afterOwn.chip.Admitted ∧
      isHostOp (.broadcast [0x55]) = true ∧ wellFormed (.broadcast [0x55]) = true ∧
      afterOwn.sh.ownAddress ≠ none ∧ (1 : Byte).toNat ≤ 1) ∧
    (let s : State := { afterOwn with params.chipPresent := false }
     s.Ready ∧ s.NoResets ∧ s.params.chipPresent = false) :=
  ⟨⟨witness_Ready_Calm.1.1, witness_Ready_Calm.1.2.1.noResets, by decide, rfl,
    witness_Ready_Calm.1.2.1.admitted, rfl, rfl, by decide, by decide⟩,
    ⟨⟨rfl, rfl⟩, rfl⟩, witness_Ready_Calm.1.2.1.noResets, rfl⟩

/-- CacheInvariantKept, ConfigurationKept, ListeningFlag and AdmittedTransactions. -/
theorem witness_operations_kept :
    afterOwn.Ready ∧ afterOwn.Calm ∧ afterOwn.sh.extraPipes ≤ 5 ∧ afterOwn.CacheInv ∧
    isHostOp .startListening = true ∧ (∀ m, Instr.startListening ≠ .init m) ∧
    ∃ t, exec .startListening afterOwn = .next t :=
  ⟨witness_Ready_Calm.1.1, witness_Ready_Calm.1.2.1, by decide, witness_Ready_Calm.1.2.2.2.1, rfl,
    by simp, _, rfl⟩

end Sys2Proof.Tests
end

section
/-! What a step runs (00_scope.md R4, R6): the branches of `step` and of the command port said once, the
host's bytes as host operations only, and an issued operation as its resumed program. -/

namespace Sys2Proof.Machine

/-! ## The branches of a step -/

section
variable {s : State}

theorem step_fault {r : Fault} (hm : s.marks = some (.fault r)) : step s = .fault r := by
  simp [step, State.outcome, hm]

theorem step_refusal {r : Refusal} (hm : s.marks = some (.refusal r)) :
    step s = .refused r := by
  simp [step, State.outcome, hm]

theorem step_running (hm : s.marks = none) (hi : s.interlude.marks = none)
    (hq : s.interlude.seq ≠ []) : step s = s.interlude.resume.outcome := by
  simp [step, hm, hi, hq]

theorem step_idle (hm : s.marks = none) (hi : s.interlude.marks = none)
    (hq : s.interlude.seq = []) : step s = runCommand s.interlude := by
  simp [step, hm, hi, hq]

/-! ## The command port: the bus before the host's bytes -/

theorem runCommand_none (hc : s.nextCommand = none) : runCommand s = .next s.taken := by
  simp [runCommand, hc]

theorem runCommand_ok {c : Command} {i : Instr} (hc : s.nextCommand = some c)
    (hd : decode c = .ok i) : runCommand s = exec i s.taken := by
  simp [runCommand, hc, hd]

theorem runCommand_error {c : Command} {e : DecodeError} (hc : s.nextCommand = some c)
    (hd : decode c = .error e) : runCommand s = .refused (refusalOf e) := by
  simp [runCommand, hc, hd]

theorem nextCommand_bus {bs : List Byte} (hb : s.bus = some bs) :
    s.nextCommand = some ⟨.bus, bs⟩ := by
  simp [State.nextCommand, hb]

theorem taken_of_bus {bs : List Byte} (hb : s.bus = some bs) : s.taken = { s with bus := none } := by
  simp [State.taken, hb]

theorem nextCommand_op {bs : List Byte} {rest : List (Option (List Byte))} (hb : s.bus = none)
    (hx : s.host.inbox = some bs :: rest) : s.nextCommand = some ⟨.op, bs⟩ := by
  simp [State.nextCommand, hb, hx]

theorem nextCommand_pause {rest : List (Option (List Byte))} (hb : s.bus = none)
    (hx : s.host.inbox = none :: rest) : s.nextCommand = none := by
  simp [State.nextCommand, hb, hx]

theorem nextCommand_nil (hb : s.bus = none) (hx : s.host.inbox = []) : s.nextCommand = none := by
  simp [State.nextCommand, hb, hx]

theorem taken_of_inbox {move : Option (List Byte)} {rest : List (Option (List Byte))}
    (hb : s.bus = none) (hx : s.host.inbox = move :: rest) :
    s.taken = { s with host.inbox := rest } := by
  simp [State.taken, hb, hx]

theorem taken_of_nil (hb : s.bus = none) (hx : s.host.inbox = []) : s.taken = s := by
  have hsame : s.host.inbox.tail = s.host.inbox := by rw [hx, List.tail_nil]
  simp only [State.taken, hb, hsame]
  rw [← hb]

end

/-! ## The host's bytes hold host operations only (20_memory.md R81, 30_encoding.md R119) -/

/-- Whatever a parser of host operations answers is a host operation. -/
def HoldsHostOp (r : Parsed) : Prop := ∀ i rest, r = .ok (i, rest) → isHostOp i = true

theorem HoldsHostOp.ok {i : Instr} (h : isHostOp i = true) (rest : List Byte) :
    HoldsHostOp (.ok (i, rest)) := by
  rintro _ _ ⟨⟩
  exact h

theorem HoldsHostOp.error (e : DecodeError) : HoldsHostOp (.error e) := nofun

theorem argByte_holdsHostOp {f : Byte → Instr} (h : ∀ b, isHostOp (f b) = true) :
    ∀ bs, HoldsHostOp (argByte f bs)
  | [] => .error _
  | b :: rest => .ok (h b) rest

theorem argBool_holdsHostOp {f : Bool → Instr} (h : ∀ b, isHostOp (f b) = true) :
    ∀ bs, HoldsHostOp (argBool f bs)
  | [] => .error _
  | b :: rest => by
    simp only [argBool]
    split
    · exact .ok (h false) rest
    · split
      · exact .ok (h true) rest
      · exact .error _

theorem argFlag_holdsHostOp {f : Bool → List Byte → Parsed} (h : ∀ b bs, HoldsHostOp (f b bs)) :
    ∀ bs, HoldsHostOp (argFlag f bs)
  | [] => .error _
  | b :: rest => by
    simp only [argFlag]
    split
    · exact h false rest
    · split
      · exact h true rest
      · exact .error _

theorem argMask_holdsHostOp {f : BitVec 32 → Instr} (h : ∀ m, isHostOp (f m) = true)
    (bs : List Byte) : HoldsHostOp (argMask f bs) := by
  unfold argMask
  split
  · exact .ok (h _) _
  · exact .error _

theorem argAddr_holdsHostOp {f : Addr → Instr} (h : ∀ a, isHostOp (f a) = true)
    (bs : List Byte) : HoldsHostOp (argAddr f bs) := by
  unfold argAddr
  split
  · exact .ok (h _) _
  · exact .error _

theorem argPayload_holdsHostOp {f : List Byte → Instr} (h : ∀ p, isHostOp (f p) = true) :
    ∀ bs, HoldsHostOp (argPayload f bs)
  | [] => .error _
  | len :: rest => by
    simp only [argPayload]
    split
    · exact .ok (h _) _
    · exact .error _

theorem argTarget_holdsHostOp {f : Byte → List Byte → Parsed} (h : ∀ b bs, HoldsHostOp (f b bs)) :
    ∀ bs, HoldsHostOp (argTarget f bs)
  | [] => .error _
  | b :: rest => h b rest

theorem parseOp_holdsHostOp : ∀ bs, HoldsHostOp (parseOp bs)
  | [] => .error _
  | op :: args => by
    simp only [parseOp]
    split -- one case per row of R119, in its order, and the bytes of no row
    -- init, setNetworkMask
    case h_1 | h_17 => exact argMask_holdsHostOp (fun _ => rfl) args
    -- setActive, setAckEnabled
    case h_4 | h_23 => exact argBool_holdsHostOp (fun _ => rfl) args
    -- isActive, startListening, stopListening, currentMode
    case h_5 | h_6 | h_7 | h_8 => exact .ok rfl args
    -- transmit, send
    case h_9 | h_10 =>
      exact argTarget_holdsHostOp (fun _ => argFlag_holdsHostOp fun _ =>
        argPayload_holdsHostOp fun _ => rfl) args
    -- sendAndAwaitResponse
    case h_11 => exact argTarget_holdsHostOp (fun _ => argPayload_holdsHostOp fun _ => rfl) args
    -- broadcast, queueResponse
    case h_12 | h_16 => exact argPayload_holdsHostOp (fun _ => rfl) args
    -- available
    case h_13 => exact argFlag_holdsHostOp (fun _ => .ok rfl) args
    -- decomposeAddress
    case h_25 => exact argAddr_holdsHostOp (fun _ => rfl) args
    -- no row
    case h_26 => exact .error _
    -- every other row holds one argument byte
    all_goals exact argByte_holdsHostOp (fun _ => rfl) args

theorem isHostOp_of_decode_op {bs : List Byte} {i : Instr} (h : decode ⟨.op, bs⟩ = .ok i) :
    isHostOp i = true := by
  change decodeOp bs = .ok i at h
  unfold decodeOp at h
  split at h
  case h_1 hp =>
    cases h
    exact parseOp_holdsHostOp bs _ _ hp
  all_goals cases h

/-! ## An issued operation is its program, resumed (10_state.md R22) -/

theorem eq_of_outcome_next {s t : State} (h : s.outcome = .next t) : s = t := by
  unfold State.outcome at h
  split at h <;> cases h
  rfl

/-- An operation that is issued and completes has passed the checks and run its program. -/
theorem issue_next {i : Instr} {n a : Bool} {g : State → State} {s t : State}
    (h : s.issue i n a g = .next t) : s.seq = [] ∧ g (s.issued i) = t := by
  unfold State.issue at h
  split at h
  · cases h
  · next hq =>
    split at h
    · cases h
    · split at h
      · cases h
      · exact ⟨by simpa using hq, eq_of_outcome_next h⟩

theorem resume_issued {s : State} (i : Instr) (hq : s.seq = []) :
    (s.issued i).resume = programOf [] i (s.issued i) := by
  simp [State.resume, State.issued, State.push, hq, resumeFrames]

theorem exec_next_resume {i : Instr} {s t : State} (hi : isHostOp i = true)
    (h : exec i s = .next t) : s.seq = [] ∧ (s.issued i).resume = t := by
  obtain ⟨n, a, g, hexec, hprogram, -, -⟩ := exec_returns i i s hi id fun hb _ => hb
  obtain ⟨hq, hg⟩ := issue_next (hexec ▸ h)
  exact ⟨hq, by rw [resume_issued i hq, ← hprogram, hg]⟩

/-- Settles O51, branch by branch of `step`. -/
theorem stepRunsDecoded : Obligations.StepRunsDecoded := by
  refine ⟨fun s => ⟨fun m hm => ?_, fun hm hi => ⟨step_running hm hi, fun hq => ?_⟩⟩,
    fun _ _ => isHostOp_of_decode_op, fun _ _ _ => exec_next_resume⟩
  · cases m with
    | fault r => exact step_fault hm
    | refusal r => exact step_refusal hm
  · rw [step_idle hm hi hq]
    refine ⟨fun hb => ⟨fun bs i rest hx hd => ?_, fun bs e rest hx hd => ?_, fun rest hx => ?_,
      fun hx => ?_⟩, fun bs hb => ⟨fun i hd => ?_, fun e hd => ?_⟩⟩
    · rw [runCommand_ok (nextCommand_op hb hx) hd, taken_of_inbox hb hx]
    · exact runCommand_error (nextCommand_op hb hx) hd
    · rw [runCommand_none (nextCommand_pause hb hx), taken_of_inbox hb hx]
    · rw [runCommand_none (nextCommand_nil hb hx), taken_of_nil hb hx]
    · rw [runCommand_ok (nextCommand_bus hb) hd, taken_of_bus hb]
    · exact runCommand_error (nextCommand_bus hb) hd

end Sys2Proof.Machine
end

section
/-! The bounds a chip keeps (10_state.md R23, R42, R43): every register write, FIFO push, radio step and
reset leaves reserved bits 0 and the FIFOs within their bounds. -/

namespace Sys2Proof.Machine

/-- The chip's part of the machine invariant. -/
def Chip.Fits (v : ChipVariant) (c : Chip) : Prop := c.reservedZero v ∧ c.fifosFit

section
variable {v : ChipVariant} {c d : Chip}

/-! ## Reserved bits -/

/-- No radio step writes a register that has reserved bits. -/
theorem reservedZero_of_steady (e : d.steady = c.steady) (h : c.reservedZero v) :
    d.reservedZero v := by
  have hs : d.steady.reservedZero v := e ▸ h
  exact hs

theorem writeReg_reservedZero (a : Reg) (b : List Byte) (h : c.reservedZero v) :
    (c.writeReg v a b).reservedZero v := by
  have masked (x m n : Byte) (hm : m &&& n = 0#8) : x &&& m &&& n = 0#8 := by
    rw [BitVec.and_assoc, hm, BitVec.and_zero]
  cases a
  case dynpd | feature =>
    simp only [Chip.writeReg]
    split <;> simp_all [Chip.reservedZero]
  all_goals simp_all [Chip.reservedZero, Chip.writeReg]

/-! ## FIFO bounds -/

theorem fifosFit_of_sublist (h : c.fifosFit) (ht : d.txf.Sublist c.txf)
    (hr : d.rxf.Sublist c.rxf) : d.fifosFit := by
  obtain ⟨h1, h2, h3, h4⟩ := h
  exact ⟨ht.length_le.trans h1, hr.length_le.trans h2, fun e he => h3 e (ht.subset he),
    fun e he => h4 e (hr.subset he)⟩

theorem writeReg_fifos (a : Reg) (b : List Byte) (c : Chip) :
    (c.writeReg v a b).txf = c.txf ∧ (c.writeReg v a b).rxf = c.rxf := by
  cases a
  case dynpd | feature => simp only [Chip.writeReg]; split <;> simp
  all_goals exact ⟨rfl, rfl⟩

theorem pushTx_fits {e : TxEntry} (he : e.data.length ≤ maxPayload) (h : c.Fits v) :
    (c.pushTx e).Fits v := by
  unfold Chip.pushTx
  split
  · exact h
  · rename_i hf
    obtain ⟨hz, h1, h2, h3, h4⟩ := h
    have hn : c.txf.length ≠ 3 := by simpa [txFull_eq] using hf
    refine ⟨hz, ?_, h2, fun x hx => ?_, h4⟩
    · simp only [List.length_append, List.length_singleton, txFifoDepth] at h1 ⊢
      omega
    · rcases List.mem_append.mp hx with hx | hx
      · exact h3 x hx
      · rw [List.mem_singleton.mp hx]
        exact he

theorem pushRx_fits (p : Fin 6) {b : List Byte} (hl : c.rxf.length < rxFifoDepth)
    (hb : 1 ≤ b.length ∧ b.length ≤ maxPayload) (h : c.Fits v) : (c.pushRx p b).Fits v := by
  obtain ⟨hz, h1, -, h3, h4⟩ := h
  refine ⟨hz, h1, ?_, h3, fun x hx => ?_⟩
  · simp only [Chip.pushRx, List.length_append, List.length_singleton, rxFifoDepth] at hl ⊢
    omega
  · rcases List.mem_append.mp hx with hx | hx
    · exact h4 x hx
    · rw [List.mem_singleton.mp hx]
      exact hb

/-! ## Registers, FIFOs and resets -/

theorem Chip.Fits.shrink (h : c.Fits v) (hs : d.steady = c.steady) (ht : d.txf.Sublist c.txf)
    (hr : d.rxf.Sublist c.rxf) : d.Fits v :=
  ⟨reservedZero_of_steady hs h.1, fifosFit_of_sublist h.2 ht hr⟩

theorem writeReg_fits (a : Reg) (b : List Byte) (h : c.Fits v) : (c.writeReg v a b).Fits v := by
  obtain ⟨et, er⟩ := writeReg_fifos (v := v) a b c
  exact ⟨writeReg_reservedZero a b h.1, fifosFit_of_sublist h.2 (et ▸ .refl _) (er ▸ .refl _)⟩

theorem reset_fits (v : ChipVariant) : (Chip.reset v).Fits v :=
  ⟨by cases v <;> simp [Chip.reservedZero, Chip.reset, rfSetupMask],
    by simp [Chip.fifosFit, Chip.reset]⟩

/-! ## Radio steps -/

/-- An acknowledgment with a payload is admitted only where the RX FIFO has room for it
(41_radio_core.md R177). -/
theorem settle_payload {o : AttemptOutcome} {b : List Byte} (h : c.settle o = .acked (some b)) :
    c.rxf.length < rxFifoDepth ∧ 1 ≤ b.length ∧ b.length ≤ maxPayload := by
  unfold Chip.settle at h
  split at h
  · cases h
  · split at h <;> cases h
  · split at h
    · next hq =>
      cases h
      simp only [Chip.ackPayloadAdmitted, Bool.and_eq_true, decide_eq_true_eq] at hq
      exact ⟨hq.1.2, hq.2⟩
    · cases h

theorem success_fits {q : Option (List Byte)}
    (hq : ∀ b, q = some b → c.rxf.length < rxFifoDepth ∧ 1 ≤ b.length ∧ b.length ≤ maxPayload)
    (h : c.Fits v) : (c.success q).Fits v := by
  have ht : ({ c with txf := c.txf.tail, txDs := true, txActive := false } : Chip).Fits v :=
    h.shrink rfl (List.tail_sublist c.txf) (.refl c.rxf)
  cases q with
  | none => exact ht
  | some b => exact pushRx_fits 0 (hq b rfl).1 (hq b rfl).2 ht

theorem startCycle_fits (h : c.Fits v) : c.startCycle.Fits v := by
  unfold Chip.startCycle
  split
  · exact h
  · exact h.shrink rfl (.refl _) (.refl _)

theorem attempt_fits (o : AttemptOutcome) (h : c.Fits v) : (c.attempt o).Fits v := by
  have hs : c.startCycle.Fits v := startCycle_fits h
  unfold Chip.attempt
  dsimp only
  split
  · exact hs
  · split
    · exact success_fits (fun _ e => nomatch e) hs
    · split
      · next hq => exact success_fits (fun b e => settle_payload (e ▸ hq)) hs
      · split <;> exact hs.shrink rfl (.refl _) (.refl _)

theorem sendAck_fits (m : AckMatch) (p : Fin 6) (h : c.Fits v) : (c.sendAck m p).Fits v := by
  refine h.shrink (sendAck_steady m p c) ?_ ?_ <;> unfold Chip.sendAck <;> split
  · exact .refl _
  · cases m <;> dsimp only <;> split
    · exact .refl _
    · exact List.tail_sublist _
    · exact List.eraseP_sublist
    · exact .refl _
  · exact .refl _
  · cases m <;> dsimp only <;> split <;> exact .refl _

theorem accept_fits (m : AckMatch) (p : Fin 6) {k : Packet}
    (hk : 1 ≤ k.data.length ∧ k.data.length ≤ maxPayload) (h : c.Fits v) :
    (c.accept m p k).Fits v := by
  unfold Chip.accept
  split
  · exact h
  · next hf =>
    extract_lets c'
    have hs : c'.Fits v := by
      unfold c'
      split
      · exact h
      · next hd =>
        have hl : c.rxf.length ≠ 3 := by simpa [rxFull_eq, hd] using hf
        exact pushRx_fits p (Nat.lt_of_le_of_ne h.2.2.1 hl) hk h
    split
    · exact sendAck_fits m p hs
    · exact hs

end

end Sys2Proof.Machine
end

section
/-! A well-formed bus command is one transaction (20_memory.md R82), over a present chip and over an absent
one (10_state.md R49); and what its effect keeps of the chip's bounds. -/

namespace Sys2Proof.Machine

/-- The bus commands whose data phase the chip answers (40_bus_commands.md R140, R142, R143). -/
def readsData : Instr → Bool
  | .rRegister _ | .rRxPlWid | .rRxPayload _ => true
  | _ => false

/-- An effect that keeps the chip's bounds. -/
def KeepsFits (v : ChipVariant) (e : State → List Byte × State) : Prop :=
  ∀ s, s.chip.Fits v → (e s).2.chip.Fits v

section
variable {v : ChipVariant}

theorem keepsFits_of_same {e : State → List Byte × State} (h : ∀ s, (e s).2.chip = s.chip) :
    KeepsFits v e := fun s hs => (h s).symm ▸ hs

theorem keepsFits_onChip {n : Nat} {f : Chip → Chip} (h : ∀ c : Chip, c.Fits v → (f c).Fits v) :
    KeepsFits v fun s => (List.replicate n 0, s.onChip f) := fun s => h s.chip

theorem maybePop_fits {s : State} (h : s.chip.Fits v) : s.maybePop.chip.Fits v := by
  unfold State.maybePop
  split
  · exact h
  · next e r hr =>
    dsimp only
    split
    · exact h.shrink rfl (.refl _) (hr ▸ List.sublist_cons_self e r)
    · exact h

theorem readPayload_keepsFits (n : Nat) : KeepsFits v (State.readPayload n) := fun s h => by
  unfold State.readPayload
  split
  · exact maybePop_fits h
  · split
    · exact h
    · next e r hr =>
      split
      · have hc : ({ s.chip with rxCorrupt := true } : Chip).Fits v := ⟨h.1, h.2⟩
        exact maybePop_fits hc
      · exact h.shrink rfl (.refl _) (hr ▸ List.sublist_cons_self e r)

theorem stageAck_fits (p : Fin 6) {d : List Byte} (hd : d.length ≤ maxPayload) {s : State}
    (h : s.chip.Fits v) : (s.stageAck p d).chip.Fits v := by
  unfold State.stageAck
  split
  · exact h
  · split
    · dsimp only
      split
      · exact pushTx_fits (Nat.zero_le _) h
      · exact h
    · exact pushTx_fits hd h

theorem activate_fits (x : Byte) {s : State} (h : s.chip.Fits v) :
    (if x = 0x73 ∧ s.params.variant = .nRF24L01 then
      s.onChip fun c => { c with featuresUnlocked := !c.featuresUnlocked } else s).chip.Fits v := by
  split
  · exact ⟨h.1, h.2⟩
  · exact h

end

/-- The command byte of W_ACK_PAYLOAD (30_encoding.md R114). -/
theorem ackCommand_eq : ∀ ppp : BitVec 3, ppp.toNat < 6 →
    BitVec.ofNat 8 (0xA8 + ppp.toNat) = 0xA8#8 ||| ppp.setWidth 8 := by
  decide

/-- A command that is refused unless `c` has completed, so `c` holds. -/
theorem next_of_if {c : Prop} [Decidable c] {s t : State} {r : Refusal}
    (h : (if c then .next s else .refused r : Host.Outcome State Fault Refusal) = .next t) :
    c ∧ s = t := by
  split at h
  · next hc => exact ⟨hc, by injection h⟩
  · cases h

/-- A bus command that completes is one transaction of its encoding's bytes, and its effect keeps the
chip's bounds. -/
theorem exec_bus_next {i : Instr} {s t : State} (hi : isHostOp i = false) (h : exec i s = .next t) :
    ∃ e, t = s.transact (readsData i) (encode i).bytes e ∧ ChipOnly e ∧
      KeepsFits s.params.variant e := by
  cases i with
  | rRegister a => cases h; exact ⟨_, rfl, readReg_chipOnly a, keepsFits_of_same (readReg_chip a)⟩
  | wRegister a b =>
    change execWRegister a b s = _ at h
    unfold execWRegister at h
    split at h
    · cases h
    · split at h <;> cases h
      exact ⟨_, rfl, chipOnly_onChip _, keepsFits_onChip fun c hc => writeReg_fits a b hc⟩
  | activate x =>
    cases h
    exact ⟨_, rfl, chipOnly_write (activate_only' x), fun s hs => activate_fits x hs⟩
  | rRxPlWid => cases h; exact ⟨_, rfl, readWidth_chipOnly, keepsFits_of_same readWidth_chip⟩
  | rRxPayload n =>
    obtain ⟨-, rfl⟩ := next_of_if h
    exact ⟨_, rfl, readPayload_chipOnly n, readPayload_keepsFits n⟩
  | wTxPayload d =>
    obtain ⟨hd, rfl⟩ := next_of_if h
    exact ⟨_, rfl, chipOnly_onChip _, keepsFits_onChip fun c hc => pushTx_fits hd.2 hc⟩
  | wAckPayload ppp d =>
    change execWAckPayload ppp d s = _ at h
    unfold execWAckPayload at h
    split at h
    · next hp =>
      obtain ⟨hd, rfl⟩ := next_of_if h
      exact ⟨_, by rw [encode, ← ackCommand_eq ppp hp]; rfl, chipOnly_write (stageAck_only _ d),
        fun s hs => stageAck_fits _ hd hs⟩
    · cases h
  | wTxPayloadNoack d =>
    obtain ⟨hd, rfl⟩ := next_of_if h
    refine ⟨_, rfl, chipOnly_onChip _, keepsFits_onChip fun c hc => ?_⟩
    split
    · exact pushTx_fits hd.2 hc
    · exact hc
  | flushTx =>
    cases h
    refine ⟨_, rfl, chipOnly_onChip _, keepsFits_onChip fun c hc => ?_⟩
    exact hc.shrink rfl (List.nil_sublist _) (.refl _)
  | flushRx =>
    cases h
    refine ⟨_, rfl, chipOnly_onChip _, keepsFits_onChip fun c hc => ?_⟩
    exact ⟨hc.1, fifosFit_of_sublist hc.2 (.refl _) (List.nil_sublist _)⟩
  | nop => cases h; exact ⟨_, rfl, chipOnly_write fun _ => rfl, keepsFits_of_same fun _ => rfl⟩
  | _ => cases hi

/-- The frame of a bus command: the chip, the count of draws, the bus latch and the trace. -/
theorem exec_bus_only {i : Instr} {s t : State} (hi : isHostOp i = false)
    (h : exec i s = .next t) :
    t = { s with chip := t.chip, drawn := t.drawn, csn := false, busStatus := t.busStatus,
                 busIn := t.busIn, busLog := t.busLog } := by
  obtain ⟨e, rfl, he, -⟩ := exec_bus_next hi h
  rw [transact_only _ _ he]

theorem exec_bus_absent {i : Instr} {s t : State} (hi : isHostOp i = false)
    (h : exec i s = .next t) (hp : s.params.chipPresent = false) : t.chip = s.chip := by
  obtain ⟨e, rfl, -, -⟩ := exec_bus_next hi h
  exact transact_absent_chip _ _ e s hp

theorem exec_bus_fits {i : Instr} {s t : State} (hi : isHostOp i = false)
    (h : exec i s = .next t) (hf : s.chip.Fits s.params.variant) :
    t.chip.Fits s.params.variant := by
  cases hp : s.params.chipPresent with
  | false => rw [exec_bus_absent hi h hp]; exact hf
  | true =>
    obtain ⟨e, rfl, -, hk⟩ := exec_bus_next hi h
    rw [transact_present _ _ _ _ hp]
    exact hk _ hf

/-- A well-formed bus command completes. -/
theorem exec_bus_completes {i : Instr} (s : State) (hi : isHostOp i = false)
    (hw : wellFormed i = true) : ∃ t, exec i s = .next t := by
  cases i with
  | rRegister | activate | rRxPlWid | flushTx | flushRx | nop => exact ⟨_, rfl⟩
  | wRegister a b =>
    simp only [wellFormed, Bool.and_eq_true, Bool.not_eq_true', beq_iff_eq] at hw
    exact ⟨s.wRegister a b, by simp [exec, execWRegister, hw]⟩
  | rRxPayload n => exact ⟨_, if_pos (of_decide_eq_true hw)⟩
  | wTxPayload d | wTxPayloadNoack d => exact ⟨_, if_pos (of_decide_eq_true hw)⟩
  | wAckPayload ppp d =>
    obtain ⟨hp, hd⟩ := of_decide_eq_true hw
    exact ⟨_, (dif_pos hp).trans (if_pos hd)⟩
  | _ => cases hi

/-- What an absent chip answers: the reply to a command's bytes, with as many bytes as its data phase;
with `all0or1` one value for the whole transaction (10_state.md R49). -/
theorem absentReply_answers (r : Bool) (out : List Byte) (s : State) :
    ∃ st d n, s.absentReply r out = { s with csn := false, drawn := n, busStatus := st, busIn := d,
                                             busLog := .xfer out st d :: s.busLog } ∧
      d.length = out.length - 1 ∧
      (s.params.absentRead = .all0or1 →
        (st = 0x00 ∨ st = 0xFF) ∧ (r = true → ∀ b ∈ d, b = st)) := by
  unfold State.absentReply
  split
  · next ha =>
    cases r
    · exact ⟨_, _, _, rfl, List.length_replicate, fun h => nomatch ha.symm.trans h⟩
    · exact ⟨_, _, _, rfl, drawBytes_length .., fun h => nomatch ha.symm.trans h⟩
  · refine ⟨_, _, _, rfl, List.length_replicate, fun _ => ⟨?_, fun hr b hb => ?_⟩⟩
    · split
      · exact .inr rfl
      · exact .inl rfl
    · simpa [hr] using List.eq_of_mem_replicate hb

/-- Settles O16: a well-formed bus command is its transaction, which an absent chip answers. -/
theorem absentChipTransaction : Obligations.AbsentChipTransaction := by
  intro s i hp hi hw
  obtain ⟨t, ht⟩ := exec_bus_completes s hi hw
  obtain ⟨e, rfl, -, -⟩ := exec_bus_next hi ht
  obtain ⟨st, d, n, hr, hl, ha⟩ := absentReply_answers (readsData i) (encode i).bytes
    { s with csn := true }
  have hb : 1 ≤ (encode i).bytes.length := by cases i <;> simp [encode]
  refine ⟨st, d, n, ?_, by omega, fun h => ⟨(ha h).1, fun hd => (ha h).2 ?_⟩⟩
  · rw [ht, State.transact, hp]
    exact congrArg _ hr
  · obtain ⟨a, rfl⟩ | rfl | ⟨k, rfl⟩ := hd <;> rfl

end Sys2Proof.Machine
end

section
/-! The three kinds of effects of a host operation: a bus command, the other agents' moves, a computation
of the sequencer's own. -/

namespace Sys2Proof.Machine

/-- What the sequencer does of its own: nothing goes over the bus and no other agent moves; the shadow
state keeps its bounds and the buffers their form. -/
structure OwnStep (s t : State) : Prop where
  params  : t.params = s.params
  chip    : t.chip = s.chip
  csn     : t.csn = s.csn
  env     : t.env = s.env
  bus     : t.bus = s.bus
  shadow  : s.sh.Fits s.params → t.sh.Fits s.params
  buffers : s.buffersWf → t.buffersWf

theorem give_buffersWf (v : Result) {s : State} (h : s.buffersWf) : (s.give v).buffersWf := by
  unfold State.buffersWf
  rw [give_host]
  split <;> exact h

theorem exec_wAckPayload (p : Fin 6) {d : List Byte} (hd : d.length ≤ maxPayload) (s : State) :
    exec (.wAckPayload (BitVec.ofNat 3 p.val) d) s = .next (s.wAckPayload p d) := by
  have e : (BitVec.ofNat 3 p.val).toNat = p.val := by simp; omega
  change execWAckPayload _ d s = _
  unfold execWAckPayload
  simp only [e]
  rw [dif_pos p.isLt, if_pos hd]

theorem Act.bus_or {i : Instr} {s t : State} (a : Act i s t) :
    (∃ j, isHostOp j = false ∧ exec j s = .next t) ∨ t = s.interlude ∨ OwnStep s t := by
  cases a with
  | interlude => exact .inr (.inl rfl)
  | atLabel l | setLocals g =>
    exact .inr (.inr ⟨by simp, by simp, by simp, by simp, by simp, by simp,
      by simp [State.buffersWf]⟩)
  | push | clock | setCe | raise => exact .inr (.inr ⟨rfl, rfl, rfl, rfl, rfl, id, id⟩)
  | give v => exact .inr (.inr ⟨rfl, rfl, rfl, rfl, rfl, id, give_buffersWf v⟩)
  | memWrite b k v =>
    exact .inr (.inr ⟨by simp, by simp, by simp, by simp, by simp, by simp,
      memWrite_buffersWf b k v⟩)
  | onShadow g _ hf => exact .inr (.inr ⟨rfl, rfl, rfl, rfl, rfl, hf, id⟩)
  | rRegister a => exact .inl ⟨.rRegister a, rfl, rfl⟩
  | wRegister a v _ hr hv =>
    exact .inl ⟨.wRegister a v, rfl, by simp [exec, execWRegister, hr, hv]⟩
  | rRxPlWid => exact .inl ⟨.rRxPlWid, rfl, rfl⟩
  | rRxPayload n _ hn => exact .inl ⟨.rRxPayload n, rfl, if_pos hn⟩
  | wTxPayload d _ hd => exact .inl ⟨.wTxPayload d, rfl, if_pos hd⟩
  | wTxPayloadNoack d _ hd => exact .inl ⟨.wTxPayloadNoack d, rfl, if_pos hd⟩
  | wAckPayload p d _ hd => exact .inl ⟨_, rfl, exec_wAckPayload p hd s⟩
  | flushTx => exact .inl ⟨.flushTx, rfl, rfl⟩
  | flushRx => exact .inl ⟨.flushRx, rfl, rfl⟩
  | nop => exact .inl ⟨.nop, rfl, rfl⟩
  | activate => exact .inl ⟨.activate 0x73, rfl, rfl⟩

/-- No host operation puts a transaction on the bus outside it (20_memory.md R81). -/
theorem Runs.bus {i : Instr} {s t : State} (r : Runs i s t) : t.bus = s.bus :=
  r.relates (R := fun a b => b.bus = a.bus) (fun _ => rfl) (fun _ _ _ h h' => h'.trans h)
    fun a b h => by
      obtain ⟨j, hj, he⟩ | rfl | hl := h.bus_or
      · rw [exec_bus_only hj he]
      · exact interlude_bus a
      · exact hl.bus

/-! ## An absent chip (10_state.md R49, R376) -/

theorem applyMove_absent (m : EnvMove) {s : State} (hm : isReset m = false)
    (h : s.params.chipPresent = false) : (applyMove m s).chip = s.chip := by
  cases m with
  | clock d => rfl
  | txAttempt o => simp [applyMove, State.txAttempt, h]
  | txAbandon => simp [applyMove, State.txAbandon, h]
  | receive k n => simp [applyMove, State.receive, h]
  | chipReset | sequencerReset => cases hm

theorem applyMoves_absent (ms : List EnvMove) {s : State} (hm : ∀ m ∈ ms, isReset m = false)
    (h : s.params.chipPresent = false) : (applyMoves ms s).chip = s.chip := by
  induction ms generalizing s with
  | nil => rfl
  | cons m ms ih =>
    unfold applyMoves
    split
    · rfl
    · exact (ih (fun x hx => hm x (List.mem_cons_of_mem m hx))
        ((applyMove_params m s).symm ▸ h)).trans (applyMove_absent m (hm m (List.mem_cons_self ..)) h)

theorem interlude_absent {s : State} (hr : s.NoResets) (h : s.params.chipPresent = false) :
    s.interlude.chip = s.chip := by
  unfold State.interlude
  split
  · next ms rest he =>
    exact applyMoves_absent ms (s := { s with env := rest }) (hr ms (he ▸ List.mem_cons_self ..)) h
  · simp [State.afterScript, h]

/-- An effect over an absent chip that nothing resets leaves all three so. -/
theorem Act.absent {i : Instr} {c : Chip} {s t : State} (a : Act i s t)
    (h : s.params.chipPresent = false ∧ s.NoResets ∧ s.chip = c) :
    t.params.chipPresent = false ∧ t.NoResets ∧ t.chip = c := by
  obtain ⟨hp, hr, hc⟩ := h
  refine ⟨a.params.symm ▸ hp, ?_⟩
  obtain ⟨j, hj, he⟩ | rfl | hl := a.bus_or
  · refine ⟨?_, (exec_bus_absent hj he hp).trans hc⟩
    rw [exec_bus_only hj he]
    exact hr
  · exact ⟨interlude_noResets s hr, (interlude_absent hr hp).trans hc⟩
  · refine ⟨?_, hl.chip.trans hc⟩
    intro ms hms
    exact hr ms (hl.env ▸ hms)

/-- Settles O56: every effect of a host operation leaves an absent chip as it is. -/
theorem absentChipUntouched : Obligations.AbsentChipUntouched := by
  intro s t i hp hr hi he
  obtain ⟨r, -⟩ := exec_runs hi he
  exact (r.keeps (fun _ _ a => a.absent) ⟨hp, hr, rfl⟩).2.2

end Sys2Proof.Machine
end

section
/-! The machine invariant between two micro-steps: every move of another agent, every effect of a host
operation and every bus command keeps it, so every step does (10_state.md R23, R42 to R44, R50). -/

namespace Sys2Proof.Machine

/-- The machine invariant without the sequencer's rest, which holds between two micro-steps too: the
shadow state's bounds say what a mask and a data rate need while an operation runs. -/
structure State.Bounded (s : State) : Prop where
  chip       : s.chip.Fits s.params.variant
  shadow     : s.sh.Fits s.params
  defaultDr  : s.params.variant.has s.params.defaultDr = true
  deselected : s.csn = false
  buffers    : s.buffersWf

theorem inv_iff {s : State} : s.Inv ↔ s.seq = [] ∧ s.Bounded := by
  constructor
  · rintro ⟨hq, hr, hf, hl, hm, hd, hdd, hc, hb, hb'⟩
    exact ⟨hq, ⟨hr, hf⟩, ⟨hl, hm, fun _ => hd⟩, hdd, hc, hb, hb'⟩
  · rintro ⟨hq, ⟨hr, hf⟩, ⟨hl, hm, hd⟩, hdd, hc, hb, hb'⟩
    exact ⟨hq, hr, hf, hl, hm, hd hdd, hdd, hc, hb, hb'⟩

namespace State.Bounded

variable {s t : State} (h : s.Bounded)
include h

/-! ## By what changes -/

/-- What only the frames, the locals, the clock, the answers and the trace change. -/
theorem of_same (hp : t.params = s.params) (hc : t.chip = s.chip) (hs : t.sh = s.sh)
    (hd : t.csn = s.csn) (hb : t.buffersWf ↔ s.buffersWf) : t.Bounded :=
  ⟨by rw [hp, hc]; exact h.chip, by rw [hp, hs]; exact h.shadow, by rw [hp]; exact h.defaultDr,
    hd.trans h.deselected, hb.mpr h.buffers⟩

theorem onChip {f : Chip → Chip} (hf : (f s.chip).Fits s.params.variant) : (s.onChip f).Bounded :=
  ⟨hf, h.shadow, h.defaultDr, h.deselected, h.buffers⟩

theorem onShadow {g : Shadow → Shadow} (hg : (g s.sh).Fits s.params) : (s.onShadow g).Bounded :=
  ⟨h.chip, hg, h.defaultDr, h.deselected, h.buffers⟩

theorem bus {i : Instr} (hi : isHostOp i = false) (he : exec i s = .next t) : t.Bounded := by
  have hf := exec_bus_fits hi he h.chip
  rw [exec_bus_only hi he]
  exact ⟨hf, h.shadow, h.defaultDr, rfl, h.buffers⟩

/-! ## The other agents -/

theorem txAttempt (o : AttemptOutcome) : (s.txAttempt o).Bounded := by
  unfold State.txAttempt
  split
  · exact h
  · split
    · exact h.of_same rfl rfl rfl rfl .rfl
    · exact h.onChip (attempt_fits o h.chip)

theorem txAbandon : s.txAbandon.Bounded := by
  unfold State.txAbandon
  split
  · exact h.onChip (h.chip.shrink rfl (.refl _) (.refl _))
  · exact h

theorem receive (k : Packet) (n : Nat) : (s.receive k n).Bounded := by
  unfold State.receive
  split
  · exact h
  · split
    · exact h.of_same rfl rfl rfl rfl .rfl
    · split
      · exact h
      · next hk =>
        dsimp only
        split
        · exact h
        · split
          · exact h.of_same rfl rfl rfl rfl .rfl
          · exact h.onChip (accept_fits _ _ (by omega) h.chip)

/-- The shadow state a sequencer reset leaves is that of a block not initialized (10_state.md R62). -/
theorem sequencerReset (c : Bool) : (s.sequencerReset c).Bounded :=
  ⟨h.chip, ⟨Nat.zero_le _, nofun, fun _ => drawSettings_has _ _⟩, h.defaultDr, h.deselected,
    h.buffers⟩

theorem applyMove (m : EnvMove) : (applyMove m s).Bounded := by
  cases m with
  | clock d => exact h.of_same rfl rfl rfl rfl .rfl
  | txAttempt o => exact h.txAttempt o
  | txAbandon => exact h.txAbandon
  | receive k n => exact h.receive k n
  | chipReset => exact h.onChip (f := fun _ => Chip.reset s.params.variant) (reset_fits _)
  | sequencerReset c => exact h.sequencerReset c

omit h in
theorem applyMoves (ms : List EnvMove) {s : State} (h : s.Bounded) :
    (applyMoves ms s).Bounded := by
  induction ms generalizing s with
  | nil => exact h
  | cons m ms ih =>
    unfold Machine.applyMoves
    split
    · exact h
    · exact ih (h.applyMove m)

theorem interlude : s.interlude.Bounded := by
  unfold State.interlude
  split
  · next ms rest _ => exact applyMoves ms (h.of_same (t := { s with env := rest }) rfl rfl rfl rfl .rfl)
  · unfold State.afterScript
    split
    · exact (h.of_same (t := { s with drawn := s.drawn + 1 }) rfl rfl rfl rfl .rfl).txAttempt _
    · exact h

/-! ## The host -/

theorem taken : s.taken.Bounded := by
  unfold State.taken
  split <;> exact h.of_same rfl rfl rfl rfl .rfl

/-- What the sequencer does of its own. -/
theorem ownStep (hl : OwnStep s t) : t.Bounded :=
  ⟨by rw [hl.params, hl.chip]; exact h.chip, by rw [hl.params]; exact hl.shadow h.shadow,
    by rw [hl.params]; exact h.defaultDr, hl.csn.trans h.deselected, hl.buffers h.buffers⟩

theorem act {i : Instr} (a : Act i s t) : t.Bounded := by
  obtain ⟨j, hj, he⟩ | rfl | hl := a.bus_or
  · exact h.bus hj he
  · exact h.interlude
  · exact h.ownStep hl

theorem runs {i : Instr} (r : Runs i s t) : t.Bounded := r.keeps (fun _ _ a h => h.act a) h

end State.Bounded

/-! ## A step -/

theorem marks_of_outcome_next {s t : State} (h : s.outcome = .next t) : s.marks = none := by
  unfold State.outcome at h
  split at h
  · assumption
  all_goals cases h

/-- A command, once taken, leaves the invariant, the launch parameters and an idle bus. -/
theorem exec_keeps {i : Instr} {s t : State} (h : s.Inv) (he : exec i s = .next t) :
    t.Inv ∧ t.params = s.params ∧ t.bus = s.bus := by
  obtain ⟨hq, hb⟩ := inv_iff.mp h
  cases hi : isHostOp i with
  | false =>
    have ht := hb.bus hi he
    have e := exec_bus_only hi he
    exact ⟨inv_iff.mpr ⟨by rw [e]; exact hq, ht⟩, by rw [e], by rw [e]⟩
  | true =>
    obtain ⟨r, -, hq', -⟩ := exec_runs hi he
    have hs : (s.issued i).Bounded := hb.of_same rfl rfl rfl rfl .rfl
    exact ⟨inv_iff.mpr ⟨hq', hs.runs r⟩, r.params, r.bus⟩

theorem runCommand_keeps {s t : State} (h : s.Inv) (he : runCommand s = .next t) :
    t.Inv ∧ t.params = s.params ∧ t.bus = none := by
  obtain ⟨hq, hb⟩ := inv_iff.mp h
  have ht : s.taken.Inv := inv_iff.mpr ⟨by simpa using hq, hb.taken⟩
  cases hc : s.nextCommand with
  | none =>
    rw [runCommand_none hc] at he
    cases he
    exact ⟨ht, taken_params s, taken_bus s⟩
  | some c =>
    cases hd : decode c with
    | error e => rw [runCommand_error hc hd] at he; cases he
    | ok i =>
      rw [runCommand_ok hc hd] at he
      obtain ⟨hi, hp, hbus⟩ := exec_keeps ht he
      exact ⟨hi, hp.trans (taken_params s), hbus.trans (taken_bus s)⟩

/-- The other agents leave an idle sequencer idle. -/
theorem interlude_inv {s : State} (h : s.Inv) : s.interlude.Inv := by
  obtain ⟨hq, hb⟩ := inv_iff.mp h
  exact inv_iff.mpr ⟨(interlude_seq s).elim id fun e => e.1.trans hq, hb.interlude⟩

/-- Settles O54: the other agents' moves keep the invariant, and so does the command that is taken. -/
theorem invariantKept : Obligations.InvariantKept := by
  intro s t h he
  have hi : s.interlude.Inv := interlude_inv h
  unfold step at he
  split at he
  · next hm => exact nomatch hm.symm.trans (marks_of_outcome_next he)
  · split at he
    · next hm => exact nomatch hm.symm.trans (marks_of_outcome_next he)
    · rw [hi.idle] at he
      obtain ⟨ht, hp, hb⟩ := runCommand_keeps hi he
      exact ⟨ht, hp.trans (interlude_params s), hb⟩

end Sys2Proof.Machine
end

section
/-! Register reads and writes over a present chip (40_bus_commands.md R140, R141, 30_encoding.md R121):
what a read answers, and the whole next state. -/

namespace Sys2Proof.Machine

/-- A read never takes back a draw. -/
theorem readReg_drawn (a : Reg) (s : State) : s.drawn ≤ (s.readReg a).2.drawn := by
  cases a
  case config => simp only [State.readReg, State.drawBoolIf]; split <;> simp
  all_goals simp [State.readReg, State.drawBool, State.drawBytes]

theorem readReg_config_answers (s : State) : s.chip.Answers .config (s.readReg .config).1 := by
  cases hc : s.chip.crcForced <;> cases hb : Config.freeBool s.drawn <;>
    simp [Chip.Answers, Chip.configReads, State.readReg, State.drawBoolIf, hc, hb]

/-- A read answers what the rule says it may (R140). -/
theorem readReg_answers (a : Reg) (s : State) : s.chip.Answers a (s.readReg a).1 := by
  cases a
  case config => exact readReg_config_answers s
  case cd =>
    cases hb : Config.freeBool s.drawn
    · exact .inl (by simp [State.readReg, State.drawBool, hb])
    · exact .inr (by simp [State.readReg, State.drawBool, hb])
  case rsv18 | rsv19 | rsv1A | rsv1B | rsv1E | rsv1F => exact drawBytes_length s 1
  all_goals rfl

/-- R_REGISTER over a present chip: the whole next state. -/
theorem exec_rRegister_present (a : Reg) {s : State} (h : s.params.chipPresent = true) :
    exec (.rRegister a) s =
      .next (s.exchanged (regCommand 0b000 a :: List.replicate a.width 0)
        (({ s with csn := true } : State).readReg a).1 s.chip
        (({ s with csn := true } : State).readReg a).2.drawn) := by
  have e := transact_exchanged true (regCommand 0b000 a :: List.replicate a.width 0)
    (readReg_chipOnly a) s h
  rw [readReg_chip] at e
  exact congrArg _ e

/-- W_REGISTER of a whole register over a present chip: the whole next state. -/
theorem exec_wRegister_present {a : Reg} {v : List Byte} {s : State}
    (h : s.params.chipPresent = true) (hr : a.isReserved = false) (hv : v.length = a.width) :
    exec (.wRegister a v) s =
      .next (s.exchanged (regCommand 0b001 a :: v) (List.replicate v.length 0)
        (s.chip.writeReg s.params.variant a v) s.drawn) := by
  have e := transact_exchanged false (regCommand 0b001 a :: v)
    (chipOnly_onChip (n := v.length) (Chip.writeReg s.params.variant a v)) s h
  have hx : exec (.wRegister a v) s = .next (s.wRegister a v) := by
    simp [exec, execWRegister, hr, hv]
  exact hx.trans (congrArg _ e)

/-- Settles O5, from what `readReg` answers for each register. -/
theorem registerRead : Obligations.RegisterRead := by
  intro s a h
  exact ⟨_, _, exec_rRegister_present a h, readReg_drawn a { s with csn := true },
    readReg_length a _, readReg_answers a { s with csn := true }⟩

/-- Settles O8: a reserved register is read as a draw, and a write of a read-only one is no write. -/
theorem reservedAndReadOnlyRegisters : Obligations.ReservedAndReadOnlyRegisters := by
  intro s a
  refine ⟨fun hr => ⟨fun v => if_pos hr, fun h => ?_⟩, fun ha h b => ?_⟩
  · rw [exec_rRegister_present a h]
    cases a
    case rsv18 | rsv19 | rsv1A | rsv1B | rsv1E | rsv1F => exact ⟨_, rfl⟩
    all_goals cases hr
  · obtain rfl | rfl | rfl := ha <;> exact exec_wRegister_present h rfl rfl

/-! ## STATUS and FIFO_STATUS (10_state.md R31, R39) -/

theorem rxPNo_empty {c : Chip} (h : c.rxf = []) : c.rxPNo = 0b111 := by simp [Chip.rxPNo, h]

theorem rxPNo_head {c : Chip} {e : RxEntry} {r : List RxEntry} (h : c.rxf = e :: r) :
    c.rxPNo.toNat = e.pipe.val := by
  simp only [Chip.rxPNo, h, BitVec.toNat_ofNat]
  omega

theorem rxPNo_ne (c : Chip) : c.rxPNo ≠ 0b110 := by
  cases h : c.rxf with
  | nil => rw [rxPNo_empty h]; decide
  | cons e r =>
    intro he
    have hp := rxPNo_head h
    rw [he] at hp
    have := e.pipe.isLt
    simp at hp
    omega

/-- Settles O7, from the layout of the two bytes. -/
theorem statusRegisters : Obligations.StatusRegisters := by
  refine ⟨fun c => ?_, fun s v h => exec_wRegister_present h rfl rfl⟩
  obtain ⟨f7, f6, f5, f4, f3, f2, f1, f0⟩ :=
    fifoByte_bits c.txFull c.txEmpty c.rxFull c.rxEmpty
  rw [← txFull_eq, ← rxFull_eq, ← txEmpty_eq, ← rxEmpty_eq, statusPipe_status]
  exact ⟨by simp, by simp, by simp, by simp, by simp, rxPNo_empty, fun _ _ => rxPNo_head,
    rxPNo_ne c, f7, f6, f5, f4, f3, f2, f1, f0⟩

/-! ## Modes (10_state.md R47, 43_mode_control.md R236) -/

/-- The mode table: each row's condition and its mode. -/
theorem chipMode_row (s : State) :
    (bit s.chip.config 1 = false ∧ s.chipMode = .powerDown) ∨
    (bit s.chip.config 1 = true ∧ s.ce = false ∧ s.chipMode = .standby1) ∨
    (bit s.chip.config 1 = true ∧ s.ce = true ∧ bit s.chip.config 0 = true ∧
      s.chipMode = .rx) ∨
    (bit s.chip.config 1 = true ∧ s.ce = true ∧ bit s.chip.config 0 = false ∧ s.chip.txf = [] ∧
      s.chipMode = .standby2) ∨
    (bit s.chip.config 1 = true ∧ s.ce = true ∧ bit s.chip.config 0 = false ∧ s.chip.txf ≠ [] ∧
      s.chipMode = .tx) := by
  unfold State.chipMode Chip.pwrUp Chip.primRx Chip.txEmpty
  repeat' split
  all_goals simp_all

/-- The derivation from CONFIG, CE and FIFO_STATUS reads the same bits. -/
theorem deriveMode_eq (s : State) :
    deriveMode false s.chip.config s.ce s.chip.fifoStatus = s.chipMode := by
  unfold deriveMode
  rw [bit_fifo_txEmpty]
  rfl

/-- With the defect only CONFIG = 0x00 reads as powered down. -/
theorem deriveMode_quirk {cfg : Byte} (h : cfg ≠ 0x00) (ce : Bool) (fs : Byte) :
    deriveMode true cfg ce fs ≠ .powerDown := by
  have ht : powerDownTest true cfg = false := beq_eq_false_iff_ne.mpr h
  unfold deriveMode
  rw [ht]
  repeat' split
  all_goals simp_all

/-- Settles O17, row by row of the mode table. -/
theorem modeDerivation : Obligations.ModeDerivation := by
  intro s
  refine ⟨?_, ?_, ?_, ?_, ?_, deriveMode_eq s, fun hc => deriveMode_quirk hc s.ce _⟩
  all_goals
    obtain ⟨h1, h⟩ | ⟨h1, h2, h⟩ | ⟨h1, h2, h3, h⟩ | ⟨h1, h2, h3, h4, h⟩ | ⟨h1, h2, h3, h4, h⟩ :=
      chipMode_row s
    all_goals simp [*]

/-! ## Resets (70_reset_and_hazards.md R350, R351, R355, R356) -/

theorem reset_pwrUp (v : ChipVariant) : (Chip.reset v).pwrUp = false := by cases v <;> rfl

/-- The nRF24L01 comes out of a reset with its features locked. -/
theorem reset_locked (p : Fin 6) : (Chip.reset .nRF24L01).dynamicPayload p = false := rfl

/-- Settles O53, from the bounds of a chip after reset. -/
theorem invariantAtReset : Obligations.InvariantAtReset := by
  have hd : State.reset.params.variant.has State.reset.params.defaultDr = true := by
    simp only [State.reset, Config.launchParams]
    split <;> rfl
  exact inv_iff.mpr ⟨rfl, reset_fits _, ⟨Nat.zero_le _, nofun, fun _ => drawSettings_has _ _⟩, hd,
    rfl, reset_buffersWf⟩

/-- A data rate of the nRF24L01 is not 250 kbps (10_state.md R30). -/
theorem has_ne_kbps250 {v : ChipVariant} {r : DataRate} (h : v.has r = true)
    (hv : v = .nRF24L01) : r ≠ .kbps250 := by
  rintro rfl
  subst hv
  cases h

/-- Settles O52, by each reset's own fields. -/
theorem resetState : Obligations.ResetState := by
  refine ⟨fun v => ?_, ⟨rfl, ?_, rfl, rfl, rfl, rfl, rfl, rfl, rfl, rfl, rfl, rfl,
    has_ne_kbps250 (drawSettings_has _ _)⟩, fun s => ⟨rfl, chipMode_asleep (reset_pwrUp _), ?_⟩,
    fun s ce => ⟨_, _, has_ne_kbps250 (drawSettings_has _ s.drawn), rfl⟩⟩
  · cases v <;> exact ⟨rfl, rfl, rfl, rfl⟩
  · exact chipMode_asleep (reset_pwrUp _)
  · intro hv
    simp only [applyMove, chipReset_chip, hv]
    exact ⟨rfl, reset_locked⟩

end Sys2Proof.Machine
end

section
/-! What holds at each label of a running program when no reset is to come, said for every environment: a
radio step that is refused marks the state, and a marked state answers no next state, so nothing need be
said of it. `Ends k c0 E s`: unless it is marked, `s` meets `E` and, if `k`, its chip is configured as
`c0`. -/

namespace Sys2Proof.Machine

/-! ## The configuration no host operation but init changes (10_state.md R25 to R27, R38, R40, R41) -/

/-- The chip without what radio steps, payload reads and flushes write. -/
def Chip.programmed (c : Chip) : Chip := { c.steady with rxCorrupt := false }

/-- The chip without what host operations other than init write, too: what is left is EN_AA, SETUP_AW,
the static widths, DYNPD, FEATURE, CD and the feature lock. -/
def Chip.fixed (c : Chip) : Chip :=
  { c.programmed with
    config := 0, enRxaddr := 0, setupRetr := 0, rfCh := 0, rfSetup := 0,
    rxAddrP0 := ⟨0, 0, 0, 0, 0⟩, rxAddrP1 := ⟨0, 0, 0, 0, 0⟩, rxAddrP2 := 0, rxAddrP3 := 0,
    rxAddrP4 := 0, rxAddrP5 := 0, txAddr := ⟨0, 0, 0, 0, 0⟩ }

/-- `c` is configured as `c0`: the fixed registers, the interrupt masks, and every pipe that `c0`
enables. -/
structure Chip.ConfiguredAs (c0 c : Chip) : Prop where
  fixed : c.fixed = c0.fixed
  masks : c.config &&& 0x70 = c0.config &&& 0x70
  pipes : c0.enRxaddr &&& 0x3F = c0.enRxaddr &&& c.enRxaddr &&& 0x3F

/-- A byte whose write to a register leaves the chip configured as `c0`. -/
def Chip.MayWrite (c0 : Chip) : Reg → Byte → Prop
  | .config, b => b &&& 0x70 = c0.config &&& 0x70
  | .enRxaddr, b => c0.enRxaddr &&& 0x3F = c0.enRxaddr &&& b &&& 0x3F
  | .enAa, _ | .setupAw, _ | .dynpd, _ | .feature, _ => False
  | .rxPwP0, _ | .rxPwP1, _ | .rxPwP2, _ | .rxPwP3, _ | .rxPwP4, _ | .rxPwP5, _ => False
  | _, _ => True

section
variable {c0 c d : Chip}

theorem programmed_of_steady (e : d.steady = c.steady) : d.programmed = c.programmed := by
  simp only [Chip.programmed, e]

theorem config_of_programmed (e : d.programmed = c.programmed) : d.config = c.config := by
  have h := congrArg Chip.config e
  exact h

theorem enRxaddr_of_programmed (e : d.programmed = c.programmed) : d.enRxaddr = c.enRxaddr := by
  have h := congrArg Chip.enRxaddr e
  exact h

theorem rxAddrP0_of_programmed (e : d.programmed = c.programmed) : d.rxAddrP0 = c.rxAddrP0 := by
  have h := congrArg Chip.rxAddrP0 e
  exact h

theorem txAddr_of_programmed (e : d.programmed = c.programmed) : d.txAddr = c.txAddr := by
  have h := congrArg Chip.txAddr e
  exact h

theorem Chip.ConfiguredAs.refl (c : Chip) : c.ConfiguredAs c :=
  ⟨rfl, rfl, by rw [BitVec.and_self]⟩

theorem Chip.ConfiguredAs.of_programmed (h : c0.ConfiguredAs c)
    (e : d.programmed = c.programmed) : c0.ConfiguredAs d := by
  have hf : d.fixed = c.fixed := by simp only [Chip.fixed, e]
  exact ⟨hf.trans h.fixed, by rw [config_of_programmed e]; exact h.masks,
    by rw [enRxaddr_of_programmed e]; exact h.pipes⟩

theorem Chip.ConfiguredAs.writeReg (h : c0.ConfiguredAs c) (v : ChipVariant) {a : Reg} {b : List Byte}
    (hb : c0.MayWrite a (b.headD 0)) : c0.ConfiguredAs (c.writeReg v a b) := by
  obtain ⟨hf, hm, hp⟩ := h
  cases a
  case config =>
    refine ⟨hf, ?_, hp⟩
    simp only [Chip.writeReg, BitVec.and_assoc]
    exact hb
  case enRxaddr =>
    refine ⟨hf, hm, ?_⟩
    simp only [Chip.writeReg, BitVec.and_assoc]
    rw [BitVec.and_self, ← BitVec.and_assoc]
    exact hb
  case enAa | setupAw | dynpd | feature | rxPwP0 | rxPwP1 | rxPwP2 | rxPwP3 | rxPwP4 | rxPwP5 =>
    exact hb.elim
  all_goals exact ⟨hf, hm, hp⟩

/-- What a read of CONFIG or EN_RXADDR answers may be written back. -/
theorem Chip.ConfiguredAs.mayWrite_read (h : c0.ConfiguredAs c) {a : Reg} {d : List Byte}
    (ha : a = .config ∨ a = .enRxaddr ∨ ∀ b, c0.MayWrite a b) (hd : c.Answers a d) :
    c0.MayWrite a (d.headD 0) := by
  obtain rfl | rfl | ha := ha
  · obtain ⟨v, hv, rfl⟩ := hd
    have hor : ∀ x : Byte, (x ||| 0x08) &&& 0x70 = x &&& 0x70 := by decide
    obtain rfl | rfl := mem_configReads hv
    · exact h.masks
    · exact (hor _).trans h.masks
  · cases hd
    exact h.pipes
  · exact ha _

end

/-- A register that holds neither of the two cached addresses. -/
theorem writeReg_addresses {a : Reg} (h0 : a ≠ .rxAddrP0) (ht : a ≠ .txAddr) (v : ChipVariant)
    (b : List Byte) (c : Chip) :
    (c.writeReg v a b).rxAddrP0 = c.rxAddrP0 ∧ (c.writeReg v a b).txAddr = c.txAddr := by
  cases a
  case rxAddrP0 => exact absurd rfl h0
  case txAddr => exact absurd rfl ht
  case dynpd | feature => simp only [Chip.writeReg]; split <;> exact ⟨rfl, rfl⟩
  all_goals exact ⟨rfl, rfl⟩

theorem pushTx_programmed (e : TxEntry) (c : Chip) : (c.pushTx e).programmed = c.programmed := by
  unfold Chip.pushTx
  split <;> rfl

theorem readPayload_programmed (n : Nat) (s : State) :
    (s.readPayload n).2.chip.programmed = s.chip.programmed := by
  unfold State.readPayload State.maybePop
  dsimp only
  repeat' split
  all_goals rfl

theorem stageAck_programmed (p : Fin 6) (d : List Byte) (s : State) :
    (s.stageAck p d).chip.programmed = s.chip.programmed := by
  unfold State.stageAck
  dsimp only
  repeat' split
  all_goals first | rfl | exact pushTx_programmed _ s.chip

/-! ## The other agents, short of a reset (41_radio_core.md R197) -/

theorem applyMove_frame (m : EnvMove) {s : State} (hm : isReset m = false) :
    (applyMove m s).chip.steady = s.chip.steady ∧ (applyMove m s).seq = s.seq ∧
      (applyMove m s).sh = s.sh := by
  cases m with
  | clock d => exact ⟨rfl, rfl, rfl⟩
  | txAttempt o =>
    simp only [applyMove, State.txAttempt]
    split
    · exact ⟨rfl, rfl, rfl⟩
    · split
      · exact ⟨rfl, rfl, rfl⟩
      · exact ⟨attempt_steady o s.chip, rfl, rfl⟩
  | txAbandon => simp only [applyMove, State.txAbandon]; split <;> exact ⟨rfl, rfl, rfl⟩
  | receive k n =>
    simp only [applyMove, State.receive]
    repeat' split
    all_goals first | exact ⟨rfl, rfl, rfl⟩ | exact ⟨accept_steady _ _ k s.chip, rfl, rfl⟩
  | chipReset | sequencerReset => cases hm

theorem applyMoves_frame (ms : List EnvMove) {s : State} (hm : ∀ m ∈ ms, isReset m = false) :
    (applyMoves ms s).chip.steady = s.chip.steady ∧ (applyMoves ms s).seq = s.seq ∧
      (applyMoves ms s).sh = s.sh := by
  induction ms generalizing s with
  | nil => exact ⟨rfl, rfl, rfl⟩
  | cons m ms ih =>
    unfold applyMoves
    split
    · exact ⟨rfl, rfl, rfl⟩
    · obtain ⟨hc, hq, hs⟩ := applyMove_frame (s := s) m (hm m (List.mem_cons_self ..))
      obtain ⟨hc', hq', hs'⟩ := ih (s := applyMove m s) fun x hx => hm x (List.mem_cons_of_mem m hx)
      exact ⟨hc'.trans hc, hq'.trans hq, hs'.trans hs⟩

theorem interlude_frame {s : State} (hr : s.NoResets) :
    s.interlude.chip.steady = s.chip.steady ∧ s.interlude.seq = s.seq ∧ s.interlude.sh = s.sh := by
  unfold State.interlude
  split
  · next ms rest he =>
    exact applyMoves_frame (s := { s with env := rest }) ms (hr ms (he ▸ List.mem_cons_self ..))
  · unfold State.afterScript
    split
    · exact applyMove_frame (s := { s with drawn := s.drawn + 1 })
        (.txAttempt (Config.freeOutcome s.drawn)) rfl
    · exact ⟨rfl, rfl, rfl⟩

/-- The other agents take no step from a marked state, so none unmarks it. -/
theorem marks_of_interlude {s : State} (h : s.interlude.marks = none) : s.marks = none := by
  unfold State.interlude at h
  split at h
  · next ms rest _ =>
    cases ms with
    | nil => exact h
    | cons m ms =>
      unfold applyMoves at h
      split at h
      · exact h
      · next hm => simpa using hm
  · unfold State.afterScript State.txAttempt at h
    repeat' split at h
    all_goals first | exact h | cases h

/-! ## Where a program stands, and what it holds there -/

/-- A statement about the locals of the running operation, the addresses of pipe 0 and of the
transmitter, and the shadow state. -/
abbrev Assertion := Locals → Addr → Addr → Shadow → Prop

/-- The running operation stands at `l` above the frames `r`, and `C` holds. -/
def Stands (r : List Frame) (l : Label) (C : Assertion) (s : State) : Prop :=
  ∃ op o, s.seq = ⟨op, l, o⟩ :: r ∧ C o s.chip.rxAddrP0 s.chip.txAddr s.sh

/-- The running operation has returned to the frames `r`, and `D` holds. -/
def Returned (r : List Frame) (D : Addr → Addr → Shadow → Prop) (s : State) : Prop :=
  ∃ v, s.seq = handBack v r ∧ D s.chip.rxAddrP0 s.chip.txAddr s.sh

/-- Over a present chip that nothing resets, configured as `c0` if `k`. -/
structure State.Undisturbed (k : Prop) (c0 : Chip) (s : State) : Prop where
  noResets : s.NoResets
  present  : s.params.chipPresent = true
  config   : k → c0.ConfiguredAs s.chip

/-- Unless `s` is marked, it is undisturbed and meets `E`. -/
def Ends (k : Prop) (c0 : Chip) (E : State → Prop) (s : State) : Prop :=
  s.marks = none → s.Undisturbed k c0 ∧ E s

section
variable {k : Prop} {c0 : Chip} {r : List Frame} {l : Label} {C C' : Assertion}
  {D D' : Addr → Addr → Shadow → Prop} {E E' : State → Prop} {s t : State}

theorem Stands.seq_ne (h : Stands r l C s) : s.seq ≠ [] := by
  obtain ⟨op, o, e, -⟩ := h
  simp [e]

theorem Stands.isAt (h : Stands r l C s) : s.isAt l = true := by
  obtain ⟨op, o, e, -⟩ := h
  simp [State.isAt, e]

theorem Stands.isAt_other {l' : Label} (h : Stands r l C s) (hn : l ≠ l') : s.isAt l' = false := by
  obtain ⟨op, o, e, -⟩ := h
  simp [State.isAt, e, hn]

/-- The assertion of the state's own locals. -/
theorem Stands.holds (h : Stands r l C s) : C s.locals s.chip.rxAddrP0 s.chip.txAddr s.sh := by
  obtain ⟨op, o, e, hC⟩ := h
  simpa [State.locals, e] using hC

theorem Stands.of_locals (h : Stands r l C s) (hq : t.seq = s.seq)
    (hC : C' s.locals t.chip.rxAddrP0 t.chip.txAddr t.sh) : Stands r l C' t := by
  obtain ⟨op, o, e, -⟩ := h
  exact ⟨op, o, hq.trans e, by simpa [State.locals, e] using hC⟩

theorem Stands.atLabel (h : Stands r l C s) (l' : Label) : Stands r l' C (s.atLabel l') := by
  obtain ⟨op, o, e, hC⟩ := h
  exact ⟨op, o, by simp [State.atLabel, e], by simpa using hC⟩

namespace Ends

theorem mono (h : Ends k c0 E s) (hE : E s → E' s) : Ends k c0 E' s := fun hm => (h hm).imp id hE

/-- Another assertion that follows where the program stands. -/
theorem weaken (h : Ends k c0 (Stands r l C) s)
    (hC : ∀ p x, C s.locals p x s.sh → C' s.locals p x s.sh) : Ends k c0 (Stands r l C') s :=
  h.mono fun hs => hs.of_locals rfl (hC _ _ hs.holds)

/-- A choice between two continuations. -/
theorem choose (h : Ends k c0 E s) (h' : Ends k c0 E t) (b : Bool) :
    Ends k c0 E (if b then s else t) := by
  cases b
  · exact h'
  · exact h

/-! ### Micro-steps -/

/-- A state whose marks, script, parameters, chip registers, frames and shadow state are the same. -/
theorem of_same (h : Ends k c0 (Stands r l C) s) (hm : t.marks = s.marks) (he : t.env = s.env)
    (hp : t.params = s.params) (hc : t.chip.programmed = s.chip.programmed) (hq : t.seq = s.seq)
    (hs : t.sh = s.sh) : Ends k c0 (Stands r l C) t := fun hn => by
  obtain ⟨hu, h⟩ := h (hm ▸ hn)
  refine ⟨⟨?_, hp ▸ hu.present, fun hk => (hu.config hk).of_programmed hc⟩,
    h.of_locals hq (by
      rw [rxAddrP0_of_programmed hc, txAddr_of_programmed hc, hs]
      exact h.holds)⟩
  intro ms hms
  exact hu.noResets ms (he ▸ hms)

theorem interlude (h : Ends k c0 (Stands r l C) s) : Ends k c0 (Stands r l C) s.interlude :=
  fun hn => by
    obtain ⟨hu, h⟩ := h (marks_of_interlude hn)
    obtain ⟨hc, hq, hs⟩ := interlude_frame hu.noResets
    have hp := programmed_of_steady hc
    exact ⟨⟨interlude_noResets s hu.noResets, interlude_params s ▸ hu.present,
      fun hk => (hu.config hk).of_programmed hp⟩,
      h.of_locals hq (by
        rw [rxAddrP0_of_programmed hp, txAddr_of_programmed hp, hs]
        exact h.holds)⟩

theorem compute (h : Ends k c0 (Stands r l C) s) {f : State → State}
    (hf : s.marks = none → Ends k c0 E (f s)) : Ends k c0 E (s.compute f) := by
  cases hs : s.stopped with
  | false => rw [compute_running hs]; exact hf (stopped_eq_false.mp hs).1
  | true =>
    rw [compute_stopped hs]
    intro hn
    have hq := (h hn).2.seq_ne
    simp [State.stopped, hn, hq] at hs

theorem here (h : Ends k c0 (Stands r l C) s) {f : State → State}
    (hf : s.marks = none → Ends k c0 E (f s)) : Ends k c0 E (s.here l f) :=
  h.compute fun hm => by
    rw [if_pos (h hm).2.isAt]
    exact hf hm

theorem stepAt (h : Ends k c0 (Stands r l C) s) {f : State → State}
    (hf : ∀ y, y.marks = none → Ends k c0 (Stands r l C) y → Ends k c0 E (f y)) :
    Ends k c0 E (s.stepAt l f) :=
  h.here fun _ => h.interlude.compute fun hm => hf _ hm h.interlude

theorem atLabel (h : Ends k c0 (Stands r l C) s) (l' : Label) :
    Ends k c0 (Stands r l' C) (s.atLabel l') := fun hn => by
  obtain ⟨hu, h⟩ := h (by simpa using hn)
  exact ⟨⟨by intro ms; simpa using hu.noResets ms, by simpa using hu.present,
    by simpa using hu.config⟩, h.atLabel l'⟩

theorem micro (h : Ends k c0 (Stands r l C) s) (next : Label) {f : State → State}
    (hf : ∀ y, Ends k c0 (Stands r l C) y → Ends k c0 (Stands r l C') (f y)) :
    Ends k c0 (Stands r next C') (s.micro l next f) :=
  h.stepAt fun y _ hy => (hf y hy).compute fun _ => (hf y hy).atLabel next

theorem pass (h : Ends k c0 (Stands r l C) s) (next : Label) :
    Ends k c0 (Stands r next C) (s.micro l next id) := h.micro next fun _ hy => hy

theorem setCeStep (h : Ends k c0 (Stands r l C) s) (next : Label) (v : Bool) :
    Ends k c0 (Stands r next C) (s.setCeStep l next v) :=
  h.micro next fun _ hy => hy.of_same rfl rfl rfl rfl rfl rfl

theorem clock (h : Ends k c0 (Stands r l C) s) (n : Nat) :
    Ends k c0 (Stands r l C) { s with now := n } := h.of_same rfl rfl rfl rfl rfl rfl

theorem delay (h : Ends k c0 (Stands r l C) s) (next : Label) (d : Nat) :
    Ends k c0 (Stands r next C) (s.delay l next d) :=
  h.micro next fun _ hy => hy.interlude.compute fun _ => hy.interlude.clock _

theorem setLocals (h : Ends k c0 (Stands r l C) s) {g : Locals → Locals}
    (hg : ∀ p x, C s.locals p x s.sh → C' (g s.locals) p x s.sh) :
    Ends k c0 (Stands r l C') (s.setLocals g) := fun hn => by
  obtain ⟨hu, h⟩ := h (by simpa using hn)
  refine ⟨⟨by intro ms; simpa using hu.noResets ms, by simpa using hu.present,
    by simpa using hu.config⟩, ?_⟩
  have hC := hg _ _ h.holds
  obtain ⟨op, o, e, -⟩ := h
  refine ⟨op, g o, by simp [State.setLocals, e], ?_⟩
  simpa [State.locals, e] using hC

theorem onShadow (h : Ends k c0 (Stands r l C) s) {g : Shadow → Shadow}
    (hg : ∀ p x, C s.locals p x s.sh → C' s.locals p x (g s.sh)) :
    Ends k c0 (Stands r l C') (s.onShadow g) := fun hn => by
  obtain ⟨hu, h⟩ := h hn
  exact ⟨⟨hu.noResets, hu.present, hu.config⟩, h.of_locals rfl (hg _ _ h.holds)⟩

/-! ### Transactions -/

/-- A transaction, from what its effect does to the chip. -/
theorem transact_of (h : Ends k c0 (Stands r l C) s) (rd : Bool) (out : List Byte)
    {e : State → List Byte × State} (he : ChipOnly e)
    (hk : k → c0.ConfiguredAs s.chip → c0.ConfiguredAs (e { s with csn := true }).2.chip)
    (hC : C s.locals s.chip.rxAddrP0 s.chip.txAddr s.sh →
      C' s.locals (e { s with csn := true }).2.chip.rxAddrP0
        (e { s with csn := true }).2.chip.txAddr s.sh) :
    Ends k c0 (Stands r l C') (s.transact rd out e) := fun hn => by
  have hf := transact_only rd out he s
  have hm : (s.transact rd out e).marks = s.marks := by rw [hf]
  obtain ⟨hu, h⟩ := h (hm ▸ hn)
  have hc : (s.transact rd out e).chip = (e { s with csn := true }).2.chip := by
    rw [transact_present _ _ _ _ hu.present]
    rfl
  have hq : (s.transact rd out e).seq = s.seq := by rw [hf]
  have hs : (s.transact rd out e).sh = s.sh := by rw [hf]
  refine ⟨⟨?_, by rw [hf]; exact hu.present, fun k => by rw [hc]; exact hk k (hu.config k)⟩,
    h.of_locals hq (by rw [hc, hs]; exact hC h.holds)⟩
  rw [hf]
  exact hu.noResets

/-- A transaction that leaves the programmed registers alone. -/
theorem transact (h : Ends k c0 (Stands r l C) s) (rd : Bool) (out : List Byte)
    {e : State → List Byte × State} (he : ChipOnly e)
    (hp : ∀ x, (e x).2.chip.programmed = x.chip.programmed) :
    Ends k c0 (Stands r l C) (s.transact rd out e) := by
  have hp := hp { s with csn := true }
  refine h.transact_of rd out he (fun _ hc => hc.of_programmed hp) fun hC => ?_
  rw [rxAddrP0_of_programmed hp, txAddr_of_programmed hp]
  exact hC

/-- A register write: what it does to the two addresses, and that it may be. -/
theorem wRegister_of (h : Ends k c0 (Stands r l C) s) {a : Reg} {v : List Byte}
    (ha : k → c0.MayWrite a (v.headD 0))
    (hC : C s.locals s.chip.rxAddrP0 s.chip.txAddr s.sh →
      C' s.locals (s.chip.writeReg s.params.variant a v).rxAddrP0
        (s.chip.writeReg s.params.variant a v).txAddr s.sh) :
    Ends k c0 (Stands r l C') (s.wRegister a v) :=
  h.transact_of false _ (chipOnly_onChip _) (fun hk hc => hc.writeReg _ (ha hk)) hC

theorem wRegister (h : Ends k c0 (Stands r l C) s) {a : Reg} {v : List Byte}
    (h0 : a ≠ .rxAddrP0) (ht : a ≠ .txAddr) (ha : k → c0.MayWrite a (v.headD 0)) :
    Ends k c0 (Stands r l C) (s.wRegister a v) := by
  refine h.wRegister_of ha fun hC => ?_
  obtain ⟨e0, et⟩ := writeReg_addresses h0 ht s.params.variant v s.chip
  rw [e0, et]
  exact hC

theorem rRegister (h : Ends k c0 (Stands r l C) s) (a : Reg) :
    Ends k c0 (Stands r l C) (s.rRegister a) :=
  h.transact true _ (readReg_chipOnly a) fun x => by rw [readReg_chip]

theorem nop (h : Ends k c0 (Stands r l C) s) : Ends k c0 (Stands r l C) s.nop :=
  h.transact false _ (chipOnly_write fun _ => rfl) fun _ => rfl

theorem rRxPlWid (h : Ends k c0 (Stands r l C) s) : Ends k c0 (Stands r l C) s.rRxPlWid :=
  h.transact true _ readWidth_chipOnly fun x => by rw [readWidth_chip]

theorem rRxPayload (h : Ends k c0 (Stands r l C) s) (n : Nat) :
    Ends k c0 (Stands r l C) (s.rRxPayload n) :=
  h.transact true _ (readPayload_chipOnly n) (readPayload_programmed n)

theorem wTxPayload (h : Ends k c0 (Stands r l C) s) (d : List Byte) :
    Ends k c0 (Stands r l C) (s.wTxPayload d) :=
  h.transact false _ (chipOnly_onChip _) fun x => pushTx_programmed _ x.chip

theorem wTxPayloadNoack (h : Ends k c0 (Stands r l C) s) (d : List Byte) :
    Ends k c0 (Stands r l C) (s.wTxPayloadNoack d) :=
  h.transact false _ (chipOnly_onChip _) fun x => by
    simp only [onChip_chip]
    split
    · exact pushTx_programmed _ x.chip
    · rfl

theorem wAckPayload (h : Ends k c0 (Stands r l C) s) (p : Fin 6) (d : List Byte) :
    Ends k c0 (Stands r l C) (s.wAckPayload p d) :=
  h.transact false _ (chipOnly_write (stageAck_only p d)) (stageAck_programmed p d)

/-! ### The pseudo-instructions (30_encoding.md R126) -/

/-- What a read of a register that is written back answers. -/
theorem read_mayWrite (h : Ends k c0 (Stands r l C) s) {a : Reg}
    (ha : a = .config ∨ a = .enRxaddr ∨ ∀ b, c0.MayWrite a b) :
    Ends k c0 (Stands r l fun o p x sh =>
      C o p x sh ∧ (k → c0.MayWrite a ((s.rRegister a).busIn.headD 0))) (s.rRegister a) :=
  fun hn => by
    obtain ⟨hu, -⟩ := h (by simpa using hn)
    obtain ⟨hu', hs⟩ := h.rRegister a hn
    refine ⟨hu', hs.of_locals rfl ⟨hs.holds, fun hk => ?_⟩⟩
    rw [rRegister_busIn a s hu.present]
    exact (hu.config hk).mayWrite_read ha (readReg_answers a s)

theorem readInto (h : Ends k c0 (Stands r l C) s) (next : Label) {a : Reg}
    (ha : a = .config ∨ a = .enRxaddr ∨ ∀ b, c0.MayWrite a b) {put : Byte → Locals → Locals}
    (hp : ∀ b o p x sh, (k → c0.MayWrite a b) → C o p x sh → C' (put b o) p x sh) :
    Ends k c0 (Stands r next C') (s.readInto l next a put) :=
  h.micro next fun _ hy => (hy.read_mayWrite ha).setLocals fun _ _ hC => hp _ _ _ _ _ hC.2 hC.1

theorem writeFrom (h : Ends k c0 (Stands r l C) s) (next : Label) {a : Reg} {v : State → List Byte}
    (h0 : a ≠ .rxAddrP0) (ht : a ≠ .txAddr)
    (ha : ∀ y, k → (∃ p x sh, C y.locals p x sh) → c0.MayWrite a ((v y).headD 0)) :
    Ends k c0 (Stands r next C) (s.writeFrom l next a v) :=
  h.micro next fun y hy => fun hn =>
    have hC := (hy (by simpa using hn)).2.holds
    hy.wRegister h0 ht (fun hk => ha y hk ⟨_, _, _, hC⟩) hn

theorem clearIrq (h : Ends k c0 (Stands r l C) s) (next : Label) (m : Byte) :
    Ends k c0 (Stands r next C) (s.clearIrq l next m) :=
  h.writeFrom next (by decide) (by decide) fun _ _ _ => trivial

theorem modify (h : Ends k c0 (Stands r l C) s) (next : Label) {a : Reg}
    (ha : a = .config ∨ a = .enRxaddr ∨ ∀ b, c0.MayWrite a b) {g : Byte → Byte}
    (h0 : a ≠ .rxAddrP0) (ht : a ≠ .txAddr)
    (hg : ∀ b, c0.MayWrite a b → c0.MayWrite a (g b))
    (hC : ∀ b o p x sh, C o p x sh → C { o with v := b } p x sh) :
    Ends k c0 (Stands r next C) (s.modify l next a g) := by
  have h1 := h.readInto (C' := fun o p x sh => C o p x sh ∧ (k → c0.MayWrite a o.v)) l.succ ha
    (put := fun b o => { o with v := b }) fun b o p x sh hb ho => ⟨hC b o p x sh ho, hb⟩
  have h2 := h1.writeFrom next (v := fun s => [g s.locals.v]) h0 ht
    fun y hk ⟨_, _, _, hy⟩ => hg _ (hy.2 hk)
  exact h2.weaken fun _ _ h => h.1

theorem statusInto (h : Ends k c0 (Stands r l C) s) (next : Label)
    (hC : ∀ b o p x sh, C o p x sh → C { o with st := b } p x sh) :
    Ends k c0 (Stands r next C) (s.statusInto l next) :=
  h.micro next fun _ hy => hy.nop.setLocals fun _ _ h => hC _ _ _ _ _ h

theorem flushRx (h : Ends k c0 (Stands r l C) s) : Ends k c0 (Stands r l C) s.flushRx :=
  h.transact false _ (chipOnly_onChip _) fun _ => rfl

theorem flushTx (h : Ends k c0 (Stands r l C) s) : Ends k c0 (Stands r l C) s.flushTx :=
  h.transact false _ (chipOnly_onChip _) fun _ => rfl

theorem flushBoth (h : Ends k c0 (Stands r l C) s) (next : Label) :
    Ends k c0 (Stands r next C) (s.flushBoth l next) :=
  (h.micro l.succ fun _ hy => hy.flushRx).micro next fun _ hy => hy.flushTx

/-! ### Returns and calls -/

theorem give (h : Ends k c0 (Stands r l C) s) (v : Result)
    (hD : ∀ p x sh, C s.locals p x sh → D p x sh) : Ends k c0 (Returned r D) (s.give v) :=
  fun hn => by
    obtain ⟨hu, h⟩ := h hn
    have hd := hD _ _ _ h.holds
    obtain ⟨op, o, e, -⟩ := h
    exact ⟨⟨hu.noResets, hu.present, hu.config⟩, v, by rw [give_seq, e]; rfl, hd⟩

theorem ret (h : Ends k c0 (Stands r l C) s) (v : State → Result)
    (hD : ∀ o p x sh, C o p x sh → D p x sh) : Ends k c0 (Returned r D) (s.ret l v) :=
  h.stepAt fun _ _ hy => hy.give _ (hD _)

theorem retHere (h : Ends k c0 (Stands r l C) s) (v : State → Result)
    (hD : ∀ o p x sh, C o p x sh → D p x sh) : Ends k c0 (Returned r D) (s.retHere l v) :=
  h.here fun _ => h.give _ (hD _)

/-- The last assignment to the shadow state, and the return. -/
theorem finish (h : Ends k c0 (Stands r l C) s) {g : State → Shadow → Shadow}
    (hD : ∀ y p x sh, C y.locals p x sh → D p x (g y sh)) :
    Ends k c0 (Returned r D) (s.finish l fun y => y.onShadow (g y)) :=
  h.stepAt fun y _ hy =>
    (hy.onShadow (C' := fun _ => D) fun p x hC => hD y p x _ hC).give _ fun _ _ _ h => h

theorem finishHere (h : Ends k c0 (Stands r l C) s) {g : State → Shadow → Shadow}
    (hD : ∀ y p x sh, C y.locals p x sh → D p x (g y sh)) :
    Ends k c0 (Returned r D) (s.finishHere l fun y => y.onShadow (g y)) :=
  h.here fun _ =>
    (h.onShadow (C' := fun _ => D) fun p x hC => hD s p x _ hC).give _ fun _ _ _ h => h

theorem push (h : Ends k c0 (Stands r l C) s) (op : Instr)
    (hD : ∀ p x sh, C s.locals p x sh → D p x sh) :
    Ends k c0 (Stands s.seq .s1 fun _ => D) (s.push op) := fun hn => by
  obtain ⟨hu, h⟩ := h hn
  exact ⟨⟨hu.noResets, hu.present, hu.config⟩, op, .fresh, rfl, hD _ _ _ h.holds⟩

/-- A call, from what the called program does; the caller's locals stand meanwhile. -/
theorem call (h : Ends k c0 (Stands r l C) s) (next : Label) (op : Instr) {g : State → State}
    (hD : ∀ o p x sh, C o p x sh → D p x sh)
    (hg : ∀ y r', Ends k c0 (Stands r' .s1 fun _ => D) y → Ends k c0 (Returned r' D') (g y))
    (hC : ∀ o v p x sh p' x' sh', C o p x sh → D' p' x' sh' →
      C' { o with got := v } p' x' sh') :
    Ends k c0 (Stands r next C') (s.call l next op g) :=
  h.stepAt fun y hm hy hn => by
    have hl := hy.atLabel next
    obtain ⟨op', o, e, ho⟩ := (hl (by simpa using hm)).2
    obtain ⟨hu, v, e', hd⟩ := hg _ _ (hl.push op fun p x sh => hD _ p x sh) hn
    rw [e, handBack_cons] at e'
    exact ⟨hu, op', _, e', hC _ v _ _ _ _ _ _ ho hd⟩

end Ends
end

end Sys2Proof.Machine
end

section
/-! What every program keeps, label by label: the configuration, the cached addresses (10_state.md R52), the
listening flag (R51) and the listeners (R53). -/

namespace Sys2Proof.Machine

/-! ## The bits of CONFIG and EN_RXADDR that the pseudo-instructions keep (30_encoding.md R126) -/

theorem withField_keeps {n m : Byte} (h : m &&& n = 0) (x b : Byte) :
    withField b m x &&& n = b &&& n := by
  apply BitVec.eq_of_getLsbD_eq
  intro i hi
  have hi := congrArg (BitVec.getLsbD · i) h
  simp [withField] at hi ⊢
  grind

theorem withBits_eq (b m : Byte) : withBits b m = withField b m m := by
  apply BitVec.eq_of_getLsbD_eq
  intro i hi
  simp [withBits, withField]
  grind

theorem withoutBits_eq (b m : Byte) : withoutBits b m = withField b m 0 := by
  simp [withoutBits, withField]

section
variable {c0 : Chip}

/-- A field outside the interrupt masks may be written. -/
theorem mayWrite_withField {m : Byte} (h : m &&& 0x70 = 0) (x b : Byte)
    (hb : c0.MayWrite .config b) : c0.MayWrite .config (withField b m x) :=
  (withField_keeps h x b).trans hb

theorem mayWrite_withBits {m : Byte} (h : m &&& 0x70 = 0) (b : Byte)
    (hb : c0.MayWrite .config b) : c0.MayWrite .config (withBits b m) :=
  withBits_eq b m ▸ mayWrite_withField h _ b hb

theorem mayWrite_withoutBits {m : Byte} (h : m &&& 0x70 = 0) (b : Byte)
    (hb : c0.MayWrite .config b) : c0.MayWrite .config (withoutBits b m) :=
  withoutBits_eq b m ▸ mayWrite_withField h _ b hb

/-- Setting bits of EN_RXADDR disables no pipe. -/
theorem mayWrite_enabled (m b : Byte) (hb : c0.MayWrite .enRxaddr b) :
    c0.MayWrite .enRxaddr (withBits b m) := by
  apply BitVec.eq_of_getLsbD_eq
  intro i hi
  have hi := congrArg (BitVec.getLsbD · i) hb
  simp [withBits] at hi ⊢
  grind

end

/-! ## What the programs keep -/

/-- The cached transmit address is TX_ADDR's, if `q`. -/
def TxCached (q : Prop) (x : Addr) (sh : Shadow) : Prop :=
  q → ∀ a, sh.txAddrCache = some a → x = a

/-- The cached address of pipe 0 is RX_ADDR_P0's, if `q`. -/
def P0Cached (q : Prop) (p : Addr) (sh : Shadow) : Prop :=
  q → ∀ a, sh.rxP0Cache = some a → p = a

/-- The listening flag is `b`, and, if `k`, there are at least `n` listeners. -/
def Listens (k : Prop) (b : Bool) (n : Nat) (sh : Shadow) : Prop :=
  sh.listening = b ∧ (k → n ≤ sh.extraPipes)

/-- All of it. -/
def Kept (k q : Prop) (b : Bool) (n : Nat) (p x : Addr) (sh : Shadow) : Prop :=
  TxCached q x sh ∧ P0Cached q p sh ∧ Listens k b n sh

/-- All of it, and a statement about the locals. -/
abbrev KeptAnd (k q : Prop) (b : Bool) (n : Nat) (L : Locals → Prop) : Assertion :=
  fun o p x sh => Kept k q b n p x sh ∧ L o

section
variable {k q : Prop} {c0 : Chip} {b : Bool} {n : Nat} {r : List Frame} {s : State}

/-! ## Mode control (43_mode_control.md) -/

theorem setActive_ends (on : Bool) (h : Ends k c0 (Stands r .s1 fun _ => Kept k q b n) s) :
    Ends k c0 (Returned r (Kept k q b n)) (setActiveProgram on s) := by
  have h1 := h.modify .s2 (.inl rfl)
    (g := fun v => if on then withBits v pwrUp else withoutBits v pwrUp) (by decide) (by decide)
    (fun v hv => by
      split
      · exact mayWrite_withBits (by decide) v hv
      · exact mayWrite_withoutBits (by decide) v hv) fun _ _ _ _ _ h => h
  exact (h1.delay .s3 tActivate).ret _ fun _ _ _ _ h => h

theorem isActive_ends (h : Ends k c0 (Stands r .s1 fun _ => Kept k q b n) s) :
    Ends k c0 (Returned r (Kept k q b n)) (isActiveProgram s) :=
  (h.readInto (C' := fun _ => Kept k q b n) .s2 (.inl rfl) fun _ _ _ _ _ _ h => h).ret _
    fun _ _ _ _ h => h

/-- The address S3 of startListening gives pipe 0 (R232), which the shadow state decides. -/
def Shadow.ownPipe0 (sh : Shadow) : Option Addr :=
  match sh.ownAddress with
  | none => none
  | some o =>
    if sh.rxP0Cache = some (fullAddress o (sh.networkMask.getD 0)) then none
    else some (fullAddress o (sh.networkMask.getD 0))

theorem ownPipe0_eq (s : State) : s.ownPipe0 = s.sh.ownPipe0 := rfl

theorem restorePipe0_ends (h : Ends k c0 (Stands r .s3 fun _ => Kept k q b n) s) :
    Ends k c0 (Stands r .s4 fun _ => Kept k q b n) (restorePipe0 s) := by
  refine Ends.micro (C := fun _ p x sh => TxCached q x sh ∧ (∀ a, sh.ownPipe0 = some a → p = a) ∧
      (sh.ownPipe0 = none → P0Cached q p sh) ∧ Listens k b n sh)
    (h.micro Label.s3.succ fun y hy => ?_) .s4 fun y hy => ?_
  · split
    · next hn =>
      rw [ownPipe0_eq] at hn
      exact hy.weaken fun p x hC =>
        ⟨hC.1, fun a ha => (nomatch hn.symm.trans ha), fun _ => hC.2.1, hC.2.2⟩
    · next a ha =>
      rw [ownPipe0_eq] at ha
      exact hy.wRegister_of (a := .rxAddrP0) (fun _ => trivial) fun hC =>
        ⟨hC.1, fun _ ha' => Option.some.inj (ha.symm.trans ha'),
          fun hn => (nomatch ha.symm.trans hn), hC.2.2⟩
  · split
    · next hn =>
      rw [ownPipe0_eq] at hn
      exact hy.weaken fun _ _ hC => ⟨hC.1, hC.2.2.1 hn, hC.2.2.2⟩
    · next a ha =>
      rw [ownPipe0_eq] at ha
      exact hy.onShadow fun _ _ hC =>
        ⟨hC.1, fun _ a' ha' => (hC.2.1 a ha).trans (Option.some.inj ha'), hC.2.2.2⟩

theorem startListening_ends (h : Ends k c0 (Stands r .s1 fun _ => Kept k q b n) s) :
    Ends k c0 (Returned r (Kept k q true n)) (startListeningProgram s) := by
  have h1 := (h.modify .s2 (.inl rfl) (g := fun v => withBits v (pwrUp ||| primRx)) (by decide)
    (by decide) (mayWrite_withBits (by decide)) fun _ _ _ _ _ h => h).clearIrq .s3 irqAll
  exact (((restorePipe0_ends h1).setCeStep .s5 true).flushBoth .s6).finish
    fun _ _ _ _ h => ⟨h.1, h.2.1, rfl, h.2.2.2⟩

theorem stopListening_ends (h : Ends k c0 (Stands r .s1 fun _ => Kept k q b n) s) :
    Ends k c0 (Returned r (Kept k q false n)) (stopListeningProgram s) := by
  have h1 := (h.modify .s2 (.inl rfl) (g := fun v => withoutBits v (pwrUp ||| primRx)) (by decide)
    (by decide) (mayWrite_withoutBits (by decide)) fun _ _ _ _ _ h => h).setCeStep .s3 false
  exact (h1.flushBoth .s4).finish fun _ _ _ _ h => ⟨h.1, h.2.1, rfl, h.2.2.2⟩

theorem currentMode_ends (h : Ends k c0 (Stands r .s1 fun _ => Kept k q b n) s) :
    Ends k c0 (Returned r (Kept k q b n)) (currentModeProgram s) := by
  have h2 := (h.readInto (C' := fun _ => Kept k q b n) .s2 (.inl rfl)
    (put := fun x o => { o with cfg := x }) fun _ _ _ _ _ _ h => h).micro .s3
    (C' := fun _ => Kept k q b n) (f := fun s => s.setLocals fun o => { o with ce := s.ce })
    fun _ hy => hy.setLocals fun _ _ h => h
  exact (h2.readInto (C' := fun _ => Kept k q b n) (a := .fifoStatus) .s4
    (.inr (.inr fun _ => trivial)) (put := fun x o => { o with fs := x })
    fun _ _ _ _ _ _ h => h).ret _ fun _ _ _ _ h => h

/-! ## Transmission (44_transmit.md) -/

theorem setTxAddress_ends (h : Ends k c0 (Stands r .s2 fun _ => Kept k q b n) s) :
    Ends k c0 (Stands r .s3 fun _ => Kept k q b n) (setTxAddress s) := by
  refine Ends.micro (C := fun o p x sh => (q → x = o.fa) ∧ P0Cached q p sh ∧ Listens k b n sh)
    (h.micro Label.s2.succ fun y hy => ?_) .s3 fun y hy => ?_
  · split
    · next hc => exact hy.weaken fun _ _ hC => ⟨fun hq => hC.1 hq _ hc, hC.2⟩
    · exact hy.wRegister_of (a := .txAddr) (fun _ => trivial) fun hC => ⟨fun _ => rfl, hC.2⟩
  · exact hy.onShadow fun _ _ hC => ⟨fun hq a ha => (hC.1 hq).trans (Option.some.inj ha), hC.2⟩

/-- Without a requested acknowledgment S3 does nothing. -/
theorem divertPipe0_ends (ack : Bool) (h : Ends k c0 (Stands r .s3 fun _ => Kept k q b n) s) :
    Ends k c0 (Stands r .s4 fun _ => Kept k q b n) (divertPipe0 ack s) := by
  cases ack with
  | false => exact (h.micro Label.s3.succ fun _ hy => hy).micro _ fun _ hy => hy
  | true =>
    refine Ends.micro (C := fun o p x sh => TxCached q x sh ∧ (q → p = o.fa) ∧ Listens k b n sh)
      (h.micro Label.s3.succ fun y hy => ?_) .s4 fun y hy => ?_
    · split
      · next hc =>
        have hc := hc.resolve_left (by simp)
        exact hy.weaken fun _ _ hC => ⟨hC.1, fun hq => hC.2.1 hq _ hc, hC.2.2⟩
      · exact hy.wRegister_of (a := .rxAddrP0) (fun _ => trivial) fun hC =>
          ⟨hC.1, fun _ => rfl, hC.2.2⟩
    · exact hy.onShadow fun _ _ hC =>
        ⟨hC.1, fun hq a ha => (hC.2.1 hq).trans (Option.some.inj ha), hC.2.2⟩

/-- From S5 on transmit knows whether it was listening. -/
theorem triggerTransmit_ends (ack : Bool) (h : Ends k c0 (Stands r .s4 fun _ => Kept k q b n) s) :
    Ends k c0 (Stands r .s9a (KeptAnd k q b n fun o => o.wasListening = b))
      (triggerTransmit ack s) := by
  have h5 := (h.clearIrq .s5 irqAll).readInto
    (C' := KeptAnd k q b n fun o => k → c0.MayWrite .config o.cfg) Label.s5.succ (.inl rfl)
    (put := fun x o => { o with cfg := x }) fun _ _ _ _ _ hb h => ⟨h, hb⟩
  have h6 := (h5.micro .s6a
    (C' := KeptAnd k q b n fun o => o.wasListening = b ∧ (k → c0.MayWrite .config o.cfg))
    (f := fun s => s.setLocals fun o =>
      { o with wasActive := bit o.cfg 1, wasListening := s.sh.listening })
    fun y hy => hy.setLocals fun p x h => ⟨h.1, h.1.2.2.1, h.2⟩).setCeStep .s6b false
  have h7 := (h6.writeFrom .s6c
    (v := fun s => [withoutBits (withBits s.locals.cfg pwrUp) primRx]) (by decide) (by decide)
    fun y hk ⟨_, _, _, hC⟩ =>
      mayWrite_withoutBits (by decide) _ (mayWrite_withBits (by decide) _ (hC.2.2 hk))).weaken
    (C' := KeptAnd k q b n fun o => o.wasListening = b) fun _ _ h => ⟨h.1, h.2.1⟩
  have h8 := fun c => ((h7.pass .s7).choose (h7.delay .s7 tColdstartTx) c).micro .s8
    (C' := KeptAnd k q b n fun o => o.wasListening = b)
    (f := fun s => if ack then s.wTxPayload s.locals.p else s.wTxPayloadNoack s.locals.p)
    fun y hy => by
      split
      · exact hy.wTxPayload _
      · exact hy.wTxPayloadNoack _
  exact ((h8 _).setCeStep Label.s8.succ true).micro .s9a
    (f := fun s => s.setLocals fun o => { o with t0 := s.now })
    fun y hy => hy.setLocals fun _ _ h => h

/-- The poll, whatever it keeps besides the status byte. -/
theorem pollLoop_ends {C : Assertion} (hC : ∀ v o p x sh, C o p x sh → C { o with st := v } p x sh)
    (m : Nat) (h : Ends k c0 (Stands r .s9a C) s) :
    Ends k c0 (Stands r .s10 C) (pollLoop m s) := by
  induction m generalizing s with
  | zero =>
    refine (h.statusInto .s9b hC).micro .s10 fun y hy => ?_
    split
    · exact hy
    · exact hy.clock _
  | succ m ih =>
    have h1 : Ends k c0 (fun u => Stands r .s10 C u ∨ Stands r .s9a C u)
        ((s.statusInto .s9a .s9b).stepAt .s9b fun s =>
          if pollEnds s.locals.st then s.atLabel .s10
          else if s.locals.t0 + tWatchdog ≤ s.now then s.atLabel .s10
          else s.atLabel .s9a) :=
      (h.statusInto .s9b hC).stepAt fun y _ hy => by
        split
        · exact (hy.atLabel .s10).mono .inl
        · split
          · exact (hy.atLabel .s10).mono .inl
          · exact (hy.atLabel .s9a).mono .inr
    rw [pollLoop]
    split
    · next hl =>
      exact ih (h1.mono fun e => e.resolve_left fun e =>
        (by simp [e.isAt_other (l' := .s9a) (by decide)] at hl))
    · next hl => exact h1.mono fun e => e.resolve_right fun e => hl e.isAt

theorem restoreState_ends
    (h : Ends k c0 (Stands r .s11 (KeptAnd k q b n fun o => o.wasListening = b)) s) :
    Ends k c0 (Stands r .s12 fun _ => Kept k q b n) (restoreState s) := by
  unfold restoreState
  split
  · exact (h.modify .s12 (.inl rfl) (g := fun v => withoutBits v pwrUp) (by decide) (by decide)
      (mayWrite_withoutBits (by decide)) fun _ _ _ _ _ h => h).weaken fun _ _ h => h.1
  · split
    · next hw =>
      have hb : Ends k c0 (Stands r .s11 (KeptAnd k q b n fun _ => b = true)) s :=
        h.weaken fun _ _ hC => ⟨hC.1, hC.2.symm.trans hw⟩
      exact hb.call .s12 .startListening (fun _ _ _ _ h => h.1)
        (fun _ _ h => startListening_ends h) fun _ _ _ _ _ _ _ _ hC hD => hC.2 ▸ hD
    · exact (h.pass .s12).weaken fun _ _ h => h.1

theorem transmit_ends (target : Byte) (payload : List Byte) (ack : Bool)
    (h : Ends k c0 (Stands r .s1 fun _ => Kept k q b n) s) :
    Ends k c0 (Returned r (Kept k q b n)) (transmitProgram target payload ack s) := by
  unfold transmitProgram
  split
  · exact h.retHere _ fun _ _ _ _ h => h
  · have h1 := h.micro .s2 (C' := fun _ => Kept k q b n)
      (f := fun s => s.setLocals fun o =>
        { o with p := clipPayload payload, fa := fullAddress target s.mask })
      fun y hy => hy.setLocals fun _ _ h => h
    have h9 := triggerTransmit_ends ack (divertPipe0_ends ack (setTxAddress_ends h1))
    exact (restoreState_ends ((pollLoop_ends (fun _ _ _ _ _ h => h) _ h9).setCeStep .s11
      false)).ret _ fun _ _ _ _ h => h

/-- A called program that keeps what its caller keeps. -/
theorem call_ends {l : Label} (h : Ends k c0 (Stands r l fun _ => Kept k q b n) s) (next : Label)
    (op : Instr) {g : State → State}
    (hg : ∀ y r', Ends k c0 (Stands r' .s1 fun _ => Kept k q b n) y →
      Ends k c0 (Returned r' (Kept k q b n)) (g y)) :
    Ends k c0 (Stands r next fun _ => Kept k q b n) (s.call l next op g) :=
  h.call next op (fun _ _ _ _ h => h) hg fun _ _ _ _ _ _ _ _ _ h => h

/-- A micro-step that assigns locals. -/
theorem assign_ends {l : Label} (h : Ends k c0 (Stands r l fun _ => Kept k q b n) s) (next : Label)
    (g : State → Locals → Locals) :
    Ends k c0 (Stands r next fun _ => Kept k q b n)
      (s.micro l next fun s => s.setLocals (g s)) :=
  h.micro next fun _ hy => hy.setLocals fun _ _ h => h

theorem send_ends (target : Byte) (payload : List Byte) (want : Bool)
    (h : Ends k c0 (Stands r .s1 fun _ => Kept k q b n) s) :
    Ends k c0 (Returned r (Kept k q b n)) (sendProgram target payload want s) := by
  have h1 := assign_ends (call_ends h Label.s1.succ
    (.transmit target payload s.sh.settings.ackEnabled)
    fun _ _ h => transmit_ends target payload s.sh.settings.ackEnabled h) .s2
    fun _ o => { o with ok := o.got.isTrue }
  exact (h1.micro .s3 (C' := fun _ => Kept k q b n)
    (f := fun s =>
      if want then
        let s := s.rRegister .observeTx
        s.setLocals fun o => { o with c := s.busIn.headD 0 &&& 0x0F }
      else s)
    fun y hy => by
      split
      · exact (hy.rRegister .observeTx).setLocals fun _ _ h => h
      · exact hy).ret _ fun _ _ _ _ h => h

/-! ## Reception (45_receive_ackq.md) -/

/-- A micro-step that reads the width of the head of the RX FIFO. -/
theorem widthInto_ends {l : Label} (h : Ends k c0 (Stands r l fun _ => Kept k q b n) s)
    (next : Label) :
    Ends k c0 (Stands r next fun _ => Kept k q b n)
      (s.micro l next fun s =>
        let s := s.rRxPlWid
        s.setLocals fun o => { o with w := s.busIn.headD 0 }) :=
  h.micro next fun _ hy => hy.rRxPlWid.setLocals fun _ _ h => h

theorem memWrite_ends {l : Label} (h : Ends k c0 (Stands r l fun _ => Kept k q b n) s)
    (next : Label) (f : State → BufId × Nat × List Byte) :
    Ends k c0 (Stands r next fun _ => Kept k q b n)
      (s.micro l next fun s => s.memWrite (f s).1 (f s).2.1 (f s).2.2) :=
  h.micro next fun _ hy =>
    hy.of_same (by simp) (by simp) (by simp) (by simp) (by simp) (by simp)

theorem read_ends (buf : BufId) (cap : Nat)
    (h : Ends k c0 (Stands r .s1 fun _ => Kept k q b n) s) :
    Ends k c0 (Returned r (Kept k q b n)) (readProgram buf cap s) := by
  have h3 := assign_ends (widthInto_ends (h.setCeStep .s2 false) .s3) .s4
    fun _ o => { o with n := min o.w.toNat cap }
  have h4 := h3.micro Label.s4.succ (C' := fun _ => Kept k q b n)
    (f := fun s =>
      let s := s.rRxPayload s.locals.n
      s.setLocals fun o => { o with d := s.busIn })
    fun y hy => (hy.rRxPayload y.locals.n).setLocals fun _ _ h => h
  have h5 := memWrite_ends h4 .s5 fun s => (buf, 0, s.locals.d)
  exact ((h5.clearIrq .s6 irqRxDr).setCeStep .s7 true).ret _ fun _ _ _ _ h => h

theorem readText_ends (cap : Nat) (h : Ends k c0 (Stands r .s1 fun _ => Kept k q b n) s) :
    Ends k c0 (Returned r (Kept k q b n)) (readTextProgram cap s) := by
  unfold readTextProgram
  split
  · exact h.retHere _ fun _ _ _ _ h => h
  · have h3 := assign_ends (call_ends (h.pass .s2) Label.s2.succ (.read (cap - 1))
      fun _ _ h => read_ends .readBuf (cap - 1) h) .s3 fun _ o => { o with n := o.got.countOf }
    exact (memWrite_ends h3 .s4 fun s => (.readBuf, s.locals.n, [0x00])).ret _
      fun _ _ _ _ h => h

theorem available_ends (want : Bool) (h : Ends k c0 (Stands r .s1 fun _ => Kept k q b n) s) :
    Ends k c0 (Returned r (Kept k q b n)) (availableProgram want s) := by
  have h1 := h.statusInto .s2 fun _ _ _ _ _ h => h
  unfold availableProgram
  dsimp only
  split
  · exact h1.ret _ fun _ _ _ _ h => h
  · exact (widthInto_ends (h1.pass .s3) .s4).ret _ fun _ _ _ _ h => h

theorem sendAndAwaitResponse_ends (target : Byte) (payload : List Byte)
    (h : Ends k c0 (Stands r .s1 fun _ => Kept k q b n) s) :
    Ends k c0 (Returned r (Kept k q b n)) (sendAndAwaitResponseProgram target payload s) := by
  have h2 := assign_ends (call_ends (h.micro .s2 fun _ hy => hy.flushRx) Label.s2.succ
    (.send target payload false) fun _ _ h => send_ends target payload false h) .s3
    fun _ o => { o with ok := o.got.isTrue }
  unfold sendAndAwaitResponseProgram
  dsimp only
  split
  · exact h2.ret _ fun _ _ _ _ h => h
  · split
    · exact (h2.pass .s4).ret _ fun _ _ _ _ h => h
    · have h5 := ((h2.pass .s4).pass .s5).statusInto .s6 fun _ _ _ _ _ h => h
      split
      · exact h5.ret _ fun _ _ _ _ h => h
      · exact (assign_ends (call_ends (h5.pass .s7) Label.s7.succ (.read sarCapacity)
          fun _ _ h => read_ends .respBuf sarCapacity h) .s8
          fun _ o => { o with n := o.got.countOf }).ret _ fun _ _ _ _ h => h

theorem broadcast_ends (payload : List Byte)
    (h : Ends k c0 (Stands r .s1 fun _ => Kept k q b n) s) :
    Ends k c0 (Returned r (Kept k q b n)) (broadcastProgram payload s) := by
  unfold broadcastProgram
  split
  · exact h.here fun _ hn => nomatch hn
  · exact (call_ends (h.pass .s2) .s3 _ fun _ _ h => transmit_ends _ payload false h).ret _
      fun _ _ _ _ h => h

/-- What queueResponse keeps while it listens for a moment: the CONFIG it has read may be written back
(R288). -/
abbrev Entered (k q : Prop) (c0 : Chip) (b : Bool) (n : Nat) : Assertion :=
  KeptAnd k q b n fun o => o.entered = true → k → c0.MayWrite .config o.cfg

theorem enteredWrite_ends {l : Label} (h : Ends k c0 (Stands r l (Entered k q c0 b n)) s)
    (next : Label) {g : Byte → Byte}
    (hg : ∀ v, c0.MayWrite .config v → c0.MayWrite .config (g v)) :
    Ends k c0 (Stands r next (Entered k q c0 b n)) (s.micro l next fun s =>
      if s.locals.entered then s.wRegister .config [g s.locals.cfg] else s) :=
  h.micro next fun y hy => by
    split
    · next he =>
      intro hn
      have hC := (hy (by simpa using hn)).2.holds
      exact hy.wRegister (by decide) (by decide) (fun hk => hg _ (hC.2 he hk)) hn
    · exact hy

theorem enterListening_ends (h : Ends k c0 (Stands r .s3 fun _ => Kept k q b n) s) :
    Ends k c0 (Stands r .s4 (Entered k q c0 b n)) (enterListening s) := by
  have h3 := h.micro Label.s3.succ (C' := Entered k q c0 b n)
    (f := fun s =>
      if s.locals.entered then
        let s := s.rRegister .config
        s.setLocals fun o => { o with cfg := s.busIn.headD 0 }
      else s) fun y hy => by
    split
    · exact (hy.read_mayWrite (.inl rfl)).setLocals fun _ _ hC => ⟨hC.1, fun _ => hC.2⟩
    · next he => exact hy.weaken fun _ _ hC => ⟨hC, fun h => absurd h he⟩
  exact enteredWrite_ends h3 .s4 (g := fun v => withBits v (pwrUp ||| primRx))
    (mayWrite_withBits (by decide))

theorem queueResponse_ends (payload : List Byte)
    (h : Ends k c0 (Stands r .s1 fun _ => Kept k q b n) s) :
    Ends k c0 (Returned r (Kept k q b n)) (queueResponseProgram payload s) := by
  have h1 := h.statusInto Label.s1.succ fun _ _ _ _ _ h => h
  unfold queueResponseProgram
  dsimp only
  split
  · exact h1.ret _ fun _ _ _ _ h => h
  · have h2 := assign_ends (h1.pass .s2) .s3 fun s o =>
      { o with p := clipPayload payload, entered := !s.sh.listening }
    have h4 := (enterListening_ends h2).micro .s5
      (f := fun s => s.wAckPayload s.params.ackPpp s.locals.p) fun y hy => hy.wAckPayload _ _
    exact (enteredWrite_ends h4 .s6 (g := fun v => v) fun _ h => h).ret _ fun _ _ _ _ h => h.1

/-! ## Addressing and the setters (42_addressing_pipes.md, 46_config_setters.md) -/

theorem setOwnAddress_ends (node : Byte) (h : Ends k c0 (Stands r .s1 fun _ => Kept k q b n) s) :
    Ends k c0 (Returned r (Kept k q b n)) (setOwnAddressProgram node s) := by
  have h1 := h.micro .s2 (C' := fun _ => Kept k q b n)
    (f := fun s => (s.onShadow fun h => { h with ownAddress := some node }).setLocals fun o =>
      { o with fa := fullAddress node s.mask })
    fun y hy => (hy.onShadow (C' := fun _ => Kept k q b n)
      fun _ _ h => h).setLocals fun _ _ h => h
  have h2 := h1.micro .s3 (C' := fun o p x sh => TxCached q x sh ∧ p = o.fa ∧ Listens k b n sh)
    (f := fun s => s.wRegister .rxAddrP0 s.locals.fa.toList)
    fun y hy => hy.wRegister_of (a := .rxAddrP0) (fun _ => trivial) fun hC => ⟨hC.1, rfl, hC.2.2⟩
  exact (h2.modify .s4 (.inr (.inl rfl)) (g := fun v => withBits v (erx 0)) (by decide) (by decide)
    (mayWrite_enabled _) fun _ _ _ _ _ h => h).finish
    (g := fun s h => { h with rxP0Cache := some s.locals.fa })
    fun y p x sh hC => ⟨hC.1, fun _ a ha => hC.2.1.trans (Option.some.inj ha), hC.2.2⟩

theorem listenerReg_ne (m : Nat) : listenerReg m ≠ .rxAddrP0 ∧ listenerReg m ≠ .txAddr := by
  unfold listenerReg
  split <;> decide

theorem mayWrite_listenerReg (m : Nat) (v : Byte) : c0.MayWrite (listenerReg m) v := by
  unfold listenerReg
  split <;> trivial

/-- With a free slot listenToAddress adds a listener and listens (R214, R216). -/
theorem listenToAddress_ends (node : Byte) (hl : s.isAt .s1 = true)
    (h : Ends k c0 (Stands r .s1 fun _ => Kept k q b n) s) :
    Ends k c0 (Returned r (Kept k q (if s.sh.extraPipes = 5 then b else true) n))
      (listenToAddressProgram node s) := by
  unfold listenToAddressProgram
  by_cases he : s.sh.extraPipes = 5
  · rw [if_pos he, if_pos ⟨hl, he⟩]
    exact h.retHere _ fun _ _ _ _ h => h
  · rw [if_neg he, if_neg fun h => he h.2]
    have h2 := (h.micro .s2 (C' := KeptAnd k q b n fun o => k → n ≤ o.k)
      (f := fun s => s.setLocals fun o => { o with k := s.sh.extraPipes })
      fun y hy => hy.setLocals fun _ _ hC => ⟨hC, hC.2.2.2⟩).micro .s3
      (f := fun s => s.wRegister (listenerReg s.locals.k) (listenerBytes s.locals.k node s.mask))
      fun y hy => hy.wRegister (listenerReg_ne _).1 (listenerReg_ne _).2
        fun _ => mayWrite_listenerReg _ _
    have h3 := (h2.readInto Label.s3.succ (.inr (.inl rfl)) (put := fun x o => { o with v := x })
      (C' := KeptAnd k q b n fun o => (k → n ≤ o.k) ∧ (k → c0.MayWrite .enRxaddr o.v))
      fun _ _ _ _ _ hb h => ⟨h.1, h.2, hb⟩).writeFrom .s4
      (v := fun s => [withBits s.locals.v (erx (s.locals.k + 1))]) (by decide) (by decide)
      fun y hk ⟨_, _, _, hC⟩ => mayWrite_enabled _ _ (hC.2.2 hk)
    have h4 := h3.micro .s5 (C' := fun _ => Kept k q b n)
      (f := fun s => s.onShadow fun h => { h with extraPipes := s.locals.k + 1 })
      fun y hy => hy.onShadow fun _ _ hC =>
        ⟨hC.1.1, hC.1.2.1, hC.1.2.2.1, fun hk => (hC.2.1 hk).trans (Nat.le_succ _)⟩
    exact (h4.call .s6 .startListening (fun _ _ _ _ h => h) (fun _ _ h => startListening_ends h)
      (C' := fun _ => Kept k q true n) fun _ _ _ _ _ _ _ _ _ hD => hD).ret _ fun _ _ _ _ h => h

theorem setter_ends {l : Label} (h : Ends k c0 (Stands r l fun _ => Kept k q b n) s)
    (g : Settings → Settings) :
    Ends k c0 (Returned r (Kept k q b n)) (s.finish l (State.onSettings g)) :=
  h.finish (g := fun _ h => { h with settings := g h.settings }) fun _ _ _ _ h => h

theorem setChannel_ends (ch : Byte) (h : Ends k c0 (Stands r .s1 fun _ => Kept k q b n) s) :
    Ends k c0 (Returned r (Kept k q b n)) (setChannelProgram ch s) :=
  setter_ends (h.writeFrom (a := .rfCh) Label.s1.succ (by decide) (by decide) fun _ _ _ => trivial) _

theorem setRetries_ends (delay count : BitVec 4)
    (h : Ends k c0 (Stands r .s1 fun _ => Kept k q b n) s) :
    Ends k c0 (Returned r (Kept k q b n)) (setRetriesProgram delay count s) :=
  setter_ends (h.writeFrom (a := .setupRetr) Label.s1.succ (by decide) (by decide)
    fun _ _ _ => trivial) _

/-- RF_SETUP is not part of the configuration that stays. -/
theorem rfField_ends {l : Label} {C : Assertion} (h : Ends k c0 (Stands r l C) s) (next : Label)
    (m x : Byte) (hC : ∀ v o p x sh, C o p x sh → C { o with v := v } p x sh) :
    Ends k c0 (Stands r next C) (s.setField l next .rfSetup m x) :=
  h.modify (a := .rfSetup) next (.inr (.inr fun _ => trivial)) (g := fun v => withField v m x) (by decide)
    (by decide) (fun _ _ => trivial) hC

theorem setDataRate_ends (dr : DataRate)
    (h : Ends k c0 (Stands r .s1 fun _ => Kept k q b n) s) :
    Ends k c0 (Returned r (Kept k q b n)) (setDataRateProgram dr s) :=
  setter_ends (rfField_ends h Label.s1.succ.succ _ _ fun _ _ _ _ _ h => h) _

theorem setPALevel_ends (pa : PaLevel)
    (h : Ends k c0 (Stands r .s1 fun _ => Kept k q b n) s) :
    Ends k c0 (Returned r (Kept k q b n)) (setPALevelProgram pa s) :=
  setter_ends (rfField_ends h Label.s1.succ.succ _ _ fun _ _ _ _ _ h => h) _

theorem setCRC_ends (mode : CrcMode) (h : Ends k c0 (Stands r .s1 fun _ => Kept k q b n) s) :
    Ends k c0 (Returned r (Kept k q b n)) (setCRCProgram mode s) :=
  setter_ends (h.modify Label.s1.succ.succ (.inl rfl) (g := fun v => withField v crcMask mode.code)
    (by decide) (by decide) (mayWrite_withField (by decide) _) fun _ _ _ _ _ h => h) _

/-! ## The initialization (70_reset_and_hazards.md R352)

It writes the whole configuration, so only its position is followed: at its end it clears the caches and
the listening flag. -/

/-- Where the program stands is all that is said. -/
abbrev Unsaid : Assertion := fun _ _ _ _ => True

section
variable {l : Label} (h : Ends k c0 (Stands r l Unsaid) s)
include h

theorem initWrite_ends (hk : ¬k) (next : Label) {a : Reg} {v : State → List Byte}
    (h0 : a ≠ .rxAddrP0 := by decide) (ht : a ≠ .txAddr := by decide) :
    Ends k c0 (Stands r next Unsaid) (s.writeFrom l next a v) :=
  h.writeFrom next h0 ht fun _ hk' => absurd hk' hk

theorem initShadow_ends (next : Label) (g : State → Shadow → Shadow) :
    Ends k c0 (Stands r next Unsaid) (s.micro l next fun s => s.onShadow (g s)) :=
  h.micro next fun _ hy => hy.onShadow fun _ _ _ => trivial

/-- A setting's register write is followed by its shadow value. -/
theorem initSetting_ends (next : Label) (g : State → Settings → Settings) :
    Ends k c0 (Stands r next Unsaid)
      (s.micro l next fun s => s.onSettings (g s)) :=
  initShadow_ends h next fun s sh => { sh with settings := g s sh.settings }

theorem initConfig_ends (next : Label) {m : Byte} (hm : m &&& 0x70 = 0) (x : Byte) :
    Ends k c0 (Stands r next Unsaid) (s.setField l next .config m x) :=
  h.modify next (.inl rfl) (g := fun v => withField v m x) (by decide) (by decide)
    (mayWrite_withField hm x) fun _ _ _ _ _ h => h

theorem initPowerDown_ends (next : Label) :
    Ends k c0 (Stands r next Unsaid) (s.clearBits l next .config pwrUp) :=
  h.modify next (.inl rfl) (g := fun v => withoutBits v pwrUp) (by decide) (by decide)
    (mayWrite_withoutBits (by decide)) fun _ _ _ _ _ h => h

end

theorem initSettings_ends (hk : ¬k) (mask : BitVec 32)
    (h : Ends k c0 (Stands r .s1 Unsaid) s) :
    Ends k c0 (Stands r .s10 Unsaid) (initSettings mask s) := by
  have h4 := initShadow_ends (initPowerDown_ends (h.setCeStep .s2 false) .s3) .s4
    fun _ h => { h with networkMask := some mask }
  have h6 := initSetting_ends (initWrite_ends (a := .setupRetr)
    (v := fun s => [retryByte s.params.defaultArd s.params.defaultArc]) (h4.delay .s5 tPor) hk
    Label.s5.succ) .s6
    fun s g => { g with retryDelay := s.params.defaultArd, retryCount := s.params.defaultArc }
  have h7 := fun x => initSetting_ends (rfField_ends h6 Label.s6.succ.succ paMask x
    fun _ _ _ _ _ h => h) .s7 fun s g => { g with paLevel := s.params.defaultPa }
  have h8 := fun x m y => initSetting_ends (rfField_ends (h7 x) Label.s7.succ.succ m y
    fun _ _ _ _ _ h => h) .s8 fun s g => { g with dataRate := s.params.defaultDr }
  have h9 := fun x m y z => initSetting_ends (initConfig_ends (h8 x m y) Label.s8.succ.succ
    (m := crcMask) (by decide) z) .s9 fun s g => { g with crc := Params.defaultCrc s.params }
  exact initSetting_ends (initWrite_ends (a := .rfCh)
    (v := fun s => [s.params.defaultCh.setWidth 8]) (h9 _ _ _ _) hk Label.s9.succ) .s10
    fun s g => { g with channel := s.params.defaultCh }

theorem initFeatures_ends (hk : ¬k) (h : Ends k c0 (Stands r .s10 Unsaid) s) :
    Ends k c0 (Stands r .s19 Unsaid) (initFeatures s) := by
  have h1 := h.micro .s11 (C' := Unsaid) (f := State.activate 0x73) fun y hy =>
    hy.transact_of false _ (chipOnly_write (activate_only' 0x73)) (fun hk' => absurd hk' hk)
      fun _ => trivial
  have h3 := initWrite_ends (a := .enAa) (v := fun _ => [0x3F])
    (initWrite_ends (a := .feature) (v := fun _ => [0x07]) h1 hk .s12) hk .s13
  have h5 := initWrite_ends (a := .setupAw) (v := fun _ => [0x03])
    (initWrite_ends (a := .dynpd) (v := fun _ => [0x3F]) h3 hk .s14) hk .s15
  exact (initSetting_ends (initPowerDown_ends (h5.clearIrq .s16 irqAll) .s17) .s18
    fun _ g => { g with ackEnabled := true }).flushBoth .s19

theorem init_ends (hk : ¬k) (mask : BitVec 32)
    (h : Ends k c0 (Stands r .s1 fun _ => Kept k q b n) s) :
    Ends k c0 (Returned r (Kept k q false n)) (initProgram mask s) :=
  (initFeatures_ends hk (initSettings_ends hk mask (h.weaken fun _ _ _ => trivial))).finish
    (g := fun _ h => { h with listening := false, txAddrCache := none, rxP0Cache := none,
                              extraPipes := 0, initialized := true })
    fun _ _ _ _ _ => ⟨nofun, nofun, rfl, fun hk' => absurd hk' hk⟩

/-! ## Every host operation -/

/-- The listening flag a host operation leaves where it was `b`, with `e` listeners before it
(10_state.md R51). -/
def listeningAfter (i : Instr) (e : Nat) (b : Bool) : Bool :=
  match i with
  | .startListening => true
  | .listenToAddress _ => if e = 5 then b else true
  | .stopListening => false
  | .init _ => false
  | _ => b

theorem programOf_ends {i : Instr} (hi : isHostOp i = true) (hk : k → ∀ m, i ≠ .init m)
    (hl : s.isAt .s1 = true) (h : Ends k c0 (Stands [] .s1 fun _ => Kept k q b n) s) :
    Ends k c0 (Returned [] (Kept k q (listeningAfter i s.sh.extraPipes b) n))
      (programOf [] i s) := by
  cases i with
  | rRegister | wRegister | activate | rRxPlWid | rRxPayload | wTxPayload | wAckPayload
  | wTxPayloadNoack | flushTx | flushRx | nop => cases hi
  | init mask => exact init_ends (fun hk' => hk hk' mask rfl) mask h
  | setOwnAddress node => exact setOwnAddress_ends node h
  | listenToAddress node => exact listenToAddress_ends node hl h
  | setActive on => exact setActive_ends on h
  | isActive => exact isActive_ends h
  | startListening => exact startListening_ends h
  | stopListening => exact stopListening_ends h
  | currentMode => exact currentMode_ends h
  | transmit target payload ack => exact transmit_ends target payload ack h
  | send target payload want => exact send_ends target payload want h
  | sendAndAwaitResponse target payload => exact sendAndAwaitResponse_ends target payload h
  | broadcast payload => exact broadcast_ends payload h
  | available want => exact available_ends want h
  | read cap => exact read_ends .readBuf cap h
  | readText cap => exact readText_ends cap h
  | queueResponse payload => exact queueResponse_ends payload h
  | setNetworkMask mask =>
    exact h.finishHere (g := fun _ h => { h with networkMask := some mask }) fun _ _ _ _ h => h
  | setChannel ch => exact setChannel_ends ch h
  | setRetries delay count => exact setRetries_ends _ _ h
  | setDataRate dr => exact setDataRate_ends _ h
  | setPALevel pa => exact setPALevel_ends _ h
  | setCRC mode => exact setCRC_ends _ h
  | setAckEnabled on =>
    exact h.finishHere
      (g := fun _ h => { h with settings := { h.settings with ackEnabled := on } })
      fun _ _ _ _ h => h
  | assembleFullAddress node => exact h.retHere _ fun _ _ _ _ h => h
  | decomposeAddress addr => exact h.retHere _ fun _ _ _ _ h => h

end

/-- Over a present chip that nothing resets: what a host operation that completes keeps, with the cached
addresses where they were the registers', and the configuration unless it is init. -/
theorem exec_kept {s t : State} {i : Instr} (hc : s.Calm) (hi : isHostOp i = true)
    (he : exec i s = .next t) :
    ((∀ m, i ≠ .init m) → s.chip.ConfiguredAs t.chip) ∧
      Kept (∀ m, i ≠ .init m) s.CacheInv (listeningAfter i s.sh.extraPipes s.sh.listening)
        s.sh.extraPipes t.chip.rxAddrP0 t.chip.txAddr t.sh := by
  obtain ⟨-, hm, -, hq⟩ := exec_runs hi he
  have hs : Ends (∀ m, i ≠ .init m) s.chip (Stands [] .s1 fun _ =>
      Kept (∀ m, i ≠ .init m) s.CacheInv s.sh.listening s.sh.extraPipes) (s.issued i) := fun _ =>
    ⟨⟨hc.noResets, hc.present, fun _ => .refl _⟩, i, .fresh,
      by simp [State.issued, State.push, hq],
      fun h => h.1, fun h => h.2, rfl, fun _ => Nat.le_refl _⟩
  have ht := programOf_ends hi id (by simp [State.isAt, State.issued, State.push]) hs
  rw [← resume_issued i hq, (exec_next_resume hi he).2] at ht
  obtain ⟨hu, v, -, hk⟩ := ht hm
  exact ⟨hu.config, hk⟩

/-- Settles O57: the caches follow the registers through every program. -/
theorem cacheInvariantKept : Obligations.CacheInvariantKept := by
  intro s t i _ hc _ hs hi he
  obtain ⟨-, hx, hp, -⟩ := exec_kept hc hi he
  exact ⟨hx hs, hp hs⟩

/-- Settles O58: no program but init's writes the configuration. -/
theorem configurationKept : Obligations.ConfigurationKept := by
  intro s t i _ hc _ hi hn he
  obtain ⟨hcfg, -, -, -, hl⟩ := exec_kept hc hi he
  obtain ⟨hf, hm, hp⟩ := hcfg hn
  have field {α : Type} (g : Chip → α) (e : ∀ c : Chip, g c.fixed = g c := by intro c; rfl) :
      g t.chip = g s.chip := by
    rw [← e t.chip, hf, e]
  exact ⟨field Chip.enAa, field Chip.setupAw, field Chip.rxPwP0, field Chip.rxPwP1,
    field Chip.rxPwP2, field Chip.rxPwP3, field Chip.rxPwP4, field Chip.rxPwP5, field Chip.dynpd,
    field Chip.feature, field Chip.featuresUnlocked, hm, hp, hl hn⟩

/-- Settles O59: the programs that write the flag are startListening, stopListening and init. -/
theorem listeningFlag : Obligations.ListeningFlag := by
  intro s t i _ hc _ hi he
  obtain ⟨-, -, -, hl, -⟩ := exec_kept hc hi he
  rw [hl]
  cases i <;> rfl

end Sys2Proof.Machine
end

section
/-! The result buffers (20_memory.md R86): a called read and a called send up to their returns, what
readText and sendAndAwaitResponse write of the host's side, and the bytes read from it by index. -/

namespace Sys2Proof.Machine

variable {q : Prop}

/-! ## Steps that leave the trace as it is -/

theorem compute_busLog {f : State → State} (hf : ∀ s, (f s).busLog = s.busLog) (s : State) :
    (s.compute f).busLog = s.busLog := by
  unfold State.compute
  split
  · rfl
  · exact hf s

theorem stepAt_busLog {f : State → State} (hf : ∀ s, (f s).busLog = s.busLog) (l : Label)
    (s : State) : (s.stepAt l f).busLog = s.busLog :=
  compute_busLog (f := fun s => if s.isAt l then s.interlude.compute f else s) (fun s => by
    split
    · exact (compute_busLog hf _).trans (interlude_busLog s)
    · rfl) s

theorem micro_busLog {f : State → State} (hf : ∀ s, (f s).busLog = s.busLog) (l next : Label)
    (s : State) : (s.micro l next f).busLog = s.busLog :=
  stepAt_busLog (fun s => (compute_busLog (by simp) _).trans (hf s)) l s

/-! ## Calls -/

/-- The frames a called program starts from. -/
theorem Tracks.enters {s x : State} (h : Tracks q s x) {op : Instr} {l : Label} {o : Locals}
    {r : List Frame} (hx : x.seq = ⟨op, l, o⟩ :: r) (next : Label) (callee : Instr) :
    Tracks q ((s.interlude.atLabel next).push callee)
      { x with seq := ⟨callee, .s1, .fresh⟩ :: ⟨op, next, o⟩ :: r } :=
  (h.called next callee).of_eq (by simp [State.push, State.atLabel, hx])

/-- What a read writes of the state it starts from does not depend on its frames. -/
theorem hasRead_seq (b : BufId) (d : List Byte) (c : Chip) (x : State) (r : List Frame) :
    ({ x with seq := r } : State).hasRead b d c = { x.hasRead b d c with seq := r } := by
  cases b <;> rfl

/-- read, called: the caller has the count. -/
theorem calledRead_tracks {s x : State} (h : Tracks q s x) (l next : Label) (b : BufId) (cap : Nat)
    {op : Instr} {o : Locals} {r : List Frame} (hx : x.seq = ⟨op, l, o⟩ :: r) :
    ∃ d c, d.length ≤ cap ∧ c.steady = ({ x.chip with rxCorrupt := c.rxCorrupt } : Chip).steady ∧
      (q → x.chip.GivesHead cap d c) ∧
      ReadAnswered cap d (s.call l next (.read cap) (readProgram b cap)).busLog ∧
      Tracks q (s.call l next (.read cap) (readProgram b cap))
        { x.hasRead b d c with seq := ⟨op, next, { o with got := .count d.length }⟩ :: r } := by
  obtain ⟨d, c, s', f', hcap, -, hc, hg, hlog, he, ht⟩ :=
    read_tracks (h.enters hx next (.read cap)) b cap rfl
  refine ⟨d, c, hcap, hc, hg, ?_⟩
  rw [h.call_eq l next (by simp [State.isAt, hx]), he]
  refine ⟨hlog, (ht.give _ (by simp)).of_eq ?_⟩
  rw [hasRead_seq]
  rfl

/-- transmit, called: the caller has whether it succeeded. -/
theorem calledTransmit_tracks {s y : State} {op : Instr} {o : Locals} {r : List Frame}
    {g : HostSide} {l : Label} (h : Tracks q s { y with seq := ⟨op, l, o⟩ :: r, host := g })
    (hq : y.Silent → q) (ha : y.chip.Admitted) (next : Label) (target : Byte)
    (payload : List Byte) (ack : Bool) :
    ∃ (ok : Bool) (u : State),
      y.Transmits target payload ack ok u
        (s.call l next (.transmit target payload ack) (transmitProgram target payload ack)).busLog ∧
      Tracks q (s.call l next (.transmit target payload ack) (transmitProgram target payload ack))
        { u with seq := ⟨op, next, { o with got := .bool ok }⟩ :: r, host := g } := by
  obtain ⟨ok, u, s', f', he, ht, -, -, hm⟩ :=
    transmit_returns (y := y) (h.enters rfl next (.transmit target payload ack)) hq ha target payload ack
  refine ⟨ok, u, ?_⟩
  rw [h.call_eq l next (by simp [State.isAt]), he]
  exact ⟨hm, ht.give _ (by simp)⟩

/-- send without the count, called: the caller has what transmit answered. -/
theorem calledSend_tracks {s y : State} {op : Instr} {o : Locals} {r : List Frame} {g : HostSide}
    {l : Label} (h : Tracks q s { y with seq := ⟨op, l, o⟩ :: r, host := g }) (hq : y.Silent → q)
    (ha : y.chip.Admitted) (next : Label) (target : Byte) (payload : List Byte) :
    ∃ (ok : Bool) (u : State),
      y.Transmits target payload y.sh.settings.ackEnabled ok u
        (s.call l next (.send target payload false) (sendProgram target payload false)).busLog ∧
      Tracks q (s.call l next (.send target payload false) (sendProgram target payload false))
        { u with seq := ⟨op, next, { o with got := .sent ok none }⟩ :: r, host := g } := by
  have hs := h.enters rfl next (.send target payload false)
  obtain ⟨ok, u, hm, h1⟩ := calledTransmit_tracks (y := y) hs hq ha Label.s1.succ target payload
    y.sh.settings.ackEnabled
  have h3 := (h1.micro Label.s1.succ .s2 rfl fun z hz =>
    hz.setLocals fun o => { o with ok := o.got.isTrue }).micro .s2 .s3 rfl fun z hz => hz
  refine ⟨ok, u, ?_⟩
  rw [h.call_eq l next (by simp [State.isAt])]
  simp only [sendProgram, sh_of_kept hs.same, Bool.false_eq_true, if_false]
  rw [h3.ret_eq .s3 rfl, h3.interlude.locals_eq]
  refine ⟨?_, h3.interlude.give _ (List.cons_ne_nil _ _)⟩
  rw [give_busLog, interlude_busLog, micro_busLog fun _ => rfl, micro_busLog (by simp)]
  exact hm

/-! ## readText (45_receive_ackq.md R284) -/

/-- The program up to its return. -/
theorem readText_tracks {s x : State} (h : Tracks q s x) {cap : Nat} (hcap : 0 < cap) {op : Instr}
    {o : Locals} {r : List Frame} (hx : x.seq = ⟨op, .s1, o⟩ :: r) :
    ∃ d c s' f', d.length ≤ cap - 1 ∧
      c.steady = ({ x.chip with rxCorrupt := c.rxCorrupt } : Chip).steady ∧
      (q → x.chip.GivesHead (cap - 1) d c) ∧ ReadAnswered (cap - 1) d s'.busLog ∧
      readTextProgram cap s = s'.give (.count d.length) ∧
      Tracks q s'
        { (x.hasRead .readBuf d c).memWrite .readBuf d.length [0x00] with seq := f' :: r } := by
  have h1 := h.micro_at { x with seq := ⟨op, .s2, o⟩ :: r } .s1 .s2 (by simp [State.isAt, hx])
    (e := id) (fun y hy => hy) (by simp [State.atLabel, hx])
  obtain ⟨d, c, hd, hc, hg, hlog, h2⟩ :=
    calledRead_tracks h1 .s2 Label.s2.succ .readBuf (cap - 1) rfl
  have h3 := h2.micro Label.s2.succ .s3 rfl fun y hy =>
    hy.setLocals fun o => { o with n := o.got.countOf }
  have h4 := h3.micro .s3 .s4 rfl (f := fun s => s.memWrite .readBuf s.locals.n [0x00])
    fun y hy => by
      rw [hy.locals_eq]
      exact hy.memWrite .readBuf d.length [0x00]
  refine ⟨d, c, _, _, hd, hc, hg, ?_, ?_, h4.interlude⟩
  · rw [interlude_busLog, micro_busLog (by simp), micro_busLog (by simp)]
    exact hlog
  · unfold readTextProgram
    rw [if_neg (by omega)]
    dsimp only
    rw [h4.ret_eq .s4 rfl, h4.interlude.locals_eq]
    rfl

/-! ## sendAndAwaitResponse (44_transmit.md R264 to R266) -/

/-- The result of sendAndAwaitResponse, and the host's side it leaves from `g`: a response, or none. -/
def Responded (g g' : HostSide) (v : Result) (log : List BusEvent) : Prop :=
  (v = .sendFailed ∨ v = .sentNoPayload) ∧ g' = g ∨
    ∃ d, v = .received d.length ∧ d.length ≤ sarCapacity ∧ ReadAnswered sarCapacity d log ∧
      g' = { g with respBuf := Memory.putAll g.respBuf 0 d }

/-- S7 and S8: the response is read and reported. -/
theorem readResponse_tracks {s x : State} (h : Tracks q s x) {op : Instr} {o : Locals}
    {r : List Frame} (hx : x.seq = ⟨op, .s7, o⟩ :: r) :
    ∃ d c s' f', d.length ≤ sarCapacity ∧ ReadAnswered sarCapacity d s'.busLog ∧
      ((s.call .s7 Label.s7.succ (.read sarCapacity) (readProgram .respBuf sarCapacity)).micro
          Label.s7.succ .s8 fun s => s.setLocals fun o => { o with n := o.got.countOf }).ret .s8
        (fun s => .received s.locals.n) = s'.give (.received d.length) ∧
      Tracks q s' { x.hasRead .respBuf d c with seq := f' :: r } := by
  obtain ⟨d, c, hd, -, -, hlog, h1⟩ :=
    calledRead_tracks h .s7 Label.s7.succ .respBuf sarCapacity hx
  have h2 := h1.micro Label.s7.succ .s8 rfl fun y hy =>
    hy.setLocals fun o => { o with n := o.got.countOf }
  refine ⟨d, c, _, _, hd, ?_, ?_, h2.interlude⟩
  · rw [interlude_busLog, micro_busLog (by simp)]
    exact hlog
  · rw [h2.ret_eq .s8 rfl, h2.interlude.locals_eq]
    rfl

/-- The program up to its return. -/
theorem sendAndAwaitResponse_tracks {s x : State} (h : Tracks q s x) (hq : x.Silent → q)
    (ha : x.chip.Admitted) {op : Instr} {o : Locals} {r : List Frame}
    (hx : x.seq = ⟨op, .s1, o⟩ :: r) (target : Byte) (payload : List Byte) :
    ∃ v s' u f', sendAndAwaitResponseProgram target payload s = s'.give v ∧
      Tracks q s' u ∧ u.seq = f' :: r ∧ Responded x.host u.host v s'.busLog := by
  have h1 := (h.micro .s1 .s2 (by simp [State.isAt, hx]) fun y hy => hy.flushRx).of_eq
    (atLabel_cons .s2 hx)
  obtain ⟨ok, u, -, h2⟩ := calledSend_tracks (y := { x with
      chip := { x.chip with rxf := [], rxCorrupt := false }, busLog := sends [0xE2] :: x.busLog })
    h1 hq ha Label.s2.succ target payload
  have h3 := h2.micro Label.s2.succ .s3 rfl fun y hy =>
    hy.setLocals fun o => { o with ok := o.got.isTrue }
  unfold sendAndAwaitResponseProgram
  dsimp only
  rw [h3.isAt_eq, h3.locals_eq]
  cases ok with
  | false =>
    rw [if_pos ⟨rfl, rfl⟩]
    exact ⟨_, _, _, _, h3.ret_eq .s3 rfl _, h3.interlude, rfl, .inl ⟨.inl rfl, rfl⟩⟩
  | true =>
    rw [if_neg (by simp [State.locals, State.atLabel, State.setLocals, Result.isTrue])]
    have h4 := h3.micro .s3 .s4 rfl (f := id) fun y hy => hy
    rw [h4.isAt_eq, sh_of_kept h4.same]
    by_cases hk : u.sh.settings.ackEnabled = false
    · rw [if_pos ⟨rfl, by simp [hk]⟩]
      exact ⟨_, _, _, _, h4.ret_eq .s4 rfl _, h4.interlude, rfl, .inl ⟨.inr rfl, rfl⟩⟩
    · rw [if_neg (by simp [hk])]
      have h5 := h4.micro .s4 .s5 rfl (f := id) fun y hy => hy
      obtain ⟨st, -, -, -, h6⟩ := statusInto_tracks h5 .s5 .s6 rfl rfl
      rw [h6.isAt_eq, h6.locals_eq]
      by_cases hr : statusRxDr st = false
      · rw [if_pos ⟨rfl, by simp [State.locals, hr]⟩]
        exact ⟨_, _, _, _, h6.ret_eq .s6 rfl _, h6.interlude, rfl, .inl ⟨.inr rfl, rfl⟩⟩
      · rw [if_neg (by simp [State.locals, hr])]
        have h7 := h6.micro .s6 .s7 rfl (f := id) fun y hy => hy
        obtain ⟨d, c, s', f', hd, hlog, he, h8⟩ := readResponse_tracks h7 rfl
        exact ⟨_, s', _, f', he, h8, rfl, .inr ⟨d, rfl, hd, hlog, rfl⟩⟩

/-! ## The caller's buffers after an operation (20_memory.md R86, 60_exceptions.md R343) -/

/-- What the host has of an operation that completes, from its program up to its return. -/
theorem issue_returned {i : Instr} {needsInit argsOk : Bool} {p : State → State} {s t s' x : State}
    {v : Result} {f : Frame} (he : s.issue i needsInit argsOk p = .next t)
    (hp : p (s.issued i) = s'.give v) (ht : Tracks q s' x) (hx : x.seq = [f]) :
    t.busLog = s'.busLog ∧ t.host = { x.host with result := v } := by
  obtain ⟨-, rfl⟩ := issue_next he
  rw [hp]
  refine ⟨rfl, ?_⟩
  simp [State.give, seq_of_kept ht.same, hx, host_of_kept ht.same]

section
variable {s t : State} (hr : s.Ready) (hc : s.Calm)
include hr hc

theorem issued_tracks (i : Instr) : Tracks s.Silent (s.issued i) (s.issued i) :=
  .start hr.1 hc.noResets hc.present (.inl hc.admitted) i

omit hc in
theorem issued_seq (i : Instr) : (s.issued i).seq = [⟨i, .s1, .fresh⟩] := by
  simp [State.issued, hr.1.2]

/-- read and readText write the bytes answered from index 0 on, readText a zero byte after them. -/
theorem exec_read_host {cap : Nat} {text : Bool} (hcap : 0 < cap)
    (he : exec (if text then .readText cap else .read cap) s = .next t) :
    ∃ d, ReadAnswered (if text then cap - 1 else cap) d t.busLog ∧
      d.length ≤ (if text then cap - 1 else cap) ∧
      t.host = { s.host with
        result := .count d.length,
        readBuf := Memory.putAll (Memory.putAll s.host.readBuf 0 d) d.length
          (if text then [0x00] else []) } := by
  cases text with
  | false =>
    obtain ⟨d, c, s', f', hd, -, -, -, hlog, hp, ht⟩ :=
      read_tracks (issued_tracks hr hc (.read cap)) .readBuf cap (issued_seq hr _)
    obtain ⟨el, eh⟩ := issue_returned he hp ht rfl
    exact ⟨d, el ▸ hlog, hd, eh⟩
  | true =>
    obtain ⟨d, c, s', f', hd, -, -, hlog, hp, ht⟩ :=
      readText_tracks (issued_tracks hr hc (.readText cap)) hcap (issued_seq hr _)
    obtain ⟨el, eh⟩ := issue_returned he hp ht rfl
    exact ⟨d, el ▸ hlog, hd, eh⟩

theorem exec_sendAndAwaitResponse_host {target : Byte} {payload : List Byte}
    (he : exec (.sendAndAwaitResponse target payload) s = .next t) :
    ∃ g, Responded { s.host with result := .none } g t.host.result t.busLog ∧
      t.host = { g with result := t.host.result } := by
  obtain ⟨v, s', u, f', hp, ht, hx, hg⟩ :=
    sendAndAwaitResponse_tracks (issued_tracks hr hc (.sendAndAwaitResponse target payload)) id
      hc.admitted (issued_seq hr _) target payload
  obtain ⟨el, eh⟩ := issue_returned he hp ht hx
  rw [eh, el]
  exact ⟨u.host, hg, rfl⟩

end

/-- A copy of `d` from index 0 on, then of `e` just after it, holds `d` at its indexes. -/
theorem get_copied {m : Memory} {d e : List Byte} {i : Nat} (h : i < d.length) :
    (Memory.putAll (Memory.putAll m 0 d) d.length e).get i = d[i]? := by
  rw [Memory.get_putAll_outside _ _ _ (.inl h), ← Nat.zero_add i, Memory.get_putAll_inside _ _ _ h]
  simp [h]

/-- It leaves every byte after both alone. -/
theorem get_after_copied {m : Memory} {d e : List Byte} {i : Nat} (h : d.length + e.length ≤ i) :
    (Memory.putAll (Memory.putAll m 0 d) d.length e).get i = m.get i := by
  rw [Memory.get_putAll_outside _ _ _ (.inr h), Memory.get_putAll_outside _ _ _ (.inr (by omega))]

/-- Settles O42: the one memory write of a read, and readText's terminator, seen byte by byte. -/
theorem readBuffer : Obligations.ReadBuffer := by
  refine ⟨fun s t cap text hr hc hcap he => ?_, fun s t target payload m hr hc _ he => ?_⟩
  · obtain ⟨d, hlog, hd, hh⟩ := exec_read_host hr hc hcap he
    rw [hh]
    refine ⟨d, hlog, rfl, ?_, ?_, rfl, ?_, fun i hi => get_copied hi, ?_⟩
    · split at hd <;> omega
    · rintro rfl
      rw [if_pos rfl] at hd
      omega
    · rintro rfl
      exact Memory.get_putAll_inside (k := 0) _ _ [0x00] (by simp)
    · intro i hi
      refine get_after_copied ?_
      cases text <;> simp at hi ⊢ <;> omega
  · obtain ⟨g, ⟨hv, rfl⟩ | ⟨d, hv, hd, hlog, rfl⟩, hh⟩ := exec_sendAndAwaitResponse_host hr hc he
    · rw [hh]
      refine ⟨rfl, .inr ⟨fun n => ?_, rfl⟩⟩
      rcases hv with hv | hv <;> simp [hv]
    · rw [hv] at hh
      rw [hh]
      exact ⟨rfl, .inl ⟨d, rfl, hd, hlog, fun i hi => get_copied (e := []) hi,
        fun i hi => get_after_copied (e := []) hi⟩⟩

end Sys2Proof.Machine
end

section
/-! The decoder reads back what the encoder writes, row by row (30_encoding.md R112, R118, R119),
and refuses what no row admits (R114, R116, R120, R122). -/

namespace Sys2Proof.Machine

/-! ## Bus commands (30_encoding.md R112) -/

/-- The `REG` row of a read. -/
theorem decodeBus_read (a : Reg) (d : List Byte) :
    decodeBus (regCommand 0b000 a :: d) = exactly a.width d (.rRegister a) := by
  simp [decodeBus]

/-- The `REG` row of a write. -/
theorem decodeBus_write (a : Reg) (d : List Byte) :
    decodeBus (regCommand 0b001 a :: d) =
      if a.isReserved then .ok (.wRegister a d) else exactly a.width d (.wRegister a d) := by
  simp [decodeBus]

theorem ackCommand_fields : ∀ p : BitVec 3,
    (0xA8#8 ||| p.setWidth 8).extractLsb' 5 3 = 0b101 ∧
      (0xA8#8 ||| p.setWidth 8).extractLsb' 3 5 = 0b10101 ∧
      (0xA8#8 ||| p.setWidth 8).extractLsb' 0 3 = p := by
  decide

/-- The `ACKP` row. -/
theorem decodeBus_ack (p : BitVec 3) (d : List Byte) :
    decodeBus ((0xA8#8 ||| p.setWidth 8) :: d) =
      if p.toNat < 6 then payloadPhase 0 d (.wAckPayload p d) else .error .badAckPipe := by
  obtain ⟨h5, h3, h0⟩ := ackCommand_fields p
  simp only [decodeBus, h5, h3, h0]
  rfl

theorem decodeBus_encode {i : Instr} (hi : isHostOp i = false) (hw : wellFormed i = true) :
    decodeBus (encode i).bytes = .ok i := by
  cases i with
  | rRegister a => exact (decodeBus_read a _).trans (if_pos (List.length_replicate ..))
  | wRegister a v =>
    simp only [wellFormed, Bool.and_eq_true, Bool.not_eq_true', beq_iff_eq] at hw
    obtain ⟨hr, hv⟩ := hw
    exact (decodeBus_write a v).trans (by rw [hr]; exact if_pos hv)
  | wAckPayload p d =>
    obtain ⟨hp, hd⟩ := of_decide_eq_true hw
    exact (decodeBus_ack p d).trans ((if_pos hp).trans (if_pos ⟨Nat.zero_le _, hd⟩))
  | rRxPayload n =>
    have hn : (List.replicate n (0 : Byte)).length = n := List.length_replicate ..
    change (if _ ≤ 255 then Except.ok (Instr.rRxPayload _) else _) = _
    rw [hn, if_pos (of_decide_eq_true hw)]
  | wTxPayload d | wTxPayloadNoack d => exact if_pos (of_decide_eq_true hw)
  | activate | rRxPlWid | flushTx | flushRx | nop => rfl
  | _ => cases hi

/-! ## Host operations (30_encoding.md R119) -/

/-- A parse that leaves no byte is a decoding. -/
theorem decodeOp_of_parse {bs : List Byte} {i : Instr} (h : parseOp bs = .ok (i, [])) :
    decodeOp bs = .ok i := by
  unfold decodeOp
  rw [h]

theorem decodeOp_of_error {bs : List Byte} {e : DecodeError} (h : parseOp bs = .error e) :
    decodeOp bs = .error e := by
  unfold decodeOp
  rw [h]

/-- The byte of setRetries holds both nibbles (46_config_setters.md R302). -/
theorem retries_nibbles {d c : Byte} (hd : d.toNat ≤ 15) (hc : c.toNat ≤ 15) :
    (d <<< 4 ||| c) >>> 4 = d ∧ (d <<< 4 ||| c) &&& 0x0F = c := by
  have nibbles : ∀ x y : BitVec 4,
      (x.setWidth 8 <<< 4 ||| y.setWidth 8) >>> 4 = x.setWidth 8 ∧
        (x.setWidth 8 <<< 4 ||| y.setWidth 8) &&& 0x0F = y.setWidth 8 := by decide
  have narrow : ∀ b : Byte, b.toNat ≤ 15 → (b.setWidth 4).setWidth 8 = b := by decide
  have h := nibbles (d.setWidth 4) (c.setWidth 4)
  rwa [narrow d hd, narrow c hc] at h

theorem parseOp_encode {i : Instr} (hi : isHostOp i = true) (hw : wellFormed i = true) :
    parseOp (encode i).bytes = .ok (i, []) := by
  cases i with
  | rRegister | wRegister | activate | rRxPlWid | rRxPayload | wTxPayload | wAckPayload
  | wTxPayloadNoack | flushTx | flushRx | nop => cases hi
  | init m => exact congrArg (fun x => Except.ok (Instr.init x, [])) (le32_maskBytes m)
  | setNetworkMask m =>
    exact congrArg (fun x => Except.ok (Instr.setNetworkMask x, [])) (le32_maskBytes m)
  | setActive b => exact argBool_boolByte .setActive b []
  | setAckEnabled b => exact argBool_boolByte .setAckEnabled b []
  | available w => exact argFlag_boolByte (fun f => argNone (.available f)) w []
  | transmit t p a =>
    exact (argFlag_boolByte (fun f => argPayload fun p => .transmit t p f) a (payloadBytes p)).trans
      (argPayload_payloadBytes _ (of_decide_eq_true hw))
  | send t p w =>
    exact (argFlag_boolByte (fun f => argPayload fun p => .send t p f) w (payloadBytes p)).trans
      (argPayload_payloadBytes _ (of_decide_eq_true hw))
  | sendAndAwaitResponse t p =>
    exact argPayload_payloadBytes (.sendAndAwaitResponse t) (of_decide_eq_true hw)
  | broadcast p => exact argPayload_payloadBytes .broadcast (of_decide_eq_true hw)
  | queueResponse p => exact argPayload_payloadBytes .queueResponse (of_decide_eq_true hw)
  | read cap =>
    exact congrArg (fun n => Except.ok (Instr.read n, [])) (toNat_length (of_decide_eq_true hw))
  | readText cap =>
    exact congrArg (fun n => Except.ok (Instr.readText n, [])) (toNat_length (of_decide_eq_true hw))
  | setRetries d c =>
    obtain ⟨hd, hc⟩ := of_decide_eq_true hw
    obtain ⟨ed, ec⟩ := retries_nibbles hd hc
    change Except.ok (Instr.setRetries ((d <<< 4 ||| c) >>> 4) ((d <<< 4 ||| c) &&& 0x0F), []) = _
    rw [ed, ec]
  | _ => rfl

theorem encode_level (i : Instr) : (encode i).level = if isHostOp i then .op else .bus := by
  cases i <;> rfl

theorem decode_encode_bus {i : Instr} (hi : isHostOp i = false) (hw : wellFormed i = true) :
    decode ⟨.bus, (encode i).bytes⟩ = .ok i := decodeBus_encode hi hw

/-- Settles O1, on each of the two interfaces. -/
theorem decodeInvertsEncode : Obligations.DecodeInvertsEncode := by
  intro i hw
  unfold decode
  rw [encode_level]
  cases hi : isHostOp i with
  | false => exact decodeBus_encode hi hw
  | true => exact decodeOp_of_parse (parseOp_encode hi hw)

/-- Settles O2, by running the decoder on each word. -/
theorem wordsDecode : Obligations.WordsDecode :=
  ⟨rfl, rfl, rfl, rfl, rfl, rfl, rfl, rfl, rfl⟩

/-! ## Refused bytes (30_encoding.md R114, R120, R122) -/

/-- A command byte between the rows is of no format with fields. -/
theorem unlisted_fields : ∀ b : Byte, 0x40 ≤ b.toNat → ¬(0xA8 ≤ b.toNat ∧ b.toNat ≤ 0xAF) →
    b.extractLsb' 5 3 ≠ 0b000#3 ∧ b.extractLsb' 5 3 ≠ 0b001#3 ∧
      b.extractLsb' 3 5 ≠ 0b10101#5 := by
  decide

/-- Of the command bytes without fields, every one but the eight rows' is unadmitted (R120). -/
theorem decodeBus_unlisted {b : Byte} (h : 0x40 ≤ b.toNat)
    (ha : ¬(0xA8 ≤ b.toNat ∧ b.toNat ≤ 0xAF))
    (hr : b.toNat ∉ [0x50, 0x60, 0x61, 0xA0, 0xB0, 0xE1, 0xE2, 0xFF]) (data : List Byte) :
    decodeBus (b :: data) = .error .unadmittedCommand := by
  obtain ⟨h0, h1, h3⟩ := unlisted_fields b h ha
  simp only [List.mem_cons, List.not_mem_nil, or_false, not_or] at hr
  simp only [decodeBus, if_neg h0, if_neg h1, if_neg h3]
  split
  case h_9 => rfl
  all_goals omega

/-- The host op bytes are those of the rows (R122). -/
theorem decodeOp_unlisted {b : Byte}
    (h : b = 0x00 ∨ (0x09 ≤ b.toNat ∧ b.toNat ≤ 0x0F) ∨ (0x14 ≤ b.toNat ∧ b.toNat ≤ 0x17) ∨
      (0x1C ≤ b.toNat ∧ b.toNat ≤ 0x1F) ∨ (0x27 ≤ b.toNat ∧ b.toNat ≤ 0x2F) ∨ 0x32 ≤ b.toNat)
    (args : List Byte) : decodeOp (b :: args) = .error .unknownHostOp := by
  have h0 : b = 0x00 → b.toNat = 0 := fun e => e ▸ rfl
  replace h := h.imp_left h0
  refine decodeOp_of_error ?_
  simp only [parseOp]
  split
  case h_26 => rfl
  all_goals omega

/-- A flags byte with any of bits 7:1 set (R122). -/
theorem argFlag_reserved {flags : Byte} (h : 2 ≤ flags.toNat) (f : Bool → List Byte → Parsed)
    (rest : List Byte) : argFlag f (flags :: rest) = .error .unknownHostOp := by
  have h0 : flags ≠ 0 := fun e => by subst e; simp at h
  have h1 : flags ≠ 1 := fun e => by subst e; simp at h
  exact (if_neg h0).trans (if_neg h1)

/-- Settles O3: the bytes between the rows, and the flags bytes that are neither 0 nor 1. -/
theorem unadmittedCommandsRefused : Obligations.UnadmittedCommandsRefused := by
  refine ⟨fun b data => ⟨fun h => ?_, ?_⟩, fun b args h => decodeOp_unlisted h args,
    fun target flags rest h => ⟨?_, ?_, ?_⟩⟩
  · refine decodeBus_unlisted (by omega) (by omega) ?_ data
    simp only [List.mem_cons, List.not_mem_nil, or_false]
    omega
  · rintro (rfl | rfl)
    · exact decodeBus_ack 6 data
    · exact decodeBus_ack 7 data
  · exact decodeOp_of_error
      (argFlag_reserved h (fun f => argPayload fun p => .transmit target p f) rest)
  · exact decodeOp_of_error
      (argFlag_reserved h (fun f => argPayload fun p => .send target p f) rest)
  · exact decodeOp_of_error (argFlag_reserved h (fun f => argNone (.available f)) rest)

/-! ## Data lengths (30_encoding.md R116) -/

theorem exactly_eq (n : Nat) (d : List Byte) (i : Instr) :
    exactly n d i = if n ≤ d.length ∧ d.length ≤ n then .ok i else .error .badDataLength :=
  if_congr (by omega) rfl rfl

/-- Settles O4, row by row. -/
theorem dataLengths : Obligations.DataLengths := by
  refine ⟨decodeBus_read, fun a d hr => ?_, fun d => ?_, fun d s h => ⟨if_neg h, if_neg h⟩,
    fun p d s hp hd => (dif_pos hp).trans (if_neg (Nat.not_le.mpr hd)),
    fun n s hn => if_neg (Nat.not_le.mpr hn)⟩
  · exact (decodeBus_write a d).trans (by rw [hr]; rfl)
  · have payload : (if d.length ≤ 255 then Except.ok (Instr.rRxPayload d.length)
        else .error DecodeError.badDataLength) =
        if 0 ≤ d.length ∧ d.length ≤ 255 then .ok (.rRxPayload d.length)
        else .error .badDataLength := if_congr (by omega) rfl rfl
    exact ⟨exactly_eq 0 d _, exactly_eq 0 d _, exactly_eq 0 d _, exactly_eq 1 d _,
      exactly_eq 1 d _, payload, rfl, rfl, fun p hp => (decodeBus_ack p d).trans (if_pos hp)⟩

end Sys2Proof.Machine
end

section
/-! Every transaction of a host operation is a well-formed bus command, whatever the environment
does (30_encoding.md R114 to R116, R120, R121); and when an operation is refused (R127). -/

namespace Sys2Proof.Machine

/-- Bytes that hold a well-formed bus command; ACTIVATE only with 0x73, and only of init. -/
def Issuable (i : Instr) (out : List Byte) : Prop :=
  ∃ j, decode ⟨.bus, out⟩ = .ok j ∧ wellFormed j = true ∧
    ∀ x, j = .activate x → x = 0x73 ∧ ∃ m, i = .init m

section
variable {i j : Instr} {s t : State}

theorem issuable_encode (hj : isHostOp j = false) (hw : wellFormed j = true)
    (ha : ∀ x, j ≠ .activate x) : Issuable i (encode j).bytes :=
  ⟨j, decode_encode_bus hj hw, hw, fun x e => absurd e (ha x)⟩

theorem issuable_activate (hi : ∃ m, i = .init m) : Issuable i [0x50, 0x73] :=
  ⟨.activate 0x73, rfl, rfl, fun x e => by cases e; exact ⟨rfl, hi⟩⟩

theorem issuable_wAckPayload (p : Fin 6) {d : List Byte} (hd : d.length ≤ maxPayload) :
    Issuable i (BitVec.ofNat 8 (0xA8 + p.val) :: d) := by
  have hp : (BitVec.ofNat 3 p.val).toNat = p.val := by simp; omega
  have hlt := hp.trans_lt p.isLt
  have e := ackCommand_eq _ hlt
  rw [hp] at e
  rw [e]
  exact issuable_encode (j := .wAckPayload (BitVec.ofNat 3 p.val) d) rfl
    (decide_eq_true ⟨hlt, hd⟩) nofun

/-- An effect of a host operation adds at most one transaction to the trace, which is issuable. -/
theorem Act.addsTo (a : Act i s t) : AddsTo (Issuable i) s t := by
  cases a with
  | interlude => exact adds_interlude s
  | atLabel l => exact adds_none (atLabel_busLog · l) s
  | setLocals g => exact adds_none (setLocals_busLog · g) s
  | memWrite b k v => exact adds_none (memWrite_busLog · b k v) s
  | push | give | clock | onShadow | raise => exact .refl s
  | setCe v => exact adds_setCe v s
  | rRegister a => exact adds_rRegister (issuable_encode (j := .rRegister a) rfl rfl nofun) s
  | wRegister a v _ hr hv =>
    exact adds_wRegister
      (issuable_encode (j := .wRegister a v) rfl (by simp [wellFormed, hr, hv]) nofun) s
  | rRxPlWid => exact adds_rRxPlWid (issuable_encode (j := .rRxPlWid) rfl rfl nofun) s
  | rRxPayload n _ hn =>
    exact adds_rRxPayload (issuable_encode (j := .rRxPayload n) rfl (decide_eq_true hn) nofun) s
  | wTxPayload d _ hd =>
    exact adds_wTxPayload (issuable_encode (j := .wTxPayload d) rfl (decide_eq_true hd) nofun) s
  | wTxPayloadNoack d _ hd =>
    exact adds_wTxPayloadNoack
      (issuable_encode (j := .wTxPayloadNoack d) rfl (decide_eq_true hd) nofun) s
  | wAckPayload p d _ hd => exact adds_wAckPayload (issuable_wAckPayload p hd) s
  | flushTx => exact adds_flushTx (issuable_encode (j := .flushTx) rfl rfl nofun) s
  | flushRx => exact adds_flushRx (issuable_encode (j := .flushRx) rfl rfl nofun) s
  | nop => exact adds_nop (issuable_encode (j := .nop) rfl rfl nofun) s
  | activate _ hi => exact adds_activate (issuable_activate hi) s

theorem Runs.addsTo (r : Runs i s t) : AddsTo (Issuable i) s t :=
  r.relates AddsTo.refl (fun _ _ _ => AddsTo.trans) fun _ _ => Act.addsTo

end

/-- Settles O60: a host operation is a run of effects, each of which adds issuable transactions. -/
theorem admittedTransactions : Obligations.AdmittedTransactions := by
  intro s t i hi he
  exact (exec_runs hi he).1.addsTo

/-! ## Refused operations (30_encoding.md R127, 60_exceptions.md R343) -/

section
variable {op : Instr} {n a : Bool} {g : State → State} {s : State}

theorem issue_running (hs : s.seq ≠ []) : s.issue op n a g = .refused .operationInProgress := by
  unfold State.issue
  rw [if_pos (by simpa using hs)]

theorem issue_uninitialized (hs : s.seq = []) (hn : s.sh.initialized = false) :
    s.issue op true a g = .refused .notInitialized := by
  unfold State.issue
  rw [hs, hn]
  rfl

end

/-- Settles O50: the first two checks of an issue. -/
theorem operationsRefused : Obligations.OperationsRefused := by
  intro s i hi
  refine ⟨fun hs => ?_, fun hs hn hm ha => ?_⟩
  · obtain ⟨n, a, g, he, -⟩ := exec_returns i i s hi id fun h _ => h
    rw [he, issue_running hs]
  · cases i with
    | init m => exact absurd rfl (hm m)
    | decomposeAddress x => exact absurd rfl (ha x)
    | rRegister | wRegister | activate | rRxPlWid | rRxPayload | wTxPayload | wAckPayload
    | wTxPayloadNoack | flushTx | flushRx | nop => cases hi
    | _ => exact issue_uninitialized hs hn

end Sys2Proof.Machine
end

section
/-! setOwnAddress (42_addressing_pipes.md R212), up to its return, and issued by the host. -/

namespace Sys2Proof.Machine

/-- The program up to its return, which records the address as pipe 0's. -/
theorem setOwnAddress_tracks {q : Prop} {s x : State} (h : Tracks q s x) (ha : x.chip.Admitted)
    (node : Byte) {op : Instr} {o : Locals} {r : List Frame} (hx : x.seq = ⟨op, .s1, o⟩ :: r) :
    let a := fullAddress node x.mask
    ∃ s' f', setOwnAddressProgram node s = s'.give .none ∧
      Tracks q s' { x with
        seq := f' :: r,
        chip.rxAddrP0 := a, chip.enRxaddr := (x.chip.enRxaddr ||| 0x01) &&& 0x3F,
        sh.ownAddress := some node, sh.rxP0Cache := some a,
        busLog := sends [0x22, x.chip.enRxaddr ||| 0x01] :: sends [0x02, 0x00] ::
          sends (0x2A :: a.toList) :: x.busLog } := by
  intro a
  have h1 := h.micro_at (q := q) { x with
      seq := ⟨op, .s2, { o with fa := a }⟩ :: r, sh.ownAddress := some node } .s1 .s2
    (by simp [State.isAt, hx])
    (e := fun s => (s.onShadow fun h => { h with ownAddress := some node }).setLocals fun o =>
      { o with fa := fullAddress node s.mask })
    (fun y hy => by
      rw [mask_of_kept hy.same]
      exact (hy.onShadow fun h => { h with ownAddress := some node }).setLocals
        fun o => { o with fa := a })
    (by simp [State.onShadow, State.setLocals, State.atLabel, hx])
  have h2 := h1.writeFrom .s2 .s3 rfl .rxAddrP0 (fun s => s.locals.fa.toList) (v := a.toList)
    (fun y hy => by rw [hy.locals_eq]; rfl) (.inl ha) rfl
  obtain ⟨w, rfl, h3⟩ := h2.modify (P := (· = x.chip.enRxaddr)) .s3 .s4 rfl .enRxaddr
    (fun v => withBits v (erx 0)) rfl (fun y hy => hy.read_enRxaddr) fun w _ => .inl ha
  refine ⟨_, ⟨op, .s4, { o with fa := a, v := x.chip.enRxaddr }⟩, h3.finish_eq .s4 rfl _, ?_⟩
  rw [h3.interlude.locals_eq]
  exact h3.interlude.onShadow fun h => { h with rxP0Cache := some a }

/-- Settles O29, from what the program leaves up to its return. -/
theorem setOwnAddress : Obligations.SetOwnAddress := by
  intro s node m hr hc hm a
  obtain ⟨s', f', hp, ht⟩ := setOwnAddress_tracks (issued_tracks hr hc (.setOwnAddress node))
    hc.admitted node (issued_seq hr _)
  have ea : fullAddress node (s.issued (.setOwnAddress node)).mask = a :=
    congrArg (fullAddress node) (by simp [State.mask, State.issued, hm])
  rw [ea] at ht
  obtain ⟨ho, hk, hn, hq⟩ := ht.ends .none
  refine ⟨s'.give .none, ?_, hk.trans ?_, hn, fun hs => hq hs, trivial⟩
  · refine (issue_ready hr.1.2 (fun _ => hr.2) rfl).trans ?_
    exact (congrArg State.outcome hp).trans ho
  · exact kept_ext rfl rfl rfl hr.1.2.symm rfl rfl rfl rfl rfl

end Sys2Proof.Machine
end

section
/-! Every host operation completes (60_exceptions.md R320, R329): a radio step is refused only in
another configuration than the initialization's (41_radio_core.md R205), and no other program leaves
that one. -/

namespace Sys2Proof.Machine

/-! ## The admitted configuration -/

/-- The registers the admitted configuration is made of. -/
def configuring : List Reg := [.setupAw, .dynpd, .feature]

theorem writeReg_admitted {c : Chip} (h : c.Admitted) {a : Reg} (ha : a ∉ configuring)
    (v : ChipVariant) (b : List Byte) : (c.writeReg v a b).Admitted := by
  cases a
  case setupAw | dynpd | feature => exact absurd (by decide) ha
  all_goals exact h

theorem admitted_of_programmed {c d : Chip} (e : d.programmed = c.programmed) (h : c.Admitted) :
    d.Admitted := by
  have ew := congrArg Chip.setupAw e
  have eu := congrArg Chip.featuresUnlocked e
  have ed := congrArg Chip.dynpd e
  have ef := congrArg Chip.feature e
  dsimp only [Chip.programmed, Chip.steady] at ew eu ed ef
  unfold Chip.Admitted Chip.awAdmitted Chip.dynamicPayload Chip.enDpl
  rw [ew, eu, ed, ef]
  exact h

/-! ## A program that no radio step stops -/

/-- Calm and not marked: no radio step is refused. -/
structure State.Smooth (s : State) : Prop where
  unmarked : s.marks = none
  calm     : s.Calm

namespace State.Smooth

variable {s t : State} (h : s.Smooth)

section
include h

theorem of_same (hm : t.marks = s.marks) (he : t.env = s.env) (hp : t.params = s.params)
    (hc : t.chip = s.chip) : t.Smooth := by
  refine ⟨hm.trans h.unmarked, ?_, hp ▸ h.calm.present, hc ▸ h.calm.admitted⟩
  intro ms hms
  exact h.calm.noResets ms (he ▸ hms)

theorem ite {c : Prop} [Decidable c] (h' : t.Smooth) : (if c then s else t).Smooth := by
  split
  · exact h
  · exact h'

/-! ### Micro-steps -/

theorem interlude : s.interlude.Smooth :=
  ⟨(marks_of_steady (interlude_steady s h.calm.noResets (.inl h.calm.admitted))).trans h.unmarked,
    interlude_calm s h.calm⟩

theorem compute {f : State → State} (hf : (f s).Smooth) : (s.compute f).Smooth := h.ite hf

theorem here {l : Label} {f : State → State} (hf : (f s).Smooth) : (s.here l f).Smooth :=
  h.compute (f := fun s => if s.isAt l then f s else s) (hf.ite h)

theorem stepAt {l : Label} {f : State → State} (hf : ∀ y, y.Smooth → (f y).Smooth) :
    (s.stepAt l f).Smooth := h.here (h.interlude.compute (hf _ h.interlude))

theorem atLabel (l : Label) : (s.atLabel l).Smooth :=
  h.of_same (by simp) (by simp) (by simp) (by simp)

theorem micro {l next : Label} {f : State → State} (hf : ∀ y, y.Smooth → (f y).Smooth) :
    (s.micro l next f).Smooth :=
  h.stepAt fun y hy => (hf y hy).compute ((hf y hy).atLabel next)

theorem pass {l next : Label} : (s.micro l next id).Smooth := h.micro fun _ hy => hy

theorem setLocals (g : Locals → Locals) : (s.setLocals g).Smooth :=
  h.of_same (by simp) (by simp) (by simp) (by simp)

theorem assign {l next : Label} {g : State → Locals → Locals} :
    (s.micro l next fun s => s.setLocals (g s)).Smooth := h.micro fun _ hy => hy.setLocals _

theorem onShadow (g : Shadow → Shadow) : (s.onShadow g).Smooth := h.of_same rfl rfl rfl rfl

theorem memWrite {l next : Label} {b : BufId} {k : State → Nat} {v : State → List Byte} :
    (s.micro l next fun s => s.memWrite b (k s) (v s)).Smooth :=
  h.micro fun _ hy => hy.of_same (by simp) (by simp) (by simp) (by simp)

theorem setCeStep {l next : Label} {v : Bool} : (s.setCeStep l next v).Smooth :=
  h.micro fun _ hy => hy.of_same rfl rfl rfl rfl

theorem clock (n : Nat) : ({ s with now := n } : State).Smooth := h.of_same rfl rfl rfl rfl

theorem delay {l next : Label} {t : Nat} : (s.delay l next t).Smooth :=
  h.micro fun _ hy => hy.interlude.compute (hy.interlude.clock _)

theorem give (v : Result) : (s.give v).Smooth := h.of_same rfl rfl rfl rfl

theorem ret {l : Label} {v : State → Result} : (s.ret l v).Smooth := h.stepAt fun _ hy => hy.give _

theorem retHere {l : Label} {v : State → Result} : (s.retHere l v).Smooth := h.here (h.give _)

theorem finish {l : Label} {g : State → Shadow → Shadow} :
    (s.finish l fun s => s.onShadow (g s)).Smooth :=
  h.stepAt fun y hy => (hy.onShadow (g y)).give _

theorem finishHere {l : Label} {g : Shadow → Shadow} :
    (s.finishHere l (State.onShadow g)).Smooth := h.here ((h.onShadow g).give _)

theorem call {l next : Label} {op : Instr} {g : State → State}
    (hg : ∀ y, y.Smooth → (g y).Smooth) : (s.call l next op g).Smooth :=
  h.stepAt fun _ hy => hg _ ((hy.atLabel next).of_same rfl rfl rfl rfl)

/-! ### Transactions -/

theorem transact {rd : Bool} {out : List Byte} {e : State → List Byte × State} (he : ChipOnly e)
    (ha : (e { s with csn := true }).2.chip.Admitted) : (s.transact rd out e).Smooth := by
  have hc : (s.transact rd out e).chip = (e { s with csn := true }).2.chip := by
    rw [transact_present _ _ _ _ h.calm.present]
    rfl
  refine ⟨?_, ?_, ?_, hc ▸ ha⟩
  all_goals rw [transact_only rd out he s]
  · exact h.unmarked
  · exact h.calm.noResets
  · exact h.calm.present

/-- A transaction that leaves the programmed registers alone. -/
theorem transact_programmed {rd : Bool} {out : List Byte} {e : State → List Byte × State}
    (he : ChipOnly e) (hp : ∀ x, (e x).2.chip.programmed = x.chip.programmed) :
    (s.transact rd out e).Smooth :=
  h.transact he (admitted_of_programmed (hp _) h.calm.admitted)

theorem rRegister (a : Reg) : (s.rRegister a).Smooth :=
  h.transact_programmed (readReg_chipOnly a) fun x => by rw [readReg_chip]

theorem wRegister {a : Reg} {v : List Byte} (ha : a ∉ configuring) : (s.wRegister a v).Smooth :=
  h.transact (chipOnly_onChip _) (writeReg_admitted h.calm.admitted ha _ v)

theorem nop : s.nop.Smooth := h.transact_programmed (chipOnly_write fun _ => rfl) fun _ => rfl

theorem rRxPlWid : s.rRxPlWid.Smooth :=
  h.transact_programmed readWidth_chipOnly fun x => by rw [readWidth_chip]

theorem rRxPayload (n : Nat) : (s.rRxPayload n).Smooth :=
  h.transact_programmed (readPayload_chipOnly n) (readPayload_programmed n)

theorem wTxPayload (d : List Byte) : (s.wTxPayload d).Smooth :=
  h.transact_programmed (chipOnly_onChip _) fun x => pushTx_programmed _ x.chip

theorem wTxPayloadNoack (d : List Byte) : (s.wTxPayloadNoack d).Smooth :=
  h.transact_programmed (chipOnly_onChip _) fun x => by
    simp only [onChip_chip]
    split
    · exact pushTx_programmed _ x.chip
    · rfl

theorem wAckPayload (p : Fin 6) (d : List Byte) : (s.wAckPayload p d).Smooth :=
  h.transact_programmed (chipOnly_write (stageAck_only p d)) (stageAck_programmed p d)

theorem flushRx : s.flushRx.Smooth :=
  h.transact_programmed (chipOnly_onChip _) fun _ => rfl

theorem flushTx : s.flushTx.Smooth :=
  h.transact_programmed (chipOnly_onChip _) fun _ => rfl

/-! ### The pseudo-instructions (30_encoding.md R126) -/

theorem readInto {l next : Label} {a : Reg} {put : Byte → Locals → Locals} :
    (s.readInto l next a put).Smooth := h.micro fun _ hy => (hy.rRegister a).setLocals _

theorem writeFrom {l next : Label} {a : Reg} {v : State → List Byte} (ha : a ∉ configuring) :
    (s.writeFrom l next a v).Smooth := h.micro fun _ hy => hy.wRegister ha

theorem modify {l next : Label} {a : Reg} {g : Byte → Byte} (ha : a ∉ configuring) :
    (s.modify l next a g).Smooth := h.readInto.writeFrom ha

theorem clearIrq {l next : Label} {m : Byte} : (s.clearIrq l next m).Smooth :=
  h.writeFrom (by decide)

theorem statusInto {l next : Label} : (s.statusInto l next).Smooth :=
  h.micro fun _ hy => hy.nop.setLocals _

theorem widthInto {l next : Label} :
    (s.micro l next fun s =>
      let s := s.rRxPlWid
      s.setLocals fun o => { o with w := s.busIn.headD 0 }).Smooth :=
  h.micro fun _ hy => hy.rRxPlWid.setLocals _

theorem flushBoth {l next : Label} : (s.flushBoth l next).Smooth :=
  (h.micro fun _ hy => hy.flushRx).micro fun _ hy => hy.flushTx

/-! ### Mode control and addressing (files 42 and 43) -/

theorem setActive (b : Bool) : (setActiveProgram b s).Smooth := (h.modify (by decide)).delay.ret

theorem isActive : (isActiveProgram s).Smooth := h.readInto.ret

theorem restorePipe0 : (Machine.restorePipe0 s).Smooth := by
  refine State.Smooth.micro (h.micro fun y hy => ?_) fun y hy => ?_
  · split
    · exact hy
    · exact hy.wRegister (by decide)
  · split
    · exact hy
    · exact hy.onShadow _

theorem startListening : (startListeningProgram s).Smooth :=
  (h.modify (by decide)).clearIrq.restorePipe0.setCeStep.flushBoth.finish

theorem stopListening : (stopListeningProgram s).Smooth :=
  (h.modify (by decide)).setCeStep.flushBoth.finish

theorem currentMode : (currentModeProgram s).Smooth := h.readInto.assign.readInto.ret

theorem setOwnAddress (node : Byte) : (setOwnAddressProgram node s).Smooth :=
  (((h.micro fun _ hy => (hy.onShadow _).setLocals _).writeFrom (by decide)).modify
    (by decide)).finish

theorem listenToAddress (node : Byte) : (listenToAddressProgram node s).Smooth := by
  have free : ∀ k, listenerReg k ∉ configuring := fun k => by
    unfold listenerReg
    split <;> decide
  exact h.retHere.ite <|
    ((((h.assign.micro fun _ hy => hy.wRegister (free _)).readInto.writeFrom (by decide)).micro
      fun _ hy => hy.onShadow _).call fun _ hy => hy.startListening).ret

/-! ### Reception (45_receive_ackq.md) -/

theorem available (want : Bool) : (availableProgram want s).Smooth :=
  h.statusInto.ret.ite h.statusInto.pass.widthInto.ret

theorem read (b : BufId) (cap : Nat) : (readProgram b cap s).Smooth :=
  (h.setCeStep.widthInto.assign.micro fun _ hy =>
    (hy.rRxPayload _).setLocals _).memWrite.clearIrq.setCeStep.ret

theorem readText (cap : Nat) : (readTextProgram cap s).Smooth :=
  h.retHere.ite (h.pass.call fun _ hy => hy.read _ _).assign.memWrite.ret

theorem enterListening : (Machine.enterListening s).Smooth :=
  (h.micro fun _ hy => ((hy.rRegister _).setLocals _).ite hy).micro fun _ hy =>
    (hy.wRegister (by decide)).ite hy

theorem leaveListening : (Machine.leaveListening s).Smooth :=
  h.micro fun _ hy => (hy.wRegister (by decide)).ite hy

theorem queueResponse (payload : List Byte) : (queueResponseProgram payload s).Smooth :=
  h.statusInto.ret.ite (h.statusInto.pass.assign.enterListening.micro fun _ hy =>
    hy.wAckPayload _ _).leaveListening.ret

/-! ### Transmission (44_transmit.md) -/

theorem setTxAddress : (Machine.setTxAddress s).Smooth :=
  (h.micro fun _ hy => hy.ite (hy.wRegister (by decide))).micro fun _ hy => hy.onShadow _

theorem divertPipe0 (ack : Bool) : (Machine.divertPipe0 ack s).Smooth :=
  (h.micro fun _ hy => hy.ite (hy.wRegister (by decide))).micro fun _ hy =>
    hy.ite (hy.onShadow _)

theorem triggerTransmit (ack : Bool) : (Machine.triggerTransmit ack s).Smooth := by
  have h6 := (h.clearIrq (l := .s4) (next := .s5) (m := irqAll)).readInto (l := .s5)
    (next := Label.s5.succ) (a := .config) (put := fun x o => { o with cfg := x })
  exact (((h6.assign.setCeStep.writeFrom (by decide)).pass.ite
    (h6.assign.setCeStep.writeFrom (by decide)).delay).micro fun _ hy =>
      (hy.wTxPayload _).ite (hy.wTxPayloadNoack _)).setCeStep.assign

omit h in
theorem pollLoop (n : Nat) {s : State} (h : s.Smooth) : (Machine.pollLoop n s).Smooth := by
  induction n generalizing s with
  | zero => exact h.statusInto.micro fun _ hy => hy.ite (hy.clock _)
  | succ n ih =>
    have h1 := (h.statusInto (l := .s9a) (next := .s9b)).stepAt (l := .s9b)
      (f := fun s =>
        if pollEnds s.locals.st then s.atLabel .s10
        else if s.locals.t0 + tWatchdog ≤ s.now then s.atLabel .s10
        else s.atLabel .s9a)
      fun _ hy => (hy.atLabel _).ite ((hy.atLabel _).ite (hy.atLabel _))
    exact (ih h1).ite h1

theorem restoreState : (Machine.restoreState s).Smooth :=
  (h.modify (by decide)).ite ((h.call fun _ hy => hy.startListening).ite h.pass)

theorem transmit (target : Byte) (payload : List Byte) (ack : Bool) :
    (transmitProgram target payload ack s).Smooth :=
  h.retHere.ite <| ((((h.assign.setTxAddress.divertPipe0 ack).triggerTransmit ack).pollLoop
    _).setCeStep.restoreState).ret

theorem send (target : Byte) (payload : List Byte) (want : Bool) :
    (sendProgram target payload want s).Smooth :=
  ((h.call fun _ hy => hy.transmit _ _ _).assign.micro fun _ hy =>
    ((hy.rRegister _).setLocals _).ite hy).ret

theorem sendAndAwaitResponse (target : Byte) (payload : List Byte) :
    (sendAndAwaitResponseProgram target payload s).Smooth := by
  have h3 := ((h.micro (l := .s1) (next := .s2) fun _ hy => hy.flushRx).call (l := .s2)
    (next := Label.s2.succ) (op := .send target payload false)
    fun _ hy => hy.send target payload false).assign (l := Label.s2.succ) (next := .s3)
    (g := fun _ o => { o with ok := o.got.isTrue })
  exact h3.ret.ite (h3.pass.ret.ite (h3.pass.pass.statusInto.ret.ite
    (h3.pass.pass.statusInto.pass.call fun _ hy => hy.read _ _).assign.ret))

theorem broadcast (payload : List Byte) (ho : s.sh.ownAddress ≠ none) :
    (broadcastProgram payload s).Smooth := by
  unfold broadcastProgram
  split
  · next e => exact absurd e ho
  · exact (h.pass.call fun _ hy => hy.transmit _ _ _).ret

/-! ### Every host operation but init -/

theorem programOf {i : Instr} (below : List Frame) (hi : ∀ m, i ≠ .init m)
    (ho : ∀ p, i = .broadcast p → s.sh.ownAddress ≠ none) :
    (Machine.programOf below i s).Smooth := by
  cases i with
  | rRegister | wRegister | activate | rRxPlWid | rRxPayload | wTxPayload | wAckPayload
  | wTxPayloadNoack | flushTx | flushRx | nop => exact h
  | init m => exact absurd rfl (hi m)
  | setOwnAddress node => exact h.setOwnAddress node
  | listenToAddress node => exact h.listenToAddress node
  | setActive b => exact h.setActive b
  | isActive => exact h.isActive
  | startListening => exact h.startListening
  | stopListening => exact h.stopListening
  | currentMode => exact h.currentMode
  | transmit target payload ack => exact h.transmit target payload ack
  | send target payload want => exact h.send target payload want
  | sendAndAwaitResponse target payload => exact h.sendAndAwaitResponse target payload
  | broadcast payload => exact h.broadcast payload (ho payload rfl)
  | available want => exact h.available want
  | read cap => exact h.read _ cap
  | readText cap => exact h.readText cap
  | queueResponse payload => exact h.queueResponse payload
  | setNetworkMask | setAckEnabled => exact h.finishHere
  | setChannel | setRetries => exact (h.writeFrom (by decide)).finish
  | setDataRate | setPALevel | setCRC => exact (h.modify (by decide)).finish
  | assembleFullAddress node => exact h.retHere (v := fun s => .address (fullAddress node s.mask))
  | decomposeAddress addr =>
    exact h.retHere (v := fun _ => .nodeMask (decompose addr).1 (decompose addr).2)

end

end State.Smooth

/-! ## init over a present chip (70_reset_and_hazards.md R352) -/

/-- S2 powers the chip down, where no radio step is enabled, and it stays so. -/
theorem init_unmarked {q : Prop} {s x : State} (h : Tracks q s x) (mask : BitVec 32) {op : Instr}
    {o : Locals} {r : List Frame} (hx : x.seq = ⟨op, .s1, o⟩ :: r) :
    (initProgram mask s).marks = none := by
  obtain ⟨v, hv, w, hw, o', h10⟩ := initSettings_tracks h mask hx
  have hc : (x.settled mask v w).chip.config =
      (x.chip.config &&& 0x71) ||| (if x.params.defaultCrc16 then 0x0C else 0x08) :=
    config_with_crc x.chip.config v w x.params.defaultCrc16 (mem_configReads hv)
      (mem_configReads hw)
  obtain ⟨hp, he, hd, hf⟩ := config_settled x.chip.config x.params.defaultCrc16
  rw [← hc] at hp he hd hf
  obtain ⟨o'', h19⟩ := initFeatures_tracks h10 rfl hp he hd hf
  exact marks_of_outcome_next (h19.finish_next .s19 rfl _)

/-! ## Any host operation over an absent chip (10_state.md R49) -/

theorem applyMove_absent_marks (m : EnvMove) {s : State} (h : s.params.chipPresent = false)
    (hm : s.marks = none) : (applyMove m s).marks = none := by
  cases m with
  | clock d => exact hm
  | txAttempt o => simpa [applyMove, State.txAttempt, h] using hm
  | txAbandon => simpa [applyMove, State.txAbandon, h] using hm
  | receive k n => simpa [applyMove, State.receive, h] using hm
  | chipReset => exact hm
  | sequencerReset c => rfl

theorem applyMoves_absent_marks (ms : List EnvMove) {s : State}
    (h : s.params.chipPresent = false) (hm : s.marks = none) :
    (applyMoves ms s).marks = none := by
  induction ms generalizing s with
  | nil => exact hm
  | cons m ms ih =>
    unfold applyMoves
    split
    · exact hm
    · exact ih ((applyMove_params m s).symm ▸ h) (applyMove_absent_marks m h hm)

theorem interlude_absent_marks {s : State} (h : s.params.chipPresent = false)
    (hm : s.marks = none) : s.interlude.marks = none := by
  unfold State.interlude
  split
  · next ms rest _ => exact applyMoves_absent_marks ms (s := { s with env := rest }) h hm
  · simpa [State.afterScript, h] using hm

/-- Only broadcast raises a fault, so over an absent chip no other operation's effect marks the
state. -/
theorem Act.unmarked {i : Instr} {s t : State} (a : Act i s t) (hi : ∀ p, i ≠ .broadcast p)
    (h : s.params.chipPresent = false ∧ s.marks = none) :
    t.params.chipPresent = false ∧ t.marks = none := by
  obtain ⟨hp, hm⟩ := h
  refine ⟨a.params.symm ▸ hp, ?_⟩
  cases a with
  | interlude => exact interlude_absent_marks hp hm
  | raise _ _ hb =>
    obtain ⟨p, rfl⟩ := hb
    exact absurd rfl (hi p)
  | _ => simpa using hm

/-! ## Completion -/

/-- An operation whose program leaves no mark completes. -/
theorem exec_completes {i : Instr} {s : State} (hr : s.Ready) (hi : isHostOp i = true)
    (hw : wellFormed i = true)
    (hd : ∀ dr, i = .setDataRate dr → s.params.variant = .nRF24L01 → dr.toNat ≤ 1)
    (hm : (programOf [] i (s.issued i)).marks = none) :
    ∃ t, exec i s = .next t ∧ t.marks = none ∧ t.seq = [] := by
  obtain ⟨n, a, g, he, hg, hp, ha⟩ := exec_returns i i s hi id fun h _ => h
  rw [← hg] at hm
  refine ⟨g (s.issued i), ?_, hm, (hp hr.1.2).ends.elim (fun hs => ?_) fun ⟨v, e⟩ => e⟩
  · rw [he, issue_ready hr.1.2 (fun _ => hr.2) (ha hw hd)]
    exact outcome_next hm
  · simpa [State.stopped, hm] using hs

/-- Settles O55: over a present chip no program but init's leaves the admitted configuration, and
init's powers the chip down first; over an absent one no radio step is refused. -/
theorem hostOperationsComplete : Obligations.HostOperationsComplete := by
  intro s i hr hn _ ha hi hw hd ho
  refine exec_completes hr hi hw hd ?_
  cases hp : s.params.chipPresent with
  | false =>
    obtain ⟨n, a, g, -, hg, hq, -⟩ := exec_returns i (.init 0) s hi (fun _ => ⟨0, rfl⟩)
      fun ⟨p, e⟩ hs => absurd hs (ho p e)
    rw [← hg]
    exact ((hq hr.1.2).runs.keeps (fun _ _ a h => a.unmarked nofun h) ⟨hp, hr.1.1⟩).2
  | true =>
    have hc : s.Calm := ⟨hn, hp, ha hp⟩
    by_cases hm : ∃ m, i = .init m
    · obtain ⟨m, rfl⟩ := hm
      exact init_unmarked (issued_tracks hr hc (.init m)) m (issued_seq hr _)
    · have hs : (s.issued i).Smooth := ⟨hr.1.1, hc.noResets, hc.present, hc.admitted⟩
      exact (hs.programOf [] (fun m e => hm ⟨m, e⟩) ho).unmarked

end Sys2Proof.Machine
end

section
/-! Register writes over a present chip (40_bus_commands.md R141): what the register written holds
afterwards, and that nothing else of the chip changes. -/

namespace Sys2Proof.Machine

/-- An address is its five bytes. -/
theorem toList_ofList {v : List Byte} (h : v.length = 5) : (Addr.ofList v).toList = v := by
  match v, h with
  | [_, _, _, _, _], _ => rfl

/-- What a write of `b` to STATUS leaves standing: all but the flags that `b` has a 1 for. -/
theorem not_flags_byte (b : Byte) :
    ~~~(b &&& 0x70) = 1#1 ++ BitVec.ofBool (!bit b 6) ++ BitVec.ofBool (!bit b 5) ++
      BitVec.ofBool (!bit b 4) ++ 0b111#3 ++ 1#1 := by
  revert b
  decide

/-- Clearing flags in a byte laid out as STATUS is. -/
theorem statusByte_clear (a b m f x y z : Bool) (p : BitVec 3) :
    (0#1 ++ BitVec.ofBool (a && !x) ++ BitVec.ofBool (b && !y) ++ BitVec.ofBool (m && !z) ++ p ++
      BitVec.ofBool f : Byte) =
    (0#1 ++ BitVec.ofBool a ++ BitVec.ofBool b ++ BitVec.ofBool m ++ p ++ BitVec.ofBool f) &&&
      (1#1 ++ BitVec.ofBool (!x) ++ BitVec.ofBool (!y) ++ BitVec.ofBool (!z) ++ 0b111#3 ++ 1#1) := by
  revert a b m f x y z p
  decide

/-- STATUS is write-one-to-clear (10_state.md R31): clearing the flags is clearing their bits. -/
theorem status_cleared (c : Chip) (b : Byte) :
    ({ c with rxDr := c.rxDr && !bit b 6, txDs := c.txDs && !bit b 5,
              maxRt := c.maxRt && !bit b 4 } : Chip).status = c.status &&& ~~~(b &&& 0x70) := by
  rw [not_flags_byte]
  exact statusByte_clear ..

/-- The register that is written. -/
theorem writeReg_held_self (variant : ChipVariant) {a : Reg} {v : List Byte} (c : Chip)
    (hr : a.isReserved = false) (hv : v.length = a.width) :
    (c.writeReg variant a v).held a = c.heldAfter variant a v := by
  cases a
  case rsv18 | rsv19 | rsv1A | rsv1B | rsv1E | rsv1F => cases hr
  case status => exact congrArg (fun b => [b]) (status_cleared c (v.headD 0))
  case rxAddrP0 | rxAddrP1 | txAddr => exact toList_ofList hv
  case dynpd | feature => simp only [Chip.writeReg, Chip.heldAfter]; split <;> rfl
  case setupRetr | rxAddrP2 | rxAddrP3 | rxAddrP4 | rxAddrP5 =>
    exact congrArg (fun b => [b]) (BitVec.and_allOnes (x := v.headD 0)).symm
  all_goals rfl

/-- Every other register, but for OBSERVE_TX at a write of RF_CH (10_state.md R32). -/
theorem writeReg_held_other (variant : ChipVariant) {a b : Reg} (v : List Byte) (c : Chip)
    (hb : b ≠ a) (ho : ¬(a = .rfCh ∧ b = .observeTx)) :
    (c.writeReg variant a v).held b = c.held b := by
  cases a
  case rfCh =>
    cases b
    case rfCh => exact absurd rfl hb
    case observeTx => exact absurd ⟨rfl, rfl⟩ ho
    all_goals rfl
  case dynpd | feature =>
    simp only [Chip.writeReg]
    split
    · cases b
      any_goals exact absurd rfl hb
      all_goals rfl
    · rfl
  all_goals cases b
  any_goals exact absurd rfl hb
  all_goals rfl

/-- No write of a register reaches the FIFOs, the partial read, the lock or the cycle. -/
theorem writeReg_sameHidden (variant : ChipVariant) (a : Reg) (v : List Byte) (c : Chip) :
    (c.writeReg variant a v).SameHidden c := by
  cases a
  case dynpd | feature => simp only [Chip.writeReg]; split <;> exact ⟨rfl, rfl, rfl, rfl, rfl⟩
  all_goals exact ⟨rfl, rfl, rfl, rfl, rfl⟩

/-- Settles O6, from what `writeReg` leaves in each register. -/
theorem registerWrite : Obligations.RegisterWrite := by
  intro s a v
  refine ⟨fun hr => if_pos hr, fun h hr hv => ⟨_, exec_wRegister_present h hr hv,
    writeReg_held_self _ s.chip hr hv, fun b hb ho => writeReg_held_other _ v s.chip hb ho, ?_,
    writeReg_sameHidden _ a v s.chip⟩⟩
  rintro rfl
  exact ⟨rfl, rfl⟩

end Sys2Proof.Machine
end

section
/-! Payloads and FIFOs over a present chip (40_bus_commands.md R142 to R150): the whole next state of
each command, from what its effect does to the chip. -/

namespace Sys2Proof.Machine

/-- A write that is a function of the chip: the whole next state. -/
theorem writeXfer_onChip (out : List Byte) (f : Chip → Chip) {s : State}
    (h : s.params.chipPresent = true) :
    s.writeXfer out (State.onChip f) =
      s.exchanged out (List.replicate (out.length - 1) 0) (f s.chip) s.drawn :=
  transact_exchanged false out (chipOnly_onChip f) s h

/-! ## Writes of payloads (R144 to R146) -/

theorem pushTx_eq (e : TxEntry) (c : Chip) :
    c.pushTx e = if c.txf.length = 3 then c else { c with txf := c.txf ++ [e] } := by
  simp [Chip.pushTx, txFull_eq]

/-- Settles O9: both push, the second where EN_DYN_ACK acts. -/
theorem payloadWrites : Obligations.PayloadWrites := by
  intro s d h h1 h32
  have hd : 1 ≤ d.length ∧ d.length ≤ maxPayload := ⟨h1, h32⟩
  constructor
  · have hx : exec (.wTxPayload d) s = .next (s.wTxPayload d) := if_pos hd
    rw [hx, State.wTxPayload, writeXfer_onChip _ _ h, pushTx_eq]
    rfl
  · have hx : exec (.wTxPayloadNoack d) s = .next (s.wTxPayloadNoack d) := if_pos hd
    rw [hx, State.wTxPayloadNoack, writeXfer_onChip _ _ h]
    simp only [pushTx_eq, Chip.enDynAck, Bool.and_eq_true, ne_eq, ite_and, ite_not]
    rfl

/-- What keeps W_ACK_PAYLOAD from staging. -/
theorem stageAck_blocked_iff (c : Chip) :
    (!c.enAckPay || !c.primRx || c.txFull) = true ↔
      ¬(c.featuresUnlocked = true ∧ bit c.feature 1 = true ∧ bit c.config 0 = true ∧
        c.txf.length ≠ 3) := by
  simp only [Chip.enAckPay, Chip.primRx, txFull_eq]
  grind

/-- What W_ACK_PAYLOAD does to the chip. -/
theorem stageAck_chip (p : Fin 6) (d : List Byte) (s : State) :
    if s.chip.featuresUnlocked = true ∧ bit s.chip.feature 1 = true ∧
        bit s.chip.config 0 = true ∧ s.chip.txf.length ≠ 3 then
      (s.stageAck p d).chip = { s.chip with txf := s.chip.txf ++ [⟨d, false, some p⟩] } ∨
        d = [] ∧ (s.stageAck p d).chip = s.chip
    else (s.stageAck p d).chip = s.chip := by
  unfold State.stageAck
  simp only [stageAck_blocked_iff]
  split
  · next hc =>
    obtain ⟨-, -, -, hroom⟩ := hc
    have hpush : ∀ e, s.chip.pushTx e = { s.chip with txf := s.chip.txf ++ [e] } :=
      fun e => (pushTx_eq e s.chip).trans (if_neg hroom)
    cases d with
    | nil =>
      cases hb : Config.freeBool s.drawn
      · exact .inr ⟨rfl, by simp [State.drawBool, hb]⟩
      · exact .inl (by simp [State.drawBool, hb, State.onChip, hpush])
    | cons b d => exact .inl (hpush _)
  · rfl

theorem stageAck_rxCorrupt (p : Fin 6) (d : List Byte) (s : State) :
    (s.stageAck p d).chip.rxCorrupt = s.chip.rxCorrupt := by
  have hk := stageAck_chip p d s
  split at hk
  · obtain hk | ⟨-, hk⟩ := hk <;> rw [hk]
  · rw [hk]

/-- W_ACK_PAYLOAD over a present chip: the whole next state. -/
theorem exec_wAckPayload_present {p : BitVec 3} {d : List Byte} {s : State} (hp : p.toNat < 6)
    (h : s.params.chipPresent = true) (hd : d.length ≤ 32) :
    exec (.wAckPayload p d) s =
      .next (s.exchanged ((0xA8#8 ||| p.setWidth 8) :: d) (List.replicate d.length 0)
        (({ s with csn := true } : State).stageAck ⟨p.toNat, hp⟩ d).chip
        (({ s with csn := true } : State).stageAck ⟨p.toNat, hp⟩ d).drawn) := by
  have hx : exec (.wAckPayload p d) s = .next (s.wAckPayload ⟨p.toNat, hp⟩ d) :=
    (dif_pos hp).trans (if_pos hd)
  rw [hx, ← ackCommand_eq p hp]
  exact congrArg _ (transact_exchanged false _ (chipOnly_write (stageAck_only _ d)) s h)

/-- Settles O10, from what staging does to the chip. -/
theorem ackPayloadWrite : Obligations.AckPayloadWrite := by
  intro s p d
  exact ⟨fun hp => dif_neg (by omega), fun hp h hd =>
    ⟨_, _, exec_wAckPayload_present hp h hd, stageAck_chip _ d { s with csn := true }⟩⟩

/-! ## Reads of the RX FIFO (R142, R143) -/

/-- The head of RXF stays, or it is popped. -/
theorem maybePop_chip (s : State) :
    s.maybePop.chip = s.chip ∨ s.maybePop.chip = { s.chip with rxf := s.chip.rxf.tail } := by
  cases hf : s.chip.rxf with
  | nil => exact .inl (by simp [State.maybePop, hf])
  | cons e r =>
    cases hb : Config.freeBool s.drawn
    · exact .inl (by simp [State.maybePop, hf, State.drawBool, hb])
    · exact .inr (by simp [State.maybePop, hf, State.drawBool, hb, State.onChip])

theorem readPayload_empty (n : Nat) {s : State} (hf : s.chip.rxf = []) :
    (s.readPayload n).2.chip = s.chip := by
  cases hc : s.chip.rxCorrupt <;> simp [State.readPayload, hc, hf, State.maybePop]

/-- After a partial read. -/
theorem readPayload_corrupt (n : Nat) {s : State} (hc : s.chip.rxCorrupt = true) :
    (s.readPayload n).2.chip = s.chip ∨
      (s.readPayload n).2.chip = { s.chip with rxf := s.chip.rxf.tail } := by
  have hx : (s.readPayload n).2 = (s.drawBytes n).2.maybePop := by simp [State.readPayload, hc]
  rw [hx]
  exact maybePop_chip (s.drawBytes n).2

section
variable {s : State} {n : Nat} {e : RxEntry} {r : List RxEntry}

/-- An exact or a longer read gives the entry first, and pops it. -/
theorem readPayload_whole (hf : s.chip.rxf = e :: r) (hc : s.chip.rxCorrupt = false)
    (hn : e.data.length ≤ n) :
    (s.readPayload n).1.take e.data.length = e.data ∧
      (s.readPayload n).2.chip = { s.chip with rxf := r } := by
  simp [State.readPayload, hf, hc, Nat.not_lt.mpr hn, State.onChip]

/-- A shorter read gives the entry's first bytes and is partial. -/
theorem readPayload_partial (hf : s.chip.rxf = e :: r) (hc : s.chip.rxCorrupt = false)
    (hn : n < e.data.length) :
    (s.readPayload n).1 = e.data.take n ∧
      ((s.readPayload n).2.chip = { s.chip with rxCorrupt := true } ∨
        (s.readPayload n).2.chip = { s.chip with rxCorrupt := true, rxf := r }) := by
  have hr := readPayload_head n hf hc
  rwa [Nat.min_eq_right hn.le, if_neg (Nat.not_le.mpr hn)] at hr

end

/-- R_RX_PL_WID over a present chip: the whole next state. -/
theorem exec_rRxPlWid_present {s : State} (h : s.params.chipPresent = true) :
    exec .rRxPlWid s =
      .next (s.exchanged [0x60, 0x00] ({ s with csn := true } : State).readWidth.1 s.chip
        ({ s with csn := true } : State).readWidth.2.drawn) := by
  have e := transact_exchanged true [0x60, 0x00] readWidth_chipOnly s h
  rw [readWidth_chip] at e
  exact congrArg _ e

/-- R_RX_PAYLOAD over a present chip: the whole next state. -/
theorem exec_rRxPayload_present {n : Nat} {s : State} (h : s.params.chipPresent = true)
    (hn : n ≤ 255) :
    exec (.rRxPayload n) s =
      .next (s.exchanged (0x61 :: List.replicate n 0)
        (({ s with csn := true } : State).readPayload n).1
        (({ s with csn := true } : State).readPayload n).2.chip
        (({ s with csn := true } : State).readPayload n).2.drawn) :=
  (if_pos hn).trans (congrArg _ (transact_exchanged true _ (readPayload_chipOnly n) s h))

/-- Settles O11, from what each case of the two reads answers and leaves. -/
theorem payloadRead : Obligations.PayloadRead := by
  constructor
  · intro s h
    obtain ⟨w, hw⟩ := List.length_eq_one_iff.mp (readWidth_length { s with csn := true })
    refine ⟨w, _, hw ▸ exec_rRxPlWid_present h, fun e r hf hc hu hl => ?_⟩
    have he : w = BitVec.ofNat 8 e.data.length :=
      List.head_eq_of_cons_eq (hw.symm.trans (readWidth_head hf hc hu))
    rw [he, BitVec.toNat_ofNat, Nat.mod_eq_of_lt (by omega)]
  · intro s n h hn
    let x : State := { s with csn := true }
    refine ⟨_, _, _, exec_rRxPayload_present h hn, readPayload_length n x,
      readPayload_empty n (s := x), fun e r hf => ⟨fun hc => ?_, readPayload_whole (s := x) hf,
        readPayload_partial (s := x) hf⟩⟩
    have hp := readPayload_corrupt n (s := x) hc
    rwa [show x.chip.rxf = e :: r from hf] at hp

/-! ## Flushes (R147, R148) -/

/-- A chip with an empty TXF owes no attempt, and a running cycle can only be abandoned
(41_radio_core.md R174, R184). -/
theorem cycle_ends {t : State} (h : t.params.chipPresent = true) (he : t.chip.txf = []) :
    t.attemptDue = false ∧ t.txAbandon.chip.txActive = false := by
  have hempty : t.chip.txEmpty = true := by simp [Chip.txEmpty, he]
  refine ⟨by simp [State.attemptDue, Chip.txReady, hempty], ?_⟩
  cases ha : t.chip.txActive <;> simp [State.txAbandon, State.onChip, h, hempty, ha]

/-- Settles O12: with TXF empty no cycle goes on. -/
theorem flushTx : Obligations.FlushTx := by
  intro s h
  refine ⟨congrArg Host.Outcome.next (writeXfer_onChip [0xE1] _ h), ?_⟩
  intro t
  have ht : t.chip.txf = [] := rfl
  obtain ⟨hdue, habandon⟩ := cycle_ends (t := t) h ht
  have hfull : t.chip.txFull = false := by rw [txFull_eq, ht]; rfl
  have hempty : t.chip.txEmpty = true := by rw [txEmpty_eq, ht]; rfl
  simp only [bit_status_txFull, bit_fifo_txFull, bit_fifo_txEmpty, bit_status_rxDr,
    bit_status_txDs, bit_status_maxRt]
  exact ⟨hfull, hfull, hempty, rfl, rfl, rfl, hdue, habandon⟩

/-- Of the bus commands that complete, FLUSH_RX alone clears `rxCorrupt`. -/
theorem exec_bus_rxCorrupt {i : Instr} {s t : State} (hp : s.params.chipPresent = true)
    (hc : s.chip.rxCorrupt = true) (hi : isHostOp i = false) (hne : i ≠ .flushRx)
    (h : exec i s = .next t) : t.chip.rxCorrupt = true := by
  have hpush : ∀ e, (s.chip.pushTx e).rxCorrupt = true := fun e => by
    rw [pushTx_eq]
    split <;> exact hc
  cases i with
  | rRegister a => cases h; rwa [rRegister_chip a s hp]
  | wRegister a v =>
    change execWRegister a v s = _ at h
    unfold execWRegister at h
    split at h
    · cases h
    · split at h <;> cases h
      obtain ⟨-, -, hk, -, -⟩ := writeReg_sameHidden s.params.variant a v s.chip
      rw [wRegister_chip a v s hp, hk, hc]
  | activate x =>
    cases h
    rw [activate_chip x s hp]
    split <;> exact hc
  | rRxPlWid => cases h; rwa [rRxPlWid_chip s hp]
  | rRxPayload n =>
    obtain ⟨-, rfl⟩ := next_of_if h
    rw [rRxPayload_chip n s hp]
    obtain hk | hk := readPayload_corrupt n hc <;> rw [hk] <;> exact hc
  | wTxPayload d =>
    obtain ⟨-, rfl⟩ := next_of_if h
    rw [wTxPayload_chip d s hp]
    exact hpush _
  | wAckPayload ppp d =>
    change execWAckPayload ppp d s = _ at h
    unfold execWAckPayload at h
    split at h
    · obtain ⟨-, rfl⟩ := next_of_if h
      rwa [wAckPayload_chip _ d s hp, stageAck_rxCorrupt]
    · cases h
  | wTxPayloadNoack d =>
    obtain ⟨-, rfl⟩ := next_of_if h
    rw [wTxPayloadNoack_chip d s hp]
    split
    · exact hpush _
    · exact hc
  | flushTx => cases h; rw [flushTx_chip s hp]; exact hc
  | flushRx => exact absurd rfl hne
  | nop => cases h; rwa [nop_chip s hp]
  | _ => cases hi

/-- Settles O13, from the write FLUSH_RX is and what the other commands keep. -/
theorem flushRx : Obligations.FlushRx := by
  intro s h
  refine ⟨congrArg Host.Outcome.next (writeXfer_onChip [0xE2] _ h), ?_,
    fun hc i t hi hne ht => exec_bus_rxCorrupt h hc hi hne ht⟩
  rw [statusPipe_status, rxPNo_empty rfl]

/-! ## NOP and ACTIVATE (R149, R150) -/

/-- Settles O14: the effect of NOP is none. -/
theorem nopAnswersStatus : Obligations.NopAnswersStatus := fun s h =>
  congrArg Host.Outcome.next (transact_exchanged false [0xFF] (chipOnly_write fun _ => rfl) s h)

/-- Settles O15, by whether the command toggles the lock. -/
theorem activate : Obligations.Activate := by
  intro s x h
  have e : exec (.activate x) s = _ := congrArg Host.Outcome.next
    (transact_exchanged false [0x50, x] (chipOnly_write (activate_only' x)) s h)
  rw [e]
  split <;> rfl

end Sys2Proof.Machine
end

section
/-! The transmit side of the radio core (41_radio_core.md R174 to R184): what one attempt makes of
the chip, by what comes of it, the cycle whose attempts are all lost, and the end of a cycle. -/

namespace Sys2Proof.Machine

section
variable {s : State} {c : Chip} {h : TxEntry} {r : List TxEntry} {o : AttemptOutcome}

/-! ## One attempt -/

theorem txAttempt_due (o : AttemptOutcome) (hp : s.params.chipPresent = true)
    (hd : s.attemptDue = true) (ha : s.chip.awAdmitted = true) :
    s.txAttempt o = s.onChip (Chip.attempt o) := by
  simp [State.txAttempt, hp, hd, ha]

theorem txAttempt_not_due (o : AttemptOutcome) (hd : s.attemptDue = false) :
    s.txAttempt o = s := by
  simp [State.txAttempt, hd]

theorem txAttempt_refused (o : AttemptOutcome) (hp : s.params.chipPresent = true)
    (hd : s.attemptDue = true) (ha : s.chip.awAdmitted = false) :
    s.txAttempt o = s.refuse .addressWidthNot5 := by
  simp [State.txAttempt, hp, hd, ha]

/-- A cycle start, if the attempt is one. -/
theorem startCycle_eq (c : Chip) :
    c.startCycle =
      { c with txActive := true, arcCnt := if c.txActive then c.arcCnt else 0 } := by
  unfold Chip.startCycle
  split
  · next h => simp [← h]
  · rfl

theorem ackExpected_iff (c : Chip) (h : TxEntry) :
    c.ackExpected h = true ↔ h.noack = false ∧ bit c.enAa 0 = true := by
  simp [Chip.ackExpected]

/-! The start of a cycle changes nothing that decides what comes of the attempt. -/

@[simp] theorem startCycle_txf (c : Chip) : c.startCycle.txf = c.txf := by rw [startCycle_eq]
@[simp] theorem startCycle_arc (c : Chip) : c.startCycle.arc = c.arc := by rw [startCycle_eq]; rfl
@[simp] theorem startCycle_ackExpected (c : Chip) (h : TxEntry) :
    c.startCycle.ackExpected h = c.ackExpected h := by rw [startCycle_eq]; rfl
@[simp] theorem startCycle_settle (c : Chip) (o : AttemptOutcome) :
    c.startCycle.settle o = c.settle o := by rw [startCycle_eq]; rfl

section
variable (hf : c.txf = h :: r)
include hf

/-- No acknowledgment is expected: a success, whatever the air does (R176). -/
theorem attempt_unacknowledged (he : c.ackExpected h = false) :
    c.attempt o = c.startCycle.success none := by
  simp [Chip.attempt, hf, he]

/-- An acknowledgment that is admitted (R177, R178). -/
theorem attempt_acked {q : Option (List Byte)} (he : c.ackExpected h = true)
    (hs : c.settle o = .acked q) : c.attempt o = c.startCycle.success q := by
  simp [Chip.attempt, hf, he, hs]

/-- A lost attempt (R179). -/
theorem attempt_lost (he : c.ackExpected h = true) (hs : c.settle o = .lost) :
    c.attempt o =
      if c.startCycle.arcCnt < c.arc then
        { c.startCycle with arcCnt := c.startCycle.arcCnt + 1 }
      else c.startCycle.exhausted := by
  simp [Chip.attempt, hf, he, hs]

end

/-! ## A cycle of lost attempts (R175, R179, R180) -/

/-- The chip in a cycle of which `n` retransmissions were made. -/
def Chip.retrying (n : BitVec 4) (c : Chip) : Chip := { c with txActive := true, arcCnt := n }

theorem retrying_lost (n : BitVec 4) (hf : c.txf = h :: r) (he : c.ackExpected h = true) :
    (c.retrying n).attempt .lost =
      if n < c.arc then c.retrying (n + 1) else (c.retrying n).exhausted :=
  attempt_lost (c := c.retrying n) hf he rfl

theorem applyMoves_append (l m : List EnvMove) (s : State) :
    applyMoves (l ++ m) s = applyMoves m (applyMoves l s) := by
  induction l generalizing s with
  | nil => rfl
  | cons x l ih =>
    cases hm : s.marks with
    | none => simpa [applyMoves, hm] using ih _
    | some k => cases m <;> simp [applyMoves, hm]

theorem applyMoves_cons (x : EnvMove) (l : List EnvMove) (hm : s.marks = none) :
    applyMoves (x :: l) s = applyMoves l (applyMove x s) := by
  simp [applyMoves, hm]

section
variable (hp : s.params.chipPresent = true) (hr : s.chip.txReady = true)
  (ha : s.chip.awAdmitted = true) (hf : s.chip.txf = h :: r) (he : s.chip.ackExpected h = true)
include hp hr ha hf he

theorem txAttempt_retrying (n : BitVec 4) :
    (s.onChip (Chip.retrying n)).txAttempt .lost =
      s.onChip fun c => if n < c.arc then c.retrying (n + 1) else (c.retrying n).exhausted := by
  have hd : (s.onChip (Chip.retrying n)).attemptDue = true := by
    unfold State.attemptDue
    exact (Bool.and_true _).trans hr
  exact (txAttempt_due (s := s.onChip _) .lost hp hd ha).trans
    (congrArg (fun d => { s with chip := d }) (retrying_lost n hf he))

/-- `k` lost attempts more, as long as retransmissions are left. -/
theorem applyMoves_retrying (hm : s.marks = none) (n k : Nat) (hk : n + k ≤ s.chip.arc.toNat) :
    applyMoves (List.replicate k (.txAttempt .lost)) (s.onChip (Chip.retrying (.ofNat 4 n))) =
      s.onChip (Chip.retrying (.ofNat 4 (n + k))) := by
  induction k generalizing n with
  | zero => rfl
  | succ k ih =>
    have hn : BitVec.ofNat 4 n < s.chip.arc := by
      have := s.chip.arc.isLt
      rw [BitVec.lt_def, BitVec.toNat_ofNat]
      omega
    rw [List.replicate_succ, applyMoves_cons (s := s.onChip _) _ _ hm, applyMove,
      txAttempt_retrying hp hr ha hf he]
    have e : (s.onChip fun c => if BitVec.ofNat 4 n < c.arc then c.retrying (BitVec.ofNat 4 n + 1)
        else (c.retrying (BitVec.ofNat 4 n)).exhausted) =
        s.onChip (Chip.retrying (.ofNat 4 (n + 1))) := by
      simp only [State.onChip, if_pos hn, BitVec.ofNat_add]
      rfl
    rw [e, ih (n + 1) (by omega), Nat.add_right_comm, Nat.add_assoc]

end

/-- Settles O18, by induction on the attempts of the cycle. -/
theorem retriesExhausted : Obligations.RetriesExhausted := by
  intro s h r hp hd hx hm hf ha hn hb
  have hr : s.chip.txReady = true := (Bool.and_eq_true _ _ ▸ hd).1
  have he : s.chip.ackExpected h = true := (ackExpected_iff _ _).mpr ⟨hn, hb⟩
  have hc : s.chip.startCycle = s.chip.retrying 0 := by simp [startCycle_eq, hx, Chip.retrying]
  have hfirst : s.txAttempt .lost = (s.onChip (Chip.retrying 0)).txAttempt .lost := by
    rw [txAttempt_due .lost hp hd ha, txAttempt_retrying hp hr ha hf he]
    refine congrArg (fun d => { s with chip := d }) ?_
    rw [attempt_lost hf he rfl, hc]
    rfl
  have hstart (k : Nat) : applyMoves (List.replicate (k + 1) (.txAttempt .lost)) s =
      applyMoves (List.replicate (k + 1) (.txAttempt .lost))
        (s.onChip (Chip.retrying (.ofNat 4 0))) := by
    rw [List.replicate_succ, applyMoves_cons _ _ hm, applyMoves_cons (s := s.onChip _) _ _ hm,
      applyMove, hfirst]
    rfl
  constructor
  · intro k hk
    rw [hstart, applyMoves_retrying hp hr ha hf he hm 0 (k + 1) (by omega), Nat.zero_add]
    rfl
  · rw [hstart, List.replicate_succ', applyMoves_append,
      applyMoves_retrying hp hr ha hf he hm 0 _ (by omega),
      applyMoves_cons (s := s.onChip _) _ _ hm, applyMove, txAttempt_retrying hp hr ha hf he,
      Nat.zero_add, BitVec.ofNat_toNat, BitVec.setWidth_eq]
    exact congrArg (fun d => { s with chip := d }) (if_neg (BitVec.lt_irrefl _))

/-! ## What comes of an attempt (R176, R177) -/

/-- A success without a payload, of an attempt that may start the cycle. -/
theorem startCycle_success_none (hf : c.txf = h :: r) :
    c.startCycle.success none =
      { c with txf := r, txDs := true, txActive := false,
               arcCnt := if c.txActive then c.arcCnt else 0 } := by
  simp [startCycle_eq, Chip.success, hf]

/-- A success with a payload. -/
theorem startCycle_success_some (d : List Byte) (hf : c.txf = h :: r) :
    c.startCycle.success (some d) =
      { c with txf := r, txDs := true, txActive := false,
               arcCnt := if c.txActive then c.arcCnt else 0, rxf := c.rxf ++ [⟨0, d⟩],
               rxDr := true } := by
  simp [startCycle_eq, Chip.success, Chip.pushRx, hf]

theorem ackAdmitted_iff (c : Chip) :
    c.ackAdmitted = true ↔ c.rxAddrP0 = c.txAddr ∧ bit c.enRxaddr 0 = true := by
  simp [Chip.ackAdmitted]

theorem ackPayloadAdmitted_iff (c : Chip) (d : List Byte) :
    c.ackPayloadAdmitted d = true ↔
      c.ackAdmitted = true ∧ c.featuresUnlocked = true ∧ bit c.feature 1 = true ∧
        bit c.feature 2 = true ∧ bit c.dynpd 0 = true ∧ c.rxf.length < 3 ∧ 1 ≤ d.length ∧
        d.length ≤ 32 := by
  simp [Chip.ackPayloadAdmitted, Chip.enAckPay, Chip.enDpl]
  tauto

/-- Settles O19, with and without a payload. -/
theorem attemptSucceeds : Obligations.AttemptSucceeds := by
  intro s h r q hp hd hf ha hn hb haddr herx hq
  have he : s.chip.ackExpected h = true := (ackExpected_iff _ _).mpr ⟨hn, hb⟩
  have hack : s.chip.ackAdmitted = true := (ackAdmitted_iff _).mpr ⟨haddr, herx⟩
  rw [txAttempt_due _ hp hd ha, State.onChip]
  cases q with
  | none =>
    rw [attempt_acked (q := none) hf he (by simp [Chip.settle, hack]), startCycle_success_none hf]
    simp
  | some d =>
    have hpay : s.chip.ackPayloadAdmitted d = true :=
      (ackPayloadAdmitted_iff _ _).mpr ⟨hack, hq d rfl⟩
    rw [attempt_acked (q := some d) hf he (by simp [Chip.settle, hpay]),
      startCycle_success_some d hf]
    simp

/-- Where an acknowledgment is expected, an answer that is not admitted is a lost attempt. -/
theorem txAttempt_unadmitted (hf : s.chip.txf = h :: r) (he : s.chip.ackExpected h = true)
    (hs : s.chip.settle o = .lost) : s.txAttempt o = s.txAttempt .lost := by
  have e : s.chip.attempt o = s.chip.attempt .lost := by
    rw [attempt_lost hf he hs, attempt_lost hf he rfl]
  simp only [State.txAttempt, State.onChip, e]

/-- Without the transmit address on an enabled pipe 0 no answer is admitted. -/
theorem settle_of_ackAdmitted_false (ha : c.ackAdmitted = false) : c.settle o = .lost := by
  have hp (d : List Byte) : c.ackPayloadAdmitted d = false := by
    simp [Chip.ackPayloadAdmitted, ha]
  rcases o with - | - | - <;> simp [Chip.settle, ha, hp]

/-- Settles O20, by what is expected and what is admitted. -/
theorem acknowledgmentExpected : Obligations.AcknowledgmentExpected := by
  intro s h r o hf
  refine ⟨fun hall => ?_, fun hp hd ha hn => ?_, fun hn hb hno => ?_, fun hn hb hno d => ?_⟩
  · simp [Chip.ackExpected, hall, bit]
  · have he : s.chip.ackExpected h = false := by
      rw [Bool.eq_false_iff, ne_eq, ackExpected_iff]
      grind
    rw [txAttempt_due _ hp hd ha, State.onChip, attempt_unacknowledged hf he,
      startCycle_success_none hf]
  · have he : s.chip.ackExpected h = true := (ackExpected_iff _ _).mpr ⟨hn, hb⟩
    have hack : s.chip.ackAdmitted = false := by
      rw [Bool.eq_false_iff, ne_eq, ackAdmitted_iff]
      grind
    exact txAttempt_unadmitted hf he (settle_of_ackAdmitted_false hack)
  · have he : s.chip.ackExpected h = true := (ackExpected_iff _ _).mpr ⟨hn, hb⟩
    have hpay : s.chip.ackPayloadAdmitted d = false := by
      rw [Bool.eq_false_iff, ne_eq, ackPayloadAdmitted_iff]
      grind
    exact txAttempt_unadmitted hf he (by simp [Chip.settle, hpay])

/-! ## MAX_RT (R174, R181) -/

theorem attemptDue_iff (s : State) :
    s.attemptDue = true ↔
      (bit s.chip.config 1 = true ∧ bit s.chip.config 0 = false ∧ s.chip.txf ≠ [] ∧
        s.chip.maxRt = false) ∧ (s.chip.txActive = true ∨ s.ce = true) := by
  simp [State.attemptDue, Chip.txReady, Chip.pwrUp, Chip.primRx, Chip.txEmpty, and_assoc]

/-- Settles O21, by what makes an attempt due. -/
theorem maxRtBlocks : Obligations.MaxRtBlocks := by
  intro s h r o hmax hp
  have hblocked : s.attemptDue = false := by
    rw [Bool.eq_false_iff, ne_eq, attemptDue_iff]
    simp [hmax]
  refine ⟨txAttempt_not_due o hblocked, fun htx ha hx hf hn hb harc => ?_⟩
  let t := s.wRegister .status [0x10]
  have hc : t.chip = { s.chip with maxRt := false } := by
    rw [wRegister_chip _ _ s hp]
    simp [Chip.writeReg, bit]
  have htp : t.params.chipPresent = true := by rw [wRegister_params, hp]
  obtain ⟨-, -, -, -, hmode, -⟩ := modeDerivation s
  obtain ⟨hup, hce, hprim, -⟩ := hmode.mp htx
  have hd : t.attemptDue = true := by
    rw [attemptDue_iff, hc, wRegister_ce]
    exact ⟨⟨hup, hprim, by simp [hf], rfl⟩, .inr hce⟩
  have he : t.chip.ackExpected h = true := by
    rw [hc, ackExpected_iff]
    exact ⟨hn, hb⟩
  have hf' : t.chip.txf = h :: r := by rw [hc, hf]
  have hlt : (0 : BitVec 4) < s.chip.arc := harc
  rw [show t.txAttempt .lost = _ from txAttempt_due .lost htp hd (by rw [hc]; exact ha),
    onChip_chip, attempt_lost hf' he rfl, startCycle_eq, hc]
  simp only [hx, Bool.false_eq_true, if_false]
  exact if_pos hlt

/-! ## TxAbandon (R184) -/

/-- Settles O22, by the condition of the step. -/
theorem abandon : Obligations.Abandon := by
  intro s hp
  have habandon : s.txAbandon =
      if s.chip.txActive = true ∧ (s.ce = false ∨ bit s.chip.config 1 = false ∨
        bit s.chip.config 0 = true ∨ s.chip.txf = []) then
        { s with chip := { s.chip with txActive := false } } else s := by
    simp [State.txAbandon, State.onChip, Chip.pwrUp, Chip.primRx, Chip.txEmpty, hp, or_assoc]
  refine ⟨fun hx hc => ?_, fun hno => ?_, fun hx _ hup hprim hne hmax => ?_⟩
  · rw [habandon, if_pos ⟨hx, hc⟩]
  · rw [habandon, if_neg]
    grind
  · exact (attemptDue_iff s).mpr ⟨⟨hup, hprim, hne, hmax⟩, .inl hx⟩

end

end Sys2Proof.Machine
end

section
/-! The receive side of the radio core (41_radio_core.md R190 to R196): what becomes of a packet on
the pipe that takes it, and the acknowledgment sent; and of every radio step, when it is refused
(R205) and what it can write (R197). -/

namespace Sys2Proof.Machine

/-! ## Pipes (R191) -/

theorem mem_matching {c : Chip} {a : Addr} {p : Fin 6} :
    p ∈ c.matching a ↔ bit c.enRxaddr p.val = true ∧ c.pipeAddr p = a := by
  have hall : p ∈ ([0, 1, 2, 3, 4, 5] : List (Fin 6)) := by
    revert p
    decide
  simp [Chip.matching, hall]

theorem dynamicPayload_eq_false (c : Chip) (p : Fin 6) :
    c.dynamicPayload p = false ↔
      c.featuresUnlocked = false ∨ bit c.feature 2 = false ∨ bit c.dynpd p.val = false := by
  simp [Chip.dynamicPayload, Chip.enDpl, ← Bool.not_eq_true]
  tauto

section
variable {s : State} {k : Packet} {n : Nat}

/-! ## A Receive step (R190, R205) -/

theorem receive_other_mode (k : Packet) (n : Nat) (hm : s.chipMode ≠ .rx) : s.receive k n = s := by
  simp [State.receive, hm]

theorem receive_width_refused (k : Packet) (n : Nat) (hp : s.params.chipPresent = true)
    (hm : s.chipMode = .rx) (ha : s.chip.awAdmitted = false) :
    s.receive k n = s.refuse .addressWidthNot5 := by
  simp [State.receive, hp, hm, ha]

theorem receive_unmatched (ha : s.chip.awAdmitted = true) (hno : s.chip.matching k.addr = []) :
    s.receive k n = s := by
  simp [State.receive, ha, hno]

/-- The chip after pipe `p` has stored a packet, unless it is a duplicate (R193). -/
def Chip.stores (p : Fin 6) (k : Packet) (c : Chip) : Chip :=
  if k.dup then c else c.pushRx p k.data

theorem accept_eq (m : AckMatch) (p : Fin 6) (k : Packet) (c : Chip) :
    c.accept m p k =
      if k.dup = false ∧ c.rxf.length = 3 then c
      else if bit c.enAa p.val = true ∧ k.noackBit = false then (c.stores p k).sendAck m p
      else c.stores p k := by
  have henaa : (if k.dup then c else c.pushRx p k.data).enAa = c.enAa := by split <;> rfl
  simp only [Chip.accept, Chip.stores, henaa, rxFull_eq, Bool.and_eq_true, Bool.not_eq_true',
    decide_eq_true_eq]

/-- What the pipe that takes a packet does with it. -/
def State.takes (k : Packet) (p : Fin 6) (s : State) : State :=
  if s.chip.dynamicPayload p then s.onChip (Chip.accept s.params.ackMatch p k)
  else s.refuse .staticPayloadPipe

section
variable (hp : s.params.chipPresent = true) (hm : s.chipMode = .rx)
  (ha : s.chip.awAdmitted = true) (h1 : 1 ≤ k.data.length) (h32 : k.data.length ≤ 32)
include hp hm ha h1 h32

theorem receive_taken {p : Fin 6}
    (hn : (s.chip.matching k.addr)[n % (s.chip.matching k.addr).length]? = some p) :
    s.receive k n = s.takes k p := by
  have hne : k.data ≠ [] := List.ne_nil_of_length_pos h1
  have hlen : ¬maxPayload < k.data.length := Nat.not_lt.mpr h32
  cases hd : s.chip.dynamicPayload p <;>
    simp [State.receive, State.takes, hp, hm, ha, hne, hlen, hn, hd]

/-- One of the matching pipes takes the packet. -/
theorem receive_some_pipe (n : Nat) (hne : s.chip.matching k.addr ≠ []) :
    ∃ p ∈ s.chip.matching k.addr, s.receive k n = s.takes k p := by
  have hlt := Nat.mod_lt n (List.length_pos_of_ne_nil hne)
  exact ⟨_, List.getElem_mem hlt,
    receive_taken hp hm ha h1 h32 (List.getElem?_eq_getElem hlt)⟩

/-- Any of them may. -/
theorem receive_any_pipe {p : Fin 6} (hmem : p ∈ s.chip.matching k.addr) :
    ∃ n, s.receive k n = s.takes k p := by
  obtain ⟨i, hi, rfl⟩ := List.getElem_of_mem hmem
  refine ⟨i, receive_taken hp hm ha h1 h32 ?_⟩
  rw [Nat.mod_eq_of_lt hi, List.getElem?_eq_getElem hi]

end

/-- Settles O23, from what the pipe that takes the packet does. -/
theorem packetReceived : Obligations.PacketReceived := by
  intro s k hp hm ha h1 h32 taken
  have htaken (p : Fin 6) : taken p (s.takes k p) := by
    simp only [taken, State.takes, ← dynamicPayload_eq_false]
    cases hd : s.chip.dynamicPayload p with
    | false => rfl
    | true =>
      rw [if_neg Bool.true_eq_false_eq_False, if_pos rfl, State.onChip, accept_eq]
      by_cases hfull : k.dup = false ∧ s.chip.rxf.length = 3
      · rw [if_pos hfull, if_pos hfull]
      · rw [if_neg hfull, if_neg hfull]
        split <;> rfl
  refine ⟨fun p => mem_matching, fun n hne => ?_, fun p hmem => ?_⟩
  · obtain ⟨p, hmem, e⟩ := receive_some_pipe hp hm ha h1 h32 n hne
    exact ⟨p, hmem, e ▸ htaken p⟩
  · obtain ⟨n, e⟩ := receive_any_pipe hp hm ha h1 h32 hmem
    exact ⟨n, e ▸ htaken p⟩

/-- Settles O25: outside mode RX there is no step, and without a matching pipe no pipe to take the
packet. -/
theorem packetNotForThisChip : Obligations.PacketNotForThisChip := by
  intro s k n
  refine ⟨receive_other_mode k n, fun ha hno => receive_unmatched ha ?_⟩
  refine List.eq_nil_iff_forall_not_mem.mpr fun p hmem => ?_
  obtain ⟨herx, haddr⟩ := mem_matching.mp hmem
  refine hno p herx (haddr.symm.trans ?_)
  unfold Chip.pipeAddr
  split <;> rfl

/-- Settles O27, from the checks of the two steps. -/
theorem radioStepsRefused : Obligations.RadioStepsRefused := by
  intro s o k n hp
  have hw : s.chip.awAdmitted = true ↔ s.chip.setupAw = 0x03 := beq_iff_eq
  refine ⟨fun haw => ?_, fun haw hm h1 h32 hne hstatic => ?_⟩
  · have ha : s.chip.awAdmitted = false := by rwa [Bool.eq_false_iff, ne_eq, hw]
    exact ⟨fun hd => txAttempt_refused o hp hd ha, fun hm => receive_width_refused k n hp hm ha⟩
  · obtain ⟨p, hmem, e⟩ := receive_some_pipe hp hm (hw.mpr haw) h1 h32 n hne
    have hd : s.chip.dynamicPayload p = false :=
      (dynamicPayload_eq_false _ p).mpr (hstatic.imp id (.imp id fun hall => hall p hmem))
    rw [e, State.takes, hd]
    rfl

end

/-! ## The acknowledgment (R195, R196) -/

theorem isFor_iff {p : Fin 6} {e : TxEntry} : e.isFor p = true ↔ e.ppp = some p := beq_iff_eq

/-- Settles O24, by the two ways an entry is chosen. -/
theorem ackPayloadSent : Obligations.AckPayloadSent := by
  intro c p
  refine ⟨fun hoff m => by simp [Chip.sendAck, hoff], fun hon => ⟨fun hf m => ?_, fun h r hf => ?_,
    fun l h r hf hl hh => ?_, fun hno => ?_⟩⟩
  · cases m <;> simp [Chip.sendAck, Chip.txEmpty, hf]
  · simp [Chip.sendAck, Chip.txEmpty, hon, hf]
  · have hl' : ∀ e ∈ l, ¬ e.isFor p = true := fun e he => isFor_iff.not.mpr (hl e he)
    have hany : c.txf.any (TxEntry.isFor p) = true :=
      List.any_eq_true.mpr ⟨h, by simp [hf], isFor_iff.mpr hh⟩
    have herase : c.txf.eraseP (TxEntry.isFor p) = l ++ r := by
      rw [hf, List.eraseP_append_right _ hl', List.eraseP_cons_of_pos (isFor_iff.mpr hh)]
    simp [Chip.sendAck, hon, hany, herase]
  · have hany : c.txf.any (TxEntry.isFor p) = false :=
      List.any_eq_false.mpr fun e he => isFor_iff.not.mpr (hno e he)
    simp [Chip.sendAck, hon, hany]

/-! ## The frame (R197) -/

/-- Two chips that agree on every register no radio step writes. -/
theorem eq_of_steady {c d : Chip} (h : d.steady = c.steady) :
    d = { c with
      rxDr := d.rxDr, txDs := d.txDs, maxRt := d.maxRt, arcCnt := d.arcCnt, plosCnt := d.plosCnt,
      txf := d.txf, rxf := d.rxf, txActive := d.txActive } := by
  cases c
  cases d
  simp only [Chip.steady, Chip.mk.injEq] at h ⊢
  simp [h]

/-- What a radio step can be: nothing, a refusal, or a change of the chip that keeps those
registers. -/
def RadioStep (s t : State) : Prop :=
  t = s ∨ (∃ r, t = s.refuse r) ∨
    ∃ f : Chip → Chip, t = s.onChip f ∧ (f s.chip).steady = s.chip.steady

theorem txAttempt_radioStep (o : AttemptOutcome) (s : State) : RadioStep s (s.txAttempt o) := by
  unfold State.txAttempt
  split
  · exact .inl rfl
  · split
    · exact .inr (.inl ⟨_, rfl⟩)
    · exact .inr (.inr ⟨_, rfl, attempt_steady o s.chip⟩)

theorem txAbandon_radioStep (s : State) : RadioStep s s.txAbandon := by
  unfold State.txAbandon
  split
  · exact .inr (.inr ⟨_, rfl, rfl⟩)
  · exact .inl rfl

theorem receive_radioStep (k : Packet) (n : Nat) (s : State) : RadioStep s (s.receive k n) := by
  unfold State.receive
  split
  · exact .inl rfl
  split
  · exact .inr (.inl ⟨_, rfl⟩)
  split
  · exact .inl rfl
  dsimp only
  split
  · exact .inl rfl
  split
  · exact .inr (.inl ⟨_, rfl⟩)
  · exact .inr (.inr ⟨_, rfl, accept_steady _ _ k s.chip⟩)

/-- Settles O26, from what each of the three steps can be. -/
theorem radioStepsWrite : Obligations.RadioStepsWrite := by
  intro s t o k n ht
  have hstep : RadioStep s t := by
    obtain rfl | rfl | rfl := ht
    · exact txAttempt_radioStep o s
    · exact txAbandon_radioStep s
    · exact receive_radioStep k n s
  obtain rfl | ⟨r, rfl⟩ | ⟨f, rfl, hf⟩ := hstep
  · rfl
  · rfl
  · exact congrArg (fun c => { s with chip := c }) (eq_of_steady hf)

end Sys2Proof.Machine
end

section
/-! init (70_reset_and_hazards.md R352): the state of R351's column "after init", which its program
leaves but for what radio steps write, and what stays of the powered-down chip in every environment
that resets nothing. -/

namespace Sys2Proof.Machine

/-! ## The state after init -/

/-- The state after S18, from the values `v` and `w` that the two CONFIG reads answer. -/
def State.prepared (mask : BitVec 32) (v w : Byte) (s : State) : State :=
  let x := s.settled mask v w
  { x with
    chip := x.extended.flagsCleared.flushed,
    sh := { x.sh with settings := { x.sh.settings with ackEnabled := true } },
    busLog := [sends [0xE1], sends [0xE2], sends [0x20, x.chip.config], sends [0x00, 0x00],
      sends [0x27, 0x70], sends [0x23, 0x03], sends [0x3C, 0x3F], sends [0x21, 0x3F],
      sends [0x3D, 0x07], sends [0x50, 0x73]] ++ x.busLog }

/-- The assignments of S19. -/
def Shadow.opened (h : Shadow) : Shadow :=
  { h with listening := false, txAddrCache := none, rxP0Cache := none, extraPipes := 0,
           initialized := true }

/-- The state init leaves. -/
def State.inited (mask : BitVec 32) (v w : Byte) (s : State) : State :=
  { (s.prepared mask v w).onShadow Shadow.opened with host.result := .none }

section
variable {s : State} {v w : Byte} (mask : BitVec 32) (hv : v ∈ s.chip.configReads)
  (hw : w ∈ ({ s.chip with config := withoutBits v pwrUp &&& 0x7F } : Chip).configReads)
include hv hw

/-- CONFIG after S9, which the rest of init leaves as it is. -/
theorem settled_config :
    (s.settled mask v w).chip.config =
      (s.chip.config &&& 0x71) ||| (if s.params.defaultCrc16 then 0x0C else 0x08) :=
  config_with_crc s.chip.config v w s.params.defaultCrc16 (mem_configReads hv) (mem_configReads hw)

/-- It is powered down, with EN_CRC set, and another ClearBits of PWR_UP changes nothing. -/
theorem settled_config_bits :
    let c := (s.settled mask v w).chip.config
    bit c 1 = false ∧ bit c 3 = true ∧ withoutBits c pwrUp = c ∧ c &&& 0x7F = c := by
  intro c
  have hc : c = _ := settled_config mask hv hw
  rw [hc]
  exact config_settled s.chip.config s.params.defaultCrc16

end

/-! ## The run of init -/

section
variable {s : State} (mask : BitVec 32) (hi : s.Idle) (hr : s.NoResets)
  (hp : s.params.chipPresent = true) (ht : s.chip.Tame)

include hi

theorem init_seq : (s.issued (.init mask)).seq = [⟨.init mask, .s1, .fresh⟩] := by
  simp [State.issued, hi.2]

include hr hp ht

theorem init_start (i : Instr) : Tracks s.Silent (s.issued i) (s.issued i) :=
  .start hi hr hp ht i

/-- S1 to S18. -/
theorem init_prepared : ∃ v ∈ s.chip.configReads,
    ∃ w ∈ ({ s.chip with config := withoutBits v pwrUp &&& 0x7F } : Chip).configReads, ∃ o,
      Tracks s.Silent (initFeatures (initSettings mask (s.issued (.init mask))))
        { (s.issued (.init mask)).prepared mask v w with seq := [⟨.init mask, .s19, o⟩] } := by
  obtain ⟨v, hv, w, hw, o, h9⟩ :=
    initSettings_tracks (init_start hi hr hp ht (.init mask)) mask (init_seq mask hi)
  obtain ⟨hdown, hcrc, hkeep, hbits⟩ := settled_config_bits mask hv hw
  obtain ⟨o', h18⟩ := initFeatures_tracks h9 rfl hdown hcrc hkeep hbits
  exact ⟨v, hv, w, hw, o', h18⟩

theorem init_completes : ∃ v ∈ s.chip.configReads,
    ∃ w ∈ ({ s.chip with config := withoutBits v pwrUp &&& 0x7F } : Chip).configReads,
      Completes (.init mask) s (s.inited mask v w) := by
  obtain ⟨v, hv, w, hw, o, h⟩ := init_prepared mask hi hr hp ht
  obtain ⟨hn, hk, hl, hq⟩ := (h.interlude.onShadow Shadow.opened).ends .none
  refine ⟨v, hv, w, hw, _, ?_, hk.trans ?_, hl, hq, trivial⟩
  · refine (issue_ready (needsInit := false) hi.2 nofun rfl).trans ?_
    exact (congrArg State.outcome (h.finish_eq .s19 rfl _)).trans hn
  · exact kept_ext rfl rfl rfl hi.2.symm rfl rfl rfl rfl rfl

/-- What a powered-down chip holds after S9 it holds when init returns, with the flags and both
FIFOs clear. -/
theorem init_asleep {P : Chip → Prop} (D : Chip.Durable P) (hP : ∀ c, P c → P c.flagsCleared)
    (hs : (initSettings mask (s.issued (.init mask))).Asleep P) :
    (initProgram mask (s.issued (.init mask))).Asleep fun c =>
      (P c ∧ c.FlagsClear) ∧ c.txf = [] ∧ c.rxf = [] := by
  obtain ⟨v, hv, w, hw, o, h9⟩ :=
    initSettings_tracks (init_start hi hr hp ht (.init mask)) mask (init_seq mask hi)
  obtain ⟨hdown, hcrc, hkeep, hbits⟩ := settled_config_bits mask hv hw
  exact (initFeatures_asleep D hP h9 rfl hdown hcrc hkeep hbits hs).finish
    (flushed_durable (flagsClear_durable D)) .s19 _

end

/-! ## The initialization table -/

/-- What ClearBits of PWR_UP leaves of CONFIG. -/
theorem poweredDown_byte (v : Byte) : withoutBits v pwrUp &&& 0x7F = v &&& 0x7D :=
  BitVec.and_assoc ..

theorem withField_crc (w : Byte) (b : Bool) :
    withField w crcMask (if b then 0x0C else 0x08) =
      (w &&& ~~~0x0C) ||| (if b then 0x0C else 0x08) := by
  cases b <;> rfl

theorem withField_level (b : Byte) (pa : PaLevel) :
    withField b paMask pa.code = (b &&& ~~~0x06) ||| pa.code := by
  cases pa <;> rfl

/-- Settles O28: the state the program leaves is the table's, byte by byte; the powered-down chip
keeps PLOS_CNT at 0 from S9 on, and ARC_CNT and an idle cycle from the start where it was down
before. -/
theorem initInitializes : Obligations.InitInitializes := by
  intro s mask hi hr hp ht p crc mode pa drm dr retr ch rf1 rf2 open' cfg
  obtain ⟨v, hv, w, hw, hc⟩ := init_completes mask hi hr hp ht
  refine ⟨v, hv, w, poweredDown_byte v ▸ hw, ?_, ?_⟩
  · have hx := settled_config mask hv hw
    refine (congrArg (Completes (.init mask) s ·) ?_).mpr hc
    simp only [State.inited, State.prepared, State.onShadow, Shadow.opened, State.extended, hx]
    simp only [State.settled, State.levelSet, withField_crc, withField_level]
    rfl
  · intro t he
    obtain ⟨-, rfl⟩ := issue_next (show execInit mask s = _ from he)
    have hplos := init_asleep mask hi hr hp ht plosCnt_durable (fun _ h => h)
      (initSettings_plosCnt (init_start hi hr hp ht (.init mask)) mask (init_seq mask hi))
    obtain ⟨⟨hcnt, hrx, htx, hmax⟩, htxf, hrxf⟩ := hplos.holds
    refine ⟨hplos.mode, htxf, hrxf, hrx, htx, hmax, hcnt, fun hdown => ?_⟩
    have D := cycleIn_durable s.chip
    have hcycle := init_asleep mask hi hr hp ht D (fun _ h => h)
      (initSettings_asleep D (init_start hi hr hp ht (.init mask)) mask (init_seq mask hi)
        ⟨hr, hp, hdown, rfl, id⟩)
    exact hcycle.holds.1.1

end Sys2Proof.Machine
end

section
/-! The address encoder (42_addressing_pipes.md R210, R211, R219), and the operations whose first
micro-step returns what it says. -/

namespace Sys2Proof

/-! ## The encoder and its inverse -/

theorem decompose_mask (a : Addr) : (decompose a).2 = a.b4 ++ a.b3 ++ a.b2 ++ a.b1 := by
  refine BitVec.eq_of_getLsbD_eq fun i hi => ?_
  simp only [decompose, BitVec.getLsbD_or, BitVec.getLsbD_shiftLeft, BitVec.getLsbD_setWidth,
    BitVec.getLsbD_append]
  grind

/-- A byte above the lowest one is a byte of what stands before that one. -/
theorem extractLsb'_append_byte {w : Nat} (x : BitVec w) (b : Byte) (i : Nat) :
    (x ++ b).extractLsb' (i + 8) 8 = x.extractLsb' i 8 :=
  BitVec.extractLsb'_append_eq_of_le (Nat.le_add_left 8 i)

theorem fullAddress_decompose (a : Addr) : fullAddress (decompose a).1 (decompose a).2 = a := by
  have hmask := decompose_mask a
  unfold fullAddress
  rw [hmask]
  congr 1
  · exact BitVec.extractLsb'_append_eq_right
  · exact (extractLsb'_append_byte _ _ 0).trans BitVec.extractLsb'_append_eq_right
  · exact ((extractLsb'_append_byte _ _ 8).trans (extractLsb'_append_byte _ _ 0)).trans
      BitVec.extractLsb'_append_eq_right
  · exact ((extractLsb'_append_byte _ _ 16).trans (extractLsb'_append_byte _ _ 8)).trans
      BitVec.extractLsb'_append_eq_left

theorem decompose_fullAddress (n : Byte) (m : BitVec 32) :
    decompose (fullAddress n m) = (n, m) := by
  refine Prod.ext rfl ((decompose_mask _).trans ?_)
  dsimp only [fullAddress]
  rw [BitVec.extractLsb'_append_extractLsb'_eq_extractLsb' (by rfl),
    BitVec.extractLsb'_append_extractLsb'_eq_extractLsb' (by rfl),
    BitVec.extractLsb'_append_extractLsb'_eq_extractLsb' (by rfl)]
  exact BitVec.extractLsb'_eq_self

/-- The encoder has an inverse, so it is injective. -/
theorem fullAddress_injective {n n' : Byte} {m m' : BitVec 32}
    (h : fullAddress n m = fullAddress n' m') : n = n' ∧ m = m' := by
  have e := congrArg decompose h
  rw [decompose_fullAddress, decompose_fullAddress] at e
  exact Prod.mk.inj e

end Sys2Proof

namespace Sys2Proof.Machine

/-! ## A first micro-step that returns -/

/-- Where the first micro-step returns, the result is all that an issue changes. -/
theorem issue_retHere {s : State} {i : Instr} {needsInit : Bool} {p : State → State}
    {v : State → Result} (hi : s.Idle) (hn : needsInit = true → s.sh.initialized = true)
    (hp : p (s.issued i) = (s.issued i).retHere .s1 v) :
    s.issue i needsInit true p = .next { s with host.result := v (s.issued i) } := by
  obtain ⟨hm, hq⟩ := hi
  have hrun : (s.issued i).stopped = false :=
    stopped_eq_false.mpr ⟨hm, by simp [State.issued]⟩
  have hgive : (s.issued i).give (v (s.issued i)) = { s with host.result := v (s.issued i) } := by
    generalize v (s.issued i) = r
    simp [State.give, State.issued, State.push, hq]
  rw [issue_ready hq hn rfl]
  refine (congrArg State.outcome (hp.trans ?_)).trans (outcome_next hm)
  exact (here_eq hrun rfl _).trans hgive

/-! ## The two operations -/

/-- Settles O49: the first micro-step returns, and the encoder's inverse is one on both sides. -/
theorem decomposeAddress : Obligations.DecomposeAddress := by
  refine ⟨fun s a hi => ?_, fullAddress_decompose, decompose_fullAddress⟩
  rw [← decompose_mask]
  exact issue_retHere (v := fun _ => .nodeMask (decompose a).1 (decompose a).2) hi (by simp) rfl

/-- Settles O48: the first micro-step returns, and the encoder is injective. -/
theorem assembleFullAddress : Obligations.AssembleFullAddress := by
  refine ⟨fun s node m hr hm => ?_, fun _ _ _ _ => fullAddress_injective,
    fun c m m' n hne hpipes => List.eq_nil_iff_forall_not_mem.mpr fun p hmem => ?_⟩
  · have hmask : (s.issued (.assembleFullAddress node)).mask = m := by
      simp [State.mask, State.issued, hm]
    rw [← hmask]
    exact issue_retHere (v := fun s => .address (fullAddress node s.mask)) hr.1 (fun _ => hr.2) rfl
  · obtain ⟨k, hk⟩ := hpipes p
    exact hne (fullAddress_injective (hk.symm.trans (mem_matching.mp hmem).2)).2

end Sys2Proof.Machine
end

section
/-! listenToAddress (42_addressing_pipes.md R214 to R216), up to its return, and issued by the
host. -/

namespace Sys2Proof.Machine

/-! ## The register of a listener (R214, R215) -/

section
variable (k : Nat) (node : Byte) (mask : BitVec 32) (c : Chip)

theorem writeReg_listenerReg (variant : ChipVariant) :
    c.writeReg variant (listenerReg k) (listenerBytes k node mask) =
      c.withListener k node mask := by
  match k with
  | 0 | 1 | 2 | 3 | _ + 4 => rfl

/-- Only the addresses of pipes 1 to 5 can differ. -/
theorem withListener_only :
    c.withListener k node mask = { c with
      rxAddrP1 := (c.withListener k node mask).rxAddrP1,
      rxAddrP2 := (c.withListener k node mask).rxAddrP2,
      rxAddrP3 := (c.withListener k node mask).rxAddrP3,
      rxAddrP4 := (c.withListener k node mask).rxAddrP4,
      rxAddrP5 := (c.withListener k node mask).rxAddrP5 } := by
  match k with
  | 0 | 1 | 2 | 3 | _ + 4 => rfl

theorem withListener_enRxaddr : (c.withListener k node mask).enRxaddr = c.enRxaddr := by
  rw [withListener_only]

theorem withListener_configReads : (c.withListener k node mask).configReads = c.configReads := by
  rw [withListener_only]
  rfl

theorem withListener_admitted {c : Chip} (h : c.Admitted) :
    (c.withListener k node mask).Admitted := by
  rw [withListener_only]
  exact h

end

theorem listenerReg_command {k : Nat} (hk : k < 5) (node : Byte) (mask : BitVec 32) :
    regCommand 0b001 (listenerReg k) :: listenerBytes k node mask =
      if k = 0 then 0x2B :: (fullAddress node mask).toList
      else [BitVec.ofNat 8 (0x2B + k), node] := by
  match k with
  | 0 | 1 | 2 | 3 | 4 => rfl

/-! ## The program with a free slot -/

/-- S1 to S4: the next listener's address is written, and its pipe enabled. -/
def State.joined (node : Byte) (s : State) : State :=
  let k := s.sh.extraPipes
  { s with
    chip := { s.chip.withListener k node s.mask with
      enRxaddr := (s.chip.enRxaddr ||| erx (k + 1)) &&& 0x3F },
    sh.extraPipes := k + 1,
    busLog := sends [0x22, s.chip.enRxaddr ||| erx (k + 1)] :: sends [0x02, 0x00] ::
      sends (regCommand 0b001 (listenerReg k) :: listenerBytes k node s.mask) :: s.busLog }

/-- The frames play no part in startListening. -/
theorem listened_withSeq (v : Byte) (x : State) (q : List Frame) :
    ({ x with seq := q } : State).listened v = { x.listened v with seq := q } :=
  (listened_frame v x q x.host).trans (by simp only [listened_host])

theorem listened_seq (v : Byte) (x : State) : (x.listened v).seq = x.seq := by
  have e := congrArg State.seq (listened_withSeq v x x.seq)
  exact e

section
variable {q : Prop} {s x : State} (h : Tracks q s x) (ha : x.chip.Admitted)
include h ha

/-- A call of startListening, back in its caller (43_mode_control.md R232). -/
theorem call_startListening_tracks (l next : Label) (hl : x.isAt l = true) {f : Frame}
    {r : List Frame} (hx : x.seq = f :: r) :
    ∃ v ∈ x.chip.configReads,
      Tracks q (s.call l next .startListening startListeningProgram)
        { x.listened v with seq := ⟨f.op, next, { f.locals with got := .none }⟩ :: r } := by
  have hcallee : (x.atLabel next).push .startListening =
      { x with seq := ⟨.startListening, .s1, .fresh⟩ :: ⟨f.op, next, f.locals⟩ :: r } := by
    simp [State.atLabel, hx, State.push]
  have h1 := h.called next .startListening
  rw [hcallee] at h1
  obtain ⟨v, hv, s', f', hp, h2⟩ := startListening_tracks h1 ha rfl
  rw [listened_withSeq] at h2
  refine ⟨v, hv, ?_⟩
  rw [h.call_eq l next hl, hp]
  exact (h2.give .none (by simp)).of_eq (by simp [State.give])

/-- S2: the write of a listener's own bytes. -/
theorem wRegister_listener_tracks (k : Nat) (node : Byte) (mask : BitVec 32) :
    Tracks q (s.wRegister (listenerReg k) (listenerBytes k node mask))
      { x with chip := x.chip.withListener k node mask,
               busLog := sends (regCommand 0b001 (listenerReg k) :: listenerBytes k node mask) ::
                 x.busLog } := by
  have hw := writeReg_listenerReg k node mask x.chip x.params.variant
  rw [← hw]
  exact h.wRegister (.inl (hw ▸ withListener_admitted k node mask ha))

/-- The program with a free slot, up to its return. -/
theorem listenToAddress_tracks (node : Byte) {op : Instr} {o : Locals} {r : List Frame}
    (hx : x.seq = ⟨op, .s1, o⟩ :: r) (hfree : x.sh.extraPipes < 5) :
    ∃ v ∈ x.chip.configReads, ∃ s' f',
      listenToAddressProgram node s = s'.give (.slot x.sh.extraPipes) ∧
      Tracks q s' { (x.joined node).listened v with seq := f' :: r } := by
  obtain ⟨k, hk⟩ : ∃ k, x.sh.extraPipes = k := ⟨_, rfl⟩
  have hj := withListener_admitted k node x.mask ha
  have h1 := h.micro_at { x with seq := ⟨op, .s2, { o with k := k }⟩ :: r } .s1 .s2
    (by simp [State.isAt, hx])
    (e := fun s => s.setLocals fun o => { o with k := s.sh.extraPipes })
    (fun y hy => by
      rw [sh_of_kept hy.same, hk]
      exact hy.setLocals fun o => { o with k := k })
    (by simp [State.setLocals, State.atLabel, hx])
  have h2 := h1.micro_at { x with
      seq := ⟨op, .s3, { o with k := k }⟩ :: r, chip := x.chip.withListener k node x.mask,
      busLog := sends (regCommand 0b001 (listenerReg k) :: listenerBytes k node x.mask) ::
        x.busLog } .s2 .s3 rfl
    (e := fun s => s.wRegister (listenerReg s.locals.k) (listenerBytes s.locals.k node s.mask))
    (fun y hy => by
      rw [hy.locals_eq, mask_of_kept hy.same]
      exact wRegister_listener_tracks hy ha k node x.mask)
  obtain ⟨w, rfl, h3⟩ := h2.readInto (P := (· = x.chip.enRxaddr)) .s3 Label.s3.succ rfl .enRxaddr
    (fun b o => { o with v := b }) rfl
    fun y hy => hy.read_enRxaddr.trans (withListener_enRxaddr ..)
  have h4 := h3.writeFrom Label.s3.succ .s4 rfl .enRxaddr
    (fun s => [withBits s.locals.v (erx (s.locals.k + 1))])
    (v := [withBits x.chip.enRxaddr (erx (k + 1))])
    (fun y hy => by rw [hy.locals_eq]; rfl) (.inl hj) rfl
  subst hk
  have h5 := h4.micro_at { x.joined node with
      seq := ⟨op, .s5, { o with k := x.sh.extraPipes, v := x.chip.enRxaddr }⟩ :: r } .s4 .s5 rfl
    (e := fun s => s.onShadow fun h => { h with extraPipes := s.locals.k + 1 })
    fun y hy => by
      rw [hy.locals_eq]
      exact hy.onShadow fun h => { h with extraPipes := x.sh.extraPipes + 1 }
  obtain ⟨v, hv, h6⟩ := call_startListening_tracks h5 hj .s5 .s6 rfl rfl
  rw [listened_withSeq] at h6
  have hfull : ¬(s.isAt .s1 ∧ s.sh.extraPipes = numListeners) := by
    rw [sh_of_kept h.same]
    exact fun e => absurd e.2 hfree.ne
  refine ⟨v, (withListener_configReads ..) ▸ hv, _, _, ?_, h6.interlude⟩
  refine (if_neg hfull).trans ((h6.ret_eq .s6 rfl _).trans ?_)
  rw [h6.interlude.locals_eq]
  rfl

end

/-- The issue touches nothing that these steps use. -/
theorem joined_issued (node : Byte) (i : Instr) (s : State) :
    (s.issued i).joined node =
      { s.joined node with seq := (s.issued i).seq, host := (s.issued i).host } := rfl

/-- Settles O30: without a free slot the first micro-step returns; with one, the program leaves what
S1 to S4 and then startListening leave. -/
theorem listenToAddress : Obligations.ListenToAddress := by
  refine ⟨fun s node hr hfull => ?_, fun s node m hr hc hm hfree => ?_⟩
  · refine issue_retHere (v := fun _ => .tooManyPipes) hr.1 (fun _ => hr.2) ?_
    exact if_pos ⟨rfl, hfull⟩
  · intro k a out en x
    obtain ⟨v, hv, s', f', hp, ht⟩ := listenToAddress_tracks
      (issued_tracks hr hc (.listenToAddress node)) hc.admitted node (issued_seq hr _) hfree
    have hmask : s.mask = m := by simp [State.mask, hm]
    have hx : s.joined node = x := by
      simp only [State.joined, hmask, listenerReg_command hfree]
      rfl
    clear_value x
    subst hx
    rw [joined_issued, listened_frame] at ht
    obtain ⟨ho, hk, hn, hq⟩ := ht.ends (.slot k)
    refine ⟨v, hv, s'.give (.slot k), ?_, hk.trans ?_, hn, fun hs => hq hs, trivial⟩
    · refine (issue_ready hr.1.2 (fun _ => hr.2) rfl).trans ?_
      exact (congrArg State.outcome hp).trans ho
    · have hseq := (listened_seq v (s.joined node)).trans hr.1.2
      refine kept_ext rfl rfl rfl hseq.symm rfl ?_ rfl rfl rfl
      exact congrArg (fun g : HostSide => { g with result := .slot k })
        (listened_host v (s.joined node)).symm

end Sys2Proof.Machine
end

section
/-! Mode control (43_mode_control.md R230 to R237): setActive, isActive, stopListening and currentMode
up to their returns, and the five operations issued by the host. -/

namespace Sys2Proof.Machine

/-- An operation completes at `u` with the result `v` where its program, up to its return, leaves `u`
but for the frames and the host's side, which are the issue's. -/
theorem completes_of_returns {i : Instr} {p : State → State} {s s' u : State} {f : Frame}
    {v : Result} {seen : List BusEvent → Prop} (hr : s.Ready) (he : exec i s = s.issue i true true p)
    (hp : p (s.issued i) = s'.give v)
    (ht : Tracks s.Silent s' { u with seq := [f], host := (s.issued i).host })
    (hq : u.seq = s.seq) (hh : u.host = s.host) (hs : seen s'.busLog) :
    Completes i s { u with host.result := v } seen := by
  obtain ⟨ho, hk, hn, hc⟩ := ht.ends v
  refine ⟨s'.give v, ?_, hk.trans ?_, hn, hc, hs⟩
  · exact (he.trans (issue_ready hr.1.2 (fun _ => hr.2) rfl)).trans
      ((congrArg State.outcome hp).trans ho)
  · refine kept_ext rfl rfl rfl (hq.trans hr.1.2).symm rfl ?_ rfl rfl rfl
    exact congrArg (fun g : HostSide => { g with result := v }) hh.symm

/-! ## Values of CONFIG along the way -/

/-- What S1 of setActive writes: PWR_UP set or cleared, the other bits as they were read. -/
def activeByte (b : Bool) (v : Byte) : Byte := if b then withBits v pwrUp else withoutBits v pwrUp

/-- What S1 of stopListening writes: PWR_UP and PRIM_RX cleared, the other bits as they were read. -/
def stoppedByte (v : Byte) : Byte := withoutBits v (pwrUp ||| primRx)

theorem stoppedByte_pwrUp (v : Byte) : bit (stoppedByte v &&& 0x7F) 1 = false := by
  simp [bit, stoppedByte, withoutBits]

/-- S1 of startListening sets PWR_UP and PRIM_RX. -/
theorem listenedByte_bits (v : Byte) :
    bit ((v ||| 0x03) &&& 0x7F) 1 = true ∧ bit ((v ||| 0x03) &&& 0x7F) 0 = true := by
  simp [bit]

/-- A readback of CONFIG leaves EN_CRC open, never PWR_UP (10_state.md R24). -/
theorem configReads_pwrUp {c : Chip} {w : Byte} (hw : w ∈ c.configReads) :
    bit w 1 = bit c.config 1 := by
  obtain rfl | rfl := mem_configReads hw
  · rfl
  · simp [bit]

/-! ## What startListening leaves (R233, R235) -/

section
variable (v : Byte) (s : State)

/-- S3 writes pipe 0's address and no other part of the chip. -/
theorem pipe0Restored_config : s.pipe0Restored.chip.config = s.chip.config := by
  cases h : s.ownPipe0 with
  | none => rw [pipe0Restored_none h]
  | some a => rw [pipe0Restored_some h]

theorem listened_config : (s.listened v).chip.config = (v ||| 0x03) &&& 0x7F :=
  pipe0Restored_config _

theorem listened_chipMode : (s.listened v).chipMode = .rx := by
  obtain ⟨hup, hrx⟩ := listenedByte_bits v
  rw [← listened_config v s] at hup hrx
  simp [State.chipMode, Chip.pwrUp, Chip.primRx, hup, hrx, show (s.listened v).ce = true from rfl]

variable {s}

/-- Where the cache holds what pipe 0 does, S3 leaves the own address there. -/
theorem pipe0Restored_rxAddrP0 (hc : s.CacheInv) {o : Byte} (ho : s.sh.ownAddress = some o) :
    s.pipe0Restored.chip.rxAddrP0 = fullAddress o s.mask := by
  by_cases hcached : s.sh.rxP0Cache = some (fullAddress o s.mask)
  · have hown : s.ownPipe0 = none := by simp [State.ownPipe0, ho, hcached]
    rw [pipe0Restored_none hown]
    exact hc.2 _ hcached
  · have hown : s.ownPipe0 = some (fullAddress o s.mask) := by
      simp [State.ownPipe0, ho, hcached]
    rw [pipe0Restored_some hown]

theorem listened_rxAddrP0 (hc : s.CacheInv) {o : Byte} (ho : s.sh.ownAddress = some o) :
    (s.listened v).chip.rxAddrP0 = fullAddress o s.mask :=
  pipe0Restored_rxAddrP0 (by exact hc) (by exact ho)

end

/-! ## The programs up to their returns -/

section
variable {q : Prop} {s x : State} (h : Tracks q s x)
include h

/-- A read of a one-byte register into a local, which holds what the trace shows. -/
theorem Tracks.readInto_answered (l next : Label) (hl : x.isAt l = true) (a : Reg)
    (ha : a.width = 1) (put : Byte → Locals → Locals) {P : Byte → Prop} {f : Frame}
    {r : List Frame} (hx : x.seq = f :: r)
    (hP : ∀ y, Tracks q y x → P ((y.rRegister a).busIn.headD 0)) :
    ∃ w, (P w ∧ ∃ st, lastAnswer [regCommand 0b000 a, 0x00] (s.readInto l next a put).busLog =
        some (st, [w])) ∧
      Tracks q (s.readInto l next a put)
        { x with seq := ⟨f.op, next, put w f.locals⟩ :: r,
                 busLog := sends [regCommand 0b000 a, 0x00] :: x.busLog } := by
  have hout : regCommand 0b000 a :: List.replicate a.width 0 = [regCommand 0b000 a, 0x00] := by
    rw [ha]
    rfl
  refine h.micro_open (P := fun w log => P w ∧
      ∃ st, lastAnswer [regCommand 0b000 a, 0x00] log = some (st, [w])) (fun w => { x with
        seq := ⟨f.op, next, put w f.locals⟩ :: r,
        busLog := sends [regCommand 0b000 a, 0x00] :: x.busLog }) l next hl
    fun y hy => ⟨(y.rRegister a).busIn.headD 0, ⟨hP y hy, ?_⟩, ?_⟩
  · obtain ⟨st, hst⟩ := rRegister_lastAnswer a y hy.present_here
    obtain ⟨w, hw⟩ := List.length_eq_one_iff.mp ((readReg_length a y).trans ha)
    rw [hout] at hst
    refine ⟨st, ?_⟩
    rw [setLocals_busLog, hst, rRegister_busIn a y hy.present_here, hw]
    rfl
  · have h1 := ((hy.rRegister a).setLocals (put ((y.rRegister a).busIn.headD 0))).atLabel next
    rw [hout] at h1
    exact h1.of_eq (by simp [State.setLocals, State.atLabel, hx])

/-- Both micro-steps of a read-modify-write leave the flags that are set, unless it is STATUS that is
written (41_radio_core.md R197). -/
theorem Tracks.modify_flags (l next : Label) (hl : x.isAt l = true) (a : Reg) (ha : a ≠ .status)
    (g : Byte → Byte) {f : Frame} {r : List Frame} (hx : x.seq = f :: r) :
    s.chip.FlagsIn (s.modify l next a g).chip := by
  obtain ⟨w, -, h1⟩ := h.readInto (P := fun _ => True) l l.succ hl a
    (fun x o => { o with v := x }) hx fun _ _ => trivial
  have e1 := h.micro_chip l l.succ hl fun s =>
    let s := s.rRegister a
    s.setLocals fun o => { o with v := s.busIn.headD 0 }
  have e2 := h1.micro_chip l.succ next (by simp [State.isAt]) fun s =>
    s.wRegister a [g s.locals.v]
  simp only [setLocals_chip, rRegister_chip a _ h.interlude.present_here] at e1
  rw [wRegister_chip a _ _ h1.interlude.present_here] at e2
  have f1 := interlude_flags h.noResets
  have f2 := interlude_flags h1.noResets
  rw [← e1] at f1
  exact e2 ▸ (flagsIn_durable s.chip).write _ a _ _ ha (f1.trans f2)

variable {op : Instr} {o : Locals} {r : List Frame} (hx : x.seq = ⟨op, .s1, o⟩ :: r)
include hx

/-- setActive (R230). -/
theorem setActive_tracks (ha : x.chip.Admitted) (b : Bool) :
    ∃ v ∈ x.chip.configReads, ∃ s' f', setActiveProgram b s = s'.give .none ∧
      Tracks q s' { x with
        seq := f' :: r, chip.config := activeByte b v &&& 0x7F, now := x.now + tActivate,
        busLog := sends [0x20, activeByte b v] :: sends [0x00, 0x00] :: x.busLog } := by
  obtain ⟨v, hv, h1⟩ := h.modify (P := (· ∈ x.chip.configReads)) .s1 .s2
    (by simp [State.isAt, hx]) .config (activeByte b) hx (fun y hy => hy.read_config)
    fun _ _ => .inl ha
  have h2 := h1.delay .s2 .s3 rfl tActivate
  exact ⟨v, hv, _, ⟨op, .s3, { o with v := v }⟩, h2.ret_eq .s3 rfl _, h2.interlude⟩

/-- isActive (R231): PWR_UP of the CONFIG that is read is the chip's. -/
theorem isActive_tracks :
    ∃ s' f', isActiveProgram s = s'.give (.bool (bit x.chip.config 1)) ∧
      Tracks q s' { x with seq := f' :: r, busLog := sends [0x00, 0x00] :: x.busLog } := by
  obtain ⟨w, hw, h1⟩ := h.readInto (P := (· ∈ x.chip.configReads)) .s1 .s2
    (by simp [State.isAt, hx]) .config (fun x o => { o with v := x }) hx
    fun y hy => hy.read_config
  refine ⟨_, ⟨op, .s2, { o with v := w }⟩, ?_, h1.interlude⟩
  rw [← configReads_pwrUp hw]
  refine (h1.ret_eq .s2 rfl _).trans ?_
  rw [h1.interlude.locals_eq]
  rfl

/-- S1 of stopListening: power-down. -/
theorem stopListening_down_tracks :
    ∃ v ∈ x.chip.configReads,
      Tracks q (s.clearBits .s1 .s2 .config (pwrUp ||| primRx)) { x with
        seq := ⟨op, .s2, { o with v := v }⟩ :: r, chip.config := stoppedByte v &&& 0x7F,
        busLog := sends [0x20, stoppedByte v] :: sends [0x00, 0x00] :: x.busLog } :=
  h.modify (P := (· ∈ x.chip.configReads)) .s1 .s2 (by simp [State.isAt, hx]) .config stoppedByte
    hx (fun y hy => hy.read_config) fun v _ => .inr (stoppedByte_pwrUp v)

/-- stopListening (R234). -/
theorem stopListening_tracks :
    ∃ v ∈ x.chip.configReads, ∃ s' f', stopListeningProgram s = s'.give .none ∧
      Tracks q s' { x with
        seq := f' :: r,
        chip := ({ x.chip with config := stoppedByte v &&& 0x7F } : Chip).flushed,
        ce := false, sh.listening := false,
        busLog := sends [0xE1] :: sends [0xE2] :: .ce false :: sends [0x20, stoppedByte v] ::
          sends [0x00, 0x00] :: x.busLog } := by
  obtain ⟨v, hv, h1⟩ := stopListening_down_tracks h hx
  have h2 := h1.micro .s2 .s3 rfl fun y hy => hy.setCe false
  have h3 := h2.flushBoth .s3 .s4 rfl rfl
  exact ⟨v, hv, _, ⟨op, .s4, { o with v := v }⟩, h3.finish_eq .s4 rfl _,
    h3.interlude.onShadow fun h => { h with listening := false }⟩

/-- S1 of stopListening leaves the chip powered down, with the flags set that were. -/
theorem stopListening_down_asleep :
    (s.clearBits .s1 .s2 .config (pwrUp ||| primRx)).Asleep (s.chip.FlagsIn ·) := by
  obtain ⟨v, -, h1⟩ := stopListening_down_tracks h hx
  have hconfig := config_of_steady (chip_of_kept h1.same)
  exact ⟨h1.noResets, h1.present_here, (congrArg (bit · 1) hconfig).trans (stoppedByte_pwrUp v),
    h.modify_flags .s1 .s2 (by simp [State.isAt, hx]) .config (by decide) stoppedByte hx⟩

/-- When stopListening returns, the flags that were set are set, and nothing has refilled a FIFO since
the flush. -/
theorem stopListening_asleep :
    (stopListeningProgram s).Asleep fun c => s.chip.FlagsIn c ∧ c.txf = [] ∧ c.rxf = [] := by
  have D := flagsIn_durable s.chip
  obtain ⟨v, -, h1⟩ := stopListening_down_tracks h hx
  have h2 := h1.micro .s2 .s3 rfl fun y hy => hy.setCe false
  have hlow := (stopListening_down_asleep h hx).micro_same D .s2 .s3 (f := State.setCe false)
    fun _ => ⟨rfl, rfl, rfl⟩
  exact (flushBoth_asleep D h2 .s3 .s4 rfl rfl hlow).finish (flushed_durable D) .s4 _

/-- currentMode (R237): the mode of the two values read and of CE. -/
theorem currentMode_tracks :
    ∃ v ∈ x.chip.configReads, ∃ fs, (q → fs = x.chip.fifoStatus) ∧ ∃ s' f',
      (∃ st, lastAnswer [0x17, 0x00] s'.busLog = some (st, [fs])) ∧
      currentModeProgram s = s'.give (.mode (deriveMode x.params.pdCheckQuirk v x.ce fs)) ∧
      Tracks q s' { x with
        seq := f' :: r, busLog := sends [0x17, 0x00] :: sends [0x00, 0x00] :: x.busLog } := by
  obtain ⟨v, hv, h1⟩ := h.readInto (P := (· ∈ x.chip.configReads)) .s1 .s2
    (by simp [State.isAt, hx]) .config (fun x o => { o with cfg := x }) hx
    fun y hy => hy.read_config
  have h2 := h1.micro_at { x with
      seq := ⟨op, .s3, { o with cfg := v, ce := x.ce }⟩ :: r,
      busLog := sends [0x00, 0x00] :: x.busLog } .s2 .s3 rfl
    (e := fun s => s.setLocals fun o => { o with ce := s.ce })
    fun y hy => by
      rw [ce_of_kept hy.same]
      exact hy.setLocals fun o => { o with ce := x.ce }
  obtain ⟨fs, ⟨hfs, st, hlog⟩, h3⟩ := h2.readInto_answered
    (P := fun w => q → w = x.chip.fifoStatus) .s3 .s4 rfl .fifoStatus rfl
    (fun x o => { o with fs := x }) rfl fun y hy hq => by
      rw [rRegister_busIn _ _ hy.present_here]
      exact congrArg Chip.fifoStatus (hy.silent hq).2.2
  refine ⟨v, hv, fs, hfs, _, ⟨op, .s4, { o with cfg := v, ce := x.ce, fs := fs }⟩, ⟨st, ?_⟩,
    (h3.ret_eq .s4 rfl _).trans ?_, h3.interlude⟩
  · rw [interlude_busLog]
    exact hlog
  · rw [h3.interlude.locals_eq, h3.interlude.params_eq]
    rfl

end

/-! ## Issued by the host -/

/-- Settles O31, from what the program leaves up to its return. -/
theorem setActive : Obligations.SetActive := by
  intro s b hr hc
  obtain ⟨v, hv, s', f', hp, ht⟩ :=
    setActive_tracks (issued_tracks hr hc (.setActive b)) (issued_seq hr _) hc.admitted b
  exact ⟨v, hv, completes_of_returns (u := { s with
    chip.config := activeByte b v &&& 0x7F, now := s.now + 1500,
    busLog := sends [0x20, activeByte b v] :: sends [0x00, 0x00] :: s.busLog })
    hr rfl hp ht rfl rfl trivial⟩

/-- Settles O32: the program leaves `listened`, which is in mode RX and has pipe 0 back at the own
address. -/
theorem startListening : Obligations.StartListening := by
  intro s m hr hc hm
  obtain ⟨v, hv, s', f', hp, ht⟩ :=
    startListening_tracks (issued_tracks hr hc .startListening) hc.admitted (issued_seq hr _)
  have hissue : (s.issued .startListening).listened v = { s.listened v with
      seq := (s.issued .startListening).seq, host := (s.issued .startListening).host } :=
    listened_frame v s _ _
  rw [hissue] at ht
  refine ⟨v, hv, completes_of_returns hr rfl hp ht (listened_seq v s) (listened_host v s) trivial,
    listened_chipMode v s, fun hcache o ho => ?_⟩
  have hmask : s.mask = m := by simp [State.mask, hm]
  rw [← hmask]
  exact listened_rxAddrP0 v hcache ho

/-- Settles O33: the program leaves what R234 says, and the chip it has powered down at S1 keeps the
flags and the empty FIFOs in every environment that resets nothing. -/
theorem stopListening : Obligations.StopListening := by
  intro s hr hc
  have h := issued_tracks hr hc .stopListening
  obtain ⟨v, hv, s', f', hp, ht⟩ := stopListening_tracks h (issued_seq hr _)
  refine ⟨v, hv, completes_of_returns (u := { s with
      chip := ({ s.chip with config := stoppedByte v &&& 0x7F } : Chip).flushed,
      ce := false, sh.listening := false,
      busLog := sends [0xE1] :: sends [0xE2] :: .ce false :: sends [0x20, stoppedByte v] ::
        sends [0x00, 0x00] :: s.busLog }) hr rfl hp ht rfl rfl trivial,
    chipMode_asleep (stoppedByte_pwrUp v), fun t he => ?_⟩
  obtain ⟨-, rfl⟩ := issue_next (show execStopListening s = _ from he)
  have hasleep := stopListening_asleep h (issued_seq hr _)
  obtain ⟨⟨hrx, htx, hmax⟩, htxf, hrxf⟩ := hasleep.holds
  exact ⟨hasleep.mode, htxf, hrxf, hrx, htx, hmax⟩

/-- Settles O34: each program's result is read off its locals at its return. -/
theorem modeQueries : Obligations.ModeQueries := by
  intro s hr hc
  constructor
  · obtain ⟨s', f', hp, ht⟩ := isActive_tracks (issued_tracks hr hc .isActive) (issued_seq hr _)
    exact completes_of_returns (u := { s with busLog := sends [0x00, 0x00] :: s.busLog })
      hr rfl hp ht rfl rfl trivial
  · obtain ⟨v, hv, fs, hfs, s', f', hlog, hp, ht⟩ :=
      currentMode_tracks (issued_tracks hr hc .currentMode) (issued_seq hr _)
    exact ⟨v, hv, fs, hfs, completes_of_returns
      (u := { s with busLog := sends [0x17, 0x00] :: sends [0x00, 0x00] :: s.busLog })
      hr rfl hp ht rfl rfl hlog⟩

end Sys2Proof.Machine
end

section
/-! The transmit engine (44_transmit.md R250 to R268): what transmit leaves of the fields it does not
write, send, broadcast and sendAndAwaitResponse up to their returns, and the four operations issued by
the host. -/

namespace Sys2Proof.Machine

variable {q : Prop}

/-! ## What transmit leaves -/

theorem pipe0Restored_settings (s : State) : s.pipe0Restored.sh.settings = s.sh.settings := by
  cases h : s.ownPipe0 with
  | none => rw [pipe0Restored_none h]
  | some a => rw [pipe0Restored_some h]

theorem listened_settings (v : Byte) (s : State) :
    (s.listened v).sh.settings = s.sh.settings := pipe0Restored_settings _

theorem restored_settings (b : Bool) (v : Byte) (s : State) :
    (s.restored b v).sh.settings = s.sh.settings := by
  unfold State.restored
  split
  · rfl
  · split
    · exact listened_settings v s
    · rfl

theorem loaded_txDs (d : List Byte) (ack : Bool) (c : Chip) : (c.loaded d ack).txDs = c.txDs := by
  unfold Chip.loaded Chip.pushTx
  repeat' split
  all_goals rfl

/-- S4 of transmit clears TX_DS, and nothing up to S8 sets it (R253). -/
theorem triggered_txDs (cfg : Byte) (p : List Byte) (ack : Bool) (s : State) :
    (s.triggered cfg p ack).chip.txDs = false := loaded_txDs ..

section
variable {s u : State} {target : Byte} {payload : List Byte} {ack ok : Bool}
  {log log' : List BusEvent} (h : s.Transmits target payload ack ok u log)
include h

theorem transmits_seq : u.seq = s.seq := by
  obtain ⟨-, -, rfl⟩ | ⟨-, cfg, v, st, polls, earlier, -, -, -, -, -, -, -, rfl⟩ := h
  · rfl
  · rw [restored_seq]
    exact (congrArg State.seq (addressed_cases (fullAddress target s.mask) ack s) :)

theorem transmits_settings : u.sh.settings = s.sh.settings := by
  obtain ⟨-, -, rfl⟩ | ⟨-, cfg, v, st, polls, earlier, -, -, -, -, -, -, -, rfl⟩ := h
  · rfl
  · rw [restored_settings]
    exact (congrArg Shadow.settings (addressed_sh (fullAddress target s.mask) ack s) :)

/-- In a silent environment no attempt sets TX_DS, and the poll ends with the watchdog. -/
theorem transmits_silent (hs : s.Silent) : ok = false := by
  obtain ⟨-, hok, -⟩ | ⟨-, cfg, v, st, polls, earlier, -, -, hst, hok, -⟩ := h
  · exact hok
  · rw [hok, hst hs, bit_status_txDs, triggered_txDs]

/-- Of the trace, transmit is about the NOPs only. -/
theorem transmits_of_statuses (hl : statusesOf [0xFF] log' = statusesOf [0xFF] log) :
    s.Transmits target payload ack ok u log' := by
  unfold State.Transmits
  rw [hl]
  exact h

end

/-! ## From the issue to the answer -/

/-- The state a program starts from, written out. -/
theorem issued_eq {s : State} (hr : s.Ready) (i : Instr) :
    s.issued i = { s with seq := [⟨i, .s1, .fresh⟩], host := { s.host with result := .none } } := by
  simp [State.issued, State.push, hr.1.2]

/-- The program starts from `s` but for the frames and the host's side. -/
theorem issued_tracks_from {s : State} (hr : s.Ready) (hc : s.Calm) (i : Instr) :
    Tracks s.Silent (s.issued i)
      { s with seq := [⟨i, .s1, .fresh⟩], host := { s.host with result := .none } } :=
  (issued_tracks hr hc i).of_eq (issued_eq hr i)

/-- What an operation answers whose program, up to its return of `v`, leaves `w` but for the frames and
the result. -/
theorem answers_of_returns {i : Instr} {p : State → State} {s s' w : State} {f : Frame}
    {v : Result} (hr : s.Ready) (he : exec i s = s.issue i true true p)
    (hp : p (s.issued i) = s'.give v)
    (ht : Tracks s.Silent s' { w with seq := [f], host := { w.host with result := .none } })
    (hq : w.seq = []) :
    exec i s = .next (s'.give v) ∧
      (s'.give v).kept = ({ w with host.result := v } : State).kept ∧ w.now ≤ (s'.give v).now ∧
      (s.Silent → (s'.give v).chip = w.chip) := by
  obtain ⟨ho, hk, hn, hc⟩ := ht.ends v
  refine ⟨?_, hk.trans ?_, hn, hc⟩
  · exact (he.trans (issue_ready hr.1.2 (fun _ => hr.2) rfl)).trans
      ((congrArg State.outcome hp).trans ho)
  · exact kept_ext rfl rfl rfl hq.symm rfl rfl rfl rfl rfl

/-! ## send (R262, R263) -/

/-- send, from a state `y` but for the frames and the host's side, up to its return: with `wantCount`
it has read OBSERVE_TX. -/
theorem send_tracks {s y : State} {op : Instr} {o : Locals} {r : List Frame} {g : HostSide}
    (h : Tracks q s { y with seq := ⟨op, .s1, o⟩ :: r, host := g }) (hq : y.Silent → q)
    (ha : y.chip.Admitted) (target : Byte) (payload : List Byte) (wantCount : Bool) :
    ∃ (ok : Bool) (u : State) (c : Byte) (s' : State) (f' : Frame),
      y.Transmits target payload y.sh.settings.ackEnabled ok u s'.busLog ∧
      sendProgram target payload wantCount s =
        s'.give (.sent ok (if wantCount then some (c &&& 0x0F) else none)) ∧
      Tracks q s' { u with
        seq := f' :: r, host := g,
        busLog := if wantCount then sends [0x08, 0x00] :: u.busLog else u.busLog } ∧
      (wantCount = true → (q → c = u.chip.observeTx) ∧
        ∃ st, lastAnswer [0x08, 0x00] s'.busLog = some (st, [c])) := by
  obtain ⟨ok, u, hm, h1⟩ := calledTransmit_tracks h hq ha Label.s1.succ target payload
    y.sh.settings.ackEnabled
  have h2 := h1.micro Label.s1.succ .s2 rfl fun z hz =>
    hz.setLocals fun o => { o with ok := o.got.isTrue }
  have hack : s.sh.settings.ackEnabled = y.sh.settings.ackEnabled := by
    rw [sh_of_kept h.same]
  unfold sendProgram
  rw [hack]
  dsimp only
  cases wantCount with
  | false =>
    have h3 := h2.micro .s2 .s3 rfl (f := id) fun z hz => hz
    refine ⟨ok, u, 0, _, _, ?_, (h3.ret_eq .s3 rfl _).trans ?_, h3.interlude, nofun⟩
    · rw [interlude_busLog, micro_busLog (f := id) fun _ => rfl, micro_busLog (by simp)]
      exact hm
    · rw [h3.interlude.locals_eq]
      rfl
  | true =>
    obtain ⟨c, ⟨hc, hlog⟩, h3⟩ := h2.readInto_answered (P := fun c => q → c = u.chip.observeTx)
      .s2 .s3 rfl .observeTx rfl (fun x o => { o with c := x &&& 0x0F }) rfl fun z hz hq => by
        rw [rRegister_busIn _ _ hz.present_here]
        exact congrArg Chip.observeTx (hz.silent hq).2.2
    refine ⟨ok, u, c, _, _, transmits_of_statuses hm ?_, (h3.ret_eq .s3 rfl _).trans ?_,
      h3.interlude, fun _ => ⟨hc, ?_⟩⟩
    · rw [interlude_busLog, statusesOf_addsTo (adds_readInto (by decide) _),
        micro_busLog (by simp)]
    · rw [h3.interlude.locals_eq]
      rfl
    · rw [interlude_busLog]
      exact hlog

/-! ## broadcast (R268) -/

/-- broadcast up to its return: transmit to the own address, without acknowledgment. -/
theorem broadcast_tracks {s y : State} {op : Instr} {o : Locals} {r : List Frame} {g : HostSide}
    (h : Tracks q s { y with seq := ⟨op, .s1, o⟩ :: r, host := g }) (hq : y.Silent → q)
    (ha : y.chip.Admitted) {own : Byte} (hown : y.sh.ownAddress = some own)
    (payload : List Byte) :
    ∃ (ok : Bool) (u s' : State) (f' : Frame),
      y.Transmits own payload false ok u s'.busLog ∧
      broadcastProgram payload s = s'.give (.bool ok) ∧
      Tracks q s' { u with seq := f' :: r, host := g } := by
  have h1 := h.micro .s1 .s2 rfl (f := id) fun z hz => hz
  obtain ⟨ok, u, hm, h2⟩ := calledTransmit_tracks (y := y) h1 hq ha .s3 own payload false
  have hs : s.sh.ownAddress = some own := by rw [sh_of_kept h.same]; exact hown
  refine ⟨ok, u, _, _, ?_, ?_, h2.interlude⟩
  · rw [interlude_busLog]
    exact hm
  · simp only [broadcastProgram, hs]
    rw [h2.ret_eq .s3 rfl, h2.interlude.locals_eq]
    rfl

/-! ## sendAndAwaitResponse (R264 to R266) -/

/-- S7 and S8: the response is read and reported. -/
def receiveResponse (s : State) : State :=
  ((s.call .s7 Label.s7.succ (.read sarCapacity) (readProgram .respBuf sarCapacity)).micro
    Label.s7.succ .s8 fun s => s.setLocals fun o => { o with n := o.got.countOf }).ret .s8
    fun s => .received s.locals.n

/-- S3 to S8: what follows on send. -/
def awaitResponse (s : State) : State :=
  if s.isAt .s3 ∧ !s.locals.ok then s.ret .s3 fun _ => .sendFailed
  else
    let s := s.micro .s3 .s4 id
    if s.isAt .s4 ∧ !s.sh.settings.ackEnabled then s.ret .s4 fun _ => .sentNoPayload
    else
      let s := (s.micro .s4 .s5 id).statusInto .s5 .s6
      if s.isAt .s6 ∧ !statusRxDr s.locals.st then s.ret .s6 fun _ => .sentNoPayload
      else receiveResponse (s.micro .s6 .s7 id)

theorem sendAndAwaitResponseProgram_eq (target : Byte) (payload : List Byte) (s : State) :
    sendAndAwaitResponseProgram target payload s =
      awaitResponse (((s.micro .s1 .s2 State.flushRx).call .s2 Label.s2.succ
        (.send target payload false) (sendProgram target payload false)).micro Label.s2.succ .s3
        fun s => s.setLocals fun o => { o with ok := o.got.isTrue }) := rfl

/-- The result of sendAndAwaitResponse and the state it leaves, where transmit has left `u` with the
result `ok`, `ack` is the driver-wide setting, and `log` the trace (R264 to R266). -/
inductive AwaitEnds (ack ok : Bool) (u : State) (log : List BusEvent) : Result → State → Prop
  | failed : ok = false → AwaitEnds ack ok u log .sendFailed u
  | unasked : ok = true → ack = false → AwaitEnds ack ok u log .sentNoPayload u
  | unanswered (st : Byte) (inn : List Byte) : ok = true → ack = true →
      lastAnswer [0xFF] log = some (st, inn) → bit st 6 = false →
      AwaitEnds ack ok u log .sentNoPayload { u with busLog := sends [0xFF] :: u.busLog }
  | answered (st : Byte) (inn d : List Byte) (c : Chip) : ok = true → ack = true →
      lastAnswer [0xFF] log = some (st, inn) → bit st 6 = true → ReadAnswered sarCapacity d log →
      c.steady = ({ u.chip with rxCorrupt := c.rxCorrupt } : Chip).steady →
      AwaitEnds ack ok u log (.received d.length)
        (({ u with busLog := sends [0xFF] :: u.busLog } : State).hasRead .respBuf d c)

section
variable {ack ok : Bool} {u w : State} {log : List BusEvent} {v : Result}
  (h : AwaitEnds ack ok u log v w)
include h

theorem AwaitEnds.seq_eq : w.seq = u.seq := by cases h <;> rfl

theorem AwaitEnds.now_eq : w.now = u.now := by cases h <;> rfl

theorem AwaitEnds.eq_of_failed (hok : ok = false) : w = u := by cases h <;> simp_all

end

theorem adds_receiveResponse {P : List Byte → Prop} (h1 : P [0x60, 0x00])
    (h2 : ∀ n, P (0x61 :: List.replicate n 0)) (h3 : P [0x27, 0x40]) : Adds P receiveResponse :=
  fun s => ((adds_read h1 h2 h3).call .s7 Label.s7.succ _ s).trans <|
    ((adds_setLocals _).micro Label.s7.succ .s8 _).trans (adds_ret .s8 _ _)

/-- The trace is only added to. -/
theorem adds_awaitResponse : Adds (fun _ => True) awaitResponse := by
  intro s
  unfold awaitResponse
  dsimp only
  split
  · exact adds_ret .s3 _ s
  · refine (adds_id.micro .s3 .s4 s).trans ?_
    split
    · exact adds_ret .s4 _ _
    · refine ((adds_id.micro .s4 .s5 _).trans
        (adds_statusInto (l := .s5) (next := .s6) trivial _)).trans ?_
      split
      · exact adds_ret .s6 _ _
      · exact (adds_id.micro .s6 .s7 _).trans
          (adds_receiveResponse trivial (fun _ => trivial) trivial _)

theorem AddsTo.suffix {P : List Byte → Prop} {s t : State} (h : AddsTo P s t) :
    s.busLog <:+ t.busLog := by
  obtain ⟨new, e, -⟩ := h
  exact ⟨new, e.symm⟩

theorem awaitResponse_suffix {s s' : State} {v : Result} (he : awaitResponse s = s'.give v) :
    s.busLog <:+ s'.busLog := by
  have hs := (adds_awaitResponse s).suffix
  rw [he] at hs
  exact hs

/-- The program's S7 and S8 up to its return, the probe's answer still the newest to a NOP. -/
theorem receiveResponse_tracks {s x : State} (h : Tracks q s x) {op : Instr} {o : Locals}
    {r : List Frame} (hx : x.seq = ⟨op, .s7, o⟩ :: r) :
    ∃ d c s' f', c.steady = ({ x.chip with rxCorrupt := c.rxCorrupt } : Chip).steady ∧
      ReadAnswered sarCapacity d s'.busLog ∧
      lastAnswer [0xFF] s'.busLog = lastAnswer [0xFF] s.busLog ∧
      receiveResponse s = s'.give (.received d.length) ∧
      Tracks q s' { x.hasRead .respBuf d c with seq := f' :: r } := by
  obtain ⟨d, c, -, hc, -, hlog, h1⟩ :=
    calledRead_tracks h .s7 Label.s7.succ .respBuf sarCapacity hx
  have h2 := h1.micro Label.s7.succ .s8 rfl fun y hy =>
    hy.setLocals fun o => { o with n := o.got.countOf }
  have hret : receiveResponse s = State.give (.received d.length) _ :=
    (h2.ret_eq .s8 rfl _).trans (by rw [h2.interlude.locals_eq]; rfl)
  refine ⟨d, c, _, _, hc, ?_, ?_, hret, h2.interlude⟩
  · rw [interlude_busLog, micro_busLog (by simp)]
    exact hlog
  · have e := lastAnswer_addsTo (adds_receiveResponse (P := (· ≠ [0xFF])) (by decide) (by simp)
      (by decide) s)
    rw [hret] at e
    exact e

/-- S3 to S8 up to the return. -/
theorem awaitResponse_tracks {s u : State} {op : Instr} {o : Locals} {r : List Frame}
    (h : Tracks q s { u with
      seq := ⟨op, .s3, o⟩ :: r, host := { u.host with result := .none } }) :
    ∃ v w s' f', AwaitEnds u.sh.settings.ackEnabled o.ok u s'.busLog v w ∧
      awaitResponse s = s'.give v ∧
      Tracks q s' { w with seq := f' :: r, host := { w.host with result := .none } } := by
  unfold awaitResponse
  dsimp only
  rw [h.isAt_eq, h.locals_eq]
  cases hok : o.ok with
  | false =>
    rw [if_pos ⟨rfl, by simp [State.locals, hok]⟩]
    exact ⟨_, u, _, _, .failed rfl, h.ret_eq .s3 rfl _, h.interlude⟩
  | true =>
    rw [if_neg (by simp [State.locals, hok])]
    have h4 := h.micro .s3 .s4 rfl (f := id) fun y hy => hy
    rw [h4.isAt_eq, sh_of_kept h4.same]
    cases hack : u.sh.settings.ackEnabled with
    | false =>
      rw [if_pos ⟨rfl, by simp [hack]⟩]
      exact ⟨_, u, _, _, .unasked rfl rfl, h4.ret_eq .s4 rfl _, h4.interlude⟩
    | true =>
      rw [if_neg (by simp [hack])]
      have h5 := h4.micro .s4 .s5 rfl (f := id) fun y hy => hy
      obtain ⟨st, ⟨inn, hst⟩, -, -, h6⟩ := statusInto_tracks h5 .s5 .s6 rfl rfl
      rw [h6.isAt_eq, h6.locals_eq]
      cases hdr : bit st 6 with
      | false =>
        rw [if_pos ⟨rfl, by simp [State.locals, statusRxDr, hdr]⟩]
        refine ⟨_, _, _, _, .unanswered st inn rfl rfl ?_ hdr, h6.ret_eq .s6 rfl _, h6.interlude⟩
        rw [interlude_busLog]
        exact hst
      | true =>
        rw [if_neg (by simp [State.locals, statusRxDr, hdr])]
        have h7 := h6.micro .s6 .s7 rfl (f := id) fun y hy => hy
        obtain ⟨d, c, s', f', hc, hlog, hnop, he, h8⟩ := receiveResponse_tracks h7 rfl
        refine ⟨_, _, s', f', .answered st inn d c rfl rfl ?_ hdr hlog hc, he, h8⟩
        rw [hnop, micro_busLog (f := id) fun _ => rfl]
        exact hst

/-- The chip and the trace after S1 of sendAndAwaitResponse. -/
def State.rxFlushed (s : State) : State :=
  { s with
    chip := { s.chip with rxf := [], rxCorrupt := false }, busLog := sends [0xE2] :: s.busLog }

/-- The program up to its return; `log` is the trace as send returns. -/
theorem sendAndAwaitResponse_awaits {s y : State} {op : Instr} {o : Locals} {r : List Frame}
    (h : Tracks q s { y with
      seq := ⟨op, .s1, o⟩ :: r, host := { y.host with result := .none } })
    (hq : y.Silent → q) (ha : y.chip.Admitted) (target : Byte) (payload : List Byte) :
    ∃ (ok : Bool) (u : State) (log : List BusEvent) (v : Result) (w s' : State) (f' : Frame),
      y.rxFlushed.Transmits target payload y.sh.settings.ackEnabled ok u log ∧
      log <:+ s'.busLog ∧ log.map BusEvent.outgoing = u.busLog.map BusEvent.outgoing ∧
      AwaitEnds y.sh.settings.ackEnabled ok u s'.busLog v w ∧
      sendAndAwaitResponseProgram target payload s = s'.give v ∧
      Tracks q s' { w with seq := f' :: r, host := { w.host with result := .none } } := by
  have h1 := h.micro .s1 .s2 rfl fun z hz => hz.flushRx
  obtain ⟨ok, u, hm, h2⟩ :=
    calledSend_tracks (y := y.rxFlushed) h1 hq ha Label.s2.succ target payload
  have hhost : y.host = u.host := ((transmits_host hm).symm :)
  have hset : u.sh.settings = y.sh.settings := (transmits_settings hm :)
  rw [hhost] at h2
  have h3 := h2.micro Label.s2.succ .s3 rfl fun z hz =>
    hz.setLocals fun o => { o with ok := o.got.isTrue }
  obtain ⟨v, w, s', f', hends, he, h4⟩ := awaitResponse_tracks (u := u) h3
  rw [hset] at hends
  refine ⟨ok, u, _, v, w, s', f', hm, ?_, (sent_of_kept h2.same :), hends,
    (sendAndAwaitResponseProgram_eq target payload s).trans he, h4⟩
  have hsuf := awaitResponse_suffix he
  rw [micro_busLog (by simp)] at hsuf
  exact hsuf

/-! ## Issued by the host -/

/-- Settles O35: an empty payload returns in the first micro-step; otherwise from what transmit returns
to any caller. -/
theorem transmit : Obligations.Transmit := by
  refine ⟨fun s target ack hr => issue_retHere (p := transmitProgram target [] ack)
      (v := fun _ => .bool false) hr.1 (fun _ => hr.2) (if_pos rfl),
    fun s target payload ack m hr hc _ => ?_⟩
  obtain ⟨ok, u, s', f', hp, ht, hseq, hhost, hm⟩ :=
    transmit_returns (y := s) (issued_tracks_from hr hc (.transmit target payload ack)) id hc.admitted
      target payload ack
  obtain ⟨t, he, hk, hn, hchip, hlog⟩ := completes_of_returns hr rfl hp ht hseq hhost hm
  exact ⟨t, ok, u, he, hlog, hk, hn, hchip⟩

/-- Settles O36, from send up to its return. -/
theorem send : Obligations.Send := by
  intro s target payload wantCount m hr hc _
  obtain ⟨ok, u, c, s', f', hm, hp, ht, hcount⟩ :=
    send_tracks (y := s) (issued_tracks_from hr hc (.send target payload wantCount)) id hc.admitted
      target payload wantCount
  obtain ⟨t, he, hk, hn, hchip, hlog, hcount⟩ := completes_of_returns
    (u := { u with busLog := if wantCount then sends [0x08, 0x00] :: u.busLog else u.busLog })
    (seen := fun log => s.Transmits target payload s.sh.settings.ackEnabled ok u log ∧
      (wantCount = true → (s.Silent → c = u.chip.observeTx) ∧
        ∃ st, lastAnswer [0x08, 0x00] log = some (st, [c])))
    hr rfl hp ht (transmits_seq hm :) (transmits_host hm :) ⟨hm, hcount⟩
  refine ⟨t, ok, u, he, hlog, ?_, hn, hchip⟩
  cases wantCount with
  | false => exact hk
  | true =>
    obtain ⟨hsilent, st, hst⟩ := hcount rfl
    exact ⟨st, c, hst, hsilent, hk⟩

/-- Settles O37, from sendAndAwaitResponse up to its return, by the four ways it ends. -/
theorem sendAndAwaitResponse : Obligations.SendAndAwaitResponse := by
  intro s target payload m hr hc _ x
  obtain ⟨ok, u, log, v, w, s', f', hm, hsuf, hout, hends, hp, ht⟩ :=
    sendAndAwaitResponse_awaits (y := s)
      (issued_tracks_from hr hc (.sendAndAwaitResponse target payload)) id hc.admitted target payload
  have hseq : w.seq = [] := (hends.seq_eq.trans (transmits_seq hm)).trans hr.1.2
  obtain ⟨he, hk, hn, hchip⟩ := answers_of_returns hr rfl hp ht hseq
  refine ⟨s'.give v, ok, u, log, he, hm, hsuf, hout, hends.now_eq ▸ hn, fun hs => ?_, ?_⟩
  · have hok : ok = false := transmits_silent hm hs
    exact ⟨hok, (hchip hs).trans (congrArg State.chip (hends.eq_of_failed hok))⟩
  · cases hends with
    | failed hok => rw [if_pos hok]; exact hk
    | unasked hok hack =>
      rw [if_neg (by simp [hok]), if_pos hack]
      exact hk
    | unanswered st inn hok hack hst hdr =>
      rw [if_neg (by simp [hok]), if_neg (by simp [hack])]
      refine ⟨st, inn, hst, ?_⟩
      rw [if_pos hdr]
      exact hk
    | answered st inn d c hok hack hst hdr hread hsteady =>
      rw [if_neg (by simp [hok]), if_neg (by simp [hack])]
      refine ⟨st, inn, hst, ?_⟩
      rw [if_neg (by simp [hdr])]
      exact ⟨d, c, hread, hsteady, hk⟩

/-- Settles O38: without an own address the first micro-step raises the fault; with one, from broadcast
up to its return. -/
theorem broadcast : Obligations.Broadcast := by
  refine ⟨fun s payload hr hown => ?_, fun s own payload m hr hc _ hown => ?_⟩
  · have hrun : (s.issued (.broadcast payload)).stopped = false :=
      stopped_eq_false.mpr ⟨hr.1.1, by simp [State.issued]⟩
    have hraise : broadcastProgram payload (s.issued (.broadcast payload)) =
        (s.issued (.broadcast payload)).raise .ownAddressUnset := by
      have hown' : (s.issued (.broadcast payload)).sh.ownAddress = none := hown
      simp only [broadcastProgram, hown']
      exact here_eq hrun rfl _
    exact (issue_ready hr.1.2 (fun _ => hr.2) rfl).trans (congrArg State.outcome hraise)
  · obtain ⟨ok, u, s', f', hm, hp, ht⟩ :=
      broadcast_tracks (y := s) (issued_tracks_from hr hc (.broadcast payload)) id hc.admitted hown
        payload
    obtain ⟨t, he, hk, hn, hchip, hlog⟩ :=
      completes_of_returns hr rfl hp ht (transmits_seq hm) (transmits_host hm) hm
    exact ⟨t, ok, u, he, hlog, hk, hn, hchip⟩

end Sys2Proof.Machine
end

section
/-! Reception and the acknowledgment queue (45_receive_ackq.md R280 to R290): available and
queueResponse up to their returns, and the four operations issued by the host. -/

namespace Sys2Proof.Machine

variable {q : Prop}

/-- An operation completes at `w` with the result `v` where its program, up to its return of `v`,
leaves `w` but for the frames and the result. -/
theorem completes_of_answers {i : Instr} {p : State → State} {s s' w : State} {f : Frame}
    {v : Result} {seen : List BusEvent → Prop} (hr : s.Ready)
    (he : exec i s = s.issue i true true p)
    (hp : p (s.issued i) = s'.give v)
    (ht : Tracks s.Silent s' { w with seq := [f], host := { w.host with result := .none } })
    (hq : w.seq = s.seq) (hs : seen s'.busLog) :
    Completes i s { w with host.result := v } seen := by
  obtain ⟨ha, hk, hn, hc⟩ := answers_of_returns hr he hp ht (hq.trans hr.1.2)
  exact ⟨s'.give v, ha, hk, hn, hc, hs⟩

/-! ## read and readText (R282 to R284) -/

/-- Settles O40, from read up to its return. -/
theorem read : Obligations.Read := by
  intro s cap hr hc
  obtain ⟨d, c, s', f', -, -, hsteady, hgives, hlog, hp, ht⟩ :=
    read_tracks (issued_tracks_from hr hc (.read cap)) .readBuf cap rfl
  exact ⟨d, c, hsteady, hgives, completes_of_answers hr rfl hp ht rfl hlog⟩

/-- Settles O41: for a buffer of no bytes the first micro-step returns; otherwise from readText up
to its return. -/
theorem readText : Obligations.ReadText := by
  intro s cap hr hc
  split
  · next hcap => exact issue_retHere (v := fun _ => .count 0) hr.1 (fun _ => hr.2) (if_pos hcap)
  · next hcap =>
    obtain ⟨d, c, s', f', -, hsteady, hgives, hlog, hp, ht⟩ :=
      readText_tracks (issued_tracks_from hr hc (.readText cap)) (Nat.pos_of_ne_zero hcap) rfl
    exact ⟨d, c, hsteady, hgives, completes_of_answers hr rfl hp ht rfl hlog⟩

/-! ## available (R280) -/

/-- The width of RXF's head, put into the local `w`. -/
def State.widthInto (l next : Label) (s : State) : State :=
  s.micro l next fun s =>
    let s := s.rRxPlWid
    s.setLocals fun o => { o with w := s.busIn.headD 0 }

/-- What a width byte of the chip `c` says: the length of the entry at the head of RXF, where the
spec fixes it (40_bus_commands.md R143). -/
def Chip.GivesWidth (c : Chip) (w : Byte) : Prop :=
  ∀ e r, c.rxf = e :: r → c.rxCorrupt = false → e.data.length ≤ 32 → w.toNat = e.data.length

theorem readWidth_givesWidth {s : State} (hu : s.chip.featuresUnlocked = true) :
    s.chip.GivesWidth (s.readWidth.1.headD 0) := by
  intro e r hf hc hl
  rw [readWidth_head hf hc hu]
  simp only [List.headD_cons, BitVec.toNat_ofNat]
  omega

theorem adds_widthInto {P : List Byte → Prop} {l next : Label} (h : P [0x60, 0x00]) :
    Adds P (State.widthInto l next) :=
  Adds.micro (fun s => by simpa [AddsTo] using adds_rRxPlWid h s) l next

/-- The local holds what the trace shows. -/
theorem Tracks.widthInto {s x : State} (h : Tracks q s x) (l next : Label) (hl : x.isAt l = true)
    (hu : x.chip.featuresUnlocked = true) {f : Frame} {r : List Frame} (hx : x.seq = f :: r) :
    ∃ w, ((q → x.chip.GivesWidth w) ∧
        ∃ su, lastAnswer [0x60, 0x00] (s.widthInto l next).busLog = some (su, [w])) ∧
      Tracks q (s.widthInto l next)
        { x with seq := ⟨f.op, next, { f.locals with w := w }⟩ :: r,
                 busLog := sends [0x60, 0x00] :: x.busLog } := by
  refine h.micro_open (P := fun w log => (q → x.chip.GivesWidth w) ∧
      ∃ su, lastAnswer [0x60, 0x00] log = some (su, [w])) (fun w => { x with
        seq := ⟨f.op, next, { f.locals with w := w }⟩ :: r,
        busLog := sends [0x60, 0x00] :: x.busLog }) l next hl
    fun y hy => ⟨y.rRxPlWid.busIn.headD 0, ⟨fun hq => ?_, ?_⟩, ?_⟩
  · obtain ⟨-, -, hchip⟩ := hy.silent hq
    rw [rRxPlWid_busIn y hy.present_here, ← hchip]
    exact readWidth_givesWidth (by rw [hchip]; exact hu)
  · simpa using rRxPlWid_lastAnswer y hy.present_here
  · refine ((hy.rRxPlWid.setLocals _).atLabel next).of_eq ?_
    simp [State.setLocals, State.atLabel, hx]

/-- S2 to S4 of available, with RX_DR in the status byte. -/
def reportWidth (wantPipe : Bool) (s : State) : State :=
  ((s.micro .s2 .s3 id).widthInto .s3 .s4).ret .s4 fun s =>
    .available s.locals.w.toNat (if wantPipe then some (statusPipe s.locals.st) else none)

theorem availableProgram_eq (wantPipe : Bool) (s : State) :
    availableProgram wantPipe s =
      let s := s.statusInto .s1 .s2
      if s.isAt .s2 ∧ !statusRxDr s.locals.st then s.ret .s2 fun _ => .available 0 none
      else reportWidth wantPipe s := rfl

/-- With RX_DR in the status byte, the width is read and reported; the newest answer to a NOP
stays. -/
theorem reportWidth_tracks {s x : State} (h : Tracks q s x) (hu : x.chip.featuresUnlocked = true)
    (wantPipe : Bool) {op : Instr} {o : Locals} {r : List Frame} (hx : x.seq = ⟨op, .s2, o⟩ :: r) :
    ∃ w su s' f', (q → x.chip.GivesWidth w) ∧
      lastAnswer [0x60, 0x00] s'.busLog = some (su, [w]) ∧
      lastAnswer [0xFF] s'.busLog = lastAnswer [0xFF] s.busLog ∧
      reportWidth wantPipe s =
        s'.give (.available w.toNat (if wantPipe then some (statusPipe o.st) else none)) ∧
      Tracks q s' { x with seq := f' :: r, busLog := sends [0x60, 0x00] :: x.busLog } := by
  have h1 := h.micro_at { x with seq := ⟨op, .s3, o⟩ :: r } .s2 .s3 (by simp [State.isAt, hx])
    (e := id) (fun y hy => hy) (by simp [State.atLabel, hx])
  obtain ⟨w, ⟨hw, su, hlog⟩, h2⟩ := h1.widthInto .s3 .s4 rfl hu rfl
  refine ⟨w, su, _, _, hw, ?_, ?_, (h2.ret_eq .s4 rfl _).trans ?_, h2.interlude⟩
  · rw [interlude_busLog]
    exact hlog
  · rw [interlude_busLog, lastAnswer_addsTo (adds_widthInto (by decide) _),
      micro_busLog (f := id) fun _ => rfl]
  · rw [h2.interlude.locals_eq]
    rfl

/-- Settles O39, by RX_DR in the status byte the NOP answers. -/
theorem available : Obligations.Available := by
  intro s wantPipe hr hc
  obtain ⟨st, ⟨inn, hst⟩, -, hsilent, h1⟩ :=
    statusInto_tracks (issued_tracks_from hr hc (.available wantPipe)) .s1 .s2 rfl rfl
  refine ⟨st, inn, hsilent, ?_⟩
  have hp := availableProgram_eq wantPipe (s.issued (.available wantPipe))
  dsimp only at hp
  rw [h1.isAt_eq, h1.locals_eq] at hp
  split
  · next hdr =>
    rw [if_pos ⟨rfl, by simp [State.locals, statusRxDr, hdr]⟩, h1.ret_eq .s2 rfl] at hp
    refine completes_of_answers (w := { s with busLog := sends [0xFF] :: s.busLog })
      hr rfl hp h1.interlude rfl ?_
    rw [interlude_busLog]
    exact hst
  · next hdr =>
    rw [if_neg (by simp [State.locals, statusRxDr, hdr])] at hp
    obtain ⟨w, su, s', f', hw, hlog, hnop, he, h2⟩ :=
      reportWidth_tracks h1 (admitted_unlocked hc.admitted) wantPipe rfl
    exact ⟨w, su, hw, completes_of_answers
      (w := { s with busLog := sends [0x60, 0x00] :: sends [0xFF] :: s.busLog })
      hr rfl (hp.trans he) h2 rfl ⟨hnop.trans hst, hlog⟩⟩

/-! ## W_ACK_PAYLOAD (40_bus_commands.md R146) -/

/-- What W_ACK_PAYLOAD of the payload `d` for pipe `p` may leave, `c'`, of a chip `c` whose receive
role is `rx`. -/
def Chip.Staged (p : Fin 6) (d : List Byte) (rx : Bool) (c c' : Chip) : Prop :=
  if c.enAckPay = true ∧ rx = true ∧ c.txf.length ≠ 3 then
    c' = { c with txf := c.txf ++ [⟨d, false, some p⟩] } ∨ d = [] ∧ c' = c
  else c' = c

section
variable {p : Fin 6} {d : List Byte} {rx : Bool} {c c' : Chip}

theorem Chip.Staged.cases (h : c.Staged p d rx c') :
    c' = c ∨ c' = { c with txf := c.txf ++ [⟨d, false, some p⟩] } := by
  unfold Chip.Staged at h
  split at h
  · exact h.symm.imp_left And.right
  · exact .inl h

theorem Chip.Staged.steady (h : c.Staged p d rx c') : c'.steady = c.steady := by
  obtain rfl | rfl := h.cases <;> rfl

/-- CONFIG plays no part but for the role. -/
theorem Chip.Staged.restored {b : Byte} (h : ({ c with config := b } : Chip).Staged p d rx c') :
    c.Staged p d rx { c' with config := c.config } := by
  by_cases hroom : c.enAckPay = true ∧ rx = true ∧ c.txf.length ≠ 3
  · refine (if_pos hroom).mpr ?_
    obtain rfl | ⟨hd, rfl⟩ := (if_pos hroom).mp h
    · exact .inl rfl
    · exact .inr ⟨hd, rfl⟩
  · obtain rfl := (if_neg hroom).mp h
    exact (if_neg hroom).mpr rfl

end

theorem stageAck_staged (p : Fin 6) (d : List Byte) (s : State) :
    s.chip.Staged p d (bit s.chip.config 0) (s.stageAck p d).chip := by
  have h := stageAck_chip p d s
  simp only [Chip.Staged, Chip.enAckPay, Bool.and_eq_true, and_assoc]
  exact h

/-- `W_ACK_PAYLOAD`, from what the chip holds after it. -/
theorem Tracks.wAckPayload {s x : State} (h : Tracks q s x) (p : Fin 6) (d : List Byte) :
    ∃ c : Chip, (c.steady = x.chip.steady ∧
        (q → x.chip.Staged p d (bit x.chip.config 0) c)) ∧
      Tracks q (s.wAckPayload p d)
        { x with chip := c, busLog := sends (BitVec.ofNat 8 (0xA8 + p.val) :: d) :: x.busLog } := by
  have hstaged := stageAck_staged p d s
  have hsteady := hstaged.steady.trans (chip_of_kept h.same)
  refine ⟨(s.stageAck p d).chip, ⟨hsteady, fun hq => ?_⟩,
    h.transact (f := fun _ => (s.stageAck p d).chip) (by simp)
      (wAckPayload_chip p d s h.present_here) rfl (by simp) (by simp) (by simp) (by simp) (by simp)
      (by simp) (by simp) (by simp) ?_ (tame_of_steady hsteady h.tame)⟩
  · obtain ⟨-, -, hchip⟩ := h.silent hq
    rwa [hchip] at hstaged
  · rw [wAckPayload_only]
    simp [BusEvent.outgoing, sends]

/-! ## The transient receive role (R288) -/

section
variable {s x : State} (h : Tracks q s x)
include h

/-- A micro-step does what its effect does to the states it can meet. -/
theorem Tracks.micro_congr (l next : Label) (hl : x.isAt l = true) {f g : State → State}
    (hfg : ∀ y, Tracks q y x → f y = g y) : s.micro l next f = s.micro l next g := by
  rw [State.micro, State.micro, h.stepAt_eq l hl, h.stepAt_eq l hl, hfg _ h.interlude]

theorem Tracks.micro_if_entered (l next : Label) (hl : x.isAt l = true)
    (he : x.locals.entered = true) (f : State → State) :
    s.micro l next (fun s => if s.locals.entered then f s else s) = s.micro l next f :=
  h.micro_congr l next hl fun y hy => if_pos (by rw [hy.locals_eq]; exact he)

theorem Tracks.micro_if_not_entered (l next : Label) (hl : x.isAt l = true)
    (he : x.locals.entered = false) (f : State → State) :
    s.micro l next (fun s => if s.locals.entered then f s else s) = s.micro l next id :=
  h.micro_congr l next hl fun y hy => if_neg (by rw [hy.locals_eq, he]; decide)

variable {op : Instr} {o : Locals} {r : List Frame}

/-- S3 where the block is listening already: no transaction. -/
theorem enterListening_not_entered (hx : x.seq = ⟨op, .s3, o⟩ :: r) (he : o.entered = false) :
    Tracks q (enterListening s) { x with seq := ⟨op, .s4, o⟩ :: r } := by
  have hl : x.isAt .s3 = true := by simp [State.isAt, hx]
  unfold enterListening
  rw [h.micro_if_not_entered .s3 Label.s3.succ hl (by simp [State.locals, hx, he])]
  have h1 := h.micro_at { x with seq := ⟨op, Label.s3.succ, o⟩ :: r } .s3 Label.s3.succ hl
    (e := id) (fun y hy => hy) (by simp [State.atLabel, hx])
  rw [h1.micro_if_not_entered Label.s3.succ .s4 rfl he]
  exact h1.micro Label.s3.succ .s4 rfl (f := id) fun y hy => hy

/-- S3 where it is not: CONFIG is read, and written with PWR_UP and PRIM_RX set. -/
theorem enterListening_entered (ha : x.chip.Admitted) (hx : x.seq = ⟨op, .s3, o⟩ :: r)
    (he : o.entered = true) :
    ∃ v ∈ x.chip.configReads,
      Tracks q (enterListening s) { x with
        seq := ⟨op, .s4, { o with cfg := v }⟩ :: r, chip.config := (v ||| 0x03) &&& 0x7F,
        busLog := sends [0x20, v ||| 0x03] :: sends [0x00, 0x00] :: x.busLog } := by
  have hl : x.isAt .s3 = true := by simp [State.isAt, hx]
  obtain ⟨v, hv, h1⟩ := h.readInto (P := (· ∈ x.chip.configReads)) .s3 Label.s3.succ hl .config
    (fun b o => { o with cfg := b }) hx fun y hy => hy.read_config
  refine ⟨v, hv, ?_⟩
  unfold enterListening
  rw [h.micro_if_entered .s3 Label.s3.succ hl (by simp [State.locals, hx, he])]
  exact (h1.micro_if_entered Label.s3.succ .s4 rfl he _).symm ▸
    h1.writeFrom Label.s3.succ .s4 rfl .config
      (fun s => [withBits s.locals.cfg (pwrUp ||| primRx)]) (v := [v ||| 0x03])
      (fun y hy => by rw [hy.locals_eq]; rfl) (.inl ha) rfl

/-- S5 where the block is listening already. -/
theorem leaveListening_not_entered (hx : x.seq = ⟨op, .s5, o⟩ :: r) (he : o.entered = false) :
    Tracks q (leaveListening s) { x with seq := ⟨op, .s6, o⟩ :: r } := by
  have hl : x.isAt .s5 = true := by simp [State.isAt, hx]
  unfold leaveListening
  rw [h.micro_if_not_entered .s5 .s6 hl (by simp [State.locals, hx, he])]
  exact h.micro_at _ .s5 .s6 hl (e := id) (fun y hy => hy) (by simp [State.atLabel, hx])

/-- S5 where it is not: the value read is written back. -/
theorem leaveListening_entered (ha : x.chip.Admitted) (hx : x.seq = ⟨op, .s5, o⟩ :: r)
    (he : o.entered = true) :
    Tracks q (leaveListening s) { x with
      seq := ⟨op, .s6, o⟩ :: r, chip.config := o.cfg &&& 0x7F,
      busLog := sends [0x20, o.cfg] :: x.busLog } := by
  have hl : x.isAt .s5 = true := by simp [State.isAt, hx]
  unfold leaveListening
  rw [h.micro_if_entered .s5 .s6 hl (by simp [State.locals, hx, he])]
  exact h.writeFrom .s5 .s6 hl .config (fun s => [s.locals.cfg]) (v := [o.cfg])
    (fun y hy => by rw [hy.locals_eq]; simp [State.locals, hx]) (.inl ha) hx

end

/-! ## queueResponse (R286) -/

/-- S4: the payload is offered on the acknowledgment queue of the configured pipe. -/
def State.offer (s : State) : State :=
  s.micro .s4 .s5 fun s => s.wAckPayload s.params.ackPpp s.locals.p

/-- S2 to S5: what follows on the check for a full queue. -/
def stageResponse (payload : List Byte) (s : State) : State :=
  let s := s.micro Label.s1.succ .s2 id
  let s := s.micro .s2 .s3 fun s => s.setLocals fun o =>
    { o with p := clipPayload payload, entered := !s.sh.listening }
  leaveListening (enterListening s).offer

theorem queueResponseProgram_eq (payload : List Byte) (s : State) :
    queueResponseProgram payload s =
      let s := s.statusInto .s1 Label.s1.succ
      if s.isAt Label.s1.succ ∧ statusTxFull s.locals.st then
        s.ret Label.s1.succ fun _ => .bool false
      else (stageResponse payload s).ret .s6 fun _ => .bool true := rfl

theorem adds_if_entered {P : List Byte → Prop} {f : State → State} (hf : Adds P f)
    (l next : Label) :
    Adds P fun s => s.micro l next fun s => if s.locals.entered then f s else s :=
  Adds.micro (fun s => by
    split
    · exact hf s
    · exact adds_id s) l next

/-- None of its transactions is a NOP. -/
theorem adds_stageResponse (payload : List Byte) : Adds (· ≠ [0xFF]) (stageResponse payload) := by
  have hack : ∀ p : Fin 6, (BitVec.ofNat 8 (0xA8 + p.val) : Byte) ≠ 0xFF := by decide
  have hwrite : ∀ v : State → Byte, Adds (· ≠ [0xFF]) fun s => s.wRegister .config [v s] :=
    fun v s => adds_wRegister (by simp) s
  have hread : Adds (· ≠ [0xFF]) fun s : State =>
      (s.rRegister .config).setLocals fun o =>
        { o with cfg := (s.rRegister .config).busIn.headD 0 } := fun s => by
    simpa [AddsTo] using adds_rRegister (P := (· ≠ [0xFF])) (a := .config) (by decide) s
  have hlocals : Adds (· ≠ [0xFF]) fun s : State => s.setLocals fun o =>
      { o with p := clipPayload payload, entered := !s.sh.listening } :=
    adds_none fun s => by simp
  have hoffer : Adds (· ≠ [0xFF]) fun s : State => s.wAckPayload s.params.ackPpp s.locals.p :=
    fun s => adds_wAckPayload (fun e => hack _ (List.cons.inj e).1) s
  exact (adds_id.micro Label.s1.succ .s2).comp <| (hlocals.micro .s2 .s3).comp <|
    (adds_if_entered hread .s3 Label.s3.succ).comp <|
    (adds_if_entered (hwrite _) Label.s3.succ .s4).comp <|
    (hoffer.micro .s4 .s5).comp <| adds_if_entered (hwrite _) .s5 .s6

section
variable {s x : State} (h : Tracks q s x) {op : Instr} {o : Locals} {r : List Frame}
include h

theorem offer_tracks (hx : x.seq = ⟨op, .s4, o⟩ :: r) :
    ∃ c : Chip, (c.steady = x.chip.steady ∧
        (q → x.chip.Staged x.params.ackPpp o.p (bit x.chip.config 0) c)) ∧
      Tracks q s.offer { x with
        seq := ⟨op, .s5, o⟩ :: r, chip := c,
        busLog := sends (BitVec.ofNat 8 (0xA8 + x.params.ackPpp.val) :: o.p) :: x.busLog } := by
  refine h.micro_open (P := fun c _ => c.steady = x.chip.steady ∧
      (q → x.chip.Staged x.params.ackPpp o.p (bit x.chip.config 0) c)) (fun c => { x with
        seq := ⟨op, .s5, o⟩ :: r, chip := c,
        busLog := sends (BitVec.ofNat 8 (0xA8 + x.params.ackPpp.val) :: o.p) :: x.busLog })
    .s4 .s5 (by simp [State.isAt, hx]) fun y hy => ?_
  have hlocals : y.locals.p = o.p := by rw [hy.locals_eq]; simp [State.locals, hx]
  rw [hy.params_eq, hlocals]
  obtain ⟨c, hc, h1⟩ := hy.wAckPayload x.params.ackPpp o.p
  exact ⟨c, hc, (h1.atLabel .s5).of_eq (by simp [State.atLabel, hx])⟩

variable (payload : List Byte) (hx : x.seq = ⟨op, Label.s1.succ, o⟩ :: r)
include hx

/-- S2: the payload is cut, and whether the role is entered settled. -/
theorem prepareResponse_tracks :
    Tracks q
      ((s.micro Label.s1.succ .s2 id).micro .s2 .s3 fun s => s.setLocals fun o =>
        { o with p := clipPayload payload, entered := !s.sh.listening })
      { x with seq := ⟨op, .s3, { o with p := clipPayload payload,
                                         entered := !x.sh.listening }⟩ :: r } := by
  have h1 := h.micro_at { x with seq := ⟨op, .s2, o⟩ :: r } Label.s1.succ .s2
    (by simp [State.isAt, hx]) (e := id) (fun y hy => hy) (by simp [State.atLabel, hx])
  exact h1.micro_at _ .s2 .s3 rfl fun y hy => by
    rw [sh_of_kept hy.same]
    exact hy.setLocals fun o => { o with p := clipPayload payload, entered := !x.sh.listening }

/-- Listening already, the payload is staged by one transaction. -/
theorem stageResponse_listening (hl : x.sh.listening = true) :
    ∃ (c : Chip) (o' : Locals), c.steady = x.chip.steady ∧
      (q → x.chip.Staged x.params.ackPpp (clipPayload payload) (bit x.chip.config 0) c) ∧
      Tracks q (stageResponse payload s) { x with
        seq := ⟨op, .s6, o'⟩ :: r, chip := c,
        busLog := sends (BitVec.ofNat 8 (0xA8 + x.params.ackPpp.val) :: clipPayload payload) ::
          x.busLog } := by
  have hentered : (!x.sh.listening) = false := by rw [hl]; rfl
  have h3 := enterListening_not_entered (prepareResponse_tracks h payload hx) rfl hentered
  obtain ⟨c, ⟨hsteady, hstaged⟩, h4⟩ := offer_tracks h3 rfl
  exact ⟨c, _, hsteady, hstaged, leaveListening_not_entered h4 rfl hentered⟩

/-- In the transient role, the payload is staged between two writes of CONFIG. -/
theorem stageResponse_transient (ha : x.chip.Admitted) (hl : x.sh.listening = false) :
    ∃ v ∈ x.chip.configReads, ∃ (c : Chip) (o' : Locals), c.steady = x.chip.steady ∧
      (q → x.chip.Staged x.params.ackPpp (clipPayload payload) true c) ∧
      Tracks q (stageResponse payload s) { x with
        seq := ⟨op, .s6, o'⟩ :: r, chip := { c with config := v &&& 0x7F },
        busLog := sends [0x20, v] ::
          sends (BitVec.ofNat 8 (0xA8 + x.params.ackPpp.val) :: clipPayload payload) ::
          sends [0x20, v ||| 0x03] :: sends [0x00, 0x00] :: x.busLog } := by
  have hentered : (!x.sh.listening) = true := by rw [hl]; rfl
  obtain ⟨v, hv, h3⟩ :=
    enterListening_entered (prepareResponse_tracks h payload hx) ha rfl hentered
  obtain ⟨c, ⟨hsteady, hstaged⟩, h4⟩ := offer_tracks h3 rfl
  have hrole : bit ((v ||| 0x03) &&& 0x7F) 0 = true := (listenedByte_bits v).2
  have h5 := leaveListening_entered h4
    (admitted_of_steady (d := { x.chip with config := (v ||| 0x03) &&& 0x7F }) hsteady ha)
    rfl hentered
  refine ⟨v, hv, { c with config := x.chip.config }, _,
    congrArg (fun c : Chip => { c with config := x.chip.config }) hsteady, fun hq => ?_, h5⟩
  have hs := hstaged hq
  dsimp only at hs
  rw [hrole] at hs
  exact hs.restored

end

/-- Settles O43, by TX_FULL in the status byte the NOP answers, and by whether the block listens. -/
theorem queueResponse : Obligations.QueueResponse := by
  intro s payload hr hc p ack staged
  obtain ⟨st, ⟨inn, hst⟩, -, hsilent, h1⟩ :=
    statusInto_tracks (issued_tracks_from hr hc (.queueResponse payload)) .s1 Label.s1.succ rfl rfl
  refine ⟨st, inn, hsilent, ?_⟩
  have hp := queueResponseProgram_eq payload (s.issued (.queueResponse payload))
  dsimp only at hp
  rw [h1.isAt_eq, h1.locals_eq] at hp
  have hnop := lastAnswer_addsTo (adds_stageResponse payload
    ((s.issued (.queueResponse payload)).statusInto .s1 Label.s1.succ))
  split
  · next hfull =>
    rw [if_pos ⟨rfl, hfull⟩,
      h1.ret_eq Label.s1.succ rfl] at hp
    refine completes_of_answers (w := { s with busLog := sends [0xFF] :: s.busLog })
      hr rfl hp h1.interlude rfl ?_
    rw [interlude_busLog]
    exact hst
  · next hfull =>
    rw [if_neg fun e => hfull e.2] at hp
    split
    · next hl =>
      obtain ⟨c, o', hsteady, hstaged, h2⟩ := stageResponse_listening h1 payload rfl hl
      refine ⟨c, hsteady, hstaged, completes_of_answers
        (w := { s with chip := c, busLog := ack :: sends [0xFF] :: s.busLog })
        hr rfl (hp.trans (h2.ret_eq .s6 rfl _)) h2.interlude rfl ?_⟩
      rw [interlude_busLog, hnop]
      exact hst
    · next hl =>
      obtain ⟨v, hv, c, o', hsteady, hstaged, h2⟩ :=
        stageResponse_transient h1 payload rfl hc.admitted (Bool.eq_false_iff.mpr hl)
      refine ⟨v, hv, c, hsteady, hstaged, completes_of_answers (w := { s with
          chip := { c with config := v &&& 0x7F },
          busLog := sends [0x20, v] :: ack :: sends [0x20, v ||| 0x03] ::
            sends [0x00, 0x00] :: sends [0xFF] :: s.busLog })
        hr rfl (hp.trans (h2.ret_eq .s6 rfl _)) h2.interlude rfl ?_⟩
      rw [interlude_busLog, hnop]
      exact hst

end Sys2Proof.Machine
end

section
/-! The configuration setters (46_config_setters.md R300 to R306), issued by the host. -/

namespace Sys2Proof

/-! ## Arguments, codes and fields -/

/-- A byte in the range of a narrower field is that field's value. -/
theorem setWidth_narrowed {n : Nat} {b : Byte} (h : b.toNat < 2 ^ n) :
    (b.setWidth n).setWidth 8 = b :=
  BitVec.eq_of_toNat_eq (by simp [Nat.mod_eq_of_lt h, b.isLt])

theorem retryByte_narrowed {d c : Byte} (hd : d.toNat ≤ 15) (hc : c.toNat ≤ 15) :
    retryByte (d.setWidth 4) (c.setWidth 4) = d <<< 4 ||| c := by
  rw [retryByte, setWidth_narrowed (by omega), setWidth_narrowed (by omega)]

/-- An admitted channel has no bit that RF_CH does not hold. -/
theorem channel_masked {ch : Byte} (h : ch.toNat ≤ 127) : ch &&& 0x7F = ch := by
  have hwide : (ch.setWidth 7).setWidth 8 = ch := setWidth_narrowed (by omega)
  rw [← hwide]
  exact Machine.channel_unclipped _

theorem withField_inside {m x : Byte} (h : x &&& m = x) (v : Byte) :
    withField v m x = (v &&& ~~~m) ||| x := by
  rw [withField, h]

theorem crcMode_code_inside (m : CrcMode) : m.code &&& crcMask = m.code := by cases m <;> rfl

theorem dataRate_ofByte_eq (v : ChipVariant) (b : Byte) :
    DataRate.ofByte v b =
      if b = 0 then some .mbps1
      else if b = 1 then some .mbps2
      else if b = 2 ∧ v = .nRF24L01P then some .kbps250
      else none := by
  cases v <;> revert b <;> decide

theorem paLevel_ofByte_eq (b : Byte) :
    PaLevel.ofByte b =
      if b = 0 then some .m18
      else if b = 1 then some .m12
      else if b = 2 then some .m6
      else if b = 3 then some .p0
      else none := by
  revert b; decide

theorem crcMode_ofByte_eq (b : Byte) :
    CrcMode.ofByte b =
      if b = 0 then some .off
      else if b = 1 then some .crc8
      else if b = 2 then some .crc16
      else none := by
  revert b; decide

end Sys2Proof

namespace Sys2Proof.Machine

/-- A CONFIG readback and CONFIG itself have the bits outside the CRC field in common (10_state.md
R24). -/
theorem configReads_outside_crc {c : Chip} {w : Byte} (hw : w ∈ c.configReads) :
    w &&& ~~~crcMask = c.config &&& 0xF3 := by
  obtain rfl | rfl := mem_configReads hw
  · rfl
  · generalize c.config = b
    revert b
    decide

/-- The code of a rate of the variant lies in the data-rate bits. -/
theorem dataRate_code_inside {v : ChipVariant} {r : DataRate} (h : v.has r = true) :
    r.code &&& drMask v = r.code := by
  cases v with
  | nRF24L01P => cases r <;> rfl
  | nRF24L01 =>
    cases r with
    | mbps1 | mbps2 => rfl
    | kbps250 => cases h

theorem writeReg_channel {ch : Byte} (h : ch.toNat ≤ 127) (v : ChipVariant) (c : Chip) :
    c.writeReg v .rfCh [ch] = { c with rfCh := ch, plosCnt := 0 } :=
  congrArg (fun b => { c with rfCh := b, plosCnt := 0 }) (channel_masked h)

/-! ## An issue that ends at once -/

section
variable {i : Instr} {needsInit argsOk : Bool} {p : State → State} {s : State}

/-- The last check of an issue. -/
theorem issue_out_of_range (hr : s.Ready) (ha : argsOk = false) :
    s.issue i needsInit argsOk p = .refused .argumentOutOfRange := by
  obtain ⟨⟨-, hq⟩, hinit⟩ := hr
  unfold State.issue
  rw [hq, hinit, ha]
  cases needsInit <;> rfl

/-- Where the first micro-step changes the shadow state and returns, that is all an issue changes but
for the result. -/
theorem issue_finishHere (hr : s.Ready) (g : Shadow → Shadow)
    (hp : p (s.issued i) = (s.issued i).finishHere .s1 (State.onShadow g)) :
    s.issue i true true p = .next { s with sh := g s.sh, host.result := .none } := by
  obtain ⟨⟨hm, hq⟩, hinit⟩ := hr
  have hrun : (s.issued i).stopped = false :=
    stopped_eq_false.mpr ⟨hm, by simp [State.issued]⟩
  have hgive : ((s.issued i).onShadow g).give .none =
      { s with sh := g s.sh, host.result := .none } := by
    simp [State.give, State.onShadow, State.issued, State.push, hq]
  rw [issue_ready hq (fun _ => hinit) rfl]
  refine (congrArg State.outcome (hp.trans ?_)).trans (outcome_next hm)
  exact (here_eq hrun rfl _).trans hgive

end

/-! ## A setter that writes one register -/

section
variable {i : Instr} {argsOk : Bool} {p : State → State} {s : State} {a : Reg}

/-- A setter completes at `w` with the settings changed where its program, up to its last micro-step,
leaves `w` but for the frames and the result. -/
theorem completes_of_finish {s' w : State} {l : Label} {o : Locals} (hr : s.Ready)
    (he : exec i s = s.issue i true argsOk p) (hok : argsOk = true) (g : Settings → Settings)
    (hp : p (s.issued i) = s'.finish l (State.onSettings g))
    (ht : Tracks s.Silent s'
      { w with seq := [⟨i, l, o⟩], host := { w.host with result := .none } })
    (hq : w.seq = s.seq) :
    Completes i s { w with sh.settings := g w.sh.settings, host.result := .none } := by
  subst hok
  exact completes_of_answers (w := { w with sh.settings := g w.sh.settings }) hr he
    (hp.trans (ht.finish_eq l (by simp [State.isAt]) _)) (ht.interlude.onSettings g) hq trivial

/-- A setter that writes the value `b` to a register. -/
theorem writeFrom_completes (hr : s.Ready) (hc : s.Calm) (ha : a ∉ configuring)
    (he : exec i s = s.issue i true argsOk p) (hok : argsOk = true) (b : Byte)
    (g : Settings → Settings)
    (hp : p (s.issued i) =
      ((s.issued i).writeFrom .s1 Label.s1.succ a fun _ => [b]).finish Label.s1.succ
        (State.onSettings g)) :
    Completes i s { s with
      chip := s.chip.writeReg s.params.variant a [b], sh.settings := g s.sh.settings,
      host.result := .none, busLog := sends [regCommand 0b001 a, b] :: s.busLog } := by
  have h1 := (issued_tracks_from hr hc i).writeFrom .s1 Label.s1.succ rfl a (fun _ => [b])
    (fun _ _ => rfl) (.inl (writeReg_admitted hc.admitted ha _ _)) rfl
  exact completes_of_finish (w := { s with
      chip := s.chip.writeReg s.params.variant a [b],
      busLog := sends [regCommand 0b001 a, b] :: s.busLog })
    hr he hok g hp h1 rfl

/-- A setter that writes the field `m` of a register, from the value `v` its read answers. -/
theorem setField_completes (hr : s.Ready) (hc : s.Calm) (ha : a ∉ configuring)
    (hwidth : a.width = 1) (he : exec i s = s.issue i true argsOk p) (hok : argsOk = true)
    (m x : Byte) (g : Settings → Settings)
    (hp : p (s.issued i) =
      ((s.issued i).setField .s1 Label.s1.succ.succ a m x).finish Label.s1.succ.succ
        (State.onSettings g))
    {P : Byte → Prop}
    (hP : ∀ y x : State, Tracks s.Silent y x → x.chip = s.chip →
      P ((y.rRegister a).busIn.headD 0)) :
    ∃ v, P v ∧ Completes i s { s with
      chip := s.chip.writeReg s.params.variant a [withField v m x],
      sh.settings := g s.sh.settings, host.result := .none,
      busLog := sends [regCommand 0b001 a, withField v m x] ::
        sends [regCommand 0b000 a, 0x00] :: s.busLog } := by
  obtain ⟨v, hv, h1⟩ := (issued_tracks_from hr hc i).modify .s1 Label.s1.succ.succ rfl a
    (fun v => withField v m x) rfl (fun y hy => hP y _ hy rfl)
    fun _ _ => .inl (writeReg_admitted hc.admitted ha _ _)
  rw [hwidth] at h1
  exact ⟨v, hv, completes_of_finish (w := { s with
      chip := s.chip.writeReg s.params.variant a [withField v m x],
      busLog := sends [regCommand 0b001 a, withField v m x] ::
        sends [regCommand 0b000 a, 0x00] :: s.busLog })
    hr he hok g hp h1 rfl⟩

/-- A setter of a field of RF_SETUP, whose read is exact. -/
theorem setField_rfSetup_completes (hr : s.Ready) (hc : s.Calm)
    (he : exec i s = s.issue i true argsOk p) (hok : argsOk = true) (m x : Byte)
    (g : Settings → Settings)
    (hp : p (s.issued i) =
      ((s.issued i).setField .s1 Label.s1.succ.succ .rfSetup m x).finish Label.s1.succ.succ
        (State.onSettings g)) :
    Completes i s { s with
      chip.rfSetup := withField s.chip.rfSetup m x &&& writableBits s.params.variant .rfSetup,
      sh.settings := g s.sh.settings, host.result := .none,
      busLog := sends [0x26, withField s.chip.rfSetup m x] :: sends [0x06, 0x00] ::
        s.busLog } := by
  obtain ⟨_, rfl, hdone⟩ := setField_completes (P := (· = s.chip.rfSetup)) hr hc (by decide) rfl he
    hok m x g hp fun y x hy hx => hy.read_rfSetup.trans (congrArg Chip.rfSetup hx)
  exact hdone

end

/-! ## Issued by the host -/

section
variable {s : State} (hr : s.Ready) (hc : s.Calm)
include hr hc

theorem setDataRate_completes {dr : Byte} {r : DataRate}
    (h : DataRate.ofByte s.params.variant dr = some r) :
    let w := (s.chip.rfSetup &&& ~~~drMask s.params.variant) ||| r.code
    Completes (.setDataRate dr) s { s with
      chip.rfSetup := w &&& writableBits s.params.variant .rfSetup,
      sh.settings.dataRate := r, host.result := .none,
      busLog := sends [0x26, w] :: sends [0x06, 0x00] :: s.busLog } := by
  intro w
  have hhas : s.params.variant.has r = true := by
    have hg := ofByte_has s.params.variant dr
    rwa [h] at hg
  have hw : withField s.chip.rfSetup (drMask s.params.variant) r.code = w :=
    withField_inside (dataRate_code_inside hhas) _
  rw [← hw]
  exact setField_rfSetup_completes hr hc rfl (by rw [h]; rfl) (drMask s.params.variant) r.code
    (fun g => { g with dataRate := r }) (by rw [h]; rfl)

theorem setPALevel_completes {pa : Byte} {l : PaLevel} (h : PaLevel.ofByte pa = some l) :
    let w := (s.chip.rfSetup &&& 0xF9) ||| l.code
    Completes (.setPALevel pa) s { s with
      chip.rfSetup := w &&& writableBits s.params.variant .rfSetup,
      sh.settings.paLevel := l, host.result := .none,
      busLog := sends [0x26, w] :: sends [0x06, 0x00] :: s.busLog } := by
  intro w
  have hw : withField s.chip.rfSetup paMask l.code = w := withField_level _ l
  rw [← hw]
  exact setField_rfSetup_completes hr hc rfl (by rw [h]; rfl) paMask l.code
    (fun g => { g with paLevel := l }) (by rw [h]; rfl)

/-- Whichever of its values EN_CRC reads as, setCRC overwrites it. -/
theorem setCRC_completes {mode : Byte} {m : CrcMode} (h : CrcMode.ofByte mode = some m) :
    let w := (s.chip.config &&& 0xF3) ||| m.code
    Completes (.setCRC mode) s { s with
      chip.config := w &&& 0x7F, sh.settings.crc := m, host.result := .none,
      busLog := sends [0x20, w] :: sends [0x00, 0x00] :: s.busLog } := by
  intro w
  obtain ⟨v, hv, hdone⟩ := setField_completes (i := .setCRC mode) (a := .config)
    (P := (· ∈ s.chip.configReads)) hr hc (by decide) rfl rfl (by rw [h]; rfl) crcMask m.code
    (fun g => { g with crc := m }) (by rw [h]; rfl)
    fun y x hy hx => congrArg Chip.configReads hx ▸ hy.read_config
  have hw : withField v crcMask m.code = w := by
    rw [withField_inside (crcMode_code_inside m), configReads_outside_crc hv]
  rw [hw] at hdone
  exact hdone

end

/-- Settles O44: the first micro-step changes the shadow value and returns. -/
theorem shadowSetters : Obligations.ShadowSetters := by
  intro s mask b hr
  exact ⟨issue_finishHere hr (fun h => { h with networkMask := some mask }) rfl,
    issue_finishHere hr (fun h => { h with settings := { h.settings with ackEnabled := b } }) rfl⟩

/-- Settles O45: each writes its register whole, with an argument in range. -/
theorem setChannelAndRetries : Obligations.SetChannelAndRetries := by
  intro s ch delay count hr hc
  constructor
  · split
    · next hch =>
      rw [← writeReg_channel hch s.params.variant]
      exact writeFrom_completes hr hc (by decide) rfl (decide_eq_true hch) ch
        (fun g => { g with channel := ch.setWidth 7 }) rfl
    · next hch => exact issue_out_of_range hr (decide_eq_false hch)
  · split
    · next hargs =>
      obtain ⟨hdelay, hcount⟩ := hargs
      rw [← retryByte_narrowed hdelay hcount]
      exact writeFrom_completes (a := .setupRetr) hr hc (by decide) rfl
        (decide_eq_true ⟨hdelay, hcount⟩) (retryByte (delay.setWidth 4) (count.setWidth 4))
        (fun g => { g with retryDelay := delay.setWidth 4, retryCount := count.setWidth 4 }) rfl
    · next hargs => exact issue_out_of_range hr (decide_eq_false hargs)

/-- Settles O46, by the rate or the level that the argument names, if it names one. -/
theorem rfSetupSetters : Obligations.RfSetupSetters := by
  intro s dr pa hr hc m done rate level
  have hrate : ∀ r, DataRate.ofByte s.params.variant dr = some r → rate r r.code :=
    fun _ h => setDataRate_completes hr hc h
  have hlevel : ∀ l, PaLevel.ofByte pa = some l → level l l.code :=
    fun _ h => setPALevel_completes hr hc h
  have edr := dataRate_ofByte_eq s.params.variant dr
  have epa := paLevel_ofByte_eq pa
  constructor
  · split_ifs at edr ⊢
    · exact hrate .mbps1 edr
    · exact hrate .mbps2 edr
    · exact hrate .kbps250 edr
    · exact issue_out_of_range hr (by rw [edr]; rfl)
  · split_ifs at epa ⊢
    · exact hlevel .m18 epa
    · exact hlevel .m12 epa
    · exact hlevel .m6 epa
    · exact hlevel .p0 epa
    · exact issue_out_of_range hr (by rw [epa]; rfl)

/-- Settles O47, by the mode that the argument names, if it names one. -/
theorem setCRC : Obligations.SetCRC := by
  intro s mode hr hc done
  have hdone : ∀ m, CrcMode.ofByte mode = some m → done m m.code :=
    fun _ h => setCRC_completes hr hc h
  have emode := crcMode_ofByte_eq mode
  split_ifs at emode ⊢
  · exact hdone .off emode
  · exact hdone .crc8 emode
  · exact hdone .crc16 emode
  · exact issue_out_of_range hr (by rw [emode]; rfl)

end Sys2Proof.Machine
end
